-- ==== Sys2Proof/Word.lean ====
section
/-! DEFINITION. The words of the F7: bytes, 32-bit and 64-bit words, rows of 128 bytes (R2, R17). -/

namespace Sys2Proof

/-- A byte of memory. -/
abbrev Byte := BitVec 8
/-- A 32-bit word: an instruction word, a vector lane, an accumulator word. -/
abbrev W32 := BitVec 32
/-- A 64-bit scalar (R4, family g). -/
abbrev W64 := BitVec 64
/-- A row of 128 bytes (R2); byte j is bits [8j + 7 : 8j] (R17). -/
abbrev Row := BitVec 1024
/-- An accumulator row of 128 words (R226); word n is bits [32n + 31 : 32n]. -/
abbrev AccRow := BitVec 4096
/-- The token bits of a word: WP [3], WN [2], SP [1], SN [0] (R43). -/
abbrev Tok := BitVec 4

end Sys2Proof
end

