-- ==== Sys2Proof/Machine/Num.lean ====
section
/-! DEFINITION. Exact numbers and roundings (R6, R19 to R23, R29, R36 to R38, R217, R268): dyadic
numbers, extended reals, the float formats, rounding to a format and to an integer. -/

namespace Sys2Proof.Machine

/-- The dyadic number m × 2^e. Every finite operand of the F7 is one, so sums and products are exact. -/
structure Dy where
  m : Int
  e : Int
  deriving DecidableEq, Repr

/-- An extended real (R251): NaN, an infinity, or a finite exact value. -/
inductive Ext where
  | nan
  | inf (neg : Bool)
  | fin (d : Dy)
  deriving DecidableEq, Repr

/-- Rounding modes of VRM (R22). -/
inductive Rm where
  | rne | rtz | rdn | rup
  deriving DecidableEq, Repr

def Rm.ofBits (b : BitVec 2) : Rm :=
  match b.toNat with
  | 0 => .rne | 1 => .rtz | 2 => .rdn | _ => .rup

namespace Dy

def zero : Dy := ⟨0, 0⟩
def one : Dy := ⟨1, 0⟩
def ofInt (i : Int) : Dy := ⟨i, 0⟩
def isZero (a : Dy) : Bool := a.m == 0
def isNeg (a : Dy) : Bool := decide (a.m < 0)
def neg (a : Dy) : Dy := ⟨-a.m, a.e⟩
def abs (a : Dy) : Dy := ⟨Int.ofNat a.m.natAbs, a.e⟩
/-- The integer m × 2^(e − k), for k ≤ e. -/
def mant (a : Dy) (k : Int) : Int := a.m * (2 : Int) ^ (a.e - k).toNat
def add (a b : Dy) : Dy := ⟨a.mant (min a.e b.e) + b.mant (min a.e b.e), min a.e b.e⟩
def sub (a b : Dy) : Dy := a.add b.neg
def mul (a b : Dy) : Dy := ⟨a.m * b.m, a.e + b.e⟩
/-- Exact comparison a < b. -/
def lt (a b : Dy) : Bool := decide (a.mant (min a.e b.e) < b.mant (min a.e b.e))
def eq (a b : Dy) : Bool := decide (a.mant (min a.e b.e) = b.mant (min a.e b.e))
/-- a × 2^k. -/
def scale (a : Dy) (k : Int) : Dy := ⟨a.m, a.e + k⟩
/-- The least integer not below a / b, for b > 0. -/
def ceilDiv (a b : Dy) : Int :=
  let k := min a.e b.e;
  -((-(a.mant k)) / (b.mant k))

end Dy

namespace Ext

def zero : Ext := .fin Dy.zero
def one : Ext := .fin Dy.one
def isNan : Ext → Bool | .nan => true | _ => false
def isInf : Ext → Bool | .inf _ => true | _ => false
def isFinite : Ext → Bool | .fin _ => true | _ => false
def isZero : Ext → Bool | .fin d => d.isZero | _ => false
/-- Sign of a nonzero value. -/
def isNeg : Ext → Bool | .inf n => n | .fin d => d.isNeg | .nan => false
def neg : Ext → Ext | .nan => .nan | .inf n => .inf (!n) | .fin d => .fin d.neg
def abs : Ext → Ext | .nan => .nan | .inf _ => .inf false | .fin d => .fin d.abs
/-- Exact sum; ∞ − ∞ is NaN (R23). -/
def add : Ext → Ext → Ext
  | .nan, _ => .nan
  | _, .nan => .nan
  | .inf a, .inf b => if a == b then .inf a else .nan
  | .inf a, .fin _ => .inf a
  | .fin _, .inf b => .inf b
  | .fin a, .fin b => .fin (a.add b)
/-- Exact product; 0 × ∞ is NaN (R23). -/
def mul : Ext → Ext → Ext
  | .nan, _ => .nan
  | _, .nan => .nan
  | .inf a, .inf b => .inf (a != b)
  | .inf a, .fin d => if d.isZero then .nan else .inf (a != d.isNeg)
  | .fin d, .inf b => if d.isZero then .nan else .inf (d.isNeg != b)
  | .fin a, .fin b => .fin (a.mul b)
/-- Exact a < b; false when either is NaN. -/
def lt : Ext → Ext → Bool
  | .nan, _ => false
  | _, .nan => false
  | .inf a, .inf b => a && !b
  | .inf a, .fin _ => a
  | .fin _, .inf b => !b
  | .fin a, .fin b => a.lt b
/-- Exact a = b; false when either is NaN, and +0 equals −0. -/
def eq : Ext → Ext → Bool
  | .inf a, .inf b => a == b
  | .fin a, .fin b => a.eq b
  | _, _ => false

end Ext

/-- A binary float format: exponent bits, fraction bits, bias. -/
structure Fmt where
  eb : Nat
  mb : Nat
  bias : Nat
  deriving DecidableEq, Repr

namespace Fmt

def f32 : Fmt := ⟨8, 23, 127⟩
def bf16 : Fmt := ⟨8, 7, 127⟩
def f16 : Fmt := ⟨5, 10, 15⟩
def e5m2 : Fmt := ⟨5, 2, 15⟩
def e4m3 : Fmt := ⟨4, 3, 7⟩
/-- The bits of +∞. -/
def infBits (f : Fmt) : Nat := (2 ^ f.eb - 1) * 2 ^ f.mb
def signBit (f : Fmt) : Nat := 2 ^ (f.eb + f.mb)
/-- The value of a pattern of an IEEE-like format (R19). -/
def decode (f : Fmt) (b : Nat) : Ext :=
  let s := (b / f.signBit) % 2 == 1
  let e := (b / 2 ^ f.mb) % 2 ^ f.eb
  let t := b % 2 ^ f.mb
  if e == 2 ^ f.eb - 1 then (if t == 0 then .inf s else .nan)
  else
    let m : Nat := if e == 0 then t else t + 2 ^ f.mb
    let x : Int := (if e == 0 then 1 else (e : Int)) - (f.bias : Int) - (f.mb : Int)
    .fin ⟨if s then -(m : Int) else (m : Int), x⟩

end Fmt

/-- A magnitude n / 2^k rounded to an integer in a mode, for a value of the given sign. -/
def roundShift (mode : Rm) (neg : Bool) (n k : Nat) : Nat × Bool :=
  let q := n / 2 ^ k
  let r := n % 2 ^ k
  let up := match mode with
    | .rne => decide (2 * r > 2 ^ k) || (decide (2 * r = 2 ^ k) && q % 2 == 1)
    | .rtz => false
    | .rdn => neg
    | .rup => !neg
  (if r != 0 && up then q + 1 else q, r != 0)

/-- What rounding to a format gives: the magnitude bits before overflow is judged, and whether the
rounding changed the value. -/
def roundMag (f : Fmt) (mode : Rm) (neg : Bool) (m : Nat) (e : Int) : Nat × Bool :=
  let top : Int := (Nat.log2 m : Int) + e          -- 2^top ≤ value < 2^(top+1)
  let emin : Int := 1 - (f.bias : Int)
  let ex := max top emin
  let q : Int := ex - (f.mb : Int)                 -- the exponent of the last place
  let (n, inexact) := if q ≤ e then (m * 2 ^ (e - q).toNat, false) else roundShift mode neg m (q - e).toNat
  ((ex - emin).toNat * 2 ^ f.mb + n, inexact)

/-- A rounded value: its bits, and the conditions of R24 (overflow from a finite value; nonzero,
rounded to a subnormal or zero, and changed). -/
structure Rounded where
  bits : Nat
  ofl : Bool
  ufl : Bool
  deriving DecidableEq, Repr

/-- R23: an exact finite value rounded to a format; `zneg` is the sign of an exact zero. -/
def roundDy (f : Fmt) (mode : Rm) (zneg : Bool) (d : Dy) : Rounded :=
  if d.isZero then ⟨if zneg then f.signBit else 0, false, false⟩
  else
    let neg := d.isNeg
    let (b, inexact) := roundMag f mode neg d.m.natAbs d.e
    let s := if neg then f.signBit else 0
    if f.infBits ≤ b then
      let toInf := match mode with
        | .rne => true
        | .rtz => false
        | .rdn => neg
        | .rup => !neg
      ⟨s + (if toInf then f.infBits else f.infBits - 1), toInf, false⟩
    else ⟨s + b, false, inexact && decide (b < 2 ^ f.mb)⟩

/-- The canonical NaN of a format (R21). -/
def Fmt.nan (f : Fmt) : Nat := f.infBits + 2 ^ (f.mb - 1)

/-- An extended real rounded to a format. -/
def roundExt (f : Fmt) (mode : Rm) (zneg : Bool) : Ext → Rounded
  | .nan => ⟨f.nan, false, false⟩
  | .inf n => ⟨(if n then f.signBit else 0) + f.infBits, false, false⟩
  | .fin d => roundDy f mode zneg d

/-- The canonical f32 NaN (R6). -/
def nan32 : W32 := 0x7FC00000#32

def f32 (b : W32) : Ext := Fmt.f32.decode b.toNat
def bf16 (b : BitVec 16) : Ext := Fmt.bf16.decode b.toNat
def f32Neg (b : W32) : Bool := b.getLsbD 31
def isNan32 (b : W32) : Bool := (f32 b).isNan
/-- Widening a bf16 (R20), NaNs canonical (R28). -/
def widen (b : BitVec 16) : W32 := if (bf16 b).isNan then nan32 else b ++ (0#16)
/-- RNE_f32 (R6) with its conditions. -/
def rneF32 (x : Ext) : Rounded := roundExt .f32 .rne false x
def rneF32Bits (x : Ext) : W32 := BitVec.ofNat 32 (rneF32 x).bits

/-- An exact value rounded to an integer in a mode (R217). -/
def roundInt (mode : Rm) (d : Dy) : Int :=
  if 0 ≤ d.e then d.m * 2 ^ d.e.toNat
  else
    let (n, _) := roundShift mode d.isNeg d.m.natAbs (-d.e).toNat
    if d.isNeg then -(n : Int) else (n : Int)

/-- A value clamped between two bounds. -/
def clampInt (lo hi x : Int) : Int := if x < lo then lo else if hi < x then hi else x

/-- SAT_i32 (R6): the clamped value and whether clamping occurred. -/
def satI32 (x : Int) : W32 × Bool :=
  (BitVec.ofInt 32 (clampInt (-2147483648) 2147483647 x), decide (x < -2147483648) || decide (2147483647 < x))

/-- An S20 scale (R29): zero, invalid, or a value. -/
inductive Scale where
  | zero
  | bad
  | val (d : Dy)
  deriving DecidableEq, Repr

def s20 (b : BitVec 20) : Scale :=
  let e := (b.extractLsb' 11 8).toNat
  let t := (b.extractLsb' 0 11).toNat
  if e == 0 then .zero
  else if e == 255 then .bad
  else .val ⟨if b.getLsbD 19 then -((2048 + t : Nat) : Int) else ((2048 + t : Nat) : Int), (e : Int) - 127 - 11⟩

/-- The S20 of value 1.0. -/
def s20One : BitVec 20 := 0x3F800#20

/-- A positive f32 value as an S20, its significand rounded to 12 bits, nearest even; a value below
2^−126 gives zero (R263). -/
def s20OfF32 (b : W32) : BitVec 20 :=
  match f32 b with
  | .fin d =>
    if d.isZero || d.isNeg then 0#20
    else
      let n := d.m.natAbs
      let top : Int := (Nat.log2 n : Int) + d.e
      if top < -126 then 0#20
      else
        let (q, _) := if top - 11 ≤ d.e then (n * 2 ^ (d.e - (top - 11)).toNat, false)
          else roundShift .rne false n ((top - 11) - d.e).toNat
        let (q, top) := if q == 4096 then (2048, top + 1) else (q, top)
        BitVec.ofNat 20 ((top + 127).toNat * 2048 + (q - 2048))
  | _ => 0#20

end Sys2Proof.Machine
end

