-- ==== Sys2Proof/Config.lean ====
section
/-! DEFINITION. What one F7 fixes (figures, depths, reset figures) and the values the manual leaves
free. A free value is an opaque constant: nothing in Lean can evaluate it. -/

namespace Sys2Proof.Config

/-- Depths of the V, M, K, C and Q queues (R46), and of the S pipeline slot (one word in issue). -/
def queueDepth : Nat → Nat
  | 1 => 64 | 2 => 32 | 3 => 32 | 4 => 32 | 5 => 16 | _ => 1

/-- Depths of q0 to q6 (R52). -/
def scalarQueueDepth : Nat → Nat
  | 0 => 16 | 1 => 32 | 2 => 32 | 3 => 64 | 4 => 32 | 5 => 16 | _ => 8

/-- Entries of a landing buffer (R125). -/
def landingEntries : Nat := 16
/-- Entries of a vector operand queue (R211). -/
def vqDepth : Nat := 8
/-- CAPS (R148): RM [23], DIES [19:16] = 4, SPANS [15:8] = 32, RECK [7:4] = 4, ARCH [3:0] = 7. -/
def caps : BitVec 64 := 0x842047#64
/-- CAPW (R193): BAND 96, SPAD 200, TILE 40, REG 12. -/
def capw : BitVec 64 := 0x006000C80028000C#64
/-- Wake of a vector bank, a tile or accumulator bank, a scratchpad bank, an array band (R193). -/
def wakeReg : Nat := 12
def wakeTile : Nat := 40
def wakeSpad : Nat := 200
def wakeBand : Nat := 96
/-- Clocks from the issue of an S word to that of one that reads its result (R123): MUL, MULH and AGEN; DIV and
REM; LDS. -/
def mulLatency : Nat := 3
def divLatency : Nat := 24
def ldsLatency : Nat := 8
/-- Copy engines and entropy encoders of a deck die (R152, R180). -/
def copyEngines : Nat := 8
def encoders : Nat := 2
/-- Flits that a link sender has under way at most: half of the 12-bit numbers, so that a receiver can tell those
accepted from those to come (R380, log 11). -/
def replayFlits : Nat := 2048
/-- The hold limit of a lease, in clocks (R237). -/
def holdLimit : Nat := 16384
/-- Scoreboard entries (R328). -/
def scoreboard : Nat := 4096
/-- Translation cache entries of a Span (R115). -/
def tlbEntries : Nat := 512
/-- Outstanding translations of a die (R116). -/
def dieWalks : Nat := 4096
/-- Intervals of 10 us in 4 ms, the ageing step of a pending node (R330). -/
def ageIntervals : Nat := 400
/-- Intervals of 10 us in 100 us, the idle window of an ageing reading (R365). -/
def idleWindow : Nat := 10

/-- FREE VALUE (log 7): the word `n` of an accumulator row that a command is writing while an
unordered reader takes it (R203, R240). It depends on the rows of that accumulator tile only, and
on a fresh counter. -/
opaque racyWord : List (Nat × AccRow) → Nat → Nat → BitVec 32
/-- FREE VALUE (log 9): an ML-DSA-44 signature of the root-of-trust core over a message (R373, R376). -/
opaque sign : List Byte → List Byte
/-- FREE VALUE (log 9): whether a maker signature over a message is good (R375). -/
opaque makerSigOk : List Byte → List Byte → Bool
/-- FREE VALUE (log 9): the SHA3-256 digest (R373, R375, R376). -/
opaque sha3 : List Byte → BitVec 256
/-- FREE VALUE (log 9): the SHA3-256 digest of the device identity (R375). -/
opaque deviceIdentity : BitVec 256
/-- FREE VALUE (log 9): the nonce that the root-of-trust core issues after `n` earlier ones (R375). -/
opaque nonce : Nat → BitVec 256
/-- FREE VALUE (log 9): the certificate chain of the device (R373). -/
opaque certificate : List Byte
/-- FREE VALUE (log 9): whether the root of trust verifies its firmware and the boot images at a reset (R16 step
1, R376). -/
opaque bootOk : Nat → Bool
/-- FREE VALUE (log 9): the boot images that it verifies at a reset, in their order up to the first that fails
(R376). -/
opaque bootImages : Nat → List (List Byte)
/-- FREE VALUE (log 9): a measurement register extended by a digest (R376). -/
opaque extend : BitVec 256 → BitVec 256 → BitVec 256
/-- FREE VALUE (log 34): how many steps the controller may raise the nominal voltage of a Span (R365). -/
opaque voltMax : Nat
/-- FREE VALUE (log 9): whether a node record names a requester's certificate digest (R373); R326 gives no field
for it. -/
opaque recordNames : List (BitVec 64) → BitVec 256 → Bool
/-- FREE VALUE (log 10): section 1, 3 or 7 of a save image, whose layout the manual does not give
(R357): the number of the Span, the section and a fresh counter give its bytes. -/
opaque saveSection : Nat → Nat → Nat → List Byte
/-- DESIGN CHOICE (log 10): such a section is cut at 16 MiB, more than all that it records can take. -/
def sectionLimit : Nat := 0x1000000

/-- FREE VALUE (log 16): the STREAM and SEQ of the record of a fetch trap, whose unit's final word is not
known (R112, R344); bits [2:0] STREAM, [34:3] SEQ. -/
opaque fetchTrapId : Nat → BitVec 35
/-- FREE VALUE (log 17): what a CSRR of a Reckoner's CSR reads at the tender core, for a CSR that the
manual gives the tender no value of (R348, R349); the CSR number and a fresh counter. -/
opaque tenderCsr : Nat → Nat → BitVec 64

/-- FREE VALUE (log 14): how many clocks, since its last count, one of the 192 profiling counters of a Span has waited
for its bank group (R372): a fresh counter and the counter's number. -/
opaque conflictClocks : Nat → Nat → Nat

/-- FREE VALUE (log 20): the S20 scale of a dynamic KOUT whose latched M is infinite, or rounds past the
largest S20, which the manual does not state (R252, R263). -/
opaque histScale : W32 → BitVec 20

end Sys2Proof.Config
end

