-- ==== Sys2Proof/Syntax.lean ====
section
/-! DEFINITION. The syntax: one constructor of Instr per row of spec/opcode_table.json. A word row's
fields carry the table's letters and widths; a step row's operands name what the step acts on. -/

namespace Sys2Proof

/-- The six streams, in the order of the engine codes of R43. -/
inductive Stream where
  | S | V | M | K | C | Q
  deriving DecidableEq, Repr, Inhabited

/-- The name of a supply bank of a Span (R184): vector bank `i` of Reckoner `r`, a tile, an
accumulator tile of an array, a scratchpad bank. -/
inductive BankName where
  | vbank (r : BitVec 2) (i : BitVec 2)
  | tile (i : BitVec 4)
  | acc (arr : BitVec 1) (i : BitVec 3)
  | spad (i : BitVec 7)
  deriving DecidableEq, Repr

/-- An SPDM request as it reaches the root-of-trust core (R373, R374): the port its packet arrived
on, the operands of the request, the session and the node tag it names, and the algorithms it offers. -/
structure SpdmRequest where
  port : BitVec 3
  endpoint : BitVec 8
  session : Option Nat
  tag : BitVec 16
  digest : BitVec 256
  mldsa44 : Bool
  sha3 : Bool
  payload : List Byte
  deriving DecidableEq, Repr

/-- What a session asks of a Reckoner of its grant (R369, R371, R372): to write DSTOP, to read it, the dump of a
stopped thread, the last profiling snapshot of the Span. -/
inductive DebugAccess where
  | writeDstop (v : W64)
  | readDstop
  | dump
  | profile
  deriving DecidableEq, Repr

/-- What a flit carries (R380, R381): in the ordered class a store, a load or an atomic of a row, or the response to
one (a row, the old value of a unit, that a store has been performed, or the cause that its home met); a window update;
a control message (the arrival of a device at a fabric group's barrier), the receiver's acknowledgement of every flit up
to a number, its request for a replay from a number, or a payload of another kind. -/
inductive FlitBody where
  | store (a : BitVec 43) (mask : BitVec 128) (d : Row)
  | load (a : BitVec 43)
  | atomic (a : BitVec 43) (op : BitVec 7) (x e : W64)
  | data (a : BitVec 43) (d : Row)
  | old (a : BitVec 43) (v : W64)
  | stored (a : BitVec 43)
  | failed (a : BitVec 43) (cause : BitVec 8)
  | window (a : BitVec 43) (op : BitVec 7) (x : W64)
  | arrival (g : BitVec 8)
  | ack (n : BitVec 12)
  | replay (n : BitVec 12)
  | other
  deriving DecidableEq, Repr

/-- A flit (R380): source and destination devices, the 12-bit link sequence number, its body, and
whether its check is good at the receiver. -/
structure Flit where
  src : BitVec 8
  dst : BitVec 8
  seq : BitVec 12
  good : Bool
  body : FlitBody
  deriving DecidableEq, Repr

/-- The instructions and steps of the F7. -/
inductive Instr where
  /-- R100: S-engine word that acts only through its token bits. -/
  | nop (w : BitVec 4)
  /-- R131: Writes g[a] + g[b] modulo 2^64 to d. -/
  | add (w : BitVec 4) (d : BitVec 5) (a : BitVec 5) (b : BitVec 5)
  /-- R131: Writes g[a] - g[b] modulo 2^64 to d. -/
  | sub (w : BitVec 4) (d : BitVec 5) (a : BitVec 5) (b : BitVec 5)
  /-- R131: Writes the bitwise AND of two scalar registers to d. -/
  | and (w : BitVec 4) (d : BitVec 5) (a : BitVec 5) (b : BitVec 5)
  /-- R131: Writes the bitwise OR of two scalar registers to d; with g0 it serves as MOV. -/
  | or (w : BitVec 4) (d : BitVec 5) (a : BitVec 5) (b : BitVec 5)
  /-- R131: Writes the bitwise XOR of two scalar registers to d. -/
  | xor (w : BitVec 4) (d : BitVec 5) (a : BitVec 5) (b : BitVec 5)
  /-- R131: Shifts g[a] left by g[b][5:0] bits. -/
  | sll (w : BitVec 4) (d : BitVec 5) (a : BitVec 5) (b : BitVec 5)
  /-- R131: Shifts g[a] right logically by g[b][5:0] bits. -/
  | srl (w : BitVec 4) (d : BitVec 5) (a : BitVec 5) (b : BitVec 5)
  /-- R131: Shifts g[a] right arithmetically by g[b][5:0] bits. -/
  | sra (w : BitVec 4) (d : BitVec 5) (a : BitVec 5) (b : BitVec 5)
  /-- R131: Writes the low 64 bits of the product to d. -/
  | mul (w : BitVec 4) (d : BitVec 5) (a : BitVec 5) (b : BitVec 5)
  /-- R131: Writes the high 64 bits of the 128-bit product, with signedness chosen by f3. -/
  | mulh (w : BitVec 4) (d : BitVec 5) (a : BitVec 5) (b : BitVec 5) (f : BitVec 3)
  /-- R131: Writes the signed quotient truncated toward zero; it never traps. -/
  | div (w : BitVec 4) (d : BitVec 5) (a : BitVec 5) (b : BitVec 5)
  /-- R131: Writes the signed remainder, which takes the sign of the dividend. -/
  | rem (w : BitVec 4) (d : BitVec 5) (a : BitVec 5) (b : BitVec 5)
  /-- R131: Writes the signed minimum of two scalar registers. -/
  | min (w : BitVec 4) (d : BitVec 5) (a : BitVec 5) (b : BitVec 5)
  /-- R131: Writes the signed maximum of two scalar registers. -/
  | max (w : BitVec 4) (d : BitVec 5) (a : BitVec 5) (b : BitVec 5)
  /-- R131: Writes 1 or 0 according to the comparison that f3 selects. -/
  | slt (w : BitVec 4) (d : BitVec 5) (a : BitVec 5) (b : BitVec 5) (f : BitVec 3)
  /-- R131: Writes g[a] if the old g[d] is nonzero, else g[b]. -/
  | sel (w : BitVec 4) (d : BitVec 5) (a : BitVec 5) (b : BitVec 5)
  /-- R131: Writes g[a] + (g[b] << n), with n taken from f3. -/
  | addsh (w : BitVec 4) (d : BitVec 5) (a : BitVec 5) (b : BitVec 5) (n : BitVec 3)
  /-- R131: Writes the number of leading zero bits of g[a]. -/
  | clz (w : BitVec 4) (d : BitVec 5) (a : BitVec 5)
  /-- R131: Writes the number of set bits of g[a]. -/
  | popc (w : BitVec 4) (d : BitVec 5) (a : BitVec 5)
  /-- R132: Extracts a bit field of g[a] described by g[b], optionally sign-extended. -/
  | bfx (w : BitVec 4) (d : BitVec 5) (a : BitVec 5) (b : BitVec 5)
  /-- R132: Inserts low bits of g[a] into the old g[d] at the field described by g[b]. -/
  | bfi (w : BitVec 4) (d : BitVec 5) (a : BitVec 5) (b : BitVec 5)
  /-- R133: Adds a sign-extended or PIMM-widened immediate to g[a]. -/
  | addi (w : BitVec 4) (d : BitVec 5) (a : BitVec 5) (i : BitVec 8)
  /-- R133: ANDs an immediate into g[a]. -/
  | andi (w : BitVec 4) (d : BitVec 5) (a : BitVec 5) (i : BitVec 8)
  /-- R133: ORs an immediate into g[a]. -/
  | ori (w : BitVec 4) (d : BitVec 5) (a : BitVec 5) (i : BitVec 8)
  /-- R133: XORs an immediate into g[a]. -/
  | xori (w : BitVec 4) (d : BitVec 5) (a : BitVec 5) (i : BitVec 8)
  /-- R133: Shifts g[a] left by an immediate count of 0 to 63. -/
  | slli (w : BitVec 4) (d : BitVec 5) (a : BitVec 5) (n : BitVec 6)
  /-- R133: Shifts g[a] right logically by an immediate count. -/
  | srli (w : BitVec 4) (d : BitVec 5) (a : BitVec 5) (n : BitVec 6)
  /-- R133: Shifts g[a] right arithmetically by an immediate count. -/
  | srai (w : BitVec 4) (d : BitVec 5) (a : BitVec 5) (n : BitVec 6)
  /-- R133: Writes 1 if g[a] is less than the immediate as a signed value, else 0. -/
  | slti (w : BitVec 4) (d : BitVec 5) (a : BitVec 5) (i : BitVec 8)
  /-- R134: Loads a sign-extended or PIMM-widened immediate into d. -/
  | li (w : BitVec 4) (d : BitVec 5) (i : BitVec 13)
  /-- R134: Shifts g[d] left by 13 bits and ORs in an unsigned 13-bit immediate. -/
  | lsh (w : BitVec 4) (d : BitVec 5) (i : BitVec 13)
  /-- R136: Computes an arena address from generator agN, a slot and a position, without making an access. -/
  | agen (w : BitVec 4) (d : BitVec 5) (a : BitVec 5) (b : BitVec 5) (g : BitVec 3)
  /-- R137: Loads 8 bytes from the issuing Span's scratchpad. -/
  | lds (w : BitVec 4) (d : BitVec 5) (a : BitVec 5) (i : BitVec 8)
  /-- R137: Stores 8 bytes to the issuing Span's scratchpad as a masked row write. -/
  | sts (w : BitVec 4) (d : BitVec 5) (a : BitVec 5) (i : BitVec 8)
  /-- R129: Issues a timed 8-byte load from a virtual address that lands at a named schedule cycle. -/
  | ldt (w : BitVec 4) (d : BitVec 5) (a : BitVec 5) (s : BitVec 8)
  /-- R138: Checks and then posts an 8-byte store to a device virtual address. -/
  | stx (w : BitVec 4) (a : BitVec 5) (b : BitVec 5)
  /-- R310: Atomically adds to an 8-byte unit at its home and returns the old value. -/
  | aadd (w : BitVec 4) (d : BitVec 5) (a : BitVec 5) (b : BitVec 5)
  /-- R310: Atomically ANDs into an 8-byte unit. -/
  | aand (w : BitVec 4) (d : BitVec 5) (a : BitVec 5) (b : BitVec 5)
  /-- R310: Atomically ORs into an 8-byte unit. -/
  | aor (w : BitVec 4) (d : BitVec 5) (a : BitVec 5) (b : BitVec 5)
  /-- R310: Atomically XORs into an 8-byte unit. -/
  | axor (w : BitVec 4) (d : BitVec 5) (a : BitVec 5) (b : BitVec 5)
  /-- R310: Atomically stores the signed minimum of the unit and the operand. -/
  | amin (w : BitVec 4) (d : BitVec 5) (a : BitVec 5) (b : BitVec 5)
  /-- R310: Atomically stores the signed maximum of the unit and the operand. -/
  | amax (w : BitVec 4) (d : BitVec 5) (a : BitVec 5) (b : BitVec 5)
  /-- R310: Atomically swaps the operand into the unit. -/
  | aswp (w : BitVec 4) (d : BitVec 5) (a : BitVec 5) (b : BitVec 5)
  /-- R310: Atomically compares the unit with g[d] and stores the operand on a match. -/
  | acas (w : BitVec 4) (d : BitVec 5) (a : BitVec 5) (b : BitVec 5)
  /-- R310: Atomically increments a ring index, wrapping to 0 at the bound. -/
  | aincw (w : BitVec 4) (d : BitVec 5) (a : BitVec 5) (b : BitVec 5)
  /-- R311: Performs a bounded 32-bit atomic add that writes nothing when the bound would be exceeded. -/
  | aaddb (w : BitVec 4) (d : BitVec 5) (a : BitVec 5) (b : BitVec 5)
  /-- R312: Atomically compares and swaps two 8-byte units as one access. -/
  | dcas (w : BitVec 4) (d : BitVec 5) (a : BitVec 5) (b : BitVec 5)
  /-- R312: Atomically writes two 8-byte units and returns their old values. -/
  | amov2 (w : BitVec 4) (d : BitVec 5) (a : BitVec 5) (b : BitVec 5)
  /-- R301: Orders the S stream's accesses at the scope and order taken from PMEM or MDEF. -/
  | fence (w : BitVec 4)
  /-- R321: Drains the thread's outstanding work, arrives at the domain barrier and waits for it to complete. -/
  | sync (w : BitVec 4)
  /-- R139: Holds S until a completion row's COUNT reaches a target, then acquires. -/
  | cwait (w : BitVec 4) (a : BitVec 5) (n : BitVec 8)
  /-- R140: Branches when two registers are equal. -/
  | beq (w : BitVec 4) (a : BitVec 5) (b : BitVec 5) (o : BitVec 8)
  /-- R140: Branches when two registers differ. -/
  | bne (w : BitVec 4) (a : BitVec 5) (b : BitVec 5) (o : BitVec 8)
  /-- R140: Branches on a signed less-than. -/
  | blt (w : BitVec 4) (a : BitVec 5) (b : BitVec 5) (o : BitVec 8)
  /-- R140: Branches on a signed greater-or-equal. -/
  | bge (w : BitVec 4) (a : BitVec 5) (b : BitVec 5) (o : BitVec 8)
  /-- R140: Branches on an unsigned less-than. -/
  | bltn (w : BitVec 4) (a : BitVec 5) (b : BitVec 5) (o : BitVec 8)
  /-- R140: Branches on an unsigned greater-or-equal. -/
  | bgen (w : BitVec 4) (a : BitVec 5) (b : BitVec 5) (o : BitVec 8)
  /-- R141: Jumps unconditionally to a word offset. -/
  | j (w : BitVec 4) (o : BitVec 18)
  /-- R141: Jumps to a word offset and writes the return address to g23. -/
  | jal (w : BitVec 4) (o : BitVec 18)
  /-- R141: Jumps to the address held in a register. -/
  | jr (w : BitVec 4) (a : BitVec 5)
  /-- R143: Waits for a wide-flag record, consumes it and branches on the condition. -/
  | bw (w : BitVec 4) (n : BitVec 5) (c : BitVec 5) (o : BitVec 8)
  /-- R143: Waits for a wide-flag record, consumes it and writes the selected part to d. -/
  | rdw (w : BitVec 4) (d : BitVec 5) (n : BitVec 5) (s : BitVec 3)
  /-- R146: Sets LC from a register and skips the loop body when the count is zero. -/
  | loop (w : BitVec 4) (a : BitVec 5) (o : BitVec 8)
  /-- R146: Rotates the register base and branches back while LC exceeds 1; on falling through it snapshots the profiling account. -/
  | lbr (w : BitVec 4) (o : BitVec 18)
  /-- R353: Sets a restart point and, in restart mode, drains and saves the token counters, RRB and LC. -/
  | region (w : BitVec 4)
  /-- R147: Reads a Reckoner CSR into d. -/
  | csrr (w : BitVec 4) (d : BitVec 5) (c : BitVec 12)
  /-- R147: Writes a register to a Reckoner CSR, with the checks and effect points of R149. -/
  | csrw (w : BitVec 4) (a : BitVec 5) (c : BitVec 12)
  /-- R350: Raises SWTRAP with its immediate to ask the tender for service. -/
  | trap (w : BitVec 4) (i : BitVec 13)
  /-- R150: Stops the thread's fetch so that it drains and then retires; at the tender it returns to idle. -/
  | exit (w : BitVec 4)
  /-- R335: Marks a graph-node boundary at which a pending pre-emption drains, saves and takes the thread. -/
  | node (w : BitVec 4)
  /-- R336: Submits a node record from a thread, forcing its context and limiting its priority. -/
  | launch (w : BitVec 4) (a : BitVec 5)
  /-- R350: Raises a breakpoint trap, or a debug stop when the Reckoner is claimed. -/
  | brk (w : BitVec 4) (i : BitVec 13)
  /-- R351: At the tender, resumes the selected frozen thread from its cut; in restart mode it restarts the thread. -/
  | eret (w : BitVec 4)
  /-- R197: Hints that a bank should go live, go to retain, or drop its items. -/
  | sphint (w : BitVec 4) (x : BitVec 2) (y : BitVec 3) (i : BitVec 8)
  /-- R100: V-engine word that acts only through its token bits. -/
  | vnop (w : BitVec 4)
  /-- R213: Adds i32 lanes, wrapping. -/
  | vadd (w : BitVec 4) (p : BitVec 3) (k : BitVec 1) (d : BitVec 5) (a : BitVec 5) (b : BitVec 5)
  /-- R213: Subtracts i32 lanes, wrapping. -/
  | vsub (w : BitVec 4) (p : BitVec 3) (k : BitVec 1) (d : BitVec 5) (a : BitVec 5) (b : BitVec 5)
  /-- R213: Writes the low 32 bits of the lane products. -/
  | vmul (w : BitVec 4) (p : BitVec 3) (k : BitVec 1) (d : BitVec 5) (a : BitVec 5) (b : BitVec 5)
  /-- R213: Writes the signed lane minimum. -/
  | vmin (w : BitVec 4) (p : BitVec 3) (k : BitVec 1) (d : BitVec 5) (a : BitVec 5) (b : BitVec 5)
  /-- R213: Writes the signed lane maximum. -/
  | vmax (w : BitVec 4) (p : BitVec 3) (k : BitVec 1) (d : BitVec 5) (a : BitVec 5) (b : BitVec 5)
  /-- R213: Writes the lane AND. -/
  | vand (w : BitVec 4) (p : BitVec 3) (k : BitVec 1) (d : BitVec 5) (a : BitVec 5) (b : BitVec 5)
  /-- R213: Writes the lane OR. -/
  | vor (w : BitVec 4) (p : BitVec 3) (k : BitVec 1) (d : BitVec 5) (a : BitVec 5) (b : BitVec 5)
  /-- R213: Writes the lane XOR. -/
  | vxor (w : BitVec 4) (p : BitVec 3) (k : BitVec 1) (d : BitVec 5) (a : BitVec 5) (b : BitVec 5)
  /-- R213: Shifts lanes left by per-lane counts. -/
  | vshl (w : BitVec 4) (p : BitVec 3) (k : BitVec 1) (d : BitVec 5) (a : BitVec 5) (b : BitVec 5)
  /-- R213: Shifts lanes right logically by per-lane counts. -/
  | vshr (w : BitVec 4) (p : BitVec 3) (k : BitVec 1) (d : BitVec 5) (a : BitVec 5) (b : BitVec 5)
  /-- R213: Shifts lanes right arithmetically by per-lane counts. -/
  | vsra (w : BitVec 4) (p : BitVec 3) (k : BitVec 1) (d : BitVec 5) (a : BitVec 5) (b : BitVec 5)
  /-- R215: Sets predicate bits where i32 lanes are equal. -/
  | vceq (w : BitVec 4) (p : BitVec 3) (k : BitVec 1) (q : BitVec 3) (a : BitVec 5) (b : BitVec 5)
  /-- R215: Sets predicate bits where lanes compare signed less-than. -/
  | vclt (w : BitVec 4) (p : BitVec 3) (k : BitVec 1) (q : BitVec 3) (a : BitVec 5) (b : BitVec 5)
  /-- R215: Sets predicate bits where lanes compare unsigned less-than. -/
  | vcltn (w : BitVec 4) (p : BitVec 3) (k : BitVec 1) (q : BitVec 3) (a : BitVec 5) (b : BitVec 5)
  /-- R214: Adds f32 lanes in the VRM rounding mode. -/
  | fadd (w : BitVec 4) (p : BitVec 3) (k : BitVec 1) (d : BitVec 5) (a : BitVec 5) (b : BitVec 5)
  /-- R214: Subtracts f32 lanes in the VRM rounding mode. -/
  | fsub (w : BitVec 4) (p : BitVec 3) (k : BitVec 1) (d : BitVec 5) (a : BitVec 5) (b : BitVec 5)
  /-- R214: Multiplies f32 lanes in the VRM rounding mode. -/
  | fmul (w : BitVec 4) (p : BitVec 3) (k : BitVec 1) (d : BitVec 5) (a : BitVec 5) (b : BitVec 5)
  /-- R214: Computes a fused multiply-add into vd with one rounding. -/
  | ffma (w : BitVec 4) (p : BitVec 3) (k : BitVec 1) (d : BitVec 5) (a : BitVec 5) (b : BitVec 5)
  /-- R214: Writes the exact f32 lane minimum, with the NaN and signed-zero rules. -/
  | fmin (w : BitVec 4) (p : BitVec 3) (k : BitVec 1) (d : BitVec 5) (a : BitVec 5) (b : BitVec 5)
  /-- R214: Writes the exact f32 lane maximum, with the NaN and signed-zero rules. -/
  | fmax (w : BitVec 4) (p : BitVec 3) (k : BitVec 1) (d : BitVec 5) (a : BitVec 5) (b : BitVec 5)
  /-- R215: Sets predicate bits where f32 lanes are equal. -/
  | fceq (w : BitVec 4) (p : BitVec 3) (k : BitVec 1) (q : BitVec 3) (a : BitVec 5) (b : BitVec 5)
  /-- R215: Sets predicate bits where f32 lanes compare less-than. -/
  | fclt (w : BitVec 4) (p : BitVec 3) (k : BitVec 1) (q : BitVec 3) (a : BitVec 5) (b : BitVec 5)
  /-- R215: Sets predicate bits where f32 lanes compare less-or-equal. -/
  | fcle (w : BitVec 4) (p : BitVec 3) (k : BitVec 1) (q : BitVec 3) (a : BitVec 5) (b : BitVec 5)
  /-- R217: Converts lanes between number formats by conversion code. -/
  | vcvt (w : BitVec 4) (p : BitVec 3) (k : BitVec 1) (d : BitVec 5) (a : BitVec 5) (c : BitVec 5)
  /-- R219: Chooses the code of each f32 lane under a scale and the VQCB codebook. -/
  | vqnt (w : BitVec 4) (p : BitVec 3) (k : BitVec 1) (d : BitVec 5) (a : BitVec 5) (b : BitVec 5)
  /-- R220: Reads each code lane through the VQCB codebook to an f32 value. -/
  | vlut (w : BitVec 4) (p : BitVec 3) (k : BitVec 1) (d : BitVec 5) (a : BitVec 5)
  /-- R216: Selects every lane from va or vb by the guard. -/
  | vsel (w : BitVec 4) (p : BitVec 3) (k : BitVec 1) (d : BitVec 5) (a : BitVec 5) (b : BitVec 5)
  /-- R221: Sums the active i32 lanes and optionally deposits a wide-flag record. -/
  | vreda (w : BitVec 4) (p : BitVec 3) (k : BitVec 1) (d : BitVec 5) (a : BitVec 5) (f : BitVec 1) (n : BitVec 3)
  /-- R222: Sums the active f32 lanes in a fixed five-level tree. -/
  | freda (w : BitVec 4) (p : BitVec 3) (k : BitVec 1) (d : BitVec 5) (a : BitVec 5) (f : BitVec 1) (n : BitVec 3)
  /-- R221: Takes the exact f32 maximum of the active lanes, with its lane in the record. -/
  | fredm (w : BitVec 4) (p : BitVec 3) (k : BitVec 1) (d : BitVec 5) (a : BitVec 5) (f : BitVec 1) (n : BitVec 3)
  /-- R221: Takes the signed i32 maximum of the active lanes. -/
  | vredm (w : BitVec 4) (p : BitVec 3) (k : BitVec 1) (d : BitVec 5) (a : BitVec 5) (f : BitVec 1) (n : BitVec 3)
  /-- R223: Writes inclusive or exclusive prefix sums of the active lanes. -/
  | vscan (w : BitVec 4) (p : BitVec 3) (k : BitVec 1) (d : BitVec 5) (a : BitVec 5) (e : BitVec 1) (f : BitVec 1)
  /-- R224: Selects lanes of va by the indices in vb. -/
  | vperm (w : BitVec 4) (p : BitVec 3) (k : BitVec 1) (d : BitVec 5) (a : BitVec 5) (b : BitVec 5)
  /-- R225: Deposits a wide-flag record summarising a predicate under the guard. -/
  | vflag (w : BitVec 4) (p : BitVec 3) (n : BitVec 3) (q : BitVec 3)
  /-- R204: ANDs two predicates bit by bit. -/
  | pand (w : BitVec 4) (p : BitVec 3) (d : BitVec 3) (a : BitVec 3) (b : BitVec 3)
  /-- R204: ORs two predicates bit by bit. -/
  | por (w : BitVec 4) (p : BitVec 3) (d : BitVec 3) (a : BitVec 3) (b : BitVec 3)
  /-- R204: XORs two predicates bit by bit. -/
  | pxor (w : BitVec 4) (p : BitVec 3) (d : BitVec 3) (a : BitVec 3) (b : BitVec 3)
  /-- R199: Copies a vector register under the guard. -/
  | vmov (w : BitVec 4) (p : BitVec 3) (k : BitVec 1) (d : BitVec 5) (a : BitVec 5)
  /-- R199: Broadcasts the low 32 bits popped from q0 into the guarded lanes. -/
  | vbcast (w : BitVec 4) (p : BitVec 3) (d : BitVec 5)
  /-- R201: Composes one row from two registers at the RMS byte shift. -/
  | vrmg (w : BitVec 4) (p : BitVec 3) (k : BitVec 1) (d : BitVec 5) (a : BitVec 5) (b : BitVec 5)
  /-- R200: Sets the rotate-merge slot from q0. -/
  | vrms (w : BitVec 4)
  /-- R202: Moves one 128-byte tile image row to or from a vector register, by a q0 descriptor. -/
  | vmovt (w : BitVec 4) (p : BitVec 3) (d : BitVec 5)
  /-- R203: Copies 32 accumulator words, named by a q0 descriptor, into a vector register. -/
  | vmova (w : BitVec 4) (p : BitVec 3) (d : BitVec 5)
  /-- R200: Sets an address register from q0. -/
  | vamov (w : BitVec 4) (n : BitVec 3)
  /-- R199: Pops the oldest entry of a vector operand queue into a register. -/
  | vpop (w : BitVec 4) (p : BitVec 3) (d : BitVec 5) (n : BitVec 2)
  /-- R206: Loads one scratchpad row into a vector register, with optional post-increment. -/
  | vld (w : BitVec 4) (p : BitVec 3) (i : BitVec 1) (d : BitVec 5) (x : BitVec 3) (o : BitVec 7)
  /-- R206: Stores a vector register to a scratchpad row as one masked row write. -/
  | vst (w : BitVec 4) (p : BitVec 3) (i : BitVec 1) (d : BitVec 5) (x : BitVec 3) (o : BitVec 7)
  /-- R207: Gathers one 4-byte word per lane at per-lane scratchpad offsets. -/
  | vgth (w : BitVec 4) (p : BitVec 3) (i : BitVec 1) (d : BitVec 5) (x : BitVec 3) (o : BitVec 7)
  /-- R207: Scatters one 4-byte word per lane to per-lane scratchpad offsets. -/
  | vsct (w : BitVec 4) (p : BitVec 3) (i : BitVec 1) (d : BitVec 5) (x : BitVec 3) (o : BitVec 7)
  /-- R208: Issues a timed row load from a virtual address popped from q0, landing at a named V cycle. -/
  | vldt (w : BitVec 4) (p : BitVec 3) (d : BitVec 5) (s : BitVec 8)
  /-- R100: M-engine word that acts only through its token bits and needs no lease. -/
  | mnop (w : BitVec 4)
  /-- R243: Ends any held lease and requests a new Girder lease of count n. -/
  | mlease (w : BitVec 4) (n : BitVec 6)
  /-- R244: Releases the Girder lease held by its Reckoner. -/
  | mrel (w : BitVec 4)
  /-- R245: Loads a tile as an array's stationary weight set. -/
  | mwld (w : BitVec 4) (r : BitVec 1) (t : BitVec 4) (c : BitVec 6) (l : BitVec 1)
  /-- R246: Streams activation rows through the weight set into an accumulator, block by block. -/
  | mma (w : BitVec 4) (r : BitVec 1) (a : BitVec 3) (t : BitVec 4) (c : BitVec 6) (z : BitVec 1) (l : BitVec 1)
  /-- R247: Adds a residual tile into an accumulator through per-column gains. -/
  | mmaid (w : BitVec 4) (r : BitVec 1) (a : BitVec 3) (t : BitVec 4) (c : BitVec 6) (z : BitVec 1) (l : BitVec 1)
  /-- R248: Multiplies f32 tiles through six sliced bf16 passes. -/
  | mma32 (w : BitVec 4) (r : BitVec 1) (a : BitVec 3) (t : BitVec 4) (c : BitVec 6) (z : BitVec 1) (l : BitVec 1) (u : BitVec 4)
  /-- R249: Writes zero into every word of an accumulator tile and makes its rows live. -/
  | mzero (w : BitVec 4) (r : BitVec 1) (a : BitVec 3) (c : BitVec 6)
  /-- R277: Shifts the masked accumulator rows by 2^e. -/
  | mexpsh (w : BitVec 4) (r : BitVec 1) (a : BitVec 3) (c : BitVec 6)
  /-- R264: Writes each accumulator row's sum, sum of squares and largest magnitude to scratchpad. -/
  | mstat (w : BitVec 4) (r : BitVec 1) (a : BitVec 3) (c : BitVec 6)
  /-- R275: Runs one attention step through both arrays and the soft-maximum stage. -/
  | mattn (w : BitVec 4) (a : BitVec 3) (t : BitVec 4) (c : BitVec 6) (z : BitVec 1) (l : BitVec 1)
  /-- R100: K-engine word that acts only through its token bits. -/
  | knop (w : BitVec 4)
  /-- R259: Loads ladder column images into a ladder slot. -/
  | kload (w : BitVec 4) (r : BitVec 1) (s : BitVec 2) (c : BitVec 6)
  /-- R260: Rewrites some thresholds of one live ladder column. -/
  | kpatch (w : BitVec 4) (r : BitVec 1) (s : BitVec 2) (c : BitVec 6)
  /-- R261: Loads an array's row affine gains and offsets. -/
  | kgain (w : BitVec 4) (r : BitVec 1) (c : BitVec 6)
  /-- R262: Configures and clears a dynamic-scale history register. -/
  | khist (w : BitVec 4) (r : BitVec 1) (c : BitVec 6)
  /-- R263: Turns accumulator words into ladder codes in a code tile, in code or soft-maximum normalise mode. -/
  | kout (w : BitVec 4) (r : BitVec 1) (s : BitVec 2) (a : BitVec 3) (t : BitVec 4) (c : BitVec 6) (l : BitVec 1) (y : BitVec 1)
  /-- R263: Turns accumulator words into ladder codes written to scratchpad rows. -/
  | koutD (w : BitVec 4) (r : BitVec 1) (s : BitVec 2) (a : BitVec 3) (c : BitVec 6) (l : BitVec 1) (y : BitVec 1)
  /-- R273: Configures the soft-maximum stage's Λ, ladder slot, codebook and ones column. -/
  | smscfg (w : BitVec 4) (s : BitVec 2) (c : BitVec 6)
  /-- R274: Resets the masked rows' references and bindings. -/
  | smsrst (w : BitVec 4) (c : BitVec 6)
  /-- R100: C-engine word that acts only through its token bits. -/
  | cnop (w : BitVec 4)
  /-- R165: Copies n rows. -/
  | ccpy (w : BitVec 4) (c : BitVec 6) (r : BitVec 1)
  /-- R166: Copies a two-dimensional block of rows with pitches. -/
  | c2d (w : BitVec 4) (c : BitVec 6) (r : BitVec 1)
  /-- R167: Gathers rows at addresses given by an index list. -/
  | cgth (w : BitVec 4) (c : BitVec 6) (r : BitVec 1) (i : BitVec 1)
  /-- R167: Gathers rows at positions computed by an arena generator. -/
  | cgthArena (w : BitVec 4) (c : BitVec 6) (r : BitVec 1) (g : BitVec 3)
  /-- R167: Scatters rows to addresses given by an index list. -/
  | csct (w : BitVec 4) (c : BitVec 6) (r : BitVec 1) (i : BitVec 1)
  /-- R167: Scatters rows to positions computed by an arena generator. -/
  | csctArena (w : BitVec 4) (c : BitVec 6) (r : BitVec 1) (g : BitVec 3)
  /-- R168: Moves a tile image between a tile and memory. -/
  | ctile (w : BitVec 4) (c : BitVec 6) (t : BitVec 4) (r : BitVec 1) (d : BitVec 1)
  /-- R169: Loads a codebook register with 16 or 256 entries. -/
  | ccb (w : BitVec 4) (c : BitVec 6) (r : BitVec 1) (b : BitVec 3) (s : BitVec 1)
  /-- R175: Decodes Borene blocks into rows of a w8s tile. -/
  | cdec (w : BitVec 4) (c : BitVec 6) (t : BitVec 4) (r : BitVec 1)
  /-- R181: Encodes bf16 targets into Borene blocks on a trellis encoder. -/
  | cenc (w : BitVec 4) (c : BitVec 6) (r : BitVec 1)
  /-- R170: Pushes rows into a vector operand queue. -/
  | cqld (w : BitVec 4) (c : BitVec 6) (r : BitVec 1) (q : BitVec 2)
  /-- R171: Fills n rows with a repeated 8-byte value. -/
  | cfill (w : BitVec 4) (c : BitVec 6) (r : BitVec 1)
  /-- R100: Q-engine word that acts only through its token bits. -/
  | qnop (w : BitVec 4)
  /-- R287: Returns the qualifying elements of a range with their indices and count. -/
  | qscan (w : BitVec 4) (c : BitVec 6) (e : BitVec 2) (r : BitVec 1) (m : BitVec 3) (x : BitVec 1)
  /-- R289: Keeps the k best elements or merges pair lists in a total order. -/
  | qtopk (w : BitVec 4) (c : BitVec 6) (e : BitVec 2) (r : BitVec 1) (p : BitVec 1) (a : BitVec 1)
  /-- R290: Sums indexed table rows, optionally weighted, exactly and with one final rounding. -/
  | qred (w : BitVec 4) (c : BitVec 6) (e : BitVec 2) (r : BitVec 1) (g : BitVec 1) (i : BitVec 1)
  /-- R61: Prefix that widens the immediate of the next word. -/
  | pimm (i : BitVec 25)
  /-- R62: Prefix that sets the order, scope, space and policy of the next word's accesses. -/
  | pmem (o : BitVec 3) (s : BitVec 2) (p : BitVec 3) (l : BitVec 2)
  /-- R63: Prefix that repeats the next word with register fields advanced by a stride. -/
  | prep (c : BitVec 8) (s : BitVec 3) (d : BitVec 1) (a : BitVec 1) (b : BitVec 1)
  /-- R45: The splitter fetches and checks a unit, then steers it to the S pipeline or appends it to its engine queue. -/
  | splitterSteer (sp : BitVec 7) (r : BitVec 2)
  /-- R126: An LDT or VLDT landing-buffer entry writes its destination at its due schedule cycle. -/
  | timedLanding (sp : BitVec 7) (r : BitVec 2)
  /-- R127: Late timed-load data arrives, is written, and both held streams resume. -/
  | lateDataArrival (sp : BitVec 7) (r : BitVec 2) (k : Nat)
  /-- R187: A V word's result is written at the start of its issue-plus-latency cycle. -/
  | vResultLanding (sp : BitVec 7) (r : BitVec 2)
  /-- R142: A pending wide flag becomes FULL with its record six V cycles after the deposit. -/
  | wideFlagFull (sp : BitVec 7) (r : BitVec 2) (n : BitVec 3)
  /-- R59: A finished command pushes its reply, then updates its completion row with release and signals its tokens. -/
  | completionRowUpdate (sp : BitVec 7) (r : BitVec 2) (e : BitVec 3)
  /-- R138: A posted STX is performed as a masked row write at its home. -/
  | postedStorePerform (sp : BitVec 7) (r : BitVec 2) (k : Nat)
  /-- R308: A returning atomic's old value is written back, releasing the held S stream. -/
  | atomicWriteBack (sp : BitVec 7) (r : BitVec 2)
  /-- R116: A translation walk completes and fills the translation caches of every joined Span. -/
  | walkComplete (sp : BitVec 7) (k : Nat)
  /-- R195: A bank holding live items enters RETAIN after BRET idle clocks. -/
  | bankRetain (sp : BitVec 7) (b : BankName)
  /-- R195: A bank whose items are all dead enters OFF after BOFF idle clocks. -/
  | bankOff (sp : BitVec 7) (b : BankName)
  /-- R196: A bank wake completes, the bank becomes FULL and its waiting requesters proceed. -/
  | bankWakeDone (sp : BitVec 7) (b : BankName)
  /-- R231: An idle band outside ASHAPE is gated after BGIDLE clocks and its weights become dead. -/
  | bandGate (sp : BitVec 7) (arr : BitVec 1) (j : BitVec 2)
  /-- R232: A gated band's wake completes after CAPW.BAND clocks. -/
  | bandWakeDone (sp : BitVec 7) (arr : BitVec 1) (j : BitVec 2)
  /-- R235: A free Girder lease is granted round-robin to the next requesting Reckoner. -/
  | leaseGrant (sp : BitVec 7)
  /-- R237: The hold limit expires, so the lease is revoked, regranted and a pending LEASE is left. -/
  | leaseRevoke (sp : BitVec 7)
  /-- R318: All members have arrived, the barrier completes and the waiting SYNCs are released. -/
  | barrierComplete (sp : BitVec 7) (r : BitVec 2)
  /-- R313: The switches deliver the merged window atomic update to the home unit. -/
  | windowUpdateDelivery (k : Nat)
  /-- R151: A drained thread retires, discarding or checking its queue entries and releasing its lease. -/
  | threadRetire (sp : BitVec 7) (r : BitVec 2)
  /-- R332: All threads have retired, so the node's Spans are freed and its writes released. -/
  | nodeJoin (id : Nat)
  /-- R332: The distributor adds 1 to the DONE unit as a release atomic, retrying while it does not translate. -/
  | doneIncrement (id : Nat)
  /-- R328: A write of DGO.GO judges the record in DREC and accepts or refuses it. -/
  | nodeSubmit (win : BitVec 5) (v : W64)
  /-- R333: A write of DKILL.GO ends every node that carries the tag. -/
  | dkill (v : W64)
  /-- R330: The distributor dispatches the first ready node that fits and starts its Reckoners. -/
  | nodeDispatch (pick : List (BitVec 7)) (segs : List (BitVec 24 × List Byte))
  /-- R330: Every 4 ms a pending node's effective priority rises by one step, but not to 0. -/
  | priorityAgeing (id : Nat)
  /-- R334: The distributor picks a victim node and requests its pre-emption. -/
  | preemptionRequest
  /-- R334: DPMAX elapses without NODE, and the thread escalates to a full context switch. -/
  | preemptEscalation (sp : BitVec 7)
  /-- R356: The tender freezes the Span's threads and writes the save image at TSAVE. -/
  | fullSwitchSave (sp : BitVec 7)
  /-- R356: On redispatch to the same Spans, the tender checks and restores the save image and resumes the threads. -/
  | contextRestore (id : Nat)
  /-- R340: A trap is taken on a freeze edge, its record is queued and the thread is frozen. -/
  | trapFreeze (sp : BitVec 7) (r : BitVec 2)
  /-- R348: The idle tender core fetches from TVEC when a record or a throttle notice is pending. -/
  | tenderHandlerStart (sp : BitVec 7)
  /-- R349: A write of TRPOP.GO retires the head trap record, or sets ERR when the queue is empty. -/
  | trpop (sp : BitVec 7) (v : W64)
  /-- R119: A write of XINVC.GO starts a translation invalidation and inserts markers into every copy and Pier queue. -/
  | xinvcGo (v : W64)
  /-- R119: All affected translations are gone and the earlier accesses are performed, so XINVS.BUSY clears. -/
  | invalidationComplete
  /-- R360: At each 10 µs boundary the controller updates MRCAP and the Span clocks. -/
  | powerIntervalBoundary (caps : List (BitVec 7 × BitVec 16))
  /-- R362: A write to TPWR clears PEND, sets the ceiling and event row, and enables and resets event-row writes. -/
  | tpwrWrite (sp : BitVec 7) (v : W64)
  /-- R365: In an idle window the controller reads path-delay monitors and re-plans the Span's margins. -/
  | ageingReading (sp : BitVec 7) (ceil : BitVec 2) (repl : BitVec 1)
  /-- R368: The armed schedule-cycle comparator is met and the thread freezes without a record. -/
  | debugStop (sp : BitVec 7) (r : BitVec 2)
  /-- R371: A write of DSTOP.RESUME resumes a stopped thread and reinjects its in-flight entries. -/
  | dstopResume (m : SpdmRequest) (rid : BitVec 9) (a : DebugAccess)
  /-- R372: A write of TPROF.CLR clears the profiling counters and sets EN and BASE. -/
  | tprofClr (sp : BitVec 7) (v : W64)
  /-- R374: The first write of HPNET after reset selects the network port and sets LOCK. -/
  | hpnetWrite (v : W64)
  /-- R378: A write changing a port's MODE is accepted only while the port is down or failed. -/
  | hpcfgWrite (n : BitVec 3) (v : W64)
  /-- R379: A PCIe or CXL port trains and sets its STATE to up or failed. -/
  | portLinkTraining (n : BitVec 3) (up : BitVec 1) (hdm : List (Nat × Nat)) (bad : BitVec 1)
  /-- R373: SPDM request for the supported versions, served by the root-of-trust core. -/
  | getVersion (m : SpdmRequest)
  /-- R373: SPDM request for the responder's capabilities. -/
  | getCapabilities (m : SpdmRequest)
  /-- R373: SPDM request that negotiates ML-DSA-44 and SHA3-256, refusing other algorithms. -/
  | negotiateAlgorithms (m : SpdmRequest)
  /-- R373: SPDM request for certificate chain digests. -/
  | getDigests (m : SpdmRequest)
  /-- R373: SPDM request for a certificate chain. -/
  | getCertificate (m : SpdmRequest)
  /-- R373: SPDM challenge, answered with a signature by the root-of-trust core. -/
  | challenge (m : SpdmRequest)
  /-- R376: SPDM request for the measurement registers, signed with the attestation key. -/
  | getMeasurements (m : SpdmRequest)
  /-- R373: SPDM key exchange that opens a session bound to a node tag. -/
  | keyExchange (m : SpdmRequest)
  /-- R373: SPDM request that completes session establishment. -/
  | finish (m : SpdmRequest)
  /-- R375: A signed maker token reopens the maker-level debug features in its mask; a bad token is refused, and the nonce is retired either way. -/
  | makerToken (dev : BitVec 256) (mask : W32) (nonce : BitVec 256) (sig : List Byte)
  /-- R15: Power-on or package reset puts the device into its start-up state. -/
  | powerOnReset
  /-- R16: The deck dies train their HBM4E stacks and clear memory, excluding any stack that fails. -/
  | hbmTraining (failed : BitVec 8)
  /-- R382: The Viaduct links train and the switches assign each device its DEV. -/
  | fabricEnumeration (dev : BitVec 8) (links : BitVec 16)
  /-- R380: A link receiver accepts a flit, or discards it and asks for a replay. -/
  | flitReceive (link : BitVec 4) (f : Flit)
  /-- R385: At the end of a 1 ms interval whose replay count exceeds the threshold, a link sheds lanes or goes down. -/
  | laneShed (link : BitVec 4)
  /-- R121: The deck dies scrub idle rows and correct single-bit errors in place. -/
  | backgroundScrub (row : Nat)
  /-- R3: A write to a device register that has no row of its own stores its RW fields as R3 gives. -/
  | registerWrite (a : BitVec 52) (size : Nat) (v : W64)
  /-- R125: The data of a timed request returns from memory before its slot falls due, or during a SYNC drain, and is kept in its landing-buffer entry or written at once in the drain. -/
  | landingBufferFill (sp : BitVec 7) (r : BitVec 2) (k : Nat)
  /-- R313: The local fabric port accepts a posted window atomic, which frees its token signals and the SYNC drain that wait on it. -/
  | windowAtomicAccept (sp : BitVec 7) (r : BitVec 2)
  /-- R384: A link's 1 ms replay interval ends and VLSTAT.REPL takes the count of that interval, whatever the count. -/
  | replayIntervalEnd (link : BitVec 4)
  deriving DecidableEq, Repr

end Sys2Proof
end

