-- ==== Sys2Proof/Machine/State.lean ====
section
/-! DEFINITION. The state of the F7 as plain data (INVENTORY.md, State), its reset (R15), the reasons a
step can stop. -/

namespace Sys2Proof.Machine

/-- A sparse table by number: numbers strictly rising. -/
abbrev Table (α : Type) := List (Nat × α)

/-- The physical memory of the package (R105): addresses strictly rising, no byte that an unlisted
address reads as (log 4). -/
abbrev Memory := List Host.Cell

/-! ### Why a step stops -/

/-- Faults: a step that stops. There is none: every error that the manual describes is a trap of R339 or a
quarantine (R347), and a next state; an access to a device offset without a register reads zero (R106). -/
inductive Fault where
  deriving DecidableEq, Repr

/-- Refusals: no meaning. -/
inductive Refusal where
  /-- An instruction with no meaning yet, by its mnemonic. Raised only by arms of exec. Safe. -/
  | notModelled (mnemonic : String)
  deriving DecidableEq, Repr

/-- A fault that an access meets: its cause (R339) and what the record names (R344 to R346). -/
structure Flt where
  cause : BitVec 8
  addr : W64
  item : W64
  lane : BitVec 5
  word : BitVec 5
  level : BitVec 3
  wr : Bool
  mig : Bool
  deriving DecidableEq, Repr

/-! ### Units and commands -/

/-- A PMEM prefix (R62). -/
structure Pmem where
  order : BitVec 3
  scope : BitVec 2
  space : BitVec 3
  policy : BitVec 2
  deriving DecidableEq, Repr

/-- A PREP prefix (R63). -/
structure Prep where
  count : BitVec 8
  stride : BitVec 3
  md : Bool
  ma : Bool
  mb : Bool
  deriving DecidableEq, Repr

/-- A steered unit: its word with its prefixes, addresses, sequence number, the rotation base at
steering (R145), the repetition it stands at (R64), whether its token waits are taken, and the values
a trapped execution popped (R53), the record that a LAUNCH submits while it holds (R336), the clocks for which a
VGTH or VSCT still holds V for its bank conflicts, each by the bank group that it waits for, once it has found them
(R207, R372). -/
structure Work where
  instr : Instr
  pc : BitVec 52
  first : BitVec 52
  seq : W32
  pimms : List (BitVec 25)
  pmem : Option Pmem
  prep : Option Prep
  base : BitVec 4
  rep : Nat
  waited : Bool
  popped : Table W64
  kept : Option Row
  serve : Option (List Nat)
  deriving DecidableEq, Repr

/-- The stage of a command that has left its queue head: the checks of its begin (R156, R241), its units,
or all of them applied and its reply and row update to come (R48, R59). -/
inductive Stage where
  | checking | running | finished
  deriving DecidableEq, Repr

/-- A ladder column (R250): K, DIR, TYPE, thresholds. -/
structure LadderCol where
  k : Nat
  desc : Bool
  isF32 : Bool
  t : List W32
  deriving DecidableEq, Repr

/-- A codebook register (R27): the entries of the last CCB; none when not loaded. -/
abbrev Codebook := Option (List (BitVec 16))

/-- The configuration of the soft-maximum stage (R265). -/
structure SmsConfig where
  configured : Bool
  lam : W32
  slot : BitVec 2
  cb : BitVec 3
  ones : Bool
  deriving DecidableEq, Repr

/-- A tile (R32): its image rows (an unlisted row is zero) and its live tile rows, rising. -/
structure Tile where
  img : Table Row
  live : List Nat
  deriving DecidableEq, Repr

/-- A row as it stood before a command wrote it (R165): dead, one whose read raises ECC, or its content. -/
inductive Kept where
  | dead
  | bad
  | row (v : Row)
  deriving DecidableEq, Repr

/-- A column of a weight set: its K values as extended reals (R245), and its scale words. -/
structure WCol where
  w : List Ext
  scales : List W32
  deriving DecidableEq, Repr

/-- A weight set (R227); an unlisted column is empty. -/
structure WeightSet where
  k : Nat
  w : Nat
  int : Bool
  scaled : Bool
  cols : Table WCol
  deriving DecidableEq, Repr

/-- The weight set of an array with the live bits of its bands, as a command has found them at its checks: a command that a
trap has cut resumes on them (R238). -/
structure HeldSet where
  ws : WeightSet
  live : Vector Bool 4
  deriving DecidableEq, Repr

/-- The partial state kept with a cursor (R342): a Pier's count, list and sums, a CENC's error sum, a
CDEC's or KOUT's generation, MMAID's gains, a KOUT's copies and maximum, MATTN's copies, an image
offset, the rows a copy has overwritten, the row that a CDEC has read of a straddling block (its second, or its
first), the tiles that a Girder command has read whole (R239, R248), the source rows that a Pier command has read (R283), or the gain rows of an MMAID as its begin found them (R247), the weight sets of both arrays as a Girder command has found them (R238).
What a copy command has read of a block, the tiles and the source rows end with a cut. Fields that a command does not use keep their empty values. -/
structure Partial where
  total : Nat
  list : List (W32 × W32)
  sums : List Ext
  err : Ext
  wgen : Option (BitVec 4)
  gains : List (BitVec 16)
  cols : Table LadderCol
  affine : List (W32 × W32)
  dynM : W32
  hmax : W32
  sms : SmsConfig
  book : List (BitVec 16)
  off : Nat
  saved : Table Kept
  half : Option (Bool × Row)
  tile : Option Tile
  tileW : Option Tile
  rows : Table Row
  sets : List HeldSet
  deriving DecidableEq, Repr

/-- The four CSRs of an arena generator (R135). -/
structure Arena where
  base : W64
  slot : W64
  pos : W64
  len : W32
  deriving DecidableEq, Repr

/-- A command that has left its queue head: its unit, popped arguments, latches (R153, R234), cursor,
flags of R58 (XL 7, SCALEMIS 6, CUT 5, DEAD 4, SAT 3, UFL 2, OFL 1, INV 0), RESULT bytes, partial
state. `row` is the latched address of its completion row, `engine` whether it has a
copy engine, or its turn in the ladder or the Girder order (R152, R228, R255), `place` its place in the Girder order among
the commands underway (R228), `failed` that its begin checks have failed (R241), `deadAt` the cursor at which a row of its own was
dead (R165), `again` that its unit has only prepared what it keeps. -/
structure Cmd where
  work : Work
  args : List W64
  mdef : BitVec 7
  row : Nat
  tcfg : W32
  tcfg2 : W32
  ashape : BitVec 8
  arena : Arena
  cursor : Nat
  flags : BitVec 8
  result : Table Byte
  rp : Bool
  part : Partial
  stage : Stage
  engine : Bool
  place : Nat
  failed : Bool
  deadAt : Option Nat
  again : Bool
  deriving DecidableEq, Repr

/-! ### The landing of results -/

/-- What a V result lands in (R187, R202, R203, R215). -/
inductive VDest where
  | vreg (n : BitVec 5)
  | pred (n : BitVec 3)
  /-- A VMOVA read of a row, with how often the row had been written at the issue, none where a command was writing it:
  if one was, is, or has written it since the issue, the lanes are unpredictable (R203, R240). -/
  | accRead (n : BitVec 5) (arr : BitVec 1) (a : BitVec 3) (row : BitVec 7) (gen : Option Nat)
  /-- A VMOVT write of image row `u` of tile `t`, under TCFG as at issue. -/
  | tile (t : BitVec 4) (u : Nat) (cfg : W32)
  deriving DecidableEq, Repr

/-- A pending landing of a V word: the V cycle it is due, its destination, the lanes or bits it
writes, and the value. -/
structure VLanding where
  issued : W64
  due : W64
  dest : VDest
  mask : W32
  value : Row
  deriving DecidableEq, Repr

/-- A landing-buffer entry (R125): LDT to `g` or VLDT to a vector register, with RWATCH.VIRT as at its issue
(R303) and whether its translation missed and is still to be resolved (R116); a fault that its access has met waits for its landing (R128). -/
structure LandEntry where
  stream : Stream
  work : Work
  dest : BitVec 5
  mask : W32
  issued : W64
  due : W64
  addr : W64
  order : BitVec 3
  scope : BitVec 2
  space : Option (BitVec 3)
  policy : BitVec 2
  watch : Bool
  missed : Bool
  data : Option Row
  fault : Option Flt
  deriving DecidableEq, Repr

/-- The page of a translation, by its ASID, base and size (R115, R118). -/
structure Page where
  asid : BitVec 12
  base : Nat
  size : Nat
  deriving DecidableEq, Repr

/-- A posted store (R138): physical address, data, order and scope, the page of its translation and whether an
invalidation waits for it (R119). -/
structure Posted where
  pa : Nat
  work : Work
  data : W64
  order : BitVec 3
  scope : BitVec 2
  page : Page
  stale : Bool
  deriving DecidableEq, Repr

/-- A window atomic that is posted, or in the switches (R313): its unit, its node and RID[8:0] (R10), the page of its
translation and whether an invalidation waits for it (R119). -/
structure WindowUpdate where
  pa : Nat
  op : BitVec 7
  x : W64
  work : Option Work
  thread : Nat × BitVec 9
  page : Option Page
  stale : Bool
  deriving DecidableEq, Repr

/-- A record of a wide flag (R142). -/
structure WideRec where
  count : BitVec 16
  any : Bool
  all : Bool
  none : Bool
  deriving DecidableEq, Repr

/-- A wide-flag register (R142). -/
inductive WideFlag where
  | empty
  | pending (due : W64) (r : WideRec)
  | full (r : WideRec)
  deriving DecidableEq, Repr

/-! ### Supplies -/

/-- A supply state (R192). -/
inductive Supply where
  | full | retain | off
  deriving DecidableEq, Repr

/-- A supply bank: its state, the clock at which a wake in progress ends, the last clock on which it was not idle, the
clock of the last death of an item, and the clock of a pending SPHINT retain (R192 to R197). -/
structure Bank where
  st : Supply
  wake : Option Nat
  used : Nat
  died : Nat
  mark : Option Nat
  deriving DecidableEq, Repr

/-! ### A Reckoner -/

/-- Where a thread stands (R15, R150, R151, R335). -/
inductive RunState where
  | idle | running | draining | retired | taken
  deriving DecidableEq, Repr

/-- A stream of a Reckoner: its queue (the head first), its sequence number (R47), the tokens of a word
that wait to be signalled (R50), whether its last attempt was a hold (R124, R209), the timed
loads for which something of the thread waits (R294, R298), by sequence number and repetition, whether a word has acted on this clock, the command in
execution, the clock of its last dequeue (R337), a fault not yet taken as a trap (R347), how many
commands stand ahead of an invalidation marker (R119), its head and tail pointers (R46). -/
structure StreamSt where
  queue : List Work
  seq : W32
  sig : Option Tok
  held : Bool
  waits : List (W32 × Nat)
  acted : Bool
  active : Option Cmd
  lastDeq : Option Nat
  ahead : Nat
  head : BitVec 6
  tail : BitVec 6
  lastActed : W32
  deriving DecidableEq, Repr

/-- What the S stream waits for after its word has acted (R308, R321). -/
inductive SWait where
  | none
  | atomic (d : BitVec 5) (v : W64)
  | atomic2 (d : BitVec 5) (v0 v1 : W64)
  | arrived (level : BitVec 3)
  | released
  deriving DecidableEq, Repr

/-- A fault that a word or unit has met: its cause (R339) and the fields of its record (R344 to R346).
`land` says that a landing met it (R128), `after` that the word has taken effect (R350), `fetch` that a
fetch met it (R112). -/
structure TrapInfo where
  cause : BitVec 8
  stream : Stream
  code : BitVec 3
  pc : BitVec 52
  addr : W64
  seq : W32
  cursor : W32
  item : W64
  lane : BitVec 5
  word : BitVec 5
  level : BitVec 3
  wr : Bool
  mig : Bool
  spl : Bool
  rep : Nat
  land : Bool
  after : Bool
  fetch : Bool
  deriving DecidableEq, Repr

/-- A frozen thread (R340): which streams have a word that trapped at its issue, the landing entries
that trapped by sequence number and repetition, whether a record of the freeze is fatal, whether it trapped at its retire, TPC and TREP,
and whether an ERET has been given that waits for the resume of a debug stop (R370). -/
structure Freeze where
  sTrap : Bool
  vTrap : Bool
  sLand : List (W32 × Nat)
  vLand : List (W32 × Nat)
  fatal : Bool
  retire : Bool
  tpc : BitVec 52
  rs : BitVec 8
  rv : BitVec 8
  eret : Bool
  deriving DecidableEq, Repr

/-- A debug stop (R371): WHY and IMM of DSTOP. -/
structure DebugStop where
  why : BitVec 3
  imm : BitVec 13
  deriving DecidableEq, Repr

/-- The restart state of a thread (R353). -/
structure Restart where
  point : BitVec 52
  tok : Vector (BitVec 4) 12
  rrb : BitVec 4
  lc : W64
  dirty : Bool
  deriving DecidableEq, Repr

/-- A Reckoner: a thread's registers, queues and in-flight state. `exitPc` is the address of the EXIT that the thread
has executed (R56), `argSeq` the S words that pushed the entries of q1 to q4 (R294), `q2turn` the engines, K and M, that wait for q2, the first to come first (R275), `steered` says that the splitter has
taken a word on this clock (R44). `ready` gives the clock from which a register
may be read (R123), `lateHold` says that late data holds both streams (R127), `stopMet` that an armed stop is met
(R368), `bretOn` and `boffOn` are the idle times in force (R194), `halted` says that a full switch has frozen the thread (R356). -/
structure Reckoner where
  run : RunState
  frozen : Option Freeze
  stop : Option DebugStop
  halted : Bool
  claim : Bool
  skips : Bool
  skipv : Bool
  pc : BitVec 52
  exitPc : BitVec 52
  pend : List W32
  steered : Bool
  g : Vector W64 32
  q : Vector (List W64) 7
  argSeq : Vector (List W32) 4
  q2turn : List Stream
  streams : Vector StreamSt 6
  faults : List TrapInfo
  tok : Vector (BitVec 4) 12
  v : Vector Row 32
  vlive : BitVec 32
  p : Vector W32 8
  x : Vector (BitVec 24) 8
  rms : BitVec 7
  w : Vector WideFlag 8
  vq : Vector (List Row) 4
  landings : List VLanding
  buffer : List LandEntry
  posted : List Posted
  windows : List WindowUpdate
  scyS : W64
  scyV : W64
  ready : Table Nat
  lateHold : Bool
  stopMet : Bool
  mdef : BitVec 7
  vrm : BitVec 2
  cobase : BitVec 11
  rrb : BitVec 4
  lc : W64
  bret : BitVec 16
  boff : BitVec 16
  bretOn : BitVec 16
  boffOn : BitVec 16
  vqcb : BitVec 3
  ag : Vector Arena 8
  level : BitVec 3
  nlevel : BitVec 3
  group : BitVec 8
  pace : Vector (BitVec 10) 4
  rwatch : BitVec 2
  dbgcmp : W64
  wait : SWait
  fence : List W32
  restart : Restart
  pendLease : Bool
  epoch : Nat
  vbank : Vector Bank 4
  deriving DecidableEq, Repr

/-! ### A Span -/

/-- An accumulator tile (R226): its live rows, and how many times each row has been written. -/
structure AccTile where
  rows : Table AccRow
  writes : Table Nat
  deriving DecidableEq, Repr

/-- A history register (R254). -/
structure Hist where
  h : Nat
  ref : W32
  cal : W32
  entries : List W32
  v : Nat
  deriving DecidableEq, Repr

/-- A band of an array (R230 to R232): gated, weights live, a wake in progress, last clock its idle
count was 0. -/
structure Band where
  gated : Bool
  live : Bool
  wake : Option Nat
  busy : Nat
  deriving DecidableEq, Repr

/-- One array with its ladder stage. -/
structure ArraySt where
  acc : Vector AccTile 8
  accBank : Vector Bank 8
  ladder : Vector (Table LadderCol) 4
  affine : Option (List (W32 × W32))
  hist : Vector Hist 16
  ws : WeightSet
  band : Vector Band 4
  deriving DecidableEq, Repr

/-- The soft-maximum stage (R265): configuration, row references (unlisted is −32768) and bindings. -/
structure Sms where
  cfg : SmsConfig
  rho : Table Int
  bind : Table (BitVec 3)
  deriving DecidableEq, Repr

/-- The Girder's lease (R235 to R237): holder, count, last holder, requests, those of them that the free lease is granted
from on this clock, hold-limit count. -/
structure Lease where
  holder : Option (BitVec 2)
  count : Nat
  last : Option (BitVec 2)
  req : BitVec 4
  due : BitVec 4
  hold : Nat
  deriving DecidableEq, Repr

/-- A translation cache entry (R115): the page's base and size as low bits, its ASID, leaf and policy. -/
structure TlbEntry where
  asid : BitVec 12
  base : Nat
  size : Nat
  leaf : W64
  policy : BitVec 2
  deriving DecidableEq, Repr

/-- A line of the instruction cache of a Span: the page through which it was fetched, the number of the virtual row, and
its content when it was fetched (R118, log 44). -/
structure FetchLine where
  page : Page
  line : Nat
  row : Row
  deriving DecidableEq, Repr

/-- A translation in progress for a timed request (R116): the root of its context, the page, the Spans
that joined. -/
structure Walk where
  root : W64
  page : Nat
  policy : BitVec 2
  spans : List (BitVec 7)
  deriving DecidableEq, Repr

/-- A thread: its node and its RID[8:0] (R10). -/
abbrev ThreadId := Nat × BitVec 9

/-- A race-watch mark (R304): the row's physical number, the thread that made it, written or read, and
the threads for which it is void. -/
structure Mark where
  row : Nat
  who : ThreadId
  written : Bool
  void : List ThreadId
  deriving DecidableEq, Repr

/-- A trap record (R344), byte by byte as 16 words. -/
abbrev Record := Vector W64 16

/-- The tender core (R348) and the tender CSRs of R349, R362, R372. `profSince` is the clock of the last count, `waited` the clocks
since then for which a stream is known to have waited for a bank group, by counter (log 14). -/
structure Tender where
  running : Bool
  pc : BitVec 52
  pend : List W32
  g : Vector W64 32
  work : Option Work
  err : Bool
  quar : Bool
  tsel : BitVec 2
  rm : Bool
  troot : W64
  tvec : BitVec 52
  tsave : BitVec 52
  swcBusy : Bool
  swcErr : Bool
  pendNotice : Bool
  ceil : BitVec 2
  evrow : BitVec 17
  even : Bool
  evReset : Bool
  evCount : W64
  profEn : Bool
  profBase : BitVec 17
  profCount : W64
  prof : Table W32
  profSince : Nat
  waited : Table Nat
  mdef : BitVec 7
  deriving DecidableEq, Repr

/-- A Span. `switching` says that the distributor has signalled its tender for a full switch (R356), `snaps` the
loop exits of this clock (R372), `bgidleOn` the idle limit in force (R231), `margin` a change of its margins that
waits for its boundary, `volt` the steps of its nominal voltage (R365). -/
structure Span where
  recks : Vector Reckoner 4
  node : Option Nat
  nreck : Nat
  xroot : W64
  tcfg : Vector W32 16
  tiles : Vector Tile 16
  tileBank : Vector Bank 16
  books : Vector Codebook 8
  arr : Vector ArraySt 2
  sms : Sms
  ashape : BitVec 8
  bgidle : BitVec 16
  bgidleOn : BitVec 16
  lease : Lease
  kserved : Vector (Option (BitVec 2)) 2
  live : List Nat
  spadBank : Vector Bank 128
  touched : List Nat
  tlb : List TlbEntry
  staleTlb : List TlbEntry
  icache : List FetchLine
  clock : Nat
  cap : BitVec 16
  step : BitVec 2
  fall : Bool
  ceil : BitVec 2
  volt : Nat
  margin : Option (BitVec 2 × Nat)
  repl : Bool
  idleSince : Nat
  snaps : List (BitVec 2 × W64)
  rowsOrd : List Record
  rowFatal : Option Record
  switching : Bool
  tender : Tender
  deriving DecidableEq, Repr

/-! ### The package -/

/-- What a thread taken at NODE keeps (R335). -/
structure TakenThread where
  sp : Nat
  r : BitVec 2
  pc : BitVec 52
  g : Vector W64 32
  mdef : BitVec 7
  vrm : BitVec 2
  cobase : BitVec 11
  rrb : BitVec 4
  lc : W64
  tcfg : Vector W32 16
  ashape : BitVec 8
  bgidle : BitVec 16
  bret : BitVec 16
  boff : BitVec 16
  vqcb : BitVec 3
  ag : Vector Arena 8
  level : BitVec 3
  pace : Vector (BitVec 10) 4
  rwatch : BitVec 2
  dbgcmp : W64
  scyS : W64
  scyV : W64
  deriving DecidableEq, Repr

/-- Where a node stands in the scoreboard (R328 to R335). -/
inductive NodeStatus where
  | pending | running | preempted | joining
  deriving DecidableEq, Repr

/-- A node in the scoreboard: its record (R326), its status, submission and dispatch order, the
interval since which it stands pending, its effective priority, its Spans, a pre-emption request and
when it was made, the threads taken at NODE, the Spans saved whole (with the Span state as it stood, of which the restore takes what the
device itself keeps, log 10) and whether some are to be restored, and what the last examination found: whether it is ready
(R329), or its DONE unit is (R332). -/
structure Node where
  id : Nat
  record : List W64
  status : NodeStatus
  order : Nat
  dispatched : Nat
  since : Nat
  eff : BitVec 2
  spans : List (BitVec 7)
  preempt : Option Nat
  taken : List TakenThread
  saved : List (BitVec 7 × Span)
  restoring : Bool
  ready : Bool
  deriving DecidableEq, Repr

/-- A submission window (R327): DREC as 16 words, the TAG and CAUSE of DSTAT. -/
structure Window where
  drec : Vector W64 16
  tag : BitVec 16
  cause : BitVec 4
  deriving DecidableEq, Repr

/-- The invalidation in progress (R118, R119). -/
structure Inval where
  va : BitVec 52
  ctl : W64
  busy : Bool
  err : Bool
  deriving DecidableEq, Repr

/-- A PCIe or CXL port (R378, R379): MODE, STATE, the ranges of its HDM decoders as (base, length). -/
structure Port where
  cxl : Bool
  state : BitVec 2
  hdm : List (Nat × Nat)
  deriving DecidableEq, Repr

/-- A Viaduct link (R380, R384, R385): lanes, state, the replay count of the interval and of the last
complete one, the receiver's next number and the acknowledgements and replay requests that it has sent, the sender's
next number, its replay buffer and what waits for room in it, whether an interval's count has passed the threshold. -/
structure Link where
  lanes : BitVec 4
  state : BitVec 2
  replays : Nat
  repl : BitVec 16
  next : BitVec 12
  told : List FlitBody
  send : BitVec 12
  buffer : List Flit
  queue : List (BitVec 8 × FlitBody)
  shed : Bool
  deriving DecidableEq, Repr

/-- Whose access of another device a request carries: its thread, whether its tender makes it, the unit of the stream by
its number and repetition, and for a command the cursor at which it stands. -/
structure Access where
  thread : ThreadId
  tender : Bool
  stream : Stream
  seq : W32
  rep : Nat
  cursor : Nat
  deriving DecidableEq, Repr

/-- An access to another device as it is made: whose it is, its virtual address, and the page of its translation, `stale`
when an invalidation has taken that from new accesses (R112, R119). -/
structure Via where
  who : Access
  va : W64
  page : Option Page
  stale : Bool
  deriving DecidableEq, Repr

/-- An access of the ordered class to another device, in flight until its response comes (R381): whose it is, or nobody's
any more, its home, what was sent, what the home has answered; the virtual and the physical address that it was sent
under and whether it writes, so that it is translated once (R112), its page, and whether an invalidation waits for it
(R119). -/
structure Request where
  who : Option Access
  dev : BitVec 8
  sent : FlitBody
  answer : Option FlitBody
  va : W64
  wr : Bool
  pa : Nat
  page : Option Page
  stale : Bool
  deriving DecidableEq, Repr

/-- The fabric block (R383, R384): `vgrpOn` holds the masks under which the phases that run began, and
`vwinOn` the registrations of the last fabric-level barrier; `arrived` the arrivals of other devices, `requests` the accesses to
other devices in their order of issue. -/
structure Fabric where
  dev : BitVec 8
  enumerated : Bool
  vdmem : BitVec 256
  vgrp : Table (BitVec 256)
  vgrpOn : Table (BitVec 256)
  vwin : Table (W64 × W64)
  vwinOn : Table (W64 × W64)
  thresh : BitVec 16
  link : Vector Link 16
  updates : List WindowUpdate
  arrived : List (BitVec 8 × BitVec 8)
  requests : List Request
  deriving DecidableEq, Repr

/-- A permit pool of a span die (R363). -/
structure Permits where
  pool : BitVec 7
  last : Option (BitVec 5)
  calm : Nat
  deriving DecidableEq, Repr

/-- The in-flight table of a thread that stands (R342): the pending landings, the landing-buffer entries and the wide flags
with the schedule cycles that remain to each, the commands cut, the values that the S word at the cut has popped. -/
structure InFlight where
  landings : List (VDest × W32 × Row × W64)
  entries : List (Stream × BitVec 5 × W32 × Option Row × W64)
  flags : List (BitVec 3 × W64)
  cut : List (Stream × Cmd)
  popped : Table W64
  deriving DecidableEq, Repr

/-- Section 1 of the save image of one Reckoner (R357), item by item: how it lies in rows is the device's own (log 9). `rep`
holds the repetition indexes of S and V, `q` the entries of q0 to q7, `queues` each engine queue with its head and tail. -/
structure DumpState where
  resume : BitVec 52
  rep : Nat × Nat
  g : List W64
  csrs : List (BitVec 12 × W64)
  seqs : List W32
  tok : List (BitVec 4)
  w : List WideFlag
  p : List W32
  x : List (BitVec 24)
  rms : BitVec 7
  q : List (List W64)
  vq : List (List Row)
  queues : List (List Work × BitVec 6 × BitVec 6)
  flight : InFlight
  arrival : SWait
  frozen : Option Freeze
  records : List Record
  deriving DecidableEq, Repr

/-- A message the root-of-trust core sends (R373, R375, R376). -/
inductive SpdmReply where
  | version (v : BitVec 8)
  | capabilities
  | algorithms
  | digests (d : BitVec 256)
  | certificate (c : List Byte)
  | challengeAuth (sig : List Byte)
  | measurements (regs : List (BitVec 256)) (sig : List Byte)
  | keyExchange (session : Nat) (sig : List Byte)
  | finished (session : Nat)
  | unexpectedRequest
  | refusedAlgorithm
  | stopped (session : Nat) (rid : BitVec 9)
  | dstop (v : W64)
  | dump (section1 : DumpState) (section2 : List Row)
  | profile (rows : List Row)
  /-- A profile whose rows cannot all be read: one is dead, or has an error that cannot be corrected (R121, R191). -/
  | unreadable
  | token (accepted : Bool)
  deriving DecidableEq, Repr

/-- An SPDM session (R373): its number, the node tag it is bound to, whether FINISH completed it, and the port
through which it came (R374). -/
structure Session where
  id : Nat
  tag : BitVec 16
  digest : BitVec 256
  done : Bool
  port : BitVec 3
  deriving DecidableEq, Repr

/-- The root-of-trust core (R16 step 1, R373 to R376). -/
structure Trust where
  verified : Bool
  measured : List (BitVec 256)
  production : Bool
  maker : W32
  issued : Nat
  versioned : Bool
  negotiated : Bool
  sessions : List Session
  opened : Nat
  out : List SpdmReply
  deriving DecidableEq, Repr

/-- Row errors (R121): a single-bit error, one that cannot be corrected, a poisoned CXL row. -/
inductive RowError where
  | single | uncorrectable | poisoned
  deriving DecidableEq, Repr

/-- The core whose word runs: a Reckoner or the tender (R348). -/
inductive CoreName where
  | reck (r : BitVec 2)
  | tender
  deriving DecidableEq, Repr

/-- The word that runs: its Span, its core, how many units a command may perform in this step (none: to its end),
and the choice of the step where a command may do either of two things: use translations cached before an
invalidation or not (R119), read the second row of a straddling block before its first or not (R183). The model's
own field (log 3). -/
structure Cur where
  sp : BitVec 7
  core : CoreName
  units : Option Nat
  stale : Bool
  deriving DecidableEq, Repr

/-- Which agent moves next (log 3): a clock of a Span, a splitter, the head of a stream, the tender, a step of the
table, a line that leaves an instruction cache (log 44), or whether the faults met from now on wait for the end of their clock. -/
inductive Move where
  | tick (sp : BitVec 7)
  | steer (sp : BitVec 7) (r : BitVec 2)
  | head (sp : BitVec 7) (r : BitVec 2) (e : Stream) (units : Option Nat) (stale : Bool)
  | tender (sp : BitVec 7)
  | event (i : Instr)
  | faults (defer : Bool)
  | unfetch (sp : BitVec 7) (i : Nat)
  deriving DecidableEq, Repr

end Sys2Proof.Machine

/-- FREE VALUE (log 10): the context whose items a section 1, 3 or 7 of a save image holds that no save has written; none
stands for the items of a Span at reset. -/
opaque Sys2Proof.Config.foreignSection : Nat → List Sys2Proof.Row → Option Sys2Proof.Machine.Span

namespace Sys2Proof.Machine

/-- A section of a save image whose layout is the device's own (R357): the node and the Span saved, its number, its rows as
the save has written them, and the context whose items they hold (log 10). -/
structure SavedSection where
  owner : Nat × BitVec 7
  number : Nat
  rows : List Row
  items : Span
  deriving DecidableEq, Repr

/-- The package. `cserved` and `qserved` are the Reckoners last served by the dispatchers of a die (R152, R281);
`defer` says that faults wait for the end of their clock (R343), `access` whose access to another device is being made
in this step (log 11), `images` the sections of save images that only the device can read (log 10). -/
structure State where
  spans : Vector Span 128
  mem : Memory
  marks : List Mark
  walks : List Walk
  errors : Table RowError
  errCount : Vector W64 4
  boot : Nat
  excluded : BitVec 8
  nodes : List Node
  nextNode : Nat
  nextOrder : Nat
  windows : Vector Window 32
  pmax : W32
  victim : Option Nat
  inval : Inval
  fabric : Fabric
  ports : Vector Port 8
  hpnet : BitVec 3
  hplock : Bool
  interval : Nat
  permits : Vector Permits 4
  trust : Trust
  cserved : Vector (Option (BitVec 7 × BitVec 2)) 4
  qserved : Vector (Option (BitVec 7 × BitVec 2)) 4
  free : Nat
  cur : Cur
  access : Option Via
  defer : Bool
  images : List SavedSection
  agenda : List Move
  turn : Nat
  deriving DecidableEq, Repr

/-! ### Reset (R15) -/

/-- A bank that is OFF and idle. -/
def Bank.off : Bank := ⟨.off, none, 0, 0, none⟩

def StreamSt.reset : StreamSt :=
  { queue := [], seq := 0#32, sig := none, held := false, waits := [], acted := false, active := none, lastDeq := none, ahead := 0
    head := 0#6, tail := 0#6, lastActed := 0#32 }

def Arena.reset : Arena := ⟨0#64, 0#64, 0#64, 0#32⟩

def Restart.reset : Restart :=
  { point := 0#52, tok := Vector.replicate 12 0#4, rrb := 0#4, lc := 0#64, dirty := false }

/-- A Reckoner at reset: stopped, its queues, landing buffer and token counters empty, its registers
dead or zero (R15, R186). -/
def Reckoner.reset : Reckoner :=
  { run := .idle, frozen := none, stop := none, halted := false, claim := false, skips := false, skipv := false
    pc := 0#52, exitPc := 0#52, pend := [], steered := false, g := Vector.replicate 32 0#64
    q := Vector.replicate 7 [], argSeq := Vector.replicate 4 [], q2turn := [], streams := Vector.replicate 6 StreamSt.reset, faults := []
    tok := Vector.replicate 12 0#4, v := Vector.replicate 32 0#1024, vlive := 0#32
    p := (Vector.replicate 8 0#32).set 0 (BitVec.allOnes 32), x := Vector.replicate 8 0#24, rms := 0#7
    w := Vector.replicate 8 .empty, vq := Vector.replicate 4 [], landings := [], buffer := []
    posted := [], windows := [], scyS := 0#64, scyV := 0#64, ready := [], lateHold := false, stopMet := false, mdef := 0#7, vrm := 0#2, cobase := 0#11
    rrb := 0#4, lc := 0#64, bret := 1024#16, boff := 64#16, bretOn := 1024#16, boffOn := 64#16, vqcb := 0#3
    ag := Vector.replicate 8 Arena.reset, level := 0#3, nlevel := 0#3, group := 0#8
    pace := Vector.replicate 4 0#10, rwatch := 0#2, dbgcmp := 0#64, wait := .none, fence := []
    restart := Restart.reset, pendLease := false, epoch := 0, vbank := Vector.replicate 4 Bank.off }

def Tile.reset : Tile := ⟨[], []⟩
def AccTile.reset : AccTile := ⟨[], []⟩
def Hist.reset : Hist := ⟨0, 0#32, 0#32, [], 0⟩
def WeightSet.reset : WeightSet := ⟨0, 0, false, false, []⟩
/-- A gated band with dead weights (R15). -/
def Band.reset : Band := ⟨true, false, none, 0⟩

def ArraySt.reset : ArraySt :=
  { acc := Vector.replicate 8 AccTile.reset, accBank := Vector.replicate 8 Bank.off
    ladder := Vector.replicate 4 [], affine := none, hist := Vector.replicate 16 Hist.reset
    ws := WeightSet.reset, band := Vector.replicate 4 Band.reset }

def SmsConfig.reset : SmsConfig := ⟨false, 0#32, 0#2, 0#3, false⟩
def Sms.reset : Sms := ⟨SmsConfig.reset, [], []⟩
def Lease.reset : Lease := ⟨none, 0, none, 0#4, 0#4, 0⟩

def Tender.reset : Tender :=
  { running := false, pc := 0#52, pend := [], g := Vector.replicate 32 0#64, work := none
    err := false, quar := false, tsel := 0#2, rm := false, troot := 0#64, tvec := 0#52
    tsave := 0#52, swcBusy := false, swcErr := false, pendNotice := false, ceil := 2#2
    evrow := 0#17, even := false, evReset := false, evCount := 0#64, profEn := false
    profBase := 0#17, profCount := 0#64, prof := [], profSince := 0, waited := [], mdef := 0#7 }

def Span.reset : Span :=
  { recks := Vector.replicate 4 Reckoner.reset, node := none, nreck := 0, xroot := 0#64
    tcfg := Vector.replicate 16 0#32, tiles := Vector.replicate 16 Tile.reset
    tileBank := Vector.replicate 16 Bank.off, books := Vector.replicate 8 none
    arr := Vector.replicate 2 ArraySt.reset, sms := Sms.reset, ashape := 0xFF#8, bgidle := 4096#16, bgidleOn := 4096#16
    lease := Lease.reset, kserved := Vector.replicate 2 none, live := []
    spadBank := Vector.replicate 128 Bank.off, touched := [], tlb := [], staleTlb := [], icache := [], clock := 0
    cap := 512#16, step := 0#2, fall := false, ceil := 2#2, volt := 0, margin := none, repl := false
    idleSince := 0, snaps := [], rowsOrd := [], rowFatal := none, switching := false, tender := Tender.reset }

def Window.reset : Window := ⟨Vector.replicate 16 0#64, 0#16, 0#4⟩
def Link.reset : Link := ⟨0#4, 0#2, 0, 0#16, 0#12, [], 0#12, [], [], false⟩

def Fabric.reset : Fabric :=
  { dev := 0#8, enumerated := false, vdmem := 0#256, vgrp := [], vgrpOn := [], vwin := [], vwinOn := [], thresh := 1024#16
    link := Vector.replicate 16 Link.reset, updates := [], arrived := [], requests := [] }

def Trust.reset : Trust :=
  { verified := false, measured := [], production := true, maker := 0#32, issued := 0, versioned := false
    negotiated := false, sessions := [], opened := 0, out := [] }

def Cur.reset : Cur := ⟨0#7, .reck 0#2, none, false⟩

/-- The package right after power-on or a package reset (R15): every Span idle, memory with nothing
listed. -/
def State.reset : State :=
  { spans := Vector.replicate 128 Span.reset, mem := [], marks := [], walks := [], errors := []
    errCount := Vector.replicate 4 0#64, boot := 0, excluded := 0#8, nodes := [], nextNode := 0
    nextOrder := 0, windows := Vector.replicate 32 Window.reset, pmax := 2000#32, victim := none
    inval := ⟨0#52, 0#64, false, false⟩, fabric := Fabric.reset
    ports := Vector.replicate 8 ⟨false, 0#2, []⟩, hpnet := 0#3, hplock := false
    interval := 0, permits := Vector.replicate 4 ⟨64#7, none, 0⟩, trust := Trust.reset
    cserved := Vector.replicate 4 none, qserved := Vector.replicate 4 none, free := 0
    cur := Cur.reset, access := none, defer := false, images := [], agenda := [], turn := 0 }

end Sys2Proof.Machine
end

