-- ==== Sys2Proof/Machine/Flits.lean ====
section
/-! DEFINITION. The sender's side of a Viaduct link (R380), and the accesses of the ordered class that wait for the
response of another device (R381). -/

namespace Sys2Proof.Machine

/-- A link is up (R384). -/
def Link.up (l : Link) : Bool := l.state == 2#2

/-- The link that carries new traffic: the lowest that is up (log 11). -/
def upLink (s : State) : Option (Fin 16) := (List.finRange 16).find? (fun i => s.fabric.link[i].up)

/-- A link changed. -/
def mapLink (i : Fin 16) (f : Link → Link) (s : State) : State :=
  { s with fabric := { s.fabric with link := s.fabric.link.set i (f s.fabric.link[i]) } }

/-- A flit that waits takes the next number and enters the replay buffer, where it stays until it is acknowledged
(R380). -/
def Link.push (src : BitVec 8) (w : BitVec 8 × FlitBody) (l : Link) : Link :=
  { l with send := l.send + 1#12, buffer := l.buffer ++ [⟨src, w.1, l.send, true, w.2⟩] }

/-- The flits that wait enter the replay buffer in their order, as long as the numbers under way stay apart from those
accepted (R380, log 11). -/
def Link.fill (src : BitVec 8) (l : Link) : Link :=
  let n := Config.replayFlits - l.buffer.length
  { (l.queue.take n).foldl (fun l w => Link.push src w l) l with queue := l.queue.drop n }

/-- A flit for another device. With no link up there is none to carry it (R385). -/
def sendFlit (dst : BitVec 8) (b : FlitBody) (s : State) : State :=
  if dst == s.fabric.dev then s
  else match upLink s with
    | some i => mapLink i (fun l => Link.fill s.fabric.dev { l with queue := l.queue ++ [(dst, b)] }) s
    | none => s

/-! ### Requests (R381) -/

/-- The requests to other devices changed. -/
def mapRequests (f : List Request → List Request) (s : State) : State :=
  { s with fabric := { s.fabric with requests := f s.fabric.requests } }

/-- A response answers what was sent to the address that it names. -/
def answers (resp sent : FlitBody) : Bool :=
  match resp, sent with
  | .data a _, .load b => a == b
  | .old a _, .atomic b _ _ _ => a == b
  | .stored a, .store b _ _ => a == b
  | .failed a _, .load b => a == b
  | .failed a _, .atomic b _ _ _ => a == b
  | .failed a _, .store b _ _ => a == b
  | _, _ => false

/-- A response of a device answers the oldest request to it that it fits: the ordered class keeps the issue order
(R381). One that nobody waits for any more goes. -/
def answerFirst (dev : BitVec 8) (resp : FlitBody) : List Request → List Request
  | [] => []
  | q :: l =>
    if q.dev == dev && q.answer.isNone && answers resp q.sent then
      if q.who.isNone then l else { q with answer := some resp } :: l
    else q :: answerFirst dev resp l

/-- The request that an access has made for a virtual address, to read it or to write it. -/
def sentFor (w : Access) (va : W64) (wr : Bool) (s : State) : Option Request :=
  s.fabric.requests.find? (fun q => q.who == some w && q.va == va && q.wr == wr)

/-- A link to the switches is left (R385). -/
def linkLeft (s : State) : Bool := s.fabric.link.any (fun l => l.state == 2#2)

/-- The requests that some access has made are done with. -/
def forget (w : Access) (s : State) : State :=
  { mapRequests (fun l => l.filter (fun q => q.who != some w)) s with access := none }

/-- Requests that nobody waits for any more: answered ones go, the others stay until their response comes. -/
def orphan (gone : Access → Bool) (s : State) : State :=
  mapRequests (fun l => (l.filter (fun q => !(q.who.any gone && q.answer.isSome))).map (fun q =>
    if q.who.any gone then { q with who := none } else q)) s

end Sys2Proof.Machine
end

