-- ==== Sys2Proof/Machine/Mem.lean ====
section
/-! DEFINITION. Memory and its rows (R2, R102, R104, R105, R121), the banks of a Span and their wakes
(R184, R192 to R196), the liveness of scratchpad rows (R189, R191), and what an access answers. -/

namespace Sys2Proof.Machine

/-! ### Bytes -/

/-- What an unlisted address reads as (log 4). -/
def Memory.default : Byte := 0#8

/-- The byte at an address. -/
def Memory.get : Memory → Nat → Byte
  | [], _ => Memory.default
  | (k, v) :: m, a => if k = a then v else Memory.get m a

/-- Memory with one byte written; writing the default removes the entry. -/
def Memory.put : Memory → Nat → Byte → Memory
  | [], a, b => if b = Memory.default then [] else [(a, b)]
  | (k, v) :: m, a, b =>
    if a < k then (if b = Memory.default then (k, v) :: m else (a, b) :: (k, v) :: m)
    else if a = k then (if b = Memory.default then m else (a, b) :: m)
    else (k, v) :: Memory.put m a b

/-- The canonical form: addresses strictly rising, no listed default. -/
def Memory.wf : Memory → Bool
  | [] => true
  | [(_, v)] => v != Memory.default
  | (k, v) :: (k', v') :: m => v != Memory.default && decide (k < k') && Memory.wf ((k', v') :: m)

/-- `n` bytes from an address, little-endian (R17). -/
def Memory.nat (m : Memory) (a : Nat) : Nat → Nat
  | 0 => 0
  | n + 1 => (m.get a).toNat + 256 * m.nat (a + 1) n

/-- The low `n` bytes of a number stored from an address, those of `mask` only. -/
def Memory.putNat (m : Memory) (a : Nat) (mask v : Nat) : Nat → Memory
  | 0 => m
  | n + 1 =>
    (if mask % 2 = 1 then m.put a (BitVec.ofNat 8 v) else m).putNat (a + 1) (mask / 2) (v / 256) n

/-- A row by its number. -/
def Memory.row (m : Memory) (r : Nat) : Row := BitVec.ofNat 1024 (m.nat (128 * r) 128)

/-- A masked row write: byte j is written when bit j of the mask is set. -/
def Memory.putRow (m : Memory) (r : Nat) (mask : BitVec 128) (v : Row) : Memory :=
  m.putNat (128 * r) mask.toNat v.toNat 128

/-- Eight bytes (R109, R137). -/
def Memory.w64 (m : Memory) (a : Nat) : W64 := BitVec.ofNat 64 (m.nat a 8)

/-- The byte mask of `n` bytes from byte `o` of a row. -/
def byteMask (o n : Nat) : BitVec 128 := BitVec.ofNat 128 ((2 ^ n - 1) * 2 ^ o)

/-- A value placed at byte `o` of a row. -/
def atByte (o : Nat) (v : Nat) : Row := BitVec.ofNat 1024 (v * 2 ^ (8 * o))

/-! ### The physical map (R105) -/

/-- What an address of a device's own map holds. -/
inductive Place where
  | hbm | deck | spad (n : BitVec 7) | regs | cxl | hole
  deriving DecidableEq, Repr

/-- R105 and R379, for an address below 2^51. -/
def placeOwn (s : State) (pa : Nat) : Place :=
  if pa < 0x8000000000 then
    if s.excluded.getLsbD (pa / 0x1000000000) then .hole else .hbm
  else if 0x10000000000 ≤ pa && decide (pa < 0x10200000000) then
    if (pa - 0x10000000000) % 0x80000000 < 0x60000000 then .deck else .hole
  else if 0x14000000000 ≤ pa && decide (pa < 0x14080000000) then
    .spad (BitVec.ofNat 7 ((pa - 0x14000000000) / 0x1000000))
  else if 0x18000000000 ≤ pa && decide (pa < 0x18010000000) then .regs
  else if 0x40000000000 ≤ pa && decide (pa < 0x80000000000) &&
      s.ports.toList.any (fun p => p.cxl && p.hdm.any (fun d => decide (d.1 ≤ pa) && decide (pa < d.1 + d.2)))
    then .cxl
  else .hole

/-- Bit 51: a fabric address (R107). -/
def isFabric (pa : Nat) : Bool := decide (2 ^ 51 ≤ pa)
/-- The home device of a fabric address. -/
def fabricDev (pa : Nat) : BitVec 8 := BitVec.ofNat 8 (pa / 2 ^ 43)
/-- Where the row of an address lies in the memory of the package: a fabric address that names this device is
served, over the fabric, from its own map (R107). -/
def homeAddr (s : State) (pa : Nat) : Nat :=
  if isFabric pa && fabricDev pa == s.fabric.dev then pa % 2 ^ 43 else pa
/-- What stands at an address at its home. Another device is taken to have the map of this one (R105,
R107), every CXL address of it covered (log 11). -/
def place (s : State) (pa : Nat) : Place :=
  if isFabric pa then
    let a := pa % 2 ^ 43
    if fabricDev pa == s.fabric.dev then placeOwn s a
    else if 0x40000000000 ≤ a && decide (a < 0x80000000000) then .cxl
    else placeOwn { s with excluded := 0#8 } a
  else placeOwn s pa

/-- The port of a CXL row of this device is not up (R379), whatever the path to it (R107). -/
def cxlDown (s : State) (pa : Nat) : Bool :=
  let pa := homeAddr s pa
  decide (0x40000000000 ≤ pa) && decide (pa < 0x80000000000) &&
  s.ports.toList.any (fun p => p.cxl && p.state != 2#2 &&
    p.hdm.any (fun d => decide (d.1 ≤ pa) && decide (pa < d.1 + d.2)))

/-- A row that no access reaches: its CXL port is not up (R379), or it lies on another device and no link to
the switches remains (R385). -/
def unreachable (s : State) (pa : Nat) : Bool :=
  cxlDown s pa || (isFabric pa && s.fabric.link.all (fun l => l.state != 2#2))

/-- A row of another device: its accesses go out in flits of the ordered class (R381). -/
def remote (s : State) (pa : Nat) : Bool := isFabric pa && fabricDev pa != s.fabric.dev

/-- The physical address of a local offset of a Span (R105). -/
def spadAddr (sp : BitVec 7) (off : BitVec 24) : Nat := 0x14000000000 + sp.toNat * 0x1000000 + off.toNat

/-! ### Spans and Reckoners in the state -/

def State.span (s : State) (sp : BitVec 7) : Span := s.spans[sp.toNat]'(by have := sp.isLt; omega)
def State.setSpan (s : State) (sp : BitVec 7) (x : Span) : State :=
  { s with spans := s.spans.set sp.toNat x (by have := sp.isLt; omega) }
def Span.reck (x : Span) (r : BitVec 2) : Reckoner := x.recks[r.toNat]'(by have := r.isLt; omega)
def Span.setReck (x : Span) (r : BitVec 2) (k : Reckoner) : Span :=
  { x with recks := x.recks.set r.toNat k (by have := r.isLt; omega) }
def State.reck (s : State) (sp : BitVec 7) (r : BitVec 2) : Reckoner := (s.span sp).reck r
def State.setReck (s : State) (sp : BitVec 7) (r : BitVec 2) (k : Reckoner) : State :=
  s.setSpan sp ((s.span sp).setReck r k)
/-- RID[8:0] (R10). -/
def ridOf (sp : BitVec 7) (r : BitVec 2) : BitVec 9 := sp ++ r

/-! ### What an access answers -/

/-- An access or a body: done with a value, held (a state in which it will be tried again), or met by
a fault. -/
inductive Out (α : Type) where
  | ok (a : α) (s : State)
  | hold (s : State)
  | trap (f : Flt) (s : State)

/-- A fault leaves nothing done; what has become of its requests to other devices stands. -/
def wholeOr (s0 : State) : Out Unit → Out Unit
  | .trap f s => .trap f { s0 with fabric := s.fabric }
  | x => x

def Out.bind {α β : Type} (x : Out α) (k : α → State → Out β) : Out β :=
  match x with
  | .ok a s => k a s
  | .hold s => .hold s
  | .trap f s => .trap f s

/-- The state of an answer, whichever it is. -/
def Out.st {α : Type} : Out α → State
  | .ok _ s => s
  | .hold s => s
  | .trap _ s => s

/-- Two banks made ready together: where the first has to wake, the wake of the second starts as well, and the requester
waits for both (R196, log 35). -/
def Out.also (x : Out Unit) (k : State → Out Unit) : Out Unit :=
  match x with
  | .ok _ s => k s
  | .hold s => .hold (k s).st
  | .trap f s => .trap f s

def Out.map {α β : Type} (x : Out α) (f : α → β) : Out β := x.bind fun a s => .ok (f a) s

/-- A fault of a cause that names nothing. -/
def flt (cause : BitVec 8) : Flt := ⟨cause, 0#64, 0#64, 0#5, 0#5, 7#3, false, false⟩
/-- A fault that names an address or operand. -/
def fltAt (cause : BitVec 8) (addr : W64) : Flt := { flt cause with addr := addr }
/-- A fault that names an item (R346). -/
def fltItem (cause : BitVec 8) (item addr : W64) : Flt := { flt cause with item := item, addr := addr }

/-! The causes of R339. -/
def cILL : BitVec 8 := 0x01#8
def cILLPREFIX : BitVec 8 := 0x02#8
def cREPX : BitVec 8 := 0x03#8
def cDEAD : BitVec 8 := 0x04#8
def cXLATE : BitVec 8 := 0x05#8
def cPROT : BitVec 8 := 0x06#8
def cADDR : BitVec 8 := 0x07#8
def cRACE : BitVec 8 := 0x08#8
def cATOMX : BitVec 8 := 0x09#8
def cSCALEMIS : BitVec 8 := 0x0A#8
def cECC : BitVec 8 := 0x0B#8
def cSWTRAP : BitVec 8 := 0x0C#8
def cBRK : BitVec 8 := 0x0D#8
def cLEASE : BitVec 8 := 0x0E#8
def cQPROTO : BitVec 8 := 0x0F#8

/-- ITEM of a record (R346). -/
def itemOf (kind arr num row col blk : Nat) : W64 :=
  BitVec.ofNat 64 (kind * 2 ^ 60 + arr % 2 * 2 ^ 32 + num % 256 * 2 ^ 24 + row % 256 * 2 ^ 16
    + col % 256 * 256 + blk % 256)

/-- DEAD, naming an item. -/
def deadItem (kind arr num row col blk : Nat) : Flt := fltItem cDEAD (itemOf kind arr num row col blk) 0#64

/-! ### Tables by number -/

/-- The entry of a sparse table. -/
def Table.find? {α : Type} : Table α → Nat → Option α
  | [], _ => none
  | (k, v) :: t, a => if k = a then some v else Table.find? t a

/-- A table with an entry put in, numbers kept rising. -/
def Table.put {α : Type} : Table α → Nat → α → Table α
  | [], a, b => [(a, b)]
  | (k, v) :: t, a, b =>
    if a < k then (a, b) :: (k, v) :: t
    else if a = k then (a, b) :: t
    else (k, v) :: Table.put t a b

/-- A table without an entry. -/
def Table.del {α : Type} (t : Table α) (a : Nat) : Table α := t.filter (fun e => e.1 != a)

/-- A number put into a rising list. -/
def insertNat : List Nat → Nat → List Nat
  | [], a => [a]
  | k :: t, a => if a < k then a :: k :: t else if a = k then k :: t else k :: insertNat t a

/-! ### Banks (R184, R192 to R196) -/

def Span.bank (x : Span) : BankName → Bank
  | .vbank r i => (x.reck r).vbank[i.toNat]'(by have := i.isLt; omega)
  | .tile i => x.tileBank[i.toNat]'(by have := i.isLt; omega)
  | .acc a i => (x.arr[a.toNat]'(by have := a.isLt; omega)).accBank[i.toNat]'(by have := i.isLt; omega)
  | .spad i => x.spadBank[i.toNat]'(by have := i.isLt; omega)

def Span.setBank (x : Span) (n : BankName) (b : Bank) : Span :=
  match n with
  | .vbank r i =>
    x.setReck r { x.reck r with vbank := (x.reck r).vbank.set i.toNat b (by have := i.isLt; omega) }
  | .tile i => { x with tileBank := x.tileBank.set i.toNat b (by have := i.isLt; omega) }
  | .acc a i =>
    let ar := x.arr[a.toNat]'(by have := a.isLt; omega)
    let ar' := { ar with accBank := ar.accBank.set i.toNat b (by have := i.isLt; omega) }
    { x with arr := x.arr.set a.toNat ar' (by have := a.isLt; omega) }
  | .spad i => { x with spadBank := x.spadBank.set i.toNat b (by have := i.isLt; omega) }

/-- At least one item of the bank is live. -/
def Span.bankLive (x : Span) : BankName → Bool
  | .vbank r i => (x.reck r).vlive.extractLsb' (8 * i.toNat) 8 != 0#8
  | .tile i => !(x.tiles[i.toNat]'(by have := i.isLt; omega)).live.isEmpty
  | .acc a i =>
    !((x.arr[a.toNat]'(by have := a.isLt; omega)).acc[i.toNat]'(by have := i.isLt; omega)).rows.isEmpty
  | .spad i => x.live.any (fun k => k % 128 == i.toNat)

/-- Wake latencies (R193). -/
def wakeOf : BankName → Nat
  | .vbank _ _ => Config.wakeReg
  | .tile _ => Config.wakeTile
  | .acc _ _ => Config.wakeTile
  | .spad _ => Config.wakeSpad

/-- The Reckoners of the node on a Span (R331). -/
def nodeRecks (x : Span) : List (BitVec 2) := ((List.range x.nreck).map (BitVec.ofNat 2)).take 4

/-- A V result or a timed load on its way into a bank (R192, R196). -/
def writeInFlight (x : Span) (n : BankName) : Bool :=
  match n with
  | .vbank r i =>
    let k := x.reck r
    k.landings.any (fun l =>
      match l.dest with
      | .vreg d => d.extractLsb' 3 2 == i
      | .accRead d _ _ _ _ => d.extractLsb' 3 2 == i
      | _ => false) ||
    k.buffer.any (fun b => b.stream == .V && b.dest.extractLsb' 3 2 == i)
  | .tile i =>
    x.recks.toList.any (fun k => k.landings.any (fun l => match l.dest with | .tile t _ _ => t == i | _ => false))
  | _ => false

/-- The Reckoners whose idle times bind the shared banks of a Span: those of the node that have not retired
(R194). -/
def bindingRecks (x : Span) : List Reckoner := ((nodeRecks x).map x.reck).filter (fun k => k.run != .retired)

/-- The largest idle time, where 0 is above any other (R194); the reset value when no Reckoner binds. -/
def largestIdle (rst : Nat) (l : List Nat) : Nat :=
  if l.isEmpty then rst else if l.contains 0 then 0 else l.foldl max 0

/-- BRET and BOFF, as in force on this clock, for a bank (R194). -/
def bankBret (x : Span) : BankName → Nat
  | .vbank r _ => (x.reck r).bretOn.toNat
  | _ => largestIdle 1024 ((bindingRecks x).map (fun k => k.bretOn.toNat))
def bankBoff (x : Span) : BankName → Nat
  | .vbank r _ => (x.reck r).boffOn.toNat
  | _ => largestIdle 64 ((bindingRecks x).map (fun k => k.boffOn.toNat))

/-- A bank whose wake has run its latency is FULL; its idle clocks count from the end of the wake (R192). -/
def Bank.woken (b : Bank) (clock : Nat) : Bank :=
  match b.wake with
  | some t => if t ≤ clock then { b with st := .full, wake := none, used := max b.used (t - 1) } else b
  | none => b

/-- A bank of a Span, its wake settled. -/
def Span.wokenBank (x : Span) (n : BankName) : Bank := (x.bank n).woken x.clock

/-- The idle count of the bank runs on this clock: no wake of it is in progress and no write to it is in flight
(R192). -/
def bankIdle (x : Span) (n : BankName) : Bool := (x.wokenBank n).wake.isNone && !writeInFlight x n

/-- R195: so many idle clocks have passed since a clock, where 0 means never. -/
def idleFor (clock since count : Nat) : Bool := decide (0 < count) && decide (since + count < clock)

/-- A SPHINT retain is pending, and an idle clock has passed since (R195). -/
def markDue (b : Bank) (clock : Nat) : Bool := b.mark.any (fun m => decide (max (b.used + 1) m < clock))

/-- R195: a FULL bank with a live item has reached BRET, or is marked and has been idle. -/
def retainDue (x : Span) (n : BankName) : Bool :=
  let b := x.wokenBank n
  b.st == .full && (markDue b x.clock || idleFor x.clock b.used (bankBret x n)) && x.bankLive n && bankIdle x n

/-- R195: a bank whose items are all dead has reached BOFF, or is marked and has been idle. The clock on which the last item
dies is not itself counted (log 60). -/
def offDue (x : Span) (n : BankName) : Bool :=
  let b := x.wokenBank n
  b.st != .off && (markDue b x.clock || idleFor x.clock (max b.used b.died) (bankBoff x n)) && !x.bankLive n && bankIdle x n

/-- The bank as it stands on this clock: its wake ended, and RETAIN or OFF from the clock after its idle time is
reached (R195); where a CSRW has lowered BRET or BOFF below the count already reached, from the first clock on which the
new value is in force (log 47). -/
def Span.dueBank (x : Span) (n : BankName) : Bank :=
  let b := x.wokenBank n
  if retainDue x n then { b with st := .retain, mark := none }
  else if offDue x n then { b with st := .off, mark := none }
  else b

/-- An access to a bank: served when it is FULL; else the wake is started, or goes on, and the requester waits
(R195, R196). -/
def useBank (sp : BitVec 7) (n : BankName) (s : State) : Out Unit :=
  let x := s.span sp
  let b := x.dueBank n
  match b.st, b.wake with
  | .full, _ => .ok () (s.setSpan sp (x.setBank n { b with used := x.clock }))
  | _, some _ => .hold s
  | _, none => .hold (s.setSpan sp (x.setBank n { b with wake := some (x.clock + wakeOf n) }))

/-- A write lands in a bank, which stands as `b`, with no requester that could wait for it: the bank counts as used where
it is FULL, and wakes where it is not, FULL after the wake latency (R195, log 18). -/
def Span.landBank (x : Span) (n : BankName) (b : Bank) : Span :=
  match b.st, b.wake with
  | .full, _ => x.setBank n { b with used := x.clock }
  | _, some _ => x.setBank n b
  | _, none => x.setBank n { b with wake := some (x.clock + wakeOf n) }

/-- Writes in flight to some banks are discarded: up to this clock those banks were not idle (R192). -/
def unwritten (ns : List BankName) (x : Span) : Span :=
  ns.foldl (fun x n => if writeInFlight x n then x.setBank n { x.dueBank n with used := x.clock } else x) x

/-- Items of a bank die on this clock, as `kill` says; its supply state stands as it is due, and the count of BOFF is not
set back where every item was dead before (R195). -/
def bankDied (sp : BitVec 7) (n : BankName) (kill : Span → Span) (s : State) : State :=
  let x := s.span sp
  let b := x.dueBank n
  s.setSpan sp ((kill x).setBank n (if x.bankLive n then { b with died := x.clock } else b))

/-- A bank after an attempt that holds on a clock: the wakes it has started or seen end stand, but nothing has been
read or written (R192). That a CWAIT which holds counts as no access of its row either is log 48. -/
def spareBank (clock : Nat) (old new : Bank) : Bank := { new with used := (old.woken clock).used }

/-- The banks of a Span after an attempt that holds. -/
def spareSpan (x y : Span) : Span :=
  { y with
    recks := Vector.ofFn (fun (r : Fin 4) =>
      { y.recks[r] with vbank := Vector.zipWith (spareBank x.clock) x.recks[r].vbank y.recks[r].vbank })
    tileBank := Vector.zipWith (spareBank x.clock) x.tileBank y.tileBank
    arr := Vector.ofFn (fun (a : Fin 2) =>
      { y.arr[a] with accBank := Vector.zipWith (spareBank x.clock) x.arr[a].accBank y.arr[a].accBank })
    spadBank := Vector.zipWith (spareBank x.clock) x.spadBank y.spadBank }

/-- An attempt of the core that runs, made from a state: where it holds, it has used no bank; a CWAIT that holds, and
looks at its row again on every clock, keeps no bank from idling either (R139, log 48). -/
def sparing {α : Type} (s : State) : Out α → Out α
  | .hold t => .hold (t.setSpan s.cur.sp (spareSpan (s.span s.cur.sp) (t.span s.cur.sp)))
  | x => x

/-! ### Rows of memory and their errors (R121) -/

/-- The die whose error counters count a row (R121): HBM4E stacks 2d and 2d + 1, deck SRAM d, and the
scratchpads of span die d. -/
def dieOf (pa : Nat) : Nat :=
  if pa < 0x8000000000 then pa / 0x2000000000
  else if 0x14000000000 ≤ pa then (pa - 0x14000000000) / 0x20000000 % 4
  else (pa - 0x10000000000) / 0x80000000 % 4

/-- A single-bit error of a row corrected and counted. -/
def correctRow (r : Nat) (s : State) : State :=
  match Table.find? s.errors r with
  | some .single =>
    let die := dieOf (128 * r) % 4
    { s with errors := Table.del s.errors r
             errCount := s.errCount.set die (s.errCount[die]'(Nat.mod_lt _ (by omega)) + 1#64)
               (Nat.mod_lt _ (by omega)) }
  | _ => s

/-- ECC of a row access, with the physical address of the row. -/
def eccAt (pa : Nat) (wr : Bool) : Flt := { fltAt cECC (BitVec.ofNat 64 (128 * (pa / 128))) with wr := wr }

/-- A row that can be reached is met at its home: an error that cannot be corrected raises ECC with the physical
address; a single-bit error is corrected and counted. A poisoned CXL row is taken as one with an uncorrectable error
(log 37). -/
def meetRow (pa : Nat) (wr : Bool) (s : State) : Out Unit :=
  let r := homeAddr s pa / 128
  match Table.find? s.errors r with
  | none => .ok () s
  | some .single => .ok () (correctRow r s)
  | some _ => .trap (eccAt pa wr) s

/-- Of a command's requests, those that an earlier unit of it has seen answered are done with. -/
def pastUnits (w : Access) (l : List Request) : List Request :=
  l.filter (fun q => !(q.answer.isSome && q.who.any (fun v =>
    (v.stream == .C || v.stream == .Q) && v.thread == w.thread && v.stream == w.stream && v != w)))

/-- Level of a page by its size. -/
def levelOf (size : Nat) : BitVec 3 :=
  if size = 0x10000 then 0#3 else if size = 0x2000000 then 1#3 else 2#3

/-- What the home of a row reports is the fault of the access (R107): ECC names the physical row; PROT names the virtual
address and the level of its leaf (R112). -/
def homeFault (q : Request) (pa : Nat) (wr : Bool) (c : BitVec 8) : Flt :=
  if c == cECC then eccAt pa wr
  else if c == cPROT then { fltAt c q.va with wr := wr, level := q.page.elim 7#3 (fun p => levelOf p.size) }
  else { fltAt c (BitVec.ofNat 64 pa) with wr := wr }

/-- An access to another device: it is sent once, as it stood then, and holds until the response comes (R112, R381). What
the home reports is its fault; one in flight when no link remains raises ECC (R385). -/
def askHome (pa : Nat) (wr : Bool) (b : FlitBody) (s : State) : Out FlitBody :=
  let dev := fabricDev pa
  match s.access with
  | none => .trap (eccAt pa wr) s
  | some v =>
    match sentFor v.who v.va wr s with
    | some q =>
      match q.answer with
      | some (.failed _ c) => .trap (homeFault q pa wr c) s
      | some r => .ok r s
      | none => if linkLeft s then .hold s else .trap (eccAt pa wr) s
    | none =>
      if linkLeft s then
        .hold (mapRequests (fun l => pastUnits v.who l ++ [⟨some v.who, dev, b, none, v.va, wr, pa, v.page, v.stale⟩])
          (sendFlit dev b s))
      else .trap (eccAt pa wr) s

/-- The row in a response. -/
def flitRow : FlitBody → Row
  | .data _ d => d
  | _ => 0#1024

/-- Reading a row at its home. -/
def readRowAt (pa : Nat) (s : State) : Out Row :=
  if remote s pa then (askHome pa false (.load (BitVec.ofNat 43 pa)) s).map flitRow
  else if unreachable s pa then .trap (eccAt pa false) s
  else (meetRow pa false s).map fun _ => s.mem.row (homeAddr s pa / 128)

/-- A masked row write at its home. A partial store reads the row that it merges into; a whole one rewrites the row
with fresh check bits, whatever error it had (R121). Once performed, a write is seen by every later access of any agent
(log 6). -/
def writeRowAt (pa : Nat) (mask : BitVec 128) (v : Row) (s : State) : Out Unit :=
  let r := homeAddr s pa / 128
  if remote s pa then (askHome pa true (.store (BitVec.ofNat 43 pa) mask v) s).map fun _ => ()
  else if unreachable s pa then .trap (eccAt pa true) s
  else
    match Table.find? s.errors r with
    | none => .ok () { s with mem := s.mem.putRow r mask v }
    | some _ =>
      if mask == BitVec.allOnes 128 then .ok () { s with mem := s.mem.putRow r mask v, errors := Table.del s.errors r }
      else (meetRow pa true s).bind fun _ s => .ok () { s with mem := s.mem.putRow r mask v }

/-! ### The scratchpad (R102, R137, R191) -/

/-- The row number of a local offset within its Span. -/
def rowOf (off : BitVec 24) : Nat := off.toNat / 128
/-- The bank of a local offset: o[13:7]. -/
def spadBankOf (off : BitVec 24) : BankName := .spad (off.extractLsb' 7 7)
def rowLive (sp : BitVec 7) (off : BitVec 24) (s : State) : Bool := (s.span sp).live.contains (rowOf off)
/-- DEAD at a scratchpad row, with its local offset in ADDR (R346). -/
def deadRow (off : BitVec 24) : Flt :=
  fltItem cDEAD (itemOf 4 0 0 0 0 0) (BitVec.ofNat 64 (128 * rowOf off))

/-- A read of a scratchpad row: liveness first, then the wake (R191, R196). -/
def readSpad (sp : BitVec 7) (off : BitVec 24) (s : State) : Out Row :=
  if rowLive sp off s then
    (useBank sp (spadBankOf off) s).bind fun _ s => readRowAt (spadAddr sp off) s
  else .trap (deadRow off) s

/-- A scratchpad row made live: its bytes zero where nothing has been written since it was dead. The whole row is
rewritten, so an error that it had while dead goes with it, be the store that revives it partial or not (log 37). -/
def reviveRow (sp : BitVec 7) (off : BitVec 24) (s : State) : State :=
  if rowLive sp off s then s
  else
    let x := s.span sp
    let x' := { x with live := insertNat x.live (rowOf off), touched := insertNat x.touched (rowOf off / 512) }
    { s.setSpan sp x' with
      mem := s.mem.putRow (spadAddr sp off / 128) (BitVec.allOnes 128) 0#1024
      errors := Table.del s.errors (spadAddr sp off / 128) }

/-- A masked write of a scratchpad row (R102): the row becomes live. -/
def writeSpad (sp : BitVec 7) (off : BitVec 24) (mask : BitVec 128) (v : Row) (s : State) : Out Unit :=
  (useBank sp (spadBankOf off) s).bind fun _ s =>
    writeRowAt (spadAddr sp off) mask v (reviveRow sp off s)

/-- Every row of a scratchpad bank dies (R197). -/
def killSpadBank (sp : BitVec 7) (i : BitVec 7) (s : State) : State :=
  bankDied sp (.spad i) (fun x => { x with live := x.live.filter (fun k => k % 128 != i.toNat) }) s

end Sys2Proof.Machine
end

