-- ==== Sys2Proof/Machine/Translate.lean ====
section
/-! DEFINITION. Translation (R101, R107 to R117) and accesses to virtual addresses. -/

namespace Sys2Proof.Machine

/-- What an access asks of a translation: what it does, the places it may reach (R14), the tier its
PMEM asserts (R62), the cache policy, and whether a command ahead of a marker may use entries that an
invalidation has taken from new accesses (R119). -/
structure Ask where
  write : Bool
  fetch : Bool
  spadOk : Bool
  fabricOk : Bool
  regsOk : Bool
  space : Option (BitVec 3)
  policy : BitVec 2
  stale : Bool
  deriving DecidableEq, Repr

/-- Size of the page of a leaf by level (R109). -/
def pageSize : Nat → Nat
  | 0 => 0x10000
  | 1 => 0x2000000
  | _ => 0x400000000

/-- The index of a virtual address at a level (R109). -/
def tableIndex (va : BitVec 52) : Nat → Nat
  | 0 => (va.extractLsb' 16 9).toNat
  | 1 => (va.extractLsb' 25 9).toNat
  | 2 => (va.extractLsb' 34 9).toNat
  | _ => (va.extractLsb' 43 9).toNat

/-- Physical address of a leaf's frame for a virtual address. -/
def frameAddr (leaf : W64) (size : Nat) (va : BitVec 52) : Nat :=
  (leaf.extractLsb' 16 36).toNat * 0x10000 + va.toNat % size

/-- Malformed in itself (R112 check 3): a reserved bit, a leaf at level 3 or a table at level 0, a table
entry that grants something, a frame misaligned for its page. -/
def malformed (lvl : Nat) (e : W64) : Bool :=
  e.extractLsb' 52 12 != 0#12 ||
  (if e.getLsbD 3 then
     lvl == 3 || e.extractLsb' 8 8 != 0#8 ||
     (lvl == 1 && e.extractLsb' 16 9 != 0#9) || (lvl == 2 && e.extractLsb' 16 18 != 0#18)
   else lvl == 0 || e.extractLsb' 1 11 != 0#11)

/-- The leaf's TIER agrees with the place its row lies in (R110). -/
def tierAgrees (s : State) (leaf : W64) (pa : Nat) (regsOk : Bool) : Bool :=
  let t := (leaf.extractLsb' 4 2).toNat
  if isFabric pa then t == 3 && place s pa != .hole && place s pa != .regs
  else match placeOwn s pa with
    | .hbm => t == 1
    | .deck => t == 0
    | .spad _ => t == 0
    | .regs => regsOk && t == 0
    | .cxl => t == 2
    | .hole => false

/-- A walk ended (R109, R112 checks 2 and 3 on each entry): the leaf and its level, or a fault. -/
inductive WalkEnd where
  | leaf (lvl : Nat) (e : W64)
  | bad (cause : BitVec 8) (lvl : Nat) (addr : Option Nat)

/-- The tables lie in deck SRAM or HBM4E (R109). -/
def tableOk (s : State) (pa : Nat) : Bool :=
  !isFabric pa && (placeOwn s pa == .hbm || placeOwn s pa == .deck)

/-- One level of the walk. `lvl` counts down; each entry is judged before the next table is read. A table outside
deck SRAM and HBM4E fails at the level of the entry that names it; a root there, which no entry names, at level 3
(log 38). -/
def walkFrom (s : State) (va : BitVec 52) : Nat → Nat → WalkEnd
  | lvl, table =>
    let a := table + 8 * tableIndex va lvl
    if !tableOk s a then .bad cPROT (min 3 (lvl + 1)) none
    else match Table.find? s.errors (a / 128) with
      | some .uncorrectable => .bad cECC lvl (some (a / 128 * 128))
      | some .poisoned => .bad cECC lvl (some (a / 128 * 128))
      | _ =>
        let e := s.mem.w64 a
        if !e.getLsbD 0 then .bad cXLATE lvl none
        else if malformed lvl e then .bad cPROT lvl none
        else if e.getLsbD 3 then .leaf lvl e
        else match lvl with
          | 0 => .bad cPROT 0 none
          | k + 1 => walkFrom s va k ((e.extractLsb' 12 40).toNat * 0x1000)

/-- The walk of a virtual address under a root (R108, R109). -/
def walk (s : State) (root : W64) (va : BitVec 52) : WalkEnd :=
  walkFrom s va 3 ((root.extractLsb' 12 40).toNat * 0x1000)

/-- The single-bit errors of the rows that the walk reads, corrected; it reads none below an entry that it cannot read
(R121). -/
def walkFix (va : BitVec 52) : Nat → Nat → State → State
  | lvl, table, s =>
    let a := table + 8 * tableIndex va lvl
    if !tableOk s a then s
    else match Table.find? s.errors (a / 128) with
    | some .uncorrectable => s
    | some .poisoned => s
    | _ =>
      let e := s.mem.w64 a
      let s := correctRow (a / 128) s
      if !e.getLsbD 0 || malformed lvl e || e.getLsbD 3 then s
      else match lvl with
        | 0 => s
        | k + 1 => walkFix va k ((e.extractLsb' 12 40).toNat * 0x1000) s

/-- Home device in the load-store domain (R107, R382). -/
def inDomain (s : State) (pa : Nat) : Bool :=
  fabricDev pa == s.fabric.dev || s.fabric.vdmem.getLsbD (fabricDev pa).toNat

/-- The tier code of PMEM SPACE in which an address lands (R103). -/
def spaceOf (s : State) (pa : Nat) : Option (BitVec 3) :=
  if isFabric pa then some 4#3
  else match placeOwn s pa with
    | .hbm => some 2#3
    | .deck => some 1#3
    | .spad _ => some 0#3
    | .cxl => some 3#3
    | _ => none

/-- Checks 3 to 8 of R112 on a leaf and the row the access reaches: the physical address, or the fault. -/
def leafCheck (s : State) (q : Ask) (leaf : W64) (pa : Nat) : Option (BitVec 8 × Bool) :=
  let spadFrame := match place s pa with | .spad _ => true | _ => false
  if isFabric pa && !s.fabric.enumerated then
    if (leaf.extractLsb' 4 2) != 3#2 then some (cPROT, false) else some (cXLATE, false)
  else if !tierAgrees s leaf pa q.regsOk then some (cPROT, false)
  else if isFabric pa && !inDomain s pa then some (cPROT, false)
  else if leaf.getLsbD 6 then some (cXLATE, true)
  else if q.write && !leaf.getLsbD 1 then some (cPROT, false)
  else if q.fetch && !leaf.getLsbD 2 then some (cPROT, false)
  else if q.fetch && (spadFrame || isFabric pa) then some (cPROT, false)
  else if !q.spadOk && spadFrame then some (cADDR, false)
  else if !q.fabricOk && isFabric pa then some (cADDR, false)
  else if q.space.isSome && q.space != spaceOf s pa then some (cADDR, false)
  else none

/-! ### The translation cache of a Span (R115) -/

/-- The entry of a cache that holds an address under an ASID. -/
def tlbFind (t : List TlbEntry) (asid : BitVec 12) (va : BitVec 52) : Option TlbEntry :=
  t.find? (fun e => e.asid == asid && decide (e.base ≤ va.toNat) && decide (va.toNat < e.base + e.size))

/-- Which entry goes first (R115): another ASID, then stream, then unmarked, then keep; among equals the
oldest (log 13). -/
def victimRank (asid : BitVec 12) (e : TlbEntry) : Nat :=
  if e.asid != asid then 0 else if e.policy == 1#2 then 1 else if e.policy == 2#2 then 3 else 2

/-- The cache without its first entry of the least rank. The oldest entry stands last. -/
def tlbEvict (asid : BitVec 12) (t : List TlbEntry) : List TlbEntry :=
  match t.reverse with
  | [] => []
  | e :: r =>
    let v := r.foldl (fun v x => if victimRank asid x < victimRank asid v then x else v) e
    t.erase v

/-- A cache filled with an entry (R115: 512 entries). -/
def tlbFill (t : List TlbEntry) (e : TlbEntry) : List TlbEntry :=
  if Config.tlbEntries ≤ t.length then e :: tlbEvict e.asid t else e :: t

/-- The cache after a use of an entry under a policy: stream and keep mark it. -/
def tlbUse (t : List TlbEntry) (e : TlbEntry) (p : BitVec 2) : List TlbEntry :=
  if p == 0#2 then t else t.map (fun x => if x == e then { x with policy := p } else x)

/-- Outstanding translations of the die of a Span (R116). -/
def dieOutstanding (s : State) (sp : BitVec 7) : Nat :=
  (s.walks.flatMap (·.spans)).countP (fun n => n.toNat / 32 == sp.toNat / 32)

/-- The fault of a translation (R112, R345). -/
def xFlt (q : Ask) (va : W64) (cause : BitVec 8) (lvl : BitVec 3) (mig : Bool) : Flt :=
  { fltAt cause va with level := lvl, wr := q.write, mig := mig }

/-- The page of an entry. -/
def TlbEntry.page (e : TlbEntry) : Page := ⟨e.asid, e.base, e.size⟩

/-- A translated address: its physical home address, the race-watch bit of its leaf, its page. -/
structure Phys where
  pa : Nat
  watch : Bool
  page : Page
  deriving DecidableEq, Repr

/-- A walk for a root and a page from a Span of the same die (R116). -/
def walkJoins (sp : BitVec 7) (root : W64) (page : Nat) (w : Walk) : Bool :=
  w.page == page && w.root.extractLsb' 52 12 == root.extractLsb' 52 12 &&
  w.spans.any (fun n => n.toNat / 32 == sp.toNat / 32)

/-- What any access of a thread may do: a leaf that it faults on is a failed translation (R114). -/
def anyAsk : Ask := ⟨false, false, true, true, false, none, 0#2, false⟩

/-- The timed requests of a Span that wait for the walk of a page are resolved (R116). -/
def resolvePage (w : Walk) (x : Span) : Span :=
  if x.xroot.extractLsb' 52 12 == w.root.extractLsb' 52 12 then
    { x with recks := x.recks.map (fun k => { k with buffer := k.buffer.map (fun b =>
        if (b.addr.extractLsb' 0 52).toNat / 0x10000 == w.page then { b with missed := false } else b) }) }
  else x

/-- R116: walk `i` ends. It fills the cache of every Span that joined it; a failed one, or a leaf on which every access
of its page faults, records nothing (R114), and each joined access meets its own fault. -/
def finishWalk (i : Nat) (w : Walk) (s : State) : State :=
  let va : BitVec 52 := BitVec.ofNat 52 (w.page * 0x10000)
  let s := walkFix va 3 ((w.root.extractLsb' 12 40).toNat * 0x1000) { s with walks := s.walks.eraseIdx i }
  let s := w.spans.eraseDups.foldl (fun s n => s.setSpan n (resolvePage w (s.span n))) s
  match walk s w.root va with
  | .bad _ _ _ => s
  | .leaf lvl e =>
    if (leafCheck s anyAsk e (frameAddr e (pageSize lvl) va)).isSome then s
    else
      let size := pageSize lvl
      let entry : TlbEntry := ⟨w.root.extractLsb' 52 12, va.toNat / size * size, size, e, w.policy⟩
      w.spans.eraseDups.foldl (fun s n => s.setSpan n { s.span n with tlb := tlbFill (s.span n).tlb entry }) s

/-- A miss joins the walk of its page that is in progress, which ends with it (R116, log 5). -/
def joinWalk (sp : BitVec 7) (root : W64) (va : BitVec 52) (s : State) : State :=
  match s.walks.findIdx? (walkJoins sp root (va.toNat / 0x10000)) with
  | none => s
  | some i =>
    match s.walks[i]? with
    | none => s
    | some w => finishWalk i { w with spans := sp :: w.spans } s

/-- R112 on a virtual address under a root: the cache of the Span, the tender's accesses too (log 49), else a walk that
fills it (log 5). `room` says that the die has room for one more outstanding translation (R116). -/
def translateIn (room : Bool) (sp : BitVec 7) (root : W64) (q : Ask) (va : BitVec 52) (s : State) : Out Phys :=
  let x := s.span sp
  let asid := root.extractLsb' 52 12
  let full := va.zeroExtend 64
  let judge (leaf : W64) (size : Nat) (s : State) : Out Phys :=
    let pa := frameAddr leaf size va
    match leafCheck s q leaf pa with
    | some (c, mig) => .trap (xFlt q full c (levelOf size) mig) s
    | none => .ok ⟨pa, leaf.getLsbD 7, asid, va.toNat / size * size, size⟩ s
  let hit := (tlbFind x.tlb asid va).orElse
    (fun _ => if q.stale then tlbFind x.staleTlb asid va else none)
  match hit with
  | some e => judge e.leaf e.size (s.setSpan sp { x with tlb := tlbUse x.tlb e q.policy })
  | none =>
    if !room then .hold s
    else match tlbFind ((joinWalk sp root va s).span sp).tlb asid va with
    | some e =>
      let s := joinWalk sp root va s
      judge e.leaf e.size (s.setSpan sp { s.span sp with tlb := tlbUse (s.span sp).tlb e q.policy })
    | none =>
      let s := joinWalk sp root va s
      let s := walkFix va 3 ((root.extractLsb' 12 40).toNat * 0x1000) s
      match walk s root va with
      | .bad c lvl addr =>
        .trap (xFlt q (match addr with | some a => BitVec.ofNat 64 a | none => full) c (BitVec.ofNat 3 lvl) false) s
      | .leaf lvl e =>
        let size := pageSize lvl
        match leafCheck s q e (frameAddr e size va) with
        | some (c, mig) => .trap (xFlt q full c (BitVec.ofNat 3 lvl) mig) s
        | none =>
          judge e size (s.setSpan sp
            { s.span sp with tlb := tlbFill (s.span sp).tlb ⟨asid, va.toNat / size * size, size, e, q.policy⟩ })

/-- A translation whose miss, resolved in the step, would be one more outstanding translation of its die (R116). -/
def translateVa (sp : BitVec 7) (root : W64) (q : Ask) (va : BitVec 52) (s : State) : Out Phys :=
  translateIn (decide (dieOutstanding s sp < Config.dieWalks)) sp root q va s

/-- R101 for an access that takes a virtual address only, then R112. -/
def translate (sp : BitVec 7) (root : W64) (q : Ask) (a : W64) (s : State) : Out Phys :=
  if a.extractLsb' 52 12 != 0#12 then .trap { fltAt cADDR a with wr := q.write } s
  else translateVa sp root q (a.extractLsb' 0 52) s

/-- The translation of a timed request, which has counted as outstanding since its issue (R116). -/
def translateFree (sp : BitVec 7) (root : W64) (q : Ask) (a : W64) (s : State) : Out Phys :=
  if a.extractLsb' 52 12 != 0#12 then .trap { fltAt cADDR a with wr := q.write } s
  else translateIn true sp root q (a.extractLsb' 0 52) s

/-- A timed request whose translation has been resolved is outstanding no more: it leaves its walk, which goes on
for those still joined (R116). -/
def leaveWalk (sp : BitVec 7) (b : LandEntry) (s : State) : State :=
  let page := (b.addr.extractLsb' 0 52).toNat / 0x10000
  if !b.missed then s
  else match s.walks.findIdx? (fun w => walkJoins sp (s.span sp).xroot page w && w.spans.contains sp) with
  | none => s
  | some i =>
    let ws := s.walks.modify i (fun w => { w with spans := w.spans.erase sp })
    { s with walks := ws.filter (fun w => !w.spans.isEmpty) }

/-- Where a virtual address goes now: the cache, else the tables. -/
def peek (sp : BitVec 7) (root : W64) (va : BitVec 52) (s : State) : Option Nat :=
  match tlbFind (s.span sp).tlb (root.extractLsb' 52 12) va with
  | some e => some (frameAddr e.leaf e.size va)
  | none =>
    match walk s root va with
    | .leaf lvl e => some (frameAddr e (pageSize lvl) va)
    | .bad _ _ _ => none

/-! ### Rows by operand (R101, R157, R158) -/

/-- Where an address operand lies: a row of the issuing Span's scratchpad, or a physical row. -/
inductive Target where
  | spad (sp : BitVec 7) (off : BitVec 24)
  | phys (pa : Nat)
  deriving DecidableEq, Repr

/-- The physical address of a target. -/
def Target.addr : Target → Nat
  | .spad sp off => spadAddr sp off
  | .phys pa => pa

/-- A physical address as a target: a Span's scratchpad keeps its liveness and banks (R158). -/
def targetOf (s : State) (pa : Nat) : Target :=
  if isFabric pa then .phys pa
  else match placeOwn s pa with
    | .spad n => .spad n (BitVec.ofNat 24 pa)
    | _ => .phys pa

/-- An operand resolved for a command: the local form without translation, else R112. SPACE local
accepts the local form (R62, check 8). -/
def resolve (sp : BitVec 7) (root : W64) (q : Ask) (a : W64) (s : State) : Out Target :=
  if a.getLsbD 63 then
    if q.space.isSome && q.space != some 0#3 then .trap { fltAt cADDR a with wr := q.write } s
    else .ok (.spad sp (a.extractLsb' 0 24)) s
  else (translate sp root q a s).map fun p => targetOf s p.pa

/-- A scratchpad of this device reached over the fabric (R107). -/
def ownSpad (s : State) (pa : Nat) : Option (BitVec 7 × BitVec 24) :=
  if isFabric pa && fabricDev pa == s.fabric.dev then
    match placeOwn s (homeAddr s pa) with
    | .spad n => some (n, BitVec.ofNat 24 pa)
    | _ => none
  else none

/-- The scratchpad row of this device that a target names, itself or over the fabric. -/
def spadTarget (s : State) : Target → Option (BitVec 7 × BitVec 24)
  | .spad sp off => some (sp, off)
  | .phys pa => ownSpad s pa

/-- A row read at a target. -/
def readTarget (t : Target) (s : State) : Out Row :=
  match t with
  | .spad sp off => readSpad sp off s
  | .phys pa =>
    match ownSpad s pa with
    | some (n, off) => if unreachable s pa then .trap (eccAt pa false) s else readSpad n off s
    | none => readRowAt pa s

/-- A masked row write at a target. -/
def writeTarget (t : Target) (mask : BitVec 128) (v : Row) (s : State) : Out Unit :=
  match t with
  | .spad sp off => writeSpad sp off mask v s
  | .phys pa =>
    match ownSpad s pa with
    | some (n, off) => if unreachable s pa then .trap (eccAt pa true) s else writeSpad n off mask v s
    | none => writeRowAt pa mask v s

/-! ### Accesses to another device (R381) -/

/-- The access of a unit of a stream of a thread. -/
def workAccess (t : ThreadId) (e : Stream) (u : Work) : Access := ⟨t, false, e, u.seq, u.rep, 0⟩

/-- The Span of the thread of an access. -/
def Access.sp (w : Access) : BitVec 7 := w.thread.2.extractLsb' 2 7

/-- An access as it goes out to another device, under the translation that it has just met; `old` says that it may have
used one that an invalidation has taken from new accesses (R119). -/
def viaOf (w : Access) (root a : W64) (old : Bool) (s : State) : Via :=
  let x := s.span w.sp
  let find (t : List TlbEntry) : Option TlbEntry := tlbFind t (root.extractLsb' 52 12) (a.extractLsb' 0 52)
  match find x.tlb, if old then find x.staleTlb else none with
  | some e, _ => ⟨w, a, some e.page, false⟩
  | none, some e => ⟨w, a, some e.page, true⟩
  | none, none => ⟨w, a, none, false⟩

/-- An access that has been sent to another device is not translated again: it stands where it was sent (R112). -/
def onceSent (w : Access) (a : W64) (wr : Bool) (k : State → Out Phys) (s : State) : Out Phys :=
  match sentFor w a wr s with
  | some q => .ok ⟨q.pa, false, q.page.getD ⟨0#12, 0, 0⟩⟩ s
  | none => k s

/-- The same for the target of an operand. -/
def sentTarget (w : Access) (a : W64) (wr : Bool) (k : State → Out Target) (s : State) : Out Target :=
  match sentFor w a wr s with
  | some q => .ok (.phys q.pa) s
  | none => k s

/-- An access to another device. -/
def remotely {α : Type} (v : Via) (body : State → Out α) (s : State) : Out α :=
  match body { s with access := some v } with
  | .ok x t => .ok x { t with access := none }
  | .hold t => .hold { t with access := none }
  | .trap f t => .trap f (forget v.who t)

/-- An access that makes up its unit alone: once done, its request is done with. -/
def soleAccess {α : Type} (w : Access) : Out α → Out α
  | .ok v s => .ok v (forget w s)
  | x => x

/-- A row read, and a masked row write, that one agent makes alone. -/
def readRowAs (v : Via) (pa : Nat) (s : State) : Out Row :=
  if remote s pa then soleAccess v.who (remotely v (readRowAt pa) s) else readRowAt pa s
def writeRowAs (v : Via) (pa : Nat) (mask : BitVec 128) (x : Row) (s : State) : Out Unit :=
  if remote s pa then soleAccess v.who (remotely v (writeRowAt pa mask x) s) else writeRowAt pa mask x s

/-- A target lies on another device. -/
def Target.remote (s : State) : Target → Bool
  | .spad _ _ => false
  | .phys pa => Machine.remote s pa

/-- A row read, and a masked row write, of a unit that may make several. -/
def readTargetAs (v : Via) (t : Target) (s : State) : Out Row :=
  if t.remote s then remotely v (readTarget t) s else readTarget t s
def writeTargetAs (v : Via) (t : Target) (mask : BitVec 128) (x : Row) (s : State) : Out Unit :=
  if t.remote s then remotely v (writeTarget t mask x) s else writeTarget t mask x s

/-- A row read that makes up its unit alone. -/
def readTargetAlone (v : Via) (t : Target) (s : State) : Out Row :=
  if t.remote s then soleAccess v.who (remotely v (readTarget t) s) else readTarget t s

/-! ### Race watch (R303 to R305) -/

/-- The completion rows of the node on a Span: the 64 rows at each Reckoner's COBASE (R304). -/
def isCompletionRow (s : State) (sp : BitVec 7) (off : BitVec 24) : Bool :=
  let x := s.span sp
  (x.recks.toList.take x.nreck).any (fun k => off.toNat / 8192 == k.cobase.toNat)

/-- The thread of a Reckoner. -/
def threadId (s : State) (sp : BitVec 7) (r : BitVec 2) : ThreadId := ((s.span sp).node.getD 0, ridOf sp r)

/-- A valid mark of another thread that the access of thread `t` meets (R305). A scratchpad row is one of the context
that holds it (R12). -/
def markMeets (t : ThreadId) (row : Nat) (wr localRow : Bool) (m : Mark) : Bool :=
  m.row == row && m.who != t && !m.void.contains t && (!localRow || m.who.1 == t.1) &&
  (m.written || (wr && localRow && m.who.2.toNat / 4 == t.2.toNat / 4))

/-- The marks after an access of thread `t` (R304). -/
def markRow (s : State) (t : ThreadId) (row : Nat) (wr localRow : Bool) : State :=
  let keep := s.marks.filter (fun m => !(m.row == row && m.who == t && m.written == wr))
  if wr || localRow then { s with marks := ⟨row, t, wr, []⟩ :: keep } else s

/-- R303 to R305 for one row access of a thread; `addr` names the row in the record, `lane` and `word`
the failing lane and word. `virt` says that a virtual access watches: RWATCH.VIRT as at its issue, and its leaf. -/
def watchRow (sp : BitVec 7) (r : BitVec 2) (pa : Nat) (wr : Bool) (localOff : Option (BitVec 24))
    (virt : Bool) (addr : W64) (lane word : BitVec 5) (s : State) : Out Unit :=
  let k := s.reck sp r
  let watched := match localOff with
    | some off => k.rwatch.getLsbD 0 && !isCompletionRow s sp off
    | none => virt && !isFabric pa && (placeOwn s pa == .hbm || placeOwn s pa == .deck)
  if !watched then .ok () s
  else if s.marks.any (markMeets (threadId s sp r) (pa / 128) wr localOff.isSome) then
    .trap { fltAt cRACE addr with lane := lane, word := word, wr := wr } s
  else .ok () (markRow s (threadId s sp r) (pa / 128) wr localOff.isSome)

end Sys2Proof.Machine
end

