-- ==== Sys2Proof/Machine/Limits.lean ====
section
/-! DEFINITION. The limits of operands that a word must keep at the splitter: ranges (R44 check 3) and
the directions of queue registers (R44 check 5, R52). -/

namespace Sys2Proof.Machine

/-- CSR numbers below 0x100 that R147 lists. -/
def csrListed (c : BitVec 12) : Bool :=
  let n := c.toNat
  n == 0x000 || n == 0x001 || (0x010 ≤ n && n ≤ 0x012) || (0x020 ≤ n && n ≤ 0x024) ||
  (0x030 ≤ n && n ≤ 0x043) || n == 0x048 || (0x050 ≤ n && n ≤ 0x075) || n == 0x078 ||
  n == 0x090 || n == 0x0A0

/-- The index range of each SPHINT class; vbank with drop is refused (R197). -/
def sphintOk (act : BitVec 2) (cls : BitVec 3) (idx : BitVec 8) : Bool :=
  act != 3#2 &&
  match cls.toNat with
  | 0 => decide (idx.toNat < 4) && act != 2#2
  | 1 => decide (idx.toNat < 16)
  | 2 => decide (idx.toNat < 8)
  | 3 => decide (idx.toNat < 8)
  | 4 => decide (idx.toNat < 128)
  | _ => false

/-- An even register number, which names itself and its successor (R92, R312). -/
def pairOk (r : BitVec 5) : Bool := r.extractLsb' 0 1 == 0#1

/-- A reduction names wN only with WF = 1 (R221). -/
def redOk (f : BitVec 1) (n : BitVec 3) : Bool := f == 1#1 || n == 0#3

/-- Check 3 of R44 beyond the fixed bits: each register, flag, slot and code within its range. For a
PMEM word, the reserved values of check 2. -/
def operandsOk : Instr → Bool
  | .mulh _ _ _ _ f => decide (f.toNat ≤ 2)
  | .slt _ _ _ _ f => decide (f.toNat ≤ 3)
  | .ldt _ _ _ s => decide (8 ≤ s.toNat)
  | .dcas _ d a b => pairOk d && pairOk a && pairOk b
  | .amov2 _ d a b => pairOk d && pairOk a && pairOk b
  | .cwait _ _ n => decide (n.toNat ≤ 63)
  | .bw _ n c _ => decide (n.toNat ≤ 7) && decide (c.toNat ≤ 3)
  | .rdw _ _ n s => decide (n.toNat ≤ 7) && decide (s.toNat ≤ 4)
  | .csrr _ _ c => csrListed c || decide (0x100 ≤ c.toNat)
  | .csrw _ _ c => csrListed c || decide (0x100 ≤ c.toNat)
  | .sphint _ x y i => sphintOk x y i
  | .vceq _ _ _ q _ _ => q != 0#3
  | .vclt _ _ _ q _ _ => q != 0#3
  | .vcltn _ _ _ q _ _ => q != 0#3
  | .fceq _ _ _ q _ _ => q != 0#3
  | .fclt _ _ _ q _ _ => q != 0#3
  | .fcle _ _ _ q _ _ => q != 0#3
  | .vcvt _ _ _ _ _ c => decide (c.toNat ≤ 0x10)
  | .vreda _ _ _ _ _ f n => redOk f n
  | .freda _ _ _ _ _ f n => redOk f n
  | .fredm _ _ _ _ _ f n => redOk f n
  | .vredm _ _ _ _ _ f n => redOk f n
  | .pand _ _ d _ _ => d != 0#3
  | .por _ _ d _ _ => d != 0#3
  | .pxor _ _ d _ _ => d != 0#3
  | .vgth _ _ _ d _ _ => d.extractLsb' 0 1 == 0#1
  | .vsct _ _ _ d _ _ => d.extractLsb' 0 1 == 0#1
  | .vldt _ _ _ s => decide (8 ≤ s.toNat)
  | .qscan _ _ e _ m _ => e != 3#2 && m != 7#3
  | .qtopk _ _ e _ _ _ => e != 3#2
  | .qred _ _ e _ _ _ => e != 3#2
  | .pmem o _ p l => decide (o.toNat ≤ 4) && decide (p.toNat ≤ 4) && decide (l.toNat ≤ 2)
  | _ => true

/-- A queue register, g24 to g31 (R52). -/
def isQueueReg (r : BitVec 5) : Bool := decide (24 ≤ r.toNat)
/-- Read-direction queue registers: q5 (g29) and q7 (g31). -/
def isReadQueue (r : BitVec 5) : Bool := r == 29#5 || r == 31#5
/-- Write-direction queue registers: q0 to q4 (g24 to g28) and q6 (g30). -/
def isWriteQueue (r : BitVec 5) : Bool := isQueueReg r && !isReadQueue r
/-- A source may not be a write-direction register. -/
def srcOk (r : BitVec 5) : Bool := !isWriteQueue r
/-- A destination may not be a read-direction register. -/
def dstOk (r : BitVec 5) : Bool := !isReadQueue r

/-- Check 5 of R44: no queue register in the wrong direction (R52). -/
def queueOk : Instr → Bool
  | .add _ d a b => dstOk d && srcOk a && srcOk b
  | .sub _ d a b => dstOk d && srcOk a && srcOk b
  | .and _ d a b => dstOk d && srcOk a && srcOk b
  | .or _ d a b => dstOk d && srcOk a && srcOk b
  | .xor _ d a b => dstOk d && srcOk a && srcOk b
  | .sll _ d a b => dstOk d && srcOk a && srcOk b
  | .srl _ d a b => dstOk d && srcOk a && srcOk b
  | .sra _ d a b => dstOk d && srcOk a && srcOk b
  | .mul _ d a b => dstOk d && srcOk a && srcOk b
  | .mulh _ d a b _ => dstOk d && srcOk a && srcOk b
  | .div _ d a b => dstOk d && srcOk a && srcOk b
  | .rem _ d a b => dstOk d && srcOk a && srcOk b
  | .min _ d a b => dstOk d && srcOk a && srcOk b
  | .max _ d a b => dstOk d && srcOk a && srcOk b
  | .slt _ d a b _ => dstOk d && srcOk a && srcOk b
  | .sel _ d a b => !isQueueReg d && srcOk a && srcOk b
  | .addsh _ d a b _ => dstOk d && srcOk a && srcOk b
  | .clz _ d a => dstOk d && srcOk a
  | .popc _ d a => dstOk d && srcOk a
  | .bfx _ d a b => dstOk d && srcOk a && srcOk b
  | .bfi _ d a b => !isQueueReg d && srcOk a && srcOk b
  | .addi _ d a _ => dstOk d && srcOk a
  | .andi _ d a _ => dstOk d && srcOk a
  | .ori _ d a _ => dstOk d && srcOk a
  | .xori _ d a _ => dstOk d && srcOk a
  | .slli _ d a _ => dstOk d && srcOk a
  | .srli _ d a _ => dstOk d && srcOk a
  | .srai _ d a _ => dstOk d && srcOk a
  | .slti _ d a _ => dstOk d && srcOk a
  | .li _ d _ => dstOk d
  | .lsh _ d _ => !isQueueReg d
  | .agen _ d a b _ => dstOk d && srcOk a && srcOk b
  | .lds _ d a _ => dstOk d && srcOk a
  | .sts _ d a _ => srcOk d && srcOk a
  | .ldt _ d a _ => !isQueueReg d && srcOk a
  | .stx _ a b => srcOk a && srcOk b
  | .aadd _ d a b => dstOk d && srcOk a && srcOk b
  | .aand _ d a b => dstOk d && srcOk a && srcOk b
  | .aor _ d a b => dstOk d && srcOk a && srcOk b
  | .axor _ d a b => dstOk d && srcOk a && srcOk b
  | .amin _ d a b => dstOk d && srcOk a && srcOk b
  | .amax _ d a b => dstOk d && srcOk a && srcOk b
  | .aswp _ d a b => dstOk d && srcOk a && srcOk b
  | .acas _ d a b => !isQueueReg d && srcOk a && srcOk b
  | .aincw _ d a b => dstOk d && srcOk a && srcOk b
  | .aaddb _ d a b => dstOk d && srcOk a && srcOk b
  | .dcas _ d a b => !isQueueReg d && !isQueueReg a && !isQueueReg b
  | .amov2 _ d a b => !isQueueReg d && !isQueueReg a && !isQueueReg b
  | .cwait _ a _ => srcOk a
  | .beq _ a b _ => srcOk a && srcOk b
  | .bne _ a b _ => srcOk a && srcOk b
  | .blt _ a b _ => srcOk a && srcOk b
  | .bge _ a b _ => srcOk a && srcOk b
  | .bltn _ a b _ => srcOk a && srcOk b
  | .bgen _ a b _ => srcOk a && srcOk b
  | .jr _ a => srcOk a
  | .rdw _ d _ _ => dstOk d
  | .loop _ a _ => srcOk a
  | .csrr _ d _ => dstOk d
  | .csrw _ a _ => srcOk a
  | .launch _ a => srcOk a
  | _ => true

end Sys2Proof.Machine
end

