-- ==== Sys2Proof/Decode.lean ====
section
/-! DEFINITION. The decoder of 32-bit words, total, and the encoder, both from the encoding tables
(R43, R91 to R99). -/

namespace Sys2Proof

/-- Why a word is not an instruction (R44 checks 1 to 3, R99). -/
inductive Reject where
  | ill        -- unassigned opcode, nonzero zero field, number outside its range, E = 0b110
  | illPrefix  -- reserved prefix kind or value
  | short      -- fewer than four bytes
  deriving DecidableEq, Repr

namespace Decode

/-- Bits [lo + n - 1 : lo] of a word. -/
def fld (w : W32) (lo n : Nat) : BitVec n := w.extractLsb' lo n

/-- A field at its place in a word. -/
def put {n : Nat} (v : BitVec n) (lo : Nat) : W32 := v.setWidth 32 <<< lo

/-- The instruction of a row when the word has the row's fixed bits. -/
def fixed (w mask value : W32) (i : Instr) : Option Instr :=
  if w &&& mask = value then some i else none

/-- The S words (R91, R92): each opcode, its fixed bits (value and mask), its fields. -/
def decodeS (w : W32) : Option Instr :=
  match (fld w 18 7).toNat with
  | 0x0 => fixed w 0xE1FFFFFF#32 0x00000000#32 (.nop (fld w 25 4))
  | 0x1 => fixed w 0xE1FC0007#32 0x00040000#32 (.add (fld w 25 4) (fld w 13 5) (fld w 8 5) (fld w 3 5))
  | 0x2 => fixed w 0xE1FC0007#32 0x00080000#32 (.sub (fld w 25 4) (fld w 13 5) (fld w 8 5) (fld w 3 5))
  | 0x3 => fixed w 0xE1FC0007#32 0x000C0000#32 (.and (fld w 25 4) (fld w 13 5) (fld w 8 5) (fld w 3 5))
  | 0x4 => fixed w 0xE1FC0007#32 0x00100000#32 (.or (fld w 25 4) (fld w 13 5) (fld w 8 5) (fld w 3 5))
  | 0x5 => fixed w 0xE1FC0007#32 0x00140000#32 (.xor (fld w 25 4) (fld w 13 5) (fld w 8 5) (fld w 3 5))
  | 0x6 => fixed w 0xE1FC0007#32 0x00180000#32 (.sll (fld w 25 4) (fld w 13 5) (fld w 8 5) (fld w 3 5))
  | 0x7 => fixed w 0xE1FC0007#32 0x001C0000#32 (.srl (fld w 25 4) (fld w 13 5) (fld w 8 5) (fld w 3 5))
  | 0x8 => fixed w 0xE1FC0007#32 0x00200000#32 (.sra (fld w 25 4) (fld w 13 5) (fld w 8 5) (fld w 3 5))
  | 0x9 => fixed w 0xE1FC0007#32 0x00240000#32 (.mul (fld w 25 4) (fld w 13 5) (fld w 8 5) (fld w 3 5))
  | 0xa => fixed w 0xE1FC0000#32 0x00280000#32 (.mulh (fld w 25 4) (fld w 13 5) (fld w 8 5) (fld w 3 5) (fld w 0 3))
  | 0xb => fixed w 0xE1FC0007#32 0x002C0000#32 (.div (fld w 25 4) (fld w 13 5) (fld w 8 5) (fld w 3 5))
  | 0xc => fixed w 0xE1FC0007#32 0x00300000#32 (.rem (fld w 25 4) (fld w 13 5) (fld w 8 5) (fld w 3 5))
  | 0xd => fixed w 0xE1FC0007#32 0x00340000#32 (.min (fld w 25 4) (fld w 13 5) (fld w 8 5) (fld w 3 5))
  | 0xe => fixed w 0xE1FC0007#32 0x00380000#32 (.max (fld w 25 4) (fld w 13 5) (fld w 8 5) (fld w 3 5))
  | 0xf => fixed w 0xE1FC0000#32 0x003C0000#32 (.slt (fld w 25 4) (fld w 13 5) (fld w 8 5) (fld w 3 5) (fld w 0 3))
  | 0x10 => fixed w 0xE1FC0007#32 0x00400000#32 (.sel (fld w 25 4) (fld w 13 5) (fld w 8 5) (fld w 3 5))
  | 0x11 => fixed w 0xE1FC0000#32 0x00440000#32 (.addsh (fld w 25 4) (fld w 13 5) (fld w 8 5) (fld w 3 5) (fld w 0 3))
  | 0x12 => fixed w 0xE1FC00FF#32 0x00480000#32 (.clz (fld w 25 4) (fld w 13 5) (fld w 8 5))
  | 0x13 => fixed w 0xE1FC00FF#32 0x004C0000#32 (.popc (fld w 25 4) (fld w 13 5) (fld w 8 5))
  | 0x14 => fixed w 0xE1FC0007#32 0x00500000#32 (.bfx (fld w 25 4) (fld w 13 5) (fld w 8 5) (fld w 3 5))
  | 0x15 => fixed w 0xE1FC0007#32 0x00540000#32 (.bfi (fld w 25 4) (fld w 13 5) (fld w 8 5) (fld w 3 5))
  | 0x20 => fixed w 0xE1FC0000#32 0x00800000#32 (.addi (fld w 25 4) (fld w 13 5) (fld w 8 5) (fld w 0 8))
  | 0x21 => fixed w 0xE1FC0000#32 0x00840000#32 (.andi (fld w 25 4) (fld w 13 5) (fld w 8 5) (fld w 0 8))
  | 0x22 => fixed w 0xE1FC0000#32 0x00880000#32 (.ori (fld w 25 4) (fld w 13 5) (fld w 8 5) (fld w 0 8))
  | 0x23 => fixed w 0xE1FC0000#32 0x008C0000#32 (.xori (fld w 25 4) (fld w 13 5) (fld w 8 5) (fld w 0 8))
  | 0x24 => fixed w 0xE1FC00C0#32 0x00900000#32 (.slli (fld w 25 4) (fld w 13 5) (fld w 8 5) (fld w 0 6))
  | 0x25 => fixed w 0xE1FC00C0#32 0x00940000#32 (.srli (fld w 25 4) (fld w 13 5) (fld w 8 5) (fld w 0 6))
  | 0x26 => fixed w 0xE1FC00C0#32 0x00980000#32 (.srai (fld w 25 4) (fld w 13 5) (fld w 8 5) (fld w 0 6))
  | 0x27 => fixed w 0xE1FC0000#32 0x009C0000#32 (.slti (fld w 25 4) (fld w 13 5) (fld w 8 5) (fld w 0 8))
  | 0x28 => fixed w 0xE1FC0000#32 0x00A00000#32 (.li (fld w 25 4) (fld w 13 5) (fld w 0 13))
  | 0x29 => fixed w 0xE1FC0000#32 0x00A40000#32 (.lsh (fld w 25 4) (fld w 13 5) (fld w 0 13))
  | 0x2a => fixed w 0xE1FC0000#32 0x00A80000#32 (.agen (fld w 25 4) (fld w 13 5) (fld w 8 5) (fld w 3 5) (fld w 0 3))
  | 0x30 => fixed w 0xE1FC0000#32 0x00C00000#32 (.lds (fld w 25 4) (fld w 13 5) (fld w 8 5) (fld w 0 8))
  | 0x31 => fixed w 0xE1FC0000#32 0x00C40000#32 (.sts (fld w 25 4) (fld w 13 5) (fld w 8 5) (fld w 0 8))
  | 0x32 => fixed w 0xE1FC0000#32 0x00C80000#32 (.ldt (fld w 25 4) (fld w 13 5) (fld w 8 5) (fld w 0 8))
  | 0x33 => fixed w 0xE1FFE007#32 0x00CC0000#32 (.stx (fld w 25 4) (fld w 8 5) (fld w 3 5))
  | 0x38 => fixed w 0xE1FC0007#32 0x00E00000#32 (.aadd (fld w 25 4) (fld w 13 5) (fld w 8 5) (fld w 3 5))
  | 0x39 => fixed w 0xE1FC0007#32 0x00E40000#32 (.aand (fld w 25 4) (fld w 13 5) (fld w 8 5) (fld w 3 5))
  | 0x3a => fixed w 0xE1FC0007#32 0x00E80000#32 (.aor (fld w 25 4) (fld w 13 5) (fld w 8 5) (fld w 3 5))
  | 0x3b => fixed w 0xE1FC0007#32 0x00EC0000#32 (.axor (fld w 25 4) (fld w 13 5) (fld w 8 5) (fld w 3 5))
  | 0x3c => fixed w 0xE1FC0007#32 0x00F00000#32 (.amin (fld w 25 4) (fld w 13 5) (fld w 8 5) (fld w 3 5))
  | 0x3d => fixed w 0xE1FC0007#32 0x00F40000#32 (.amax (fld w 25 4) (fld w 13 5) (fld w 8 5) (fld w 3 5))
  | 0x3e => fixed w 0xE1FC0007#32 0x00F80000#32 (.aswp (fld w 25 4) (fld w 13 5) (fld w 8 5) (fld w 3 5))
  | 0x3f => fixed w 0xE1FC0007#32 0x00FC0000#32 (.acas (fld w 25 4) (fld w 13 5) (fld w 8 5) (fld w 3 5))
  | 0x40 => fixed w 0xE1FC0007#32 0x01000000#32 (.aincw (fld w 25 4) (fld w 13 5) (fld w 8 5) (fld w 3 5))
  | 0x41 => fixed w 0xE1FC0007#32 0x01040000#32 (.aaddb (fld w 25 4) (fld w 13 5) (fld w 8 5) (fld w 3 5))
  | 0x42 => fixed w 0xE1FC0007#32 0x01080000#32 (.dcas (fld w 25 4) (fld w 13 5) (fld w 8 5) (fld w 3 5))
  | 0x43 => fixed w 0xE1FC0007#32 0x010C0000#32 (.amov2 (fld w 25 4) (fld w 13 5) (fld w 8 5) (fld w 3 5))
  | 0x48 => fixed w 0xE1FFFFFF#32 0x01200000#32 (.fence (fld w 25 4))
  | 0x49 => fixed w 0xE1FFFFFF#32 0x01240000#32 (.sync (fld w 25 4))
  | 0x4a => fixed w 0xE1FFE000#32 0x01280000#32 (.cwait (fld w 25 4) (fld w 8 5) (fld w 0 8))
  | 0x50 => fixed w 0xE1FC0000#32 0x01400000#32 (.beq (fld w 25 4) (fld w 13 5) (fld w 8 5) (fld w 0 8))
  | 0x51 => fixed w 0xE1FC0000#32 0x01440000#32 (.bne (fld w 25 4) (fld w 13 5) (fld w 8 5) (fld w 0 8))
  | 0x52 => fixed w 0xE1FC0000#32 0x01480000#32 (.blt (fld w 25 4) (fld w 13 5) (fld w 8 5) (fld w 0 8))
  | 0x53 => fixed w 0xE1FC0000#32 0x014C0000#32 (.bge (fld w 25 4) (fld w 13 5) (fld w 8 5) (fld w 0 8))
  | 0x54 => fixed w 0xE1FC0000#32 0x01500000#32 (.bltn (fld w 25 4) (fld w 13 5) (fld w 8 5) (fld w 0 8))
  | 0x55 => fixed w 0xE1FC0000#32 0x01540000#32 (.bgen (fld w 25 4) (fld w 13 5) (fld w 8 5) (fld w 0 8))
  | 0x56 => fixed w 0xE1FC0000#32 0x01580000#32 (.j (fld w 25 4) (fld w 0 18))
  | 0x57 => fixed w 0xE1FC0000#32 0x015C0000#32 (.jal (fld w 25 4) (fld w 0 18))
  | 0x58 => fixed w 0xE1FFE0FF#32 0x01600000#32 (.jr (fld w 25 4) (fld w 8 5))
  | 0x59 => fixed w 0xE1FC0000#32 0x01640000#32 (.bw (fld w 25 4) (fld w 13 5) (fld w 8 5) (fld w 0 8))
  | 0x5a => fixed w 0xE1FC00F8#32 0x01680000#32 (.rdw (fld w 25 4) (fld w 13 5) (fld w 8 5) (fld w 0 3))
  | 0x5b => fixed w 0xE1FC1F00#32 0x016C0000#32 (.loop (fld w 25 4) (fld w 13 5) (fld w 0 8))
  | 0x5c => fixed w 0xE1FC0000#32 0x01700000#32 (.lbr (fld w 25 4) (fld w 0 18))
  | 0x5d => fixed w 0xE1FFFFFF#32 0x01740000#32 (.region (fld w 25 4))
  | 0x60 => fixed w 0xE1FC1000#32 0x01800000#32 (.csrr (fld w 25 4) (fld w 13 5) (fld w 0 12))
  | 0x61 => fixed w 0xE1FC1000#32 0x01840000#32 (.csrw (fld w 25 4) (fld w 13 5) (fld w 0 12))
  | 0x62 => fixed w 0xE1FFE000#32 0x01880000#32 (.trap (fld w 25 4) (fld w 0 13))
  | 0x63 => fixed w 0xE1FFFFFF#32 0x018C0000#32 (.exit (fld w 25 4))
  | 0x64 => fixed w 0xE1FFFFFF#32 0x01900000#32 (.node (fld w 25 4))
  | 0x65 => fixed w 0xE1FFE0FF#32 0x01940000#32 (.launch (fld w 25 4) (fld w 8 5))
  | 0x66 => fixed w 0xE1FFE000#32 0x01980000#32 (.brk (fld w 25 4) (fld w 0 13))
  | 0x67 => fixed w 0xE1FFFFFF#32 0x019C0000#32 (.eret (fld w 25 4))
  | 0x69 => fixed w 0xE1FFE000#32 0x01A40000#32 (.sphint (fld w 25 4) (fld w 11 2) (fld w 8 3) (fld w 0 8))
  | _ => none

/-- The V words (R93, R94): each opcode, its fixed bits (value and mask), its fields. -/
def decodeV (w : W32) : Option Instr :=
  match (fld w 19 6).toNat with
  | 0x0 => fixed w 0xE1FFFFFF#32 0x20000000#32 (.vnop (fld w 25 4))
  | 0x1 => fixed w 0xE1F80000#32 0x20080000#32 (.vadd (fld w 25 4) (fld w 16 3) (fld w 15 1) (fld w 10 5) (fld w 5 5) (fld w 0 5))
  | 0x2 => fixed w 0xE1F80000#32 0x20100000#32 (.vsub (fld w 25 4) (fld w 16 3) (fld w 15 1) (fld w 10 5) (fld w 5 5) (fld w 0 5))
  | 0x3 => fixed w 0xE1F80000#32 0x20180000#32 (.vmul (fld w 25 4) (fld w 16 3) (fld w 15 1) (fld w 10 5) (fld w 5 5) (fld w 0 5))
  | 0x4 => fixed w 0xE1F80000#32 0x20200000#32 (.vmin (fld w 25 4) (fld w 16 3) (fld w 15 1) (fld w 10 5) (fld w 5 5) (fld w 0 5))
  | 0x5 => fixed w 0xE1F80000#32 0x20280000#32 (.vmax (fld w 25 4) (fld w 16 3) (fld w 15 1) (fld w 10 5) (fld w 5 5) (fld w 0 5))
  | 0x6 => fixed w 0xE1F80000#32 0x20300000#32 (.vand (fld w 25 4) (fld w 16 3) (fld w 15 1) (fld w 10 5) (fld w 5 5) (fld w 0 5))
  | 0x7 => fixed w 0xE1F80000#32 0x20380000#32 (.vor (fld w 25 4) (fld w 16 3) (fld w 15 1) (fld w 10 5) (fld w 5 5) (fld w 0 5))
  | 0x8 => fixed w 0xE1F80000#32 0x20400000#32 (.vxor (fld w 25 4) (fld w 16 3) (fld w 15 1) (fld w 10 5) (fld w 5 5) (fld w 0 5))
  | 0x9 => fixed w 0xE1F80000#32 0x20480000#32 (.vshl (fld w 25 4) (fld w 16 3) (fld w 15 1) (fld w 10 5) (fld w 5 5) (fld w 0 5))
  | 0xa => fixed w 0xE1F80000#32 0x20500000#32 (.vshr (fld w 25 4) (fld w 16 3) (fld w 15 1) (fld w 10 5) (fld w 5 5) (fld w 0 5))
  | 0xb => fixed w 0xE1F80000#32 0x20580000#32 (.vsra (fld w 25 4) (fld w 16 3) (fld w 15 1) (fld w 10 5) (fld w 5 5) (fld w 0 5))
  | 0xc => fixed w 0xE1F86000#32 0x20600000#32 (.vceq (fld w 25 4) (fld w 16 3) (fld w 15 1) (fld w 10 3) (fld w 5 5) (fld w 0 5))
  | 0xd => fixed w 0xE1F86000#32 0x20680000#32 (.vclt (fld w 25 4) (fld w 16 3) (fld w 15 1) (fld w 10 3) (fld w 5 5) (fld w 0 5))
  | 0xe => fixed w 0xE1F86000#32 0x20700000#32 (.vcltn (fld w 25 4) (fld w 16 3) (fld w 15 1) (fld w 10 3) (fld w 5 5) (fld w 0 5))
  | 0x10 => fixed w 0xE1F80000#32 0x20800000#32 (.fadd (fld w 25 4) (fld w 16 3) (fld w 15 1) (fld w 10 5) (fld w 5 5) (fld w 0 5))
  | 0x11 => fixed w 0xE1F80000#32 0x20880000#32 (.fsub (fld w 25 4) (fld w 16 3) (fld w 15 1) (fld w 10 5) (fld w 5 5) (fld w 0 5))
  | 0x12 => fixed w 0xE1F80000#32 0x20900000#32 (.fmul (fld w 25 4) (fld w 16 3) (fld w 15 1) (fld w 10 5) (fld w 5 5) (fld w 0 5))
  | 0x13 => fixed w 0xE1F80000#32 0x20980000#32 (.ffma (fld w 25 4) (fld w 16 3) (fld w 15 1) (fld w 10 5) (fld w 5 5) (fld w 0 5))
  | 0x14 => fixed w 0xE1F80000#32 0x20A00000#32 (.fmin (fld w 25 4) (fld w 16 3) (fld w 15 1) (fld w 10 5) (fld w 5 5) (fld w 0 5))
  | 0x15 => fixed w 0xE1F80000#32 0x20A80000#32 (.fmax (fld w 25 4) (fld w 16 3) (fld w 15 1) (fld w 10 5) (fld w 5 5) (fld w 0 5))
  | 0x16 => fixed w 0xE1F86000#32 0x20B00000#32 (.fceq (fld w 25 4) (fld w 16 3) (fld w 15 1) (fld w 10 3) (fld w 5 5) (fld w 0 5))
  | 0x17 => fixed w 0xE1F86000#32 0x20B80000#32 (.fclt (fld w 25 4) (fld w 16 3) (fld w 15 1) (fld w 10 3) (fld w 5 5) (fld w 0 5))
  | 0x18 => fixed w 0xE1F86000#32 0x20C00000#32 (.fcle (fld w 25 4) (fld w 16 3) (fld w 15 1) (fld w 10 3) (fld w 5 5) (fld w 0 5))
  | 0x19 => fixed w 0xE1F80000#32 0x20C80000#32 (.vcvt (fld w 25 4) (fld w 16 3) (fld w 15 1) (fld w 10 5) (fld w 5 5) (fld w 0 5))
  | 0x1a => fixed w 0xE1F80000#32 0x20D00000#32 (.vqnt (fld w 25 4) (fld w 16 3) (fld w 15 1) (fld w 10 5) (fld w 5 5) (fld w 0 5))
  | 0x1b => fixed w 0xE1F8001F#32 0x20D80000#32 (.vlut (fld w 25 4) (fld w 16 3) (fld w 15 1) (fld w 10 5) (fld w 5 5))
  | 0x1c => fixed w 0xE1F80000#32 0x20E00000#32 (.vsel (fld w 25 4) (fld w 16 3) (fld w 15 1) (fld w 10 5) (fld w 5 5) (fld w 0 5))
  | 0x1d => fixed w 0xE1F80008#32 0x20E80000#32 (.vreda (fld w 25 4) (fld w 16 3) (fld w 15 1) (fld w 10 5) (fld w 5 5) (fld w 4 1) (fld w 0 3))
  | 0x1e => fixed w 0xE1F80008#32 0x20F00000#32 (.freda (fld w 25 4) (fld w 16 3) (fld w 15 1) (fld w 10 5) (fld w 5 5) (fld w 4 1) (fld w 0 3))
  | 0x1f => fixed w 0xE1F80008#32 0x20F80000#32 (.fredm (fld w 25 4) (fld w 16 3) (fld w 15 1) (fld w 10 5) (fld w 5 5) (fld w 4 1) (fld w 0 3))
  | 0x20 => fixed w 0xE1F80008#32 0x21000000#32 (.vredm (fld w 25 4) (fld w 16 3) (fld w 15 1) (fld w 10 5) (fld w 5 5) (fld w 4 1) (fld w 0 3))
  | 0x21 => fixed w 0xE1F8001C#32 0x21080000#32 (.vscan (fld w 25 4) (fld w 16 3) (fld w 15 1) (fld w 10 5) (fld w 5 5) (fld w 1 1) (fld w 0 1))
  | 0x22 => fixed w 0xE1F80000#32 0x21100000#32 (.vperm (fld w 25 4) (fld w 16 3) (fld w 15 1) (fld w 10 5) (fld w 5 5) (fld w 0 5))
  | 0x23 => fixed w 0xE1F8E31F#32 0x21180000#32 (.vflag (fld w 25 4) (fld w 16 3) (fld w 10 3) (fld w 5 3))
  | 0x24 => fixed w 0xE1F8E318#32 0x21200000#32 (.pand (fld w 25 4) (fld w 16 3) (fld w 10 3) (fld w 5 3) (fld w 0 3))
  | 0x25 => fixed w 0xE1F8E318#32 0x21280000#32 (.por (fld w 25 4) (fld w 16 3) (fld w 10 3) (fld w 5 3) (fld w 0 3))
  | 0x26 => fixed w 0xE1F8E318#32 0x21300000#32 (.pxor (fld w 25 4) (fld w 16 3) (fld w 10 3) (fld w 5 3) (fld w 0 3))
  | 0x28 => fixed w 0xE1F8001F#32 0x21400000#32 (.vmov (fld w 25 4) (fld w 16 3) (fld w 15 1) (fld w 10 5) (fld w 5 5))
  | 0x29 => fixed w 0xE1F883FF#32 0x21480000#32 (.vbcast (fld w 25 4) (fld w 16 3) (fld w 10 5))
  | 0x2a => fixed w 0xE1F80000#32 0x21500000#32 (.vrmg (fld w 25 4) (fld w 16 3) (fld w 15 1) (fld w 10 5) (fld w 5 5) (fld w 0 5))
  | 0x2b => fixed w 0xE1FFFFFF#32 0x21580000#32 (.vrms (fld w 25 4))
  | 0x2c => fixed w 0xE1F883FF#32 0x21600000#32 (.vmovt (fld w 25 4) (fld w 16 3) (fld w 10 5))
  | 0x2d => fixed w 0xE1F883FF#32 0x21680000#32 (.vmova (fld w 25 4) (fld w 16 3) (fld w 10 5))
  | 0x2e => fixed w 0xE1FFE3FF#32 0x21700000#32 (.vamov (fld w 25 4) (fld w 10 3))
  | 0x2f => fixed w 0xE1F8839F#32 0x21780000#32 (.vpop (fld w 25 4) (fld w 16 3) (fld w 10 5) (fld w 5 2))
  | 0x30 => fixed w 0xE1F80000#32 0x21800000#32 (.vld (fld w 25 4) (fld w 16 3) (fld w 15 1) (fld w 10 5) (fld w 7 3) (fld w 0 7))
  | 0x31 => fixed w 0xE1F80000#32 0x21880000#32 (.vst (fld w 25 4) (fld w 16 3) (fld w 15 1) (fld w 10 5) (fld w 7 3) (fld w 0 7))
  | 0x32 => fixed w 0xE1F80000#32 0x21900000#32 (.vgth (fld w 25 4) (fld w 16 3) (fld w 15 1) (fld w 10 5) (fld w 7 3) (fld w 0 7))
  | 0x33 => fixed w 0xE1F80000#32 0x21980000#32 (.vsct (fld w 25 4) (fld w 16 3) (fld w 15 1) (fld w 10 5) (fld w 7 3) (fld w 0 7))
  | 0x34 => fixed w 0xE1F88300#32 0x21A00000#32 (.vldt (fld w 25 4) (fld w 16 3) (fld w 10 5) (fld w 0 8))
  | _ => none

/-- The M words (R95): each opcode, its fixed bits (value and mask), its fields. -/
def decodeM (w : W32) : Option Instr :=
  match (fld w 20 5).toNat with
  | 0x0 => fixed w 0xE1FFFFFF#32 0x40000000#32 (.mnop (fld w 25 4))
  | 0x1 => fixed w 0xE1FFFFC0#32 0x40100000#32 (.mlease (fld w 25 4) (fld w 0 6))
  | 0x2 => fixed w 0xE1FFFFFF#32 0x40200000#32 (.mrel (fld w 25 4))
  | 0x3 => fixed w 0xE1F7002F#32 0x40300000#32 (.mwld (fld w 25 4) (fld w 19 1) (fld w 12 4) (fld w 6 6) (fld w 4 1))
  | 0x4 => fixed w 0xE1F0000F#32 0x40400000#32 (.mma (fld w 25 4) (fld w 19 1) (fld w 16 3) (fld w 12 4) (fld w 6 6) (fld w 5 1) (fld w 4 1))
  | 0x5 => fixed w 0xE1F0000F#32 0x40500000#32 (.mmaid (fld w 25 4) (fld w 19 1) (fld w 16 3) (fld w 12 4) (fld w 6 6) (fld w 5 1) (fld w 4 1))
  | 0x6 => fixed w 0xE1F00000#32 0x40600000#32 (.mma32 (fld w 25 4) (fld w 19 1) (fld w 16 3) (fld w 12 4) (fld w 6 6) (fld w 5 1) (fld w 4 1) (fld w 0 4))
  | 0x7 => fixed w 0xE1F0F03F#32 0x40700000#32 (.mzero (fld w 25 4) (fld w 19 1) (fld w 16 3) (fld w 6 6))
  | 0x8 => fixed w 0xE1F0F03F#32 0x40800000#32 (.mexpsh (fld w 25 4) (fld w 19 1) (fld w 16 3) (fld w 6 6))
  | 0x9 => fixed w 0xE1F0F03F#32 0x40900000#32 (.mstat (fld w 25 4) (fld w 19 1) (fld w 16 3) (fld w 6 6))
  | 0xa => fixed w 0xE1F8000F#32 0x40A00000#32 (.mattn (fld w 25 4) (fld w 16 3) (fld w 12 4) (fld w 6 6) (fld w 5 1) (fld w 4 1))
  | _ => none

/-- The K words (R96): each opcode, its fixed bits (value and mask), its fields. -/
def decodeK (w : W32) : Option Instr :=
  match (fld w 20 5).toNat with
  | 0x0 => fixed w 0xE1FFFFFF#32 0x60000000#32 (.knop (fld w 25 4))
  | 0x1 => fixed w 0xE1F1FC0F#32 0x60100000#32 (.kload (fld w 25 4) (fld w 19 1) (fld w 17 2) (fld w 4 6))
  | 0x2 => fixed w 0xE1F1FC0F#32 0x60200000#32 (.kpatch (fld w 25 4) (fld w 19 1) (fld w 17 2) (fld w 4 6))
  | 0x4 => fixed w 0xE1F7FC0F#32 0x60400000#32 (.kgain (fld w 25 4) (fld w 19 1) (fld w 4 6))
  | 0x5 => fixed w 0xE1F7FC0F#32 0x60500000#32 (.khist (fld w 25 4) (fld w 19 1) (fld w 4 6))
  | 0x6 => fixed w 0xE1F00009#32 0x60600000#32 (.kout (fld w 25 4) (fld w 19 1) (fld w 17 2) (fld w 14 3) (fld w 10 4) (fld w 4 6) (fld w 2 1) (fld w 1 1)) <|> fixed w 0xE1F03C09#32 0x60600008#32 (.koutD (fld w 25 4) (fld w 19 1) (fld w 17 2) (fld w 14 3) (fld w 4 6) (fld w 2 1) (fld w 1 1))
  | 0x7 => fixed w 0xE1F9FC0F#32 0x60700000#32 (.smscfg (fld w 25 4) (fld w 17 2) (fld w 4 6))
  | 0x8 => fixed w 0xE1FFFC0F#32 0x60800000#32 (.smsrst (fld w 25 4) (fld w 4 6))
  | _ => none

/-- The C words (R97, R164): each opcode, its fixed bits (value and mask), its fields. -/
def decodeC (w : W32) : Option Instr :=
  match (fld w 20 5).toNat with
  | 0x0 => fixed w 0xE1FFFFFF#32 0x80000000#32 (.cnop (fld w 25 4))
  | 0x1 => fixed w 0xE1F03DFF#32 0x80100000#32 (.ccpy (fld w 25 4) (fld w 14 6) (fld w 9 1))
  | 0x2 => fixed w 0xE1F03DFF#32 0x80200000#32 (.c2d (fld w 25 4) (fld w 14 6) (fld w 9 1))
  | 0x3 => fixed w 0xE1F03DEF#32 0x80300000#32 (.cgth (fld w 25 4) (fld w 14 6) (fld w 9 1) (fld w 4 1)) <|> fixed w 0xE1F03D1F#32 0x80300100#32 (.cgthArena (fld w 25 4) (fld w 14 6) (fld w 9 1) (fld w 5 3))
  | 0x4 => fixed w 0xE1F03DEF#32 0x80400000#32 (.csct (fld w 25 4) (fld w 14 6) (fld w 9 1) (fld w 4 1)) <|> fixed w 0xE1F03D1F#32 0x80400100#32 (.csctArena (fld w 25 4) (fld w 14 6) (fld w 9 1) (fld w 5 3))
  | 0x5 => fixed w 0xE1F000FF#32 0x80500000#32 (.ctile (fld w 25 4) (fld w 14 6) (fld w 10 4) (fld w 9 1) (fld w 8 1))
  | 0x6 => fixed w 0xE1F03C1F#32 0x80600000#32 (.ccb (fld w 25 4) (fld w 14 6) (fld w 9 1) (fld w 6 3) (fld w 5 1))
  | 0x7 => fixed w 0xE1F001FF#32 0x80700000#32 (.cdec (fld w 25 4) (fld w 14 6) (fld w 10 4) (fld w 9 1))
  | 0x8 => fixed w 0xE1F03DFF#32 0x80800000#32 (.cenc (fld w 25 4) (fld w 14 6) (fld w 9 1))
  | 0x9 => fixed w 0xE1F03C7F#32 0x80900000#32 (.cqld (fld w 25 4) (fld w 14 6) (fld w 9 1) (fld w 7 2))
  | 0xa => fixed w 0xE1F03DFF#32 0x80A00000#32 (.cfill (fld w 25 4) (fld w 14 6) (fld w 9 1))
  | _ => none

/-- The Q words (R98, R286): each opcode, its fixed bits (value and mask), its fields. -/
def decodeQ (w : W32) : Option Instr :=
  match (fld w 20 5).toNat with
  | 0x0 => fixed w 0xE1FFFFFF#32 0xA0000000#32 (.qnop (fld w 25 4))
  | 0x1 => fixed w 0xE1F0007F#32 0xA0100000#32 (.qscan (fld w 25 4) (fld w 14 6) (fld w 12 2) (fld w 11 1) (fld w 8 3) (fld w 7 1))
  | 0x2 => fixed w 0xE1F001FF#32 0xA0200000#32 (.qtopk (fld w 25 4) (fld w 14 6) (fld w 12 2) (fld w 11 1) (fld w 10 1) (fld w 9 1))
  | 0x3 => fixed w 0xE1F001FF#32 0xA0300000#32 (.qred (fld w 25 4) (fld w 14 6) (fld w 12 2) (fld w 11 1) (fld w 10 1) (fld w 9 1))
  | _ => none

/-- The prefix words (R60 to R63): each opcode, its fixed bits (value and mask), its fields. -/
def decodePre (w : W32) : Option Instr :=
  match (fld w 25 4).toNat with
  | 0x0 => fixed w 0xFE000000#32 0xE0000000#32 (.pimm (fld w 0 25))
  | 0x1 => fixed w 0xFE007FFF#32 0xE2000000#32 (.pmem (fld w 22 3) (fld w 20 2) (fld w 17 3) (fld w 15 2))
  | 0x2 => fixed w 0xFE0007FF#32 0xE4000000#32 (.prep (fld w 17 8) (fld w 14 3) (fld w 13 1) (fld w 12 1) (fld w 11 1))
  | _ => none

/-- The instruction of a word by its engine field (R43), before the limits of its operands. -/
def raw (w : W32) : Option Instr :=
  match (fld w 29 3).toNat with
  | 0 => decodeS w
  | 1 => decodeV w
  | 2 => decodeM w
  | 3 => decodeK w
  | 4 => decodeC w
  | 5 => decodeQ w
  | 7 => decodePre w
  | _ => none

end Decode

open Decode

/-- The decoder: checks 1 to 3 of R44 on one word. -/
def decode (w : W32) : Except Reject Instr :=
  match raw w with
  | some i => if Machine.operandsOk i then .ok i else .error (if (fld w 29 3) = 7#3 then .illPrefix else .ill)
  | none => .error (if (fld w 29 3) = 7#3 then .illPrefix else .ill)

/-- Four bytes, little-endian (R17), as a word. -/
def wordOfBytes (b0 b1 b2 b3 : Byte) : W32 := b3 ++ b2 ++ b1 ++ b0

/-- The decoder on bytes: the instruction and the bytes after it. -/
def decodeBytes : List Byte → Except Reject (Instr × List Byte)
  | b0 :: b1 :: b2 :: b3 :: rest => (decode (wordOfBytes b0 b1 b2 b3)).map (fun i => (i, rest))
  | _ => .error .short

/-- The word of an instruction, from the same tables; a step has no word (0). -/
def encode : Instr → W32
  | .nop w => 0x00000000#32 ||| put w 25
  | .add w d a b => 0x00040000#32 ||| put w 25 ||| put d 13 ||| put a 8 ||| put b 3
  | .sub w d a b => 0x00080000#32 ||| put w 25 ||| put d 13 ||| put a 8 ||| put b 3
  | .and w d a b => 0x000C0000#32 ||| put w 25 ||| put d 13 ||| put a 8 ||| put b 3
  | .or w d a b => 0x00100000#32 ||| put w 25 ||| put d 13 ||| put a 8 ||| put b 3
  | .xor w d a b => 0x00140000#32 ||| put w 25 ||| put d 13 ||| put a 8 ||| put b 3
  | .sll w d a b => 0x00180000#32 ||| put w 25 ||| put d 13 ||| put a 8 ||| put b 3
  | .srl w d a b => 0x001C0000#32 ||| put w 25 ||| put d 13 ||| put a 8 ||| put b 3
  | .sra w d a b => 0x00200000#32 ||| put w 25 ||| put d 13 ||| put a 8 ||| put b 3
  | .mul w d a b => 0x00240000#32 ||| put w 25 ||| put d 13 ||| put a 8 ||| put b 3
  | .mulh w d a b f => 0x00280000#32 ||| put w 25 ||| put d 13 ||| put a 8 ||| put b 3 ||| put f 0
  | .div w d a b => 0x002C0000#32 ||| put w 25 ||| put d 13 ||| put a 8 ||| put b 3
  | .rem w d a b => 0x00300000#32 ||| put w 25 ||| put d 13 ||| put a 8 ||| put b 3
  | .min w d a b => 0x00340000#32 ||| put w 25 ||| put d 13 ||| put a 8 ||| put b 3
  | .max w d a b => 0x00380000#32 ||| put w 25 ||| put d 13 ||| put a 8 ||| put b 3
  | .slt w d a b f => 0x003C0000#32 ||| put w 25 ||| put d 13 ||| put a 8 ||| put b 3 ||| put f 0
  | .sel w d a b => 0x00400000#32 ||| put w 25 ||| put d 13 ||| put a 8 ||| put b 3
  | .addsh w d a b n => 0x00440000#32 ||| put w 25 ||| put d 13 ||| put a 8 ||| put b 3 ||| put n 0
  | .clz w d a => 0x00480000#32 ||| put w 25 ||| put d 13 ||| put a 8
  | .popc w d a => 0x004C0000#32 ||| put w 25 ||| put d 13 ||| put a 8
  | .bfx w d a b => 0x00500000#32 ||| put w 25 ||| put d 13 ||| put a 8 ||| put b 3
  | .bfi w d a b => 0x00540000#32 ||| put w 25 ||| put d 13 ||| put a 8 ||| put b 3
  | .addi w d a i => 0x00800000#32 ||| put w 25 ||| put d 13 ||| put a 8 ||| put i 0
  | .andi w d a i => 0x00840000#32 ||| put w 25 ||| put d 13 ||| put a 8 ||| put i 0
  | .ori w d a i => 0x00880000#32 ||| put w 25 ||| put d 13 ||| put a 8 ||| put i 0
  | .xori w d a i => 0x008C0000#32 ||| put w 25 ||| put d 13 ||| put a 8 ||| put i 0
  | .slli w d a n => 0x00900000#32 ||| put w 25 ||| put d 13 ||| put a 8 ||| put n 0
  | .srli w d a n => 0x00940000#32 ||| put w 25 ||| put d 13 ||| put a 8 ||| put n 0
  | .srai w d a n => 0x00980000#32 ||| put w 25 ||| put d 13 ||| put a 8 ||| put n 0
  | .slti w d a i => 0x009C0000#32 ||| put w 25 ||| put d 13 ||| put a 8 ||| put i 0
  | .li w d i => 0x00A00000#32 ||| put w 25 ||| put d 13 ||| put i 0
  | .lsh w d i => 0x00A40000#32 ||| put w 25 ||| put d 13 ||| put i 0
  | .agen w d a b g => 0x00A80000#32 ||| put w 25 ||| put d 13 ||| put a 8 ||| put b 3 ||| put g 0
  | .lds w d a i => 0x00C00000#32 ||| put w 25 ||| put d 13 ||| put a 8 ||| put i 0
  | .sts w d a i => 0x00C40000#32 ||| put w 25 ||| put d 13 ||| put a 8 ||| put i 0
  | .ldt w d a s => 0x00C80000#32 ||| put w 25 ||| put d 13 ||| put a 8 ||| put s 0
  | .stx w a b => 0x00CC0000#32 ||| put w 25 ||| put a 8 ||| put b 3
  | .aadd w d a b => 0x00E00000#32 ||| put w 25 ||| put d 13 ||| put a 8 ||| put b 3
  | .aand w d a b => 0x00E40000#32 ||| put w 25 ||| put d 13 ||| put a 8 ||| put b 3
  | .aor w d a b => 0x00E80000#32 ||| put w 25 ||| put d 13 ||| put a 8 ||| put b 3
  | .axor w d a b => 0x00EC0000#32 ||| put w 25 ||| put d 13 ||| put a 8 ||| put b 3
  | .amin w d a b => 0x00F00000#32 ||| put w 25 ||| put d 13 ||| put a 8 ||| put b 3
  | .amax w d a b => 0x00F40000#32 ||| put w 25 ||| put d 13 ||| put a 8 ||| put b 3
  | .aswp w d a b => 0x00F80000#32 ||| put w 25 ||| put d 13 ||| put a 8 ||| put b 3
  | .acas w d a b => 0x00FC0000#32 ||| put w 25 ||| put d 13 ||| put a 8 ||| put b 3
  | .aincw w d a b => 0x01000000#32 ||| put w 25 ||| put d 13 ||| put a 8 ||| put b 3
  | .aaddb w d a b => 0x01040000#32 ||| put w 25 ||| put d 13 ||| put a 8 ||| put b 3
  | .dcas w d a b => 0x01080000#32 ||| put w 25 ||| put d 13 ||| put a 8 ||| put b 3
  | .amov2 w d a b => 0x010C0000#32 ||| put w 25 ||| put d 13 ||| put a 8 ||| put b 3
  | .fence w => 0x01200000#32 ||| put w 25
  | .sync w => 0x01240000#32 ||| put w 25
  | .cwait w a n => 0x01280000#32 ||| put w 25 ||| put a 8 ||| put n 0
  | .beq w a b o => 0x01400000#32 ||| put w 25 ||| put a 13 ||| put b 8 ||| put o 0
  | .bne w a b o => 0x01440000#32 ||| put w 25 ||| put a 13 ||| put b 8 ||| put o 0
  | .blt w a b o => 0x01480000#32 ||| put w 25 ||| put a 13 ||| put b 8 ||| put o 0
  | .bge w a b o => 0x014C0000#32 ||| put w 25 ||| put a 13 ||| put b 8 ||| put o 0
  | .bltn w a b o => 0x01500000#32 ||| put w 25 ||| put a 13 ||| put b 8 ||| put o 0
  | .bgen w a b o => 0x01540000#32 ||| put w 25 ||| put a 13 ||| put b 8 ||| put o 0
  | .j w o => 0x01580000#32 ||| put w 25 ||| put o 0
  | .jal w o => 0x015C0000#32 ||| put w 25 ||| put o 0
  | .jr w a => 0x01600000#32 ||| put w 25 ||| put a 8
  | .bw w n c o => 0x01640000#32 ||| put w 25 ||| put n 13 ||| put c 8 ||| put o 0
  | .rdw w d n s => 0x01680000#32 ||| put w 25 ||| put d 13 ||| put n 8 ||| put s 0
  | .loop w a o => 0x016C0000#32 ||| put w 25 ||| put a 13 ||| put o 0
  | .lbr w o => 0x01700000#32 ||| put w 25 ||| put o 0
  | .region w => 0x01740000#32 ||| put w 25
  | .csrr w d c => 0x01800000#32 ||| put w 25 ||| put d 13 ||| put c 0
  | .csrw w a c => 0x01840000#32 ||| put w 25 ||| put a 13 ||| put c 0
  | .trap w i => 0x01880000#32 ||| put w 25 ||| put i 0
  | .exit w => 0x018C0000#32 ||| put w 25
  | .node w => 0x01900000#32 ||| put w 25
  | .launch w a => 0x01940000#32 ||| put w 25 ||| put a 8
  | .brk w i => 0x01980000#32 ||| put w 25 ||| put i 0
  | .eret w => 0x019C0000#32 ||| put w 25
  | .sphint w x y i => 0x01A40000#32 ||| put w 25 ||| put x 11 ||| put y 8 ||| put i 0
  | .vnop w => 0x20000000#32 ||| put w 25
  | .vadd w p k d a b => 0x20080000#32 ||| put w 25 ||| put p 16 ||| put k 15 ||| put d 10 ||| put a 5 ||| put b 0
  | .vsub w p k d a b => 0x20100000#32 ||| put w 25 ||| put p 16 ||| put k 15 ||| put d 10 ||| put a 5 ||| put b 0
  | .vmul w p k d a b => 0x20180000#32 ||| put w 25 ||| put p 16 ||| put k 15 ||| put d 10 ||| put a 5 ||| put b 0
  | .vmin w p k d a b => 0x20200000#32 ||| put w 25 ||| put p 16 ||| put k 15 ||| put d 10 ||| put a 5 ||| put b 0
  | .vmax w p k d a b => 0x20280000#32 ||| put w 25 ||| put p 16 ||| put k 15 ||| put d 10 ||| put a 5 ||| put b 0
  | .vand w p k d a b => 0x20300000#32 ||| put w 25 ||| put p 16 ||| put k 15 ||| put d 10 ||| put a 5 ||| put b 0
  | .vor w p k d a b => 0x20380000#32 ||| put w 25 ||| put p 16 ||| put k 15 ||| put d 10 ||| put a 5 ||| put b 0
  | .vxor w p k d a b => 0x20400000#32 ||| put w 25 ||| put p 16 ||| put k 15 ||| put d 10 ||| put a 5 ||| put b 0
  | .vshl w p k d a b => 0x20480000#32 ||| put w 25 ||| put p 16 ||| put k 15 ||| put d 10 ||| put a 5 ||| put b 0
  | .vshr w p k d a b => 0x20500000#32 ||| put w 25 ||| put p 16 ||| put k 15 ||| put d 10 ||| put a 5 ||| put b 0
  | .vsra w p k d a b => 0x20580000#32 ||| put w 25 ||| put p 16 ||| put k 15 ||| put d 10 ||| put a 5 ||| put b 0
  | .vceq w p k q a b => 0x20600000#32 ||| put w 25 ||| put p 16 ||| put k 15 ||| put q 10 ||| put a 5 ||| put b 0
  | .vclt w p k q a b => 0x20680000#32 ||| put w 25 ||| put p 16 ||| put k 15 ||| put q 10 ||| put a 5 ||| put b 0
  | .vcltn w p k q a b => 0x20700000#32 ||| put w 25 ||| put p 16 ||| put k 15 ||| put q 10 ||| put a 5 ||| put b 0
  | .fadd w p k d a b => 0x20800000#32 ||| put w 25 ||| put p 16 ||| put k 15 ||| put d 10 ||| put a 5 ||| put b 0
  | .fsub w p k d a b => 0x20880000#32 ||| put w 25 ||| put p 16 ||| put k 15 ||| put d 10 ||| put a 5 ||| put b 0
  | .fmul w p k d a b => 0x20900000#32 ||| put w 25 ||| put p 16 ||| put k 15 ||| put d 10 ||| put a 5 ||| put b 0
  | .ffma w p k d a b => 0x20980000#32 ||| put w 25 ||| put p 16 ||| put k 15 ||| put d 10 ||| put a 5 ||| put b 0
  | .fmin w p k d a b => 0x20A00000#32 ||| put w 25 ||| put p 16 ||| put k 15 ||| put d 10 ||| put a 5 ||| put b 0
  | .fmax w p k d a b => 0x20A80000#32 ||| put w 25 ||| put p 16 ||| put k 15 ||| put d 10 ||| put a 5 ||| put b 0
  | .fceq w p k q a b => 0x20B00000#32 ||| put w 25 ||| put p 16 ||| put k 15 ||| put q 10 ||| put a 5 ||| put b 0
  | .fclt w p k q a b => 0x20B80000#32 ||| put w 25 ||| put p 16 ||| put k 15 ||| put q 10 ||| put a 5 ||| put b 0
  | .fcle w p k q a b => 0x20C00000#32 ||| put w 25 ||| put p 16 ||| put k 15 ||| put q 10 ||| put a 5 ||| put b 0
  | .vcvt w p k d a c => 0x20C80000#32 ||| put w 25 ||| put p 16 ||| put k 15 ||| put d 10 ||| put a 5 ||| put c 0
  | .vqnt w p k d a b => 0x20D00000#32 ||| put w 25 ||| put p 16 ||| put k 15 ||| put d 10 ||| put a 5 ||| put b 0
  | .vlut w p k d a => 0x20D80000#32 ||| put w 25 ||| put p 16 ||| put k 15 ||| put d 10 ||| put a 5
  | .vsel w p k d a b => 0x20E00000#32 ||| put w 25 ||| put p 16 ||| put k 15 ||| put d 10 ||| put a 5 ||| put b 0
  | .vreda w p k d a f n => 0x20E80000#32 ||| put w 25 ||| put p 16 ||| put k 15 ||| put d 10 ||| put a 5 ||| put f 4 ||| put n 0
  | .freda w p k d a f n => 0x20F00000#32 ||| put w 25 ||| put p 16 ||| put k 15 ||| put d 10 ||| put a 5 ||| put f 4 ||| put n 0
  | .fredm w p k d a f n => 0x20F80000#32 ||| put w 25 ||| put p 16 ||| put k 15 ||| put d 10 ||| put a 5 ||| put f 4 ||| put n 0
  | .vredm w p k d a f n => 0x21000000#32 ||| put w 25 ||| put p 16 ||| put k 15 ||| put d 10 ||| put a 5 ||| put f 4 ||| put n 0
  | .vscan w p k d a e f => 0x21080000#32 ||| put w 25 ||| put p 16 ||| put k 15 ||| put d 10 ||| put a 5 ||| put e 1 ||| put f 0
  | .vperm w p k d a b => 0x21100000#32 ||| put w 25 ||| put p 16 ||| put k 15 ||| put d 10 ||| put a 5 ||| put b 0
  | .vflag w p n q => 0x21180000#32 ||| put w 25 ||| put p 16 ||| put n 10 ||| put q 5
  | .pand w p d a b => 0x21200000#32 ||| put w 25 ||| put p 16 ||| put d 10 ||| put a 5 ||| put b 0
  | .por w p d a b => 0x21280000#32 ||| put w 25 ||| put p 16 ||| put d 10 ||| put a 5 ||| put b 0
  | .pxor w p d a b => 0x21300000#32 ||| put w 25 ||| put p 16 ||| put d 10 ||| put a 5 ||| put b 0
  | .vmov w p k d a => 0x21400000#32 ||| put w 25 ||| put p 16 ||| put k 15 ||| put d 10 ||| put a 5
  | .vbcast w p d => 0x21480000#32 ||| put w 25 ||| put p 16 ||| put d 10
  | .vrmg w p k d a b => 0x21500000#32 ||| put w 25 ||| put p 16 ||| put k 15 ||| put d 10 ||| put a 5 ||| put b 0
  | .vrms w => 0x21580000#32 ||| put w 25
  | .vmovt w p d => 0x21600000#32 ||| put w 25 ||| put p 16 ||| put d 10
  | .vmova w p d => 0x21680000#32 ||| put w 25 ||| put p 16 ||| put d 10
  | .vamov w n => 0x21700000#32 ||| put w 25 ||| put n 10
  | .vpop w p d n => 0x21780000#32 ||| put w 25 ||| put p 16 ||| put d 10 ||| put n 5
  | .vld w p i d x o => 0x21800000#32 ||| put w 25 ||| put p 16 ||| put i 15 ||| put d 10 ||| put x 7 ||| put o 0
  | .vst w p i d x o => 0x21880000#32 ||| put w 25 ||| put p 16 ||| put i 15 ||| put d 10 ||| put x 7 ||| put o 0
  | .vgth w p i d x o => 0x21900000#32 ||| put w 25 ||| put p 16 ||| put i 15 ||| put d 10 ||| put x 7 ||| put o 0
  | .vsct w p i d x o => 0x21980000#32 ||| put w 25 ||| put p 16 ||| put i 15 ||| put d 10 ||| put x 7 ||| put o 0
  | .vldt w p d s => 0x21A00000#32 ||| put w 25 ||| put p 16 ||| put d 10 ||| put s 0
  | .mnop w => 0x40000000#32 ||| put w 25
  | .mlease w n => 0x40100000#32 ||| put w 25 ||| put n 0
  | .mrel w => 0x40200000#32 ||| put w 25
  | .mwld w r t c l => 0x40300000#32 ||| put w 25 ||| put r 19 ||| put t 12 ||| put c 6 ||| put l 4
  | .mma w r a t c z l => 0x40400000#32 ||| put w 25 ||| put r 19 ||| put a 16 ||| put t 12 ||| put c 6 ||| put z 5 ||| put l 4
  | .mmaid w r a t c z l => 0x40500000#32 ||| put w 25 ||| put r 19 ||| put a 16 ||| put t 12 ||| put c 6 ||| put z 5 ||| put l 4
  | .mma32 w r a t c z l u => 0x40600000#32 ||| put w 25 ||| put r 19 ||| put a 16 ||| put t 12 ||| put c 6 ||| put z 5 ||| put l 4 ||| put u 0
  | .mzero w r a c => 0x40700000#32 ||| put w 25 ||| put r 19 ||| put a 16 ||| put c 6
  | .mexpsh w r a c => 0x40800000#32 ||| put w 25 ||| put r 19 ||| put a 16 ||| put c 6
  | .mstat w r a c => 0x40900000#32 ||| put w 25 ||| put r 19 ||| put a 16 ||| put c 6
  | .mattn w a t c z l => 0x40A00000#32 ||| put w 25 ||| put a 16 ||| put t 12 ||| put c 6 ||| put z 5 ||| put l 4
  | .knop w => 0x60000000#32 ||| put w 25
  | .kload w r s c => 0x60100000#32 ||| put w 25 ||| put r 19 ||| put s 17 ||| put c 4
  | .kpatch w r s c => 0x60200000#32 ||| put w 25 ||| put r 19 ||| put s 17 ||| put c 4
  | .kgain w r c => 0x60400000#32 ||| put w 25 ||| put r 19 ||| put c 4
  | .khist w r c => 0x60500000#32 ||| put w 25 ||| put r 19 ||| put c 4
  | .kout w r s a t c l y => 0x60600000#32 ||| put w 25 ||| put r 19 ||| put s 17 ||| put a 14 ||| put t 10 ||| put c 4 ||| put l 2 ||| put y 1
  | .koutD w r s a c l y => 0x60600008#32 ||| put w 25 ||| put r 19 ||| put s 17 ||| put a 14 ||| put c 4 ||| put l 2 ||| put y 1
  | .smscfg w s c => 0x60700000#32 ||| put w 25 ||| put s 17 ||| put c 4
  | .smsrst w c => 0x60800000#32 ||| put w 25 ||| put c 4
  | .cnop w => 0x80000000#32 ||| put w 25
  | .ccpy w c r => 0x80100000#32 ||| put w 25 ||| put c 14 ||| put r 9
  | .c2d w c r => 0x80200000#32 ||| put w 25 ||| put c 14 ||| put r 9
  | .cgth w c r i => 0x80300000#32 ||| put w 25 ||| put c 14 ||| put r 9 ||| put i 4
  | .cgthArena w c r g => 0x80300100#32 ||| put w 25 ||| put c 14 ||| put r 9 ||| put g 5
  | .csct w c r i => 0x80400000#32 ||| put w 25 ||| put c 14 ||| put r 9 ||| put i 4
  | .csctArena w c r g => 0x80400100#32 ||| put w 25 ||| put c 14 ||| put r 9 ||| put g 5
  | .ctile w c t r d => 0x80500000#32 ||| put w 25 ||| put c 14 ||| put t 10 ||| put r 9 ||| put d 8
  | .ccb w c r b s => 0x80600000#32 ||| put w 25 ||| put c 14 ||| put r 9 ||| put b 6 ||| put s 5
  | .cdec w c t r => 0x80700000#32 ||| put w 25 ||| put c 14 ||| put t 10 ||| put r 9
  | .cenc w c r => 0x80800000#32 ||| put w 25 ||| put c 14 ||| put r 9
  | .cqld w c r q => 0x80900000#32 ||| put w 25 ||| put c 14 ||| put r 9 ||| put q 7
  | .cfill w c r => 0x80A00000#32 ||| put w 25 ||| put c 14 ||| put r 9
  | .qnop w => 0xA0000000#32 ||| put w 25
  | .qscan w c e r m x => 0xA0100000#32 ||| put w 25 ||| put c 14 ||| put e 12 ||| put r 11 ||| put m 8 ||| put x 7
  | .qtopk w c e r p a => 0xA0200000#32 ||| put w 25 ||| put c 14 ||| put e 12 ||| put r 11 ||| put p 10 ||| put a 9
  | .qred w c e r g i => 0xA0300000#32 ||| put w 25 ||| put c 14 ||| put e 12 ||| put r 11 ||| put g 10 ||| put i 9
  | .pimm i => 0xE0000000#32 ||| put i 0
  | .pmem o s p l => 0xE2000000#32 ||| put o 22 ||| put s 20 ||| put p 17 ||| put l 15
  | .prep c s d a b => 0xE4000000#32 ||| put c 17 ||| put s 14 ||| put d 13 ||| put a 12 ||| put b 11
  | .splitterSteer _ _ => 0#32
  | .timedLanding _ _ => 0#32
  | .lateDataArrival _ _ _ => 0#32
  | .vResultLanding _ _ => 0#32
  | .wideFlagFull _ _ _ => 0#32
  | .completionRowUpdate _ _ _ => 0#32
  | .postedStorePerform _ _ _ => 0#32
  | .atomicWriteBack _ _ => 0#32
  | .walkComplete _ _ => 0#32
  | .bankRetain _ _ => 0#32
  | .bankOff _ _ => 0#32
  | .bankWakeDone _ _ => 0#32
  | .bandGate _ _ _ => 0#32
  | .bandWakeDone _ _ _ => 0#32
  | .leaseGrant _ => 0#32
  | .leaseRevoke _ => 0#32
  | .barrierComplete _ _ => 0#32
  | .windowUpdateDelivery _ => 0#32
  | .threadRetire _ _ => 0#32
  | .nodeJoin _ => 0#32
  | .doneIncrement _ => 0#32
  | .nodeSubmit _ _ => 0#32
  | .dkill _ => 0#32
  | .nodeDispatch _ _ => 0#32
  | .priorityAgeing _ => 0#32
  | .preemptionRequest  => 0#32
  | .preemptEscalation _ => 0#32
  | .fullSwitchSave _ => 0#32
  | .contextRestore _ => 0#32
  | .trapFreeze _ _ => 0#32
  | .tenderHandlerStart _ => 0#32
  | .trpop _ _ => 0#32
  | .xinvcGo _ => 0#32
  | .invalidationComplete  => 0#32
  | .powerIntervalBoundary _ => 0#32
  | .tpwrWrite _ _ => 0#32
  | .ageingReading _ _ _ => 0#32
  | .debugStop _ _ => 0#32
  | .dstopResume _ _ _ => 0#32
  | .tprofClr _ _ => 0#32
  | .hpnetWrite _ => 0#32
  | .hpcfgWrite _ _ => 0#32
  | .portLinkTraining _ _ _ _ => 0#32
  | .getVersion _ => 0#32
  | .getCapabilities _ => 0#32
  | .negotiateAlgorithms _ => 0#32
  | .getDigests _ => 0#32
  | .getCertificate _ => 0#32
  | .challenge _ => 0#32
  | .getMeasurements _ => 0#32
  | .keyExchange _ => 0#32
  | .finish _ => 0#32
  | .makerToken _ _ _ _ => 0#32
  | .powerOnReset  => 0#32
  | .hbmTraining _ => 0#32
  | .fabricEnumeration _ _ => 0#32
  | .flitReceive _ _ => 0#32
  | .laneShed _ => 0#32
  | .backgroundScrub _ => 0#32
  | .registerWrite _ _ _ => 0#32
  | .landingBufferFill _ _ _ => 0#32
  | .windowAtomicAccept _ _ => 0#32
  | .replayIntervalEnd _ => 0#32

/-- The stream of a word; none for a prefix word and for a step. -/
def streamOf : Instr → Option Stream
  | .nop _ => (some .S)
  | .add _ _ _ _ => (some .S)
  | .sub _ _ _ _ => (some .S)
  | .and _ _ _ _ => (some .S)
  | .or _ _ _ _ => (some .S)
  | .xor _ _ _ _ => (some .S)
  | .sll _ _ _ _ => (some .S)
  | .srl _ _ _ _ => (some .S)
  | .sra _ _ _ _ => (some .S)
  | .mul _ _ _ _ => (some .S)
  | .mulh _ _ _ _ _ => (some .S)
  | .div _ _ _ _ => (some .S)
  | .rem _ _ _ _ => (some .S)
  | .min _ _ _ _ => (some .S)
  | .max _ _ _ _ => (some .S)
  | .slt _ _ _ _ _ => (some .S)
  | .sel _ _ _ _ => (some .S)
  | .addsh _ _ _ _ _ => (some .S)
  | .clz _ _ _ => (some .S)
  | .popc _ _ _ => (some .S)
  | .bfx _ _ _ _ => (some .S)
  | .bfi _ _ _ _ => (some .S)
  | .addi _ _ _ _ => (some .S)
  | .andi _ _ _ _ => (some .S)
  | .ori _ _ _ _ => (some .S)
  | .xori _ _ _ _ => (some .S)
  | .slli _ _ _ _ => (some .S)
  | .srli _ _ _ _ => (some .S)
  | .srai _ _ _ _ => (some .S)
  | .slti _ _ _ _ => (some .S)
  | .li _ _ _ => (some .S)
  | .lsh _ _ _ => (some .S)
  | .agen _ _ _ _ _ => (some .S)
  | .lds _ _ _ _ => (some .S)
  | .sts _ _ _ _ => (some .S)
  | .ldt _ _ _ _ => (some .S)
  | .stx _ _ _ => (some .S)
  | .aadd _ _ _ _ => (some .S)
  | .aand _ _ _ _ => (some .S)
  | .aor _ _ _ _ => (some .S)
  | .axor _ _ _ _ => (some .S)
  | .amin _ _ _ _ => (some .S)
  | .amax _ _ _ _ => (some .S)
  | .aswp _ _ _ _ => (some .S)
  | .acas _ _ _ _ => (some .S)
  | .aincw _ _ _ _ => (some .S)
  | .aaddb _ _ _ _ => (some .S)
  | .dcas _ _ _ _ => (some .S)
  | .amov2 _ _ _ _ => (some .S)
  | .fence _ => (some .S)
  | .sync _ => (some .S)
  | .cwait _ _ _ => (some .S)
  | .beq _ _ _ _ => (some .S)
  | .bne _ _ _ _ => (some .S)
  | .blt _ _ _ _ => (some .S)
  | .bge _ _ _ _ => (some .S)
  | .bltn _ _ _ _ => (some .S)
  | .bgen _ _ _ _ => (some .S)
  | .j _ _ => (some .S)
  | .jal _ _ => (some .S)
  | .jr _ _ => (some .S)
  | .bw _ _ _ _ => (some .S)
  | .rdw _ _ _ _ => (some .S)
  | .loop _ _ _ => (some .S)
  | .lbr _ _ => (some .S)
  | .region _ => (some .S)
  | .csrr _ _ _ => (some .S)
  | .csrw _ _ _ => (some .S)
  | .trap _ _ => (some .S)
  | .exit _ => (some .S)
  | .node _ => (some .S)
  | .launch _ _ => (some .S)
  | .brk _ _ => (some .S)
  | .eret _ => (some .S)
  | .sphint _ _ _ _ => (some .S)
  | .vnop _ => (some .V)
  | .vadd _ _ _ _ _ _ => (some .V)
  | .vsub _ _ _ _ _ _ => (some .V)
  | .vmul _ _ _ _ _ _ => (some .V)
  | .vmin _ _ _ _ _ _ => (some .V)
  | .vmax _ _ _ _ _ _ => (some .V)
  | .vand _ _ _ _ _ _ => (some .V)
  | .vor _ _ _ _ _ _ => (some .V)
  | .vxor _ _ _ _ _ _ => (some .V)
  | .vshl _ _ _ _ _ _ => (some .V)
  | .vshr _ _ _ _ _ _ => (some .V)
  | .vsra _ _ _ _ _ _ => (some .V)
  | .vceq _ _ _ _ _ _ => (some .V)
  | .vclt _ _ _ _ _ _ => (some .V)
  | .vcltn _ _ _ _ _ _ => (some .V)
  | .fadd _ _ _ _ _ _ => (some .V)
  | .fsub _ _ _ _ _ _ => (some .V)
  | .fmul _ _ _ _ _ _ => (some .V)
  | .ffma _ _ _ _ _ _ => (some .V)
  | .fmin _ _ _ _ _ _ => (some .V)
  | .fmax _ _ _ _ _ _ => (some .V)
  | .fceq _ _ _ _ _ _ => (some .V)
  | .fclt _ _ _ _ _ _ => (some .V)
  | .fcle _ _ _ _ _ _ => (some .V)
  | .vcvt _ _ _ _ _ _ => (some .V)
  | .vqnt _ _ _ _ _ _ => (some .V)
  | .vlut _ _ _ _ _ => (some .V)
  | .vsel _ _ _ _ _ _ => (some .V)
  | .vreda _ _ _ _ _ _ _ => (some .V)
  | .freda _ _ _ _ _ _ _ => (some .V)
  | .fredm _ _ _ _ _ _ _ => (some .V)
  | .vredm _ _ _ _ _ _ _ => (some .V)
  | .vscan _ _ _ _ _ _ _ => (some .V)
  | .vperm _ _ _ _ _ _ => (some .V)
  | .vflag _ _ _ _ => (some .V)
  | .pand _ _ _ _ _ => (some .V)
  | .por _ _ _ _ _ => (some .V)
  | .pxor _ _ _ _ _ => (some .V)
  | .vmov _ _ _ _ _ => (some .V)
  | .vbcast _ _ _ => (some .V)
  | .vrmg _ _ _ _ _ _ => (some .V)
  | .vrms _ => (some .V)
  | .vmovt _ _ _ => (some .V)
  | .vmova _ _ _ => (some .V)
  | .vamov _ _ => (some .V)
  | .vpop _ _ _ _ => (some .V)
  | .vld _ _ _ _ _ _ => (some .V)
  | .vst _ _ _ _ _ _ => (some .V)
  | .vgth _ _ _ _ _ _ => (some .V)
  | .vsct _ _ _ _ _ _ => (some .V)
  | .vldt _ _ _ _ => (some .V)
  | .mnop _ => (some .M)
  | .mlease _ _ => (some .M)
  | .mrel _ => (some .M)
  | .mwld _ _ _ _ _ => (some .M)
  | .mma _ _ _ _ _ _ _ => (some .M)
  | .mmaid _ _ _ _ _ _ _ => (some .M)
  | .mma32 _ _ _ _ _ _ _ _ => (some .M)
  | .mzero _ _ _ _ => (some .M)
  | .mexpsh _ _ _ _ => (some .M)
  | .mstat _ _ _ _ => (some .M)
  | .mattn _ _ _ _ _ _ => (some .M)
  | .knop _ => (some .K)
  | .kload _ _ _ _ => (some .K)
  | .kpatch _ _ _ _ => (some .K)
  | .kgain _ _ _ => (some .K)
  | .khist _ _ _ => (some .K)
  | .kout _ _ _ _ _ _ _ _ => (some .K)
  | .koutD _ _ _ _ _ _ _ => (some .K)
  | .smscfg _ _ _ => (some .K)
  | .smsrst _ _ => (some .K)
  | .cnop _ => (some .C)
  | .ccpy _ _ _ => (some .C)
  | .c2d _ _ _ => (some .C)
  | .cgth _ _ _ _ => (some .C)
  | .cgthArena _ _ _ _ => (some .C)
  | .csct _ _ _ _ => (some .C)
  | .csctArena _ _ _ _ => (some .C)
  | .ctile _ _ _ _ _ => (some .C)
  | .ccb _ _ _ _ _ => (some .C)
  | .cdec _ _ _ _ => (some .C)
  | .cenc _ _ _ => (some .C)
  | .cqld _ _ _ _ => (some .C)
  | .cfill _ _ _ => (some .C)
  | .qnop _ => (some .Q)
  | .qscan _ _ _ _ _ _ => (some .Q)
  | .qtopk _ _ _ _ _ _ => (some .Q)
  | .qred _ _ _ _ _ _ => (some .Q)
  | .pimm _ => none
  | .pmem _ _ _ _ => none
  | .prep _ _ _ _ _ => none
  | .splitterSteer _ _ => none
  | .timedLanding _ _ => none
  | .lateDataArrival _ _ _ => none
  | .vResultLanding _ _ => none
  | .wideFlagFull _ _ _ => none
  | .completionRowUpdate _ _ _ => none
  | .postedStorePerform _ _ _ => none
  | .atomicWriteBack _ _ => none
  | .walkComplete _ _ => none
  | .bankRetain _ _ => none
  | .bankOff _ _ => none
  | .bankWakeDone _ _ => none
  | .bandGate _ _ _ => none
  | .bandWakeDone _ _ _ => none
  | .leaseGrant _ => none
  | .leaseRevoke _ => none
  | .barrierComplete _ _ => none
  | .windowUpdateDelivery _ => none
  | .threadRetire _ _ => none
  | .nodeJoin _ => none
  | .doneIncrement _ => none
  | .nodeSubmit _ _ => none
  | .dkill _ => none
  | .nodeDispatch _ _ => none
  | .priorityAgeing _ => none
  | .preemptionRequest  => none
  | .preemptEscalation _ => none
  | .fullSwitchSave _ => none
  | .contextRestore _ => none
  | .trapFreeze _ _ => none
  | .tenderHandlerStart _ => none
  | .trpop _ _ => none
  | .xinvcGo _ => none
  | .invalidationComplete  => none
  | .powerIntervalBoundary _ => none
  | .tpwrWrite _ _ => none
  | .ageingReading _ _ _ => none
  | .debugStop _ _ => none
  | .dstopResume _ _ _ => none
  | .tprofClr _ _ => none
  | .hpnetWrite _ => none
  | .hpcfgWrite _ _ => none
  | .portLinkTraining _ _ _ _ => none
  | .getVersion _ => none
  | .getCapabilities _ => none
  | .negotiateAlgorithms _ => none
  | .getDigests _ => none
  | .getCertificate _ => none
  | .challenge _ => none
  | .getMeasurements _ => none
  | .keyExchange _ => none
  | .finish _ => none
  | .makerToken _ _ _ _ => none
  | .powerOnReset  => none
  | .hbmTraining _ => none
  | .fabricEnumeration _ _ => none
  | .flitReceive _ _ => none
  | .laneShed _ => none
  | .backgroundScrub _ => none
  | .registerWrite _ _ _ => none
  | .landingBufferFill _ _ _ => none
  | .windowAtomicAccept _ _ => none
  | .replayIntervalEnd _ => none

/-- Whether the instruction is a prefix word (R60). -/
def isPrefixWord : Instr → Bool
  | .pimm _ => true
  | .pmem _ _ _ _ => true
  | .prep _ _ _ _ _ => true
  | _ => false

/-- Byte `j` of a word. -/
def byteOfNat (w j : Nat) : Byte := BitVec.ofNat 8 (w >>> (8 * j))

/-- The instruction the decoder reads from a table word: 32 bits, bit 0 the least significant, laid
out little-endian and given to the byte decoder. -/
def decodeTableWord (nbits w : Nat) : Option Instr :=
  if nbits ≤ 32 then
    match decodeBytes [byteOfNat w 0, byteOfNat w 1, byteOfNat w 2, byteOfNat w 3] with
    | .ok (i, _) => some i
    | .error _ => none
  else none

end Sys2Proof
end

