-- ==== Sys2Proof/Machine/Units.lean ====
section
/-! DEFINITION. Units: a word with its prefixes (R44, R60 to R64), the repetitions of PREP, the current
core and its streams, the tokens (R49, R50). -/

namespace Sys2Proof.Machine

/-! ### Streams -/

/-- The engine field of a stream (R43). -/
def streamCode : Stream → BitVec 3
  | .S => 0#3 | .V => 1#3 | .M => 2#3 | .K => 3#3 | .C => 4#3 | .Q => 5#3

def streamOfCode (e : BitVec 3) : Stream :=
  match e.toNat with
  | 0 => .S | 1 => .V | 2 => .M | 3 => .K | 4 => .C | _ => .Q

/-- Place of a stream in the vector of streams. -/
def sidx : Stream → Fin 6
  | .S => 0 | .V => 1 | .M => 2 | .K => 3 | .C => 4 | .Q => 5

def Reckoner.str (k : Reckoner) (e : Stream) : StreamSt := k.streams[(sidx e).val]
def Reckoner.setStr (k : Reckoner) (e : Stream) (t : StreamSt) : Reckoner :=
  { k with streams := k.streams.set (sidx e).val t }
def Reckoner.modStr (k : Reckoner) (e : Stream) (f : StreamSt → StreamSt) : Reckoner :=
  k.setStr e (f (k.str e))

/-! ### The core whose word runs -/

def State.cr (s : State) : BitVec 2 := match s.cur.core with | .reck r => r | .tender => 0#2
def State.atTender (s : State) : Bool := match s.cur.core with | .reck _ => false | .tender => true
def State.my (s : State) : Span := s.span s.cur.sp
def State.setMy (s : State) (x : Span) : State := s.setSpan s.cur.sp x
def State.me (s : State) : Reckoner := s.reck s.cur.sp s.cr
def State.setMe (s : State) (k : Reckoner) : State := s.setReck s.cur.sp s.cr k
def State.mapMe (s : State) (f : Reckoner → Reckoner) : State := s.setMe (f s.me)
def State.modStr (s : State) (e : Stream) (f : StreamSt → StreamSt) : State := s.mapMe (·.modStr e f)

/-- A unit without prefixes at the fetch address: what a word is taken for when no unit stands at its
queue head. -/
def bareUnit (k : Reckoner) : Work :=
  { instr := .nop 0#4, pc := k.pc, first := k.pc, seq := 0#32, pimms := [], pmem := none, prep := none
    base := k.rrb, rep := 0, waited := false, popped := [], kept := none, serve := none }

/-- The unit at the head of a stream of the current core. -/
def State.unit (s : State) (e : Stream) : Work :=
  if s.atTender then s.my.tender.work.getD { bareUnit s.me with pc := s.my.tender.pc, first := s.my.tender.pc }
  else ((s.me.str e).queue.head?).getD (bareUnit s.me)

/-- A queue with its head changed. -/
def mapHead (f : Work → Work) : List Work → List Work
  | [] => []
  | u :: q => f u :: q

/-- The unit at the head changed. -/
def State.modUnit (s : State) (e : Stream) (f : Work → Work) : State :=
  if s.atTender then
    s.setMy { s.my with tender := { s.my.tender with work := s.my.tender.work.map f } }
  else s.modStr e (fun t => { t with queue := mapHead f t.queue })

/-! ### Prefixes and their words (R61 to R63) -/

def opS (w : W32) : Nat := (Decode.fld w 18 7).toNat
def opV (w : W32) : Nat := (Decode.fld w 19 6).toNat
def opC (w : W32) : Nat := (Decode.fld w 20 5).toNat
def engOf (w : W32) : Nat := (Decode.fld w 29 3).toNat

/-- The words that PIMM widens (R61): SI but the three shifts and CWAIT, LI, SB, SJ, and VLD, VST, VGTH,
VSCT. -/
def pimmOk (w : W32) : Bool :=
  match engOf w with
  | 0 =>
    let o := opS w
    o == 0x20 || o == 0x21 || o == 0x22 || o == 0x23 || o == 0x27 || o == 0x28 || o == 0x30 || o == 0x31 ||
    (0x50 ≤ o && decide (o ≤ 0x57)) || o == 0x59 || o == 0x5B || o == 0x5C
  | 1 => decide (0x30 ≤ opV w) && decide (opV w ≤ 0x33)
  | _ => false

/-- The words that PMEM applies to (R62). -/
def pmemOk (w : W32) : Bool :=
  match engOf w with
  | 0 =>
    let o := opS w
    (0x30 ≤ o && decide (o ≤ 0x33)) || (0x38 ≤ o && decide (o ≤ 0x43)) || o == 0x48
  | 1 => decide (0x30 ≤ opV w) && decide (opV w ≤ 0x34)
  | 4 => decide (1 ≤ opC w) && decide (opC w ≤ 10)
  | 5 => decide (1 ≤ opC w) && decide (opC w ≤ 3)
  | _ => false

/-- PREP applies to the word with these mask bits (R63). -/
def prepOk (w : W32) (p : Prep) : Bool :=
  match engOf w with
  | 0 =>
    let o := opS w
    let si := (0x20 ≤ o && decide (o ≤ 0x27)) || o == 0x30 || o == 0x31
    let sl := o == 0x28 || o == 0x29
    ((1 ≤ o && decide (o ≤ 0x2A)) || o == 0x30 || o == 0x31) &&
    !(p.ma && sl) && !(p.mb && (si || sl || o == 0x12 || o == 0x13))
  | 1 =>
    let o := opV w
    let mem := decide (0x30 ≤ o)
    !(p.md && (o == 0x00 || o == 0x2B)) &&
    !(p.ma && (mem || o == 0x00 || o == 0x2B || o == 0x29 || o == 0x2C || o == 0x2D || o == 0x2E)) &&
    !(p.mb && (mem || o == 0x00 || o == 0x2B || o == 0x29 || o == 0x2C || o == 0x2D || o == 0x2E ||
      o == 0x28 || o == 0x1B || o == 0x2F || o == 0x23))
  | _ => false

/-- A prefix word of each kind. -/
def isPimm (w : W32) : Bool := Decode.fld w 25 4 == 0#4
def pmemOf (w : W32) : Pmem := ⟨Decode.fld w 22 3, Decode.fld w 20 2, Decode.fld w 17 3, Decode.fld w 15 2⟩
def prepOf (w : W32) : Prep :=
  ⟨Decode.fld w 17 8, Decode.fld w 14 3, w.getLsbD 13, w.getLsbD 12, w.getLsbD 11⟩
/-- Check 2 of R44 on one prefix word. -/
def preWordOk (w : W32) : Bool := match decode w with | .ok _ => true | .error _ => false
/-- Two prefixes of one kind other than PIMM. -/
def sameKind (l : List W32) : Bool :=
  match l with
  | [a, b] => Decode.fld a 25 4 == Decode.fld b 25 4 && !isPimm a
  | _ => false

/-- The splitter's checks on a unit, in the order of R44: the instruction of its final word, or the
cause. The tender's g24 to g31 are plain registers (R348), so check 5 is not made there. -/
def unitCheck (plain : Bool) (pre : List W32) (w : W32) : Except (BitVec 8) Instr :=
  if engOf w = 6 then .error cILL
  else if engOf w = 7 || pre.any (fun p => !preWordOk p) || sameKind pre then .error cILLPREFIX
  else match decode w with
    | .error _ => .error cILL
    | .ok i =>
      if pre.any (fun p =>
          (Decode.fld p 25 4 == 0#4 && !pimmOk w) || (Decode.fld p 25 4 == 1#4 && !pmemOk w) ||
          (Decode.fld p 25 4 == 2#4 && !prepOk w (prepOf p))) then .error cILLPREFIX
      else if plain || queueOk i then .ok i else .error cILL

/-- The unit of a checked word. -/
def unitOf (pre : List W32) (i : Instr) (first : BitVec 52) (seq : W32) (base : BitVec 4) : Work :=
  { instr := i, pc := first + BitVec.ofNat 52 (4 * pre.length), first := first, seq := seq
    pimms := (pre.filter (fun p => Decode.fld p 25 4 == 0#4)).map (fun p => Decode.fld p 0 25)
    pmem := (pre.find? (fun p => Decode.fld p 25 4 == 1#4)).map pmemOf
    prep := (pre.find? (fun p => Decode.fld p 25 4 == 2#4)).map prepOf
    base := base, rep := 0, waited := false, popped := [], kept := none, serve := none }

/-! ### Repetitions (R63, R64) -/

/-- A 5-bit field of a word advanced by a count. -/
def advField (w : W32) (lo : Nat) (on : Bool) (by' : Nat) : W32 :=
  if on then
    (w &&& ~~~(0x1F#32 <<< lo)) ||| (BitVec.ofNat 32 ((Decode.fld w lo 5).toNat + by') &&& 0x1F#32) <<< lo
  else w

/-- The word of repetition j: every masked field plus j × STRIDE. -/
def advWord (w : W32) (p : Prep) (j : Nat) : W32 :=
  let by' := j * p.stride.toNat
  if engOf w = 0 then advField (advField (advField w 13 p.md by') 8 p.ma by') 3 p.mb by'
  else advField (advField (advField w 10 p.md by') 5 p.ma by') 0 p.mb by'

/-- The instruction that a unit's repetition executes. -/
def Work.now (u : Work) : Instr :=
  match u.prep with
  | some p => if u.rep = 0 then u.instr else
      match decode (advWord (encode u.instr) p u.rep) with
      | .ok i => i
      | .error _ => u.instr
  | none => u.instr

/-- The largest number a masked field may hold (R63, second check). -/
def fieldLimit (w : W32) (f : Nat) : Nat :=
  if engOf w = 1 then
    let o := opV w
    let cmp := o == 0x0C || o == 0x0D || o == 0x0E || o == 0x16 || o == 0x17 || o == 0x18
    let logic := o == 0x24 || o == 0x25 || o == 0x26
    match f with
    | 0 => if cmp || logic || o == 0x23 || o == 0x2E then 7 else 31
    | 1 => if logic || o == 0x23 then 7 else if o == 0x2F then 3 else 31
    | _ => if logic then 7 else 31
  else 31

/-- A masked field goes past its largest number in the last repetition. -/
def pastLimit (w : W32) (p : Prep) (f lo : Nat) (on : Bool) : Bool :=
  on && decide (fieldLimit w f < (Decode.fld w lo 5).toNat + (p.count.toNat - 1) * p.stride.toNat)

/-- The checks of R63 at issue: REPX, then ILL for a repetition that the splitter would refuse; `plain` says that
g24 to g31 are plain registers, as at the tender (R348). -/
def repCheck (plain : Bool) (i : Instr) (p : Prep) : Option (BitVec 8) :=
  let w := encode i
  let s := engOf w = 0
  if p.count = 0#8 then none
  else if pastLimit w p 0 (if s then 13 else 10) p.md || pastLimit w p 1 (if s then 8 else 5) p.ma ||
      pastLimit w p 2 (if s then 3 else 0) p.mb then some cREPX
  else if (List.range p.count.toNat).any (fun j =>
      match decode (advWord w p j) with
      | .ok i => !plain && !queueOk i
      | .error _ => true) then some cILL
  else none

/-- What the widened or plain immediate of a word is (R61): its own field of `n` bits under the PIMMs of
its unit. -/
def wideImm (pimms : List (BitVec 25)) (n : Nat) (lo : BitVec n) : W64 :=
  match pimms with
  | [] => lo.signExtend 64
  | [p] => BitVec.ofInt 64 ((p ++ lo : BitVec (25 + n)).toInt)
  | p1 :: p2 :: _ => BitVec.ofInt 64 ((p1 ++ (p2 ++ lo) : BitVec (25 + (25 + n))).toInt)

/-- The widened immediate as an exact integer, for branch targets: truncated to 64 bits first (R61). -/
def wideInt (pimms : List (BitVec 25)) (n : Nat) (lo : BitVec n) : Int := (wideImm pimms n lo).toInt

/-! ### Tokens (R49 to R51) -/

/-- Place in the ring S, C, M, K, V, Q. -/
def ringPos : Stream → Nat
  | .S => 0 | .C => 1 | .M => 2 | .K => 3 | .V => 4 | .Q => 5

/-- TOK(X → next) stands at the place of X, TOK(X → predecessor) six places on. -/
def tokNext (e : Stream) : Fin 12 := ⟨ringPos e, by cases e <;> decide⟩
def tokPred (e : Stream) : Fin 12 := ⟨6 + ringPos e, by cases e <;> decide⟩
def prevOf : Stream → Stream
  | .S => .Q | .C => .S | .M => .C | .K => .M | .V => .K | .Q => .V
def nextOf : Stream → Stream
  | .S => .C | .C => .M | .M => .K | .K => .V | .V => .Q | .Q => .S

def decTok (on : Bool) (i : Fin 12) (t : Vector (BitVec 4) 12) : Vector (BitVec 4) 12 :=
  if on then t.set i.val (t[i.val] - 1#4) else t
def incTok (on : Bool) (i : Fin 12) (t : Vector (BitVec 4) 12) : Vector (BitVec 4) 12 :=
  if on then t.set i.val (t[i.val] + 1#4) else t

/-- The waits of a word of engine `e` taken together, or none of them (R50). -/
def takeTokens (e : Stream) (w : Tok) (t : Vector (BitVec 4) 12) : Option (Vector (BitVec 4) 12) :=
  let wp := w.getLsbD 3
  let wn := w.getLsbD 2
  let ip := tokNext (prevOf e)
  let iN := tokPred (nextOf e)
  if (wp && t[ip.val] == 0#4) || (wn && t[iN.val] == 0#4) then none
  else some (decTok wn iN (decTok wp ip t))

/-- The signals of a word given together, or none of them (R50). -/
def giveTokens (e : Stream) (w : Tok) (t : Vector (BitVec 4) 12) : Option (Vector (BitVec 4) 12) :=
  let sp := w.getLsbD 1
  let sn := w.getLsbD 0
  if (sp && t[(tokPred e).val] == 15#4) || (sn && t[(tokNext e).val] == 15#4) then none
  else some (incTok sn (tokNext e) (incTok sp (tokPred e) t))

end Sys2Proof.Machine
end

