-- ==== Sys2Proof/Machine/Ops.lean ====
section
/-! DEFINITION. The named operations of the machine: taking a trap and returning from it (R339 to R354),
ending a node on a quarantine (R347, R333), the issue of an S or V word and its signals (R50, R51, R64),
fetching and steering (R44, R45, R130), the course of a command from its queue head to its completion row
(R55 to R59, R153). -/

namespace Sys2Proof.Machine

/-! ### Small changes of state -/

def State.mapSpan (s : State) (sp : BitVec 7) (f : Span → Span) : State := s.setSpan sp (f (s.span sp))
def State.mapReck (s : State) (sp : BitVec 7) (r : BitVec 2) (f : Reckoner → Reckoner) : State :=
  s.setReck sp r (f (s.reck sp r))
def State.mapTender (s : State) (sp : BitVec 7) (f : Tender → Tender) : State :=
  s.mapSpan sp (fun x => { x with tender := f x.tender })

/-- The thread is in restart mode (R352). -/
def restartMode (s : State) (sp : BitVec 7) : Bool := (s.span sp).tender.rm

/-- The thread of the current core sets unsafe when it is in restart mode (R353). -/
def setUnsafe (s : State) : State :=
  if restartMode s s.cur.sp then s.mapMe (fun k => { k with restart := { k.restart with dirty := true } })
  else s

/-- The lease, and any request for it, leave a Reckoner (R151, R333, R354). -/
def dropLease (sp : BitVec 7) (r : BitVec 2) (s : State) : State :=
  s.mapSpan sp (fun x =>
    let l := { x.lease with req := x.lease.req &&& ~~~(1#4 <<< r.toNat), due := x.lease.due &&& ~~~(1#4 <<< r.toNat) }
    { x with lease := if l.holder == some r then { l with holder := none, count := 0, hold := 0 } else l })

/-- Sequence number `a` was taken before `b` (R47: never reused within 2^32 units). -/
def seqBefore (a b : W32) : Bool := a != b && decide ((b - a).toNat < 2 ^ 31)

/-! ### Ending nodes (R333) -/

/-- TAG of a node record (R326). -/
def nodeTag (n : Node) : BitVec 16 := (n.record.getD 2 0#64).extractLsb' 48 16

/-- A Reckoner without a thread. CLAIM of its DSTOP register stays (R371). -/
def idleReck (k : Reckoner) : Reckoner := { Reckoner.reset with claim := k.claim }

/-- Marks without those made by some threads, which stand in no list either. -/
def dropMarks (gone : ThreadId → Bool) (l : List Mark) : List Mark :=
  (l.filter (fun m => !gone m.who)).map (fun m => { m with void := m.void.filter (fun t => !gone t) })

/-- A Span freed: its threads stopped, and everything they had in flight discarded, their marks too. No restore goes on on
it (R349). -/
def freeSpan (s : State) (sp : BitVec 7) : State :=
  let id := (s.span sp).node.getD 0
  { s.mapSpan sp (fun x =>
      { x with recks := x.recks.map idleReck, node := none, nreck := 0, lease := Lease.reset
               kserved := Vector.replicate 2 none, idleSince := s.interval, switching := false
               tender := { x.tender with swcBusy := false } }) with
    marks := dropMarks (fun t => t.1 == id && t.2.toNat / 4 == sp.toNat) s.marks }

/-- The Spans on which a node stands. -/
def spansOf (s : State) (id : Nat) : List (BitVec 7) :=
  ((List.range 128).map (BitVec.ofNat 7)).filter (fun sp => (s.span sp).node == some id)

/-- The grants of a node tag end (R373). -/
def dropGrants (tag : BitVec 16) (s : State) : State :=
  { s with trust := { s.trust with sessions := s.trust.sessions.filter (fun t => t.tag != tag) } }

/-- A node ended: its Spans and its entry freed, its marks gone, its accesses to other devices nobody's. -/
def endNode (s : State) (id : Nat) : State :=
  let s := orphan (fun w => w.thread.1 == id) ((spansOf s id).foldl freeSpan s)
  { s with nodes := s.nodes.filter (fun n => n.id != id)
           marks := dropMarks (fun t => t.1 == id) s.marks
           victim := if s.victim == some id then none else s.victim }

/-- R333: every node that carries a tag is ended, and window 0 reports it. -/
def killTag (tag : BitVec 16) (s : State) : State :=
  let ids := (s.nodes.filter (fun n => nodeTag n == tag)).map (·.id)
  if ids.isEmpty then s
  else
    let s := dropGrants tag (ids.foldl endNode s)
    { s with windows := s.windows.set 0 { s.windows[0] with tag := tag, cause := 3#4 } }

/-- R347: the Span is quarantined, and its node ended as a DKILL of its tag ends it. -/
def quarantine (sp : BitVec 7) (s : State) : State :=
  let id := (s.span sp).node
  let s := orphan (fun w => w.tender && w.thread.2.toNat / 4 == sp.toNat)
    (s.mapTender sp (fun t => { t with quar := true, running := false, work := none, pend := [] }))
  let s := s.mapSpan sp (fun x => { x with recks := x.recks.map (fun k => { k with run := .idle }) })
  match s.nodes.find? (fun n => some n.id == id) with
  | some n => killTag (nodeTag n) s
  | none => s

/-! ### Taking a trap (R339 to R347) -/

/-- CLASS of a cause (R339): 1 replayable, 2 fatal. -/
def classOf (c : BitVec 8) : BitVec 2 := if c == cXLATE then 1#2 else if c == cECC then 2#2 else 0#2

/-- A recorded fault is fatal: ECC, or any trap of an unsafe thread in restart mode (R353). -/
def isFatal (s : State) (sp : BitVec 7) (r : BitVec 2) (t : TrapInfo) : Bool :=
  classOf t.cause == 2#2 || (restartMode s sp && (s.reck sp r).restart.dirty)

/-- CTL of a record (R345). -/
def ctlOf (t : TrapInfo) (r : BitVec 2) (rm fatal : Bool) : W64 :=
  (0#24 ++ t.word ++ t.lane ++ BitVec.ofNat 8 t.rep ++ t.level ++ BitVec.ofBool t.wr ++ BitVec.ofBool rm
    ++ BitVec.ofBool t.mig ++ (if fatal then 2#2 else classOf t.cause) ++ BitVec.ofBool t.spl ++ t.code ++ r
    ++ t.cause : BitVec 64)

/-- The trap record of a fault (R344), with the sequence vector of R341. -/
def recordOf (s : State) (sp : BitVec 7) (r : BitVec 2) (t : TrapInfo) (fatal : Bool) : Record :=
  let k := s.reck sp r
  let vec (e : Stream) : W32 := (k.str e).lastActed
  #v[ctlOf t r (restartMode s sp) fatal, t.pc.zeroExtend 64, t.addr, t.cursor ++ t.seq, t.item, k.scyS, k.scyV,
     vec .V ++ vec .S, vec .K ++ vec .M, vec .Q ++ vec .C, k.pc.zeroExtend 64, 0#64, 0#64, 0#64, 0#64, 0#64]

/-- The flags a fault leaves with the command it cuts (R58): XL, SCALEMIS, DEAD; CUT for every command
that a freeze stops. -/
def cutFlags (c : BitVec 8) : BitVec 8 :=
  0x20#8 ||| (if c == cXLATE then 0x80#8 else 0#8) ||| (if c == cSCALEMIS then 0x40#8 else 0#8)
    ||| (if c == cDEAD then 0x10#8 else 0#8)

/-- The streams of commands. -/
def cmdStreams : List Stream := [.M, .K, .C, .Q]

/-- Checks or units of a command are still to come. -/
def Cmd.underway (c : Cmd) : Bool := c.stage == .checking || c.stage == .running

/-- The fault is one of the command itself, not of a later unit of its stream. -/
def ofCmd (e : Stream) (c : Cmd) (i : TrapInfo) : Bool :=
  i.stream == e && i.seq == c.work.seq && !i.spl && !i.fetch

/-- The thread stands: frozen by a trap, or at a debug stop, which freezes it just so (R340, R368). -/
def stands (k : Reckoner) : Bool := k.frozen.isSome || k.stop.isSome

/-- The thread stands, or a full switch has frozen it (R356). -/
def standing (k : Reckoner) : Bool := stands k || k.halted

/-- The access of a unit of a command of a thread. -/
def unitOfCmd (t : ThreadId) (e : Stream) (c : Cmd) : Access := { workAccess t e c.work with cursor := c.cursor }

/-- An access of the unit at which a stream of a thread stands has been sent to another device: the unit has begun, and
completes though the thread freezes (R340). Of the S words it is an atomic, which has issued. -/
def begunUnit (s : State) (sp : BitVec 7) (r : BitVec 2) (e : Stream) : Bool :=
  let k := s.reck sp r
  let t := threadId s sp r
  !k.faults.any (fun f => f.stream == e && !f.spl && !f.fetch) &&
  (match e, (k.str e).active, (k.str e).queue.head? with
   | .S, _, some u => s.fabric.requests.any (fun q => q.who == some (workAccess t .S u) &&
      (match q.sent with | .atomic _ _ _ _ => true | _ => false))
   | _, some c, _ => c.underway && s.fabric.requests.any (fun q => q.who == some (unitOfCmd t e c))
   | _, _, _ => false)

/-- A command in execution when its thread freezes (R340, R343): one with checks or units to come is cut, and
gives up its engine (log 33), or its turn, and what it keeps for one run (the gain rows of an MMAID stay, R247); one that waits for its row alone is stopped only by a fault of its own. -/
def freezeCmd (rec' : List TrapInfo) (e : Stream) (k : Reckoner) : Reckoner :=
  k.modStr e (fun t =>
    match t.active with
    | none => t
    | some c =>
      let own := (rec'.filter (ofCmd e c)).foldl (fun f i => f ||| cutFlags i.cause) c.flags
      if c.underway then
        let rows := if e == .Q then [] else c.part.rows
        let part := { c.part with half := none, tile := none, tileW := none, rows := rows }
        { t with active := some { c with flags := own ||| 0x20#8, engine := false, part := part } }
      else { t with active := some { c with flags := own } })

/-- The commands of a thread that freezes, cut where they stand, but for those whose unit has begun (R340, R343). -/
def freezeCmds (rec' : List TrapInfo) (s : State) (sp : BitVec 7) (r : BitVec 2) (k : Reckoner) : Reckoner :=
  cmdStreams.foldl (fun k e => if begunUnit s sp r e && !rec'.any (fun i => i.stream == e && !i.spl && !i.fetch) then k
    else freezeCmd rec' e k) k

/-- The landing fault of an entry is pending. -/
def pendingLand (fs : List TrapInfo) (b : LandEntry) : Bool :=
  fs.any (fun t => t.land && t.stream == b.stream && t.seq == b.work.seq && t.rep == b.work.rep)

/-- R340: the thread frozen by the recorded faults; those that found no entry stay pending (R347). TPC is the resume address, TREP the repetition at
which each stream stands (R349). -/
def freezeThread (sp : BitVec 7) (r : BitVec 2) (rec' : List TrapInfo) (fatal retire : Bool) (s : State) : State :=
  s.mapReck sp r (fun k =>
    let repOf (e : Stream) : BitVec 8 :=
      match (k.str e).queue.head? with
      | some u => if u.prep.isSome then BitVec.ofNat 8 u.rep else 0#8
      | none => 0#8
    let trapAt (e : Stream) : Bool := rec'.any (fun t => t.stream == e && !t.land && !t.spl && !t.fetch && !t.after)
    let landAt (e : Stream) : List (W32 × Nat) :=
      (rec'.filter (fun t => t.stream == e && t.land)).map (fun t => (t.seq, t.rep))
    let rest := k.faults.filter (fun t => !rec'.contains t)
    let f : Freeze :=
      { sTrap := trapAt .S, vTrap := trapAt .V, sLand := landAt .S, vLand := landAt .V, fatal := fatal
        retire := retire, tpc := k.pc, rs := repOf .S, rv := repOf .V, eret := false }
    let k := freezeCmds rec' s sp r k
    { k with frozen := some f, pend := [], faults := rest
             buffer := k.buffer.map (fun b => if pendingLand rest b then b else { b with fault := none }) })

/-- One fault put into the record queue (R347): the state, whether it was recorded, and whether it
quarantines. -/
inductive Recorded where
  | yes (s : State) | no | second

def recordFault (sp : BitVec 7) (r : BitVec 2) (s : State) (t : TrapInfo) : Recorded :=
  let x := s.span sp
  if isFatal s sp r t then
    if x.rowFatal.isSome then .second
    else .yes (s.setSpan sp { x with rowFatal := some (recordOf s sp r t true) })
  else if x.rowsOrd.length < 15 then
    .yes (s.setSpan sp { x with rowsOrd := x.rowsOrd ++ [recordOf s sp r t false] })
  else .no

/-- The faults of one freeze edge put into the queue in their order (R343): those recorded, or nothing
when a second fatal quarantines. -/
def recordAll (sp : BitVec 7) (r : BitVec 2) : List TrapInfo → List TrapInfo → State → Option (State × List TrapInfo)
  | [], acc, s => some (s, acc.reverse)
  | t :: ts, acc, s =>
    match recordFault sp r s t with
    | .yes s' => recordAll sp r ts (t :: acc) s'
    | .no => recordAll sp r ts acc s
    | .second => none

/-- Order of streams in R343. -/
def streamOrder : List Stream := [.S, .V, .M, .K, .C, .Q]

/-- A fault comes before another of its stream in queue order: by sequence number and repetition; one met at the splitter
or at a fetch, whose unit is not queued, comes last (R343). -/
def faultBefore (a b : TrapInfo) : Bool :=
  let late (t : TrapInfo) : Bool := t.spl || t.fetch
  if late a != late b then late b
  else !late a && (seqBefore a.seq b.seq || (a.seq == b.seq && decide (a.rep < b.rep)))

/-- A fault put among others of its stream in queue order, behind those that it does not precede. -/
def insertFault (t : TrapInfo) : List TrapInfo → List TrapInfo
  | [] => [t]
  | x :: l => if faultBefore t x then t :: x :: l else x :: insertFault t l

/-- The faults of one edge in the order of R343. -/
def inOrder (fs : List TrapInfo) : List TrapInfo :=
  streamOrder.flatMap (fun e => (fs.filter (fun t => t.stream == e)).foldl (fun acc t => insertFault t acc) [])

/-- R340, R343, R347: the pending faults of a thread taken as traps on one freeze edge. When the
ordinary entries are all taken, an ordinary fault stays pending and holds its stream. -/
def takeFaults (sp : BitVec 7) (r : BitVec 2) (s : State) : State :=
  if (s.reck sp r).frozen.isSome then s
  else match recordAll sp r (inOrder (s.reck sp r).faults) [] s with
  | none => quarantine sp s
  | some (_, []) => s
  | some (s', recd) =>
    let fatal := recd.any (isFatal s sp r)
    let retire := recd.any (fun t => t.after && t.cause == cQPROTO)
    freezeThread sp r recd fatal retire s'

/-- The faults that a thread has met are taken at once where the queue has room, or, where the agenda says so, at the
end of their clock, together with those of the thread's other agents (R343, log 3); at the edge of a debug stop they are
taken with it (R370). -/
def takeOrWait (sp : BitVec 7) (r : BitVec 2) (s : State) : State :=
  if s.defer || (s.reck sp r).stopMet then s else takeFaults sp r s

/-- A fault of a thread met. -/
def raiseTrap (sp : BitVec 7) (r : BitVec 2) (t : TrapInfo) (s : State) : State :=
  takeOrWait sp r (s.mapReck sp r (fun k => { k with faults := k.faults ++ [t] }))

/-- The fault of a word or a command as the record names it. -/
def trapInfo (e : Stream) (u : Work) (cursor : Nat) (f : Flt) : TrapInfo :=
  { cause := f.cause, stream := e, code := streamCode e, pc := u.pc, addr := f.addr, seq := u.seq
    cursor := BitVec.ofNat 32 cursor, item := f.item, lane := f.lane, word := f.word, level := f.level
    wr := f.wr, mig := f.mig, spl := false, rep := u.rep, land := false, after := false, fetch := false }

/-! ### Signals (R50, R51) -/

/-- The effects of every S word so far are complete. -/
def sQuiet (k : Reckoner) : Bool :=
  k.posted.isEmpty && k.windows.isEmpty && k.wait == .none && !k.buffer.any (fun e => e.stream == .S)

/-- Every V word so far has landed. -/
def vQuiet (k : Reckoner) : Bool :=
  k.landings.isEmpty && !k.buffer.any (fun e => e.stream == .V) &&
  !k.w.toList.any (fun f => match f with | .pending _ _ => true | _ => false)

/-- The effects of every word of a stream so far are complete. -/
def quiet (e : Stream) (k : Reckoner) : Bool :=
  match e with
  | .S => sQuiet k
  | .V => vQuiet k
  | _ => (k.str e).active.isNone

/-- The signals of a stream wait for no effect of its words: EXIT signals at once (R150). -/
def signalFree (e : Stream) (k : Reckoner) : Bool := (e == .S && k.run == .draining) || quiet e k

/-- The signals a stream owes, given if they can be: a counter at 15 holds the stream, a wait for the
effects does not. A word that is to trap after its effect signals after its ERET (R350). -/
def trySignal (e : Stream) (k : Reckoner) : Reckoner :=
  match (k.str e).sig with
  | none => k
  | some w =>
    if k.faults.any (fun t => t.stream == e && t.after) then k
    else if signalFree e k then
      match giveTokens e w k.tok with
      | some t => ({ k with tok := t }).modStr e (fun x => { x with sig := none, held := false })
      | none => k.modStr e (fun x => { x with held := true })
    else k.modStr e (fun x => { x with held := false })

/-- The token bits of a word that signals. -/
def sigOf (w : Tok) : Option Tok := if w &&& 3#4 == 0#4 then none else some w

/-! ### The issue of an S or V word -/

/-- One schedule cycle of a stream has passed. -/
def bumpCycle (e : Stream) (k : Reckoner) : Reckoner :=
  match e with
  | .S => { k with scyS := k.scyS + 1#64 }
  | .V => { k with scyV := k.scyV + 1#64 }
  | _ => k

/-- Queue pointer after one entry (R46). -/
def wrapPtr (e : Stream) (p : BitVec 6) : BitVec 6 :=
  BitVec.ofNat 6 ((p.toNat + 1) % Config.queueDepth (sidx e).val)

/-- The head of a stream's queue removed. -/
def dropHead (e : Stream) (t : StreamSt) : StreamSt :=
  { t with queue := t.queue.tail, head := if t.queue.isEmpty then t.head else wrapPtr e t.head }

/-- The S words whose results a dependent word waits for longer than a clock (R123), and for how long. -/
def slowResult : Instr → Option (BitVec 5 × Nat)
  | .mul _ d _ _ => some (d, Config.mulLatency)
  | .mulh _ d _ _ _ => some (d, Config.mulLatency)
  | .agen _ d _ _ _ => some (d, Config.mulLatency)
  | .div _ d _ _ => some (d, Config.divLatency)
  | .rem _ d _ _ => some (d, Config.divLatency)
  | .lds _ d _ _ => some (d, Config.ldsLatency)
  | _ => none

/-- The clock from which the result of a word may be read (R123); of a word that names g0 as its destination too, and a
word that reads g0 waits for it (log 50). -/
def markReady (i : Instr) (clock : Nat) (k : Reckoner) : Reckoner :=
  match slowResult i with
  | none => k
  | some (d, n) =>
    { k with ready := Table.put k.ready d.toNat (max ((Table.find? k.ready d.toNat).getD 0) (clock + n)) }

/-- The word has acted: its clock, its place in the queue, its signals (R47, R50, R64). -/
def issued (e : Stream) (w : Tok) (s : State) : State :=
  let u := s.unit e
  let more := match u.prep with | some p => decide (u.rep + 1 < p.count.toNat) | none => false
  s.mapMe (fun k =>
    let k := markReady u.now s.my.clock k
    if more then
      k.modStr e (fun t =>
        { t with queue := mapHead (fun u => { u with rep := u.rep + 1, waited := true, popped := [], kept := none, serve := none }) t.queue
                 held := false, waits := [], acted := true, lastActed := u.seq })
    else
      trySignal e (k.modStr e (fun t =>
        { dropHead e t with
          sig := sigOf w, held := false, waits := [], acted := true, lastActed := u.seq })))

/-- A PREP with no repetition left, of COUNT 0 above all, has taken its waits and executes nothing (R64):
it leaves the queue and signals, with no schedule cycle. -/
def skipped (e : Stream) (w : Tok) (s : State) : State :=
  let u := s.unit e
  s.mapMe (fun k => trySignal e (k.modStr e (fun t =>
    { dropHead e t with sig := sigOf w, held := false, lastActed := u.seq })))

/-- Something of the thread waits for the timed loads of a stream that `p` names (R294, R298, R301). -/
def markWaits (e : Stream) (p : LandEntry → Bool) (s : State) : State :=
  let keys := (s.me.buffer.filter (fun b => b.stream == e && b.data.isNone && p b)).map (fun b => (b.work.seq, b.work.rep))
  s.modStr e (fun t => { t with waits := t.waits ++ keys })

/-- The counter of a stream stands for a hold of its own: its word held when it last tried, or S stands in a SYNC or
for an atomic (R124, R209, R308, R321). -/
def standsStill (e : Stream) (k : Reckoner) : Bool :=
  ((k.str e).held && (!(k.str e).queue.isEmpty || (k.str e).sig.isSome)) || (e == .S && k.wait != .none)

/-- The stream holds at its head. -/
def held (e : Stream) (s : State) : State := s.modStr e (fun t => { t with held := true })

/-- What the body of a word answers, applied to its stream. A word that has begun before its thread stands and then meets a
fault has done nothing, and is tried again once the thread goes on (R340). -/
def finishWord (e : Stream) (w : Tok) (x : Out Unit) : State :=
  match x with
  | .ok _ s => issued e w s
  | .hold s => held e s
  | .trap f s => if standing s.me then s else raiseTrap s.cur.sp s.cr (trapInfo e (s.unit e) 0 f) s

/-- The token waits of a unit, taken once (R50, R64). -/
def waitTokens (e : Stream) (w : Tok) (s : State) : Option State :=
  if (s.unit e).waited then some s
  else (takeTokens e w s.me.tok).map (fun t => (s.mapMe (fun k => { k with tok := t })).modUnit e (fun u => { u with waited := true }))

/-- A word of the S or V stream: its waits, the checks of PREP before the first repetition, its body. -/
def runWord (e : Stream) (w : Tok) (body : State → Out Unit) (s : State) : State :=
  match waitTokens e w s with
  | none => held e s
  | some s =>
    match (s.unit e).prep with
    | none => finishWord e w (sparing s (body s))
    | some p =>
      if p.count.toNat ≤ (s.unit e).rep then skipped e w s
      else if (s.unit e).rep = 0 then
        match repCheck false (s.unit e).instr p with
        | some c => finishWord e w (.trap (flt c) s)
        | none => finishWord e w (sparing s (body s))
      else finishWord e w (sparing s (body s))

/-- The tender's word has acted (R348). -/
def tenderDone (s : State) : State :=
  let u := s.unit .S
  let more := match u.prep with | some p => decide (u.rep + 1 < p.count.toNat) | none => false
  s.mapTender s.cur.sp (fun t =>
    if more then { t with work := t.work.map (fun u => { u with rep := u.rep + 1 }) }
    else { t with work := none })

/-- A word of the tender: a fault of it quarantines the Span; its token bits name no ring. -/
def runTender (body : State → Out Unit) (s : State) : State :=
  let go := match body s with
    | .ok _ s => tenderDone s
    | .hold s => s
    | .trap _ s => quarantine s.cur.sp s
  match (s.unit .S).prep with
  | none => go
  | some p =>
    if p.count.toNat ≤ (s.unit .S).rep then s.mapTender s.cur.sp (fun t => { t with work := none })
    else if (s.unit .S).rep = 0 && (repCheck true (s.unit .S).instr p).isSome then quarantine s.cur.sp s
    else go

/-- An S word. -/
def sWord (w : Tok) (body : State → Out Unit) (s : State) : Host.Outcome State Fault Refusal :=
  .next (if s.atTender then runTender body s else runWord .S w body s)

/-- An S word that the tender may not execute (R348). -/
def sOnly (w : Tok) (body : State → Out Unit) (s : State) : Host.Outcome State Fault Refusal :=
  .next (if s.atTender then quarantine s.cur.sp s else runWord .S w body s)

/-- A V word. -/
def vWord (w : Tok) (body : State → Out Unit) (s : State) : Host.Outcome State Fault Refusal :=
  .next (if s.atTender then quarantine s.cur.sp s else runWord .V w body s)

/-! ### Fetch and steering (R44, R45, R112, R130, R145) -/

/-- A fetch of one word. -/
def fetchAsk : Ask := ⟨false, true, false, false, false, none, 0#2, false⟩

/-- The line of an instruction cache for an address. -/
def fetchLine (c : List FetchLine) (asid : BitVec 12) (pc : BitVec 52) : Option FetchLine :=
  c.find? (fun l => l.page.asid == asid && l.line == pc.toNat / 128)

/-- A word fetched: translated, then taken from the line that the instruction cache holds, or from its row, which enters
the cache (R112, R118, log 44). -/
def fetchWord (sp : BitVec 7) (root : W64) (pc : BitVec 52) (s : State) : Out W32 :=
  let asid := root.extractLsb' 52 12
  let word (row : Row) : W32 := row.extractLsb' (8 * (pc.toNat / 4 * 4 % 128)) 32
  (translateVa sp root fetchAsk pc s).bind fun p s =>
    match fetchLine (s.span sp).icache asid pc with
    | some l => .ok (word l.row) s
    | none => (readRowAt p.pa s).bind fun row s =>
      .ok (word row) (s.mapSpan sp (fun x => { x with icache := ⟨p.page, pc.toNat / 128, row⟩ :: x.icache }))

/-- The words after which nothing is steered until they have executed (R130, R321). -/
def isControl : Instr → Bool
  | .beq _ _ _ _ => true | .bne _ _ _ _ => true | .blt _ _ _ _ => true | .bge _ _ _ _ => true
  | .bltn _ _ _ _ => true | .bgen _ _ _ _ => true | .j _ _ => true | .jal _ _ => true | .jr _ _ => true
  | .loop _ _ _ => true | .lbr _ _ => true | .bw _ _ _ _ => true | .rdw _ _ _ _ => true | .exit _ => true
  | .sync _ => true | .node _ => true | .csrw _ _ c => c == 0x023#12
  | _ => false

/-- The splitter of a Reckoner may take a word: at most one on a clock (R44). -/
def maySteer (s : State) (sp : BitVec 7) (r : BitVec 2) : Bool :=
  let k := s.reck sp r
  k.run == .running && !standing k && !k.stopMet && !k.steered && !(s.span sp).tender.quar &&
  !k.faults.any (fun t => t.spl || t.fetch) &&
  (match k.wait with | .arrived _ => false | .released => false | _ => true) &&
  !(k.str .S).queue.any (fun u => isControl u.instr)

/-- What a steering came to. -/
inductive SteerEnd where
  | nothing
  | pre (i : Instr)
  | placed (e : Stream)

/-- A fault at the splitter or at a fetch (R44, R112, R344): it names the first word of the unit, and
nothing is steered. -/
def splitTrap (sp : BitVec 7) (r : BitVec 2) (e : Stream) (code : BitVec 3) (seq : W32) (spl : Bool) (f : Flt)
    (s : State) : State :=
  let k := s.reck sp r
  raiseTrap sp r
    { trapInfo e (bareUnit k) 0 f with code := code, pc := k.pc, seq := seq, spl := spl, fetch := !spl } s

/-- A unit appended to its stream: its sequence number, its rotation base, the fetch address moved past
it (R45 to R47, R145). -/
def placeUnit (sp : BitVec 7) (r : BitVec 2) (e : Stream) (u : Work) (next : BitVec 52) (s : State) : State :=
  s.mapReck sp r (fun k =>
    ({ k with pc := next, pend := [], steered := true }).modStr e (fun t =>
      { t with queue := t.queue ++ [u], seq := u.seq, tail := wrapPtr e t.tail }))

/-- The splitter takes one word: a prefix word goes to the unit being gathered, a final word is judged
with its prefixes and steered. The S pipeline takes no word while the one before it owes signals (R45, R50). -/
def steer (sp : BitVec 7) (r : BitVec 2) (s : State) : State × SteerEnd :=
  let k := s.reck sp r
  if !maySteer s sp r then (s, .nothing)
  else
    let a := k.pc + BitVec.ofNat 52 (4 * k.pend.length)
    match fetchWord sp (s.span sp).xroot a s with
    | .hold s => (s, .nothing)
    | .trap f s =>
      let id := Config.fetchTrapId s.free
      (splitTrap sp r .S (id.extractLsb' 0 3) (id.extractLsb' 3 32) false f { s with free := s.free + 1 }, .nothing)
    | .ok w s =>
      if engOf w = 7 && decide (k.pend.length < 2) then
        match decode w with
        | .ok i => (s, .pre i)
        | .error _ => (s.mapReck sp r (fun k => { k with pend := k.pend ++ [w], steered := true }), .nothing)
      else
        let e := streamOfCode (BitVec.ofNat 3 (engOf w))
        match unitCheck false k.pend w with
        | .error c =>
          let seq := if engOf w = 6 || engOf w = 7 then 0#32 else (k.str e).seq + 1#32
          (splitTrap sp r (if engOf w = 6 || engOf w = 7 then .S else e) (BitVec.ofNat 3 (engOf w)) seq true
            (flt c) s, .nothing)
        | .ok i =>
          if Config.queueDepth (sidx e).val ≤ (k.str e).queue.length || (e == .S && (k.str .S).sig.isSome) then (s, .nothing)
          else
            (placeUnit sp r e (unitOf k.pend i k.pc ((k.str e).seq + 1#32) k.rrb) (a + 4#52) s, .placed e)

/-- A prefix word joins the unit being gathered (R60). -/
def gather (w : W32) (s : State) : State :=
  if s.atTender then s.mapTender s.cur.sp (fun t => { t with pend := t.pend ++ [w] })
  else s.mapMe (fun k => { k with pend := k.pend ++ [w], steered := true })

/-- The tender takes one word of its handler (R348). -/
def tenderFetch (sp : BitVec 7) (s : State) : State × SteerEnd :=
  let t := (s.span sp).tender
  let a := t.pc + BitVec.ofNat 52 (4 * t.pend.length)
  match fetchWord sp t.troot a s with
  | .hold s => (s, .nothing)
  | .trap _ s => (quarantine sp s, .nothing)
  | .ok w s =>
    if engOf w = 7 && decide (t.pend.length < 2) then
      match decode w with
      | .ok i => (s, .pre i)
      | .error _ => (quarantine sp s, .nothing)
    else match unitCheck true t.pend w with
      | .error _ => (quarantine sp s, .nothing)
      | .ok i =>
        (s.mapTender sp (fun t =>
          { t with pend := [], pc := a + 4#52, work := some (unitOf t.pend i t.pc 0#32 0#4) }),
          .placed (streamOfCode (BitVec.ofNat 3 (engOf w))))

/-- Fetch goes on at an address (R140, R141). -/
def setPc (t : BitVec 52) (s : State) : State :=
  if s.atTender then s.mapTender s.cur.sp (fun x => { x with pc := t })
  else s.mapMe (fun k => { k with pc := t })

/-! ### Return from a trap (R351, R354) -/

/-- The vector banks of a Reckoner, and the banks of the tiles (R184). -/
def vBanksOf (r : BitVec 2) : List BankName := (List.range 4).map (fun i => .vbank r (BitVec.ofNat 2 i))
def tileBanks : List BankName := (List.range 16).map (fun n => .tile (BitVec.ofNat 4 n))

/-- R351, R354 step by step: the thread runs again from its last REGION, its in-flight work discarded. -/
def restartThread (sp : BitVec 7) (r : BitVec 2) (s : State) : State :=
  let s := orphan (fun w => !w.tender && w.thread == threadId s sp r) s
  dropLease sp r ((s.mapSpan sp (unwritten (vBanksOf r ++ tileBanks))).mapReck sp r (fun k =>
    { k with
      frozen := none, pend := [], run := .running
      streams := k.streams.map (fun t =>
        { t with queue := [], sig := none, held := false, waits := [], acted := false, active := none, ahead := 0, head := t.tail })
      landings := [], buffer := [], faults := [], wait := .none, fence := [], ready := [], lateHold := false, stopMet := false
      tok := k.restart.tok, rrb := k.restart.rrb, lc := k.restart.lc
      w := Vector.replicate 8 .empty
      q := #v[[], [], [], [], [], k.q[5], k.q[6]], argSeq := Vector.replicate 4 [], q2turn := []
      pc := k.restart.point }))

/-- The trapping word of a stream discarded: it counts as executed with no effect, and signals (R351). -/
def skipWord (e : Stream) (k : Reckoner) : Reckoner :=
  match (k.str e).queue.head? with
  | none => k
  | some u =>
    trySignal e (k.modStr e (fun t =>
      { dropHead e t with sig := sigOf (Decode.fld (encode u.instr) 25 4), held := false, lastActed := u.seq }))

/-- The landing entries of discarded timed loads leave the buffer. -/
def skipLandings (e : Stream) (seqs : List (W32 × Nat)) (k : Reckoner) : Reckoner :=
  { k with buffer := k.buffer.filter (fun b => !(b.stream == e && seqs.contains (b.work.seq, b.work.rep))) }

/-- The repetition at which the unit at the cut resumes (R349). -/
def setRep (e : Stream) (j : BitVec 8) (k : Reckoner) : Reckoner :=
  k.modStr e (fun t =>
    { t with queue := mapHead (fun u => if u.prep.isSome then { u with rep := j.toNat } else u) t.queue })

/-- Schedule cycle `due` has been reached. -/
def reached (due now : W64) : Bool := decide ((now - due).toNat < 2 ^ 63)

/-- The schedule cycle of the stream of an entry has come. -/
def entryDue (k : Reckoner) (b : LandEntry) : Bool :=
  reached b.due (match b.stream with | .S => k.scyS | _ => k.scyV)

/-- Some due entry has no data: both streams hold (R127). -/
def late (k : Reckoner) : Bool := k.buffer.any (fun b => b.data.isNone && entryDue k b)

/-- The thread goes on from its cut (R351). A repetition index at or past COUNT ends its unit; a thread that
has executed EXIT fetches nothing more. -/
def resumeThread (sp : BitVec 7) (r : BitVec 2) (f : Freeze) (skips skipv : Bool) (s : State) : State :=
  (s.mapSpan sp (unwritten (if skipv then vBanksOf r else []))).mapReck sp r (fun k =>
    let k := if skips && f.sTrap then skipWord .S k else setRep .S f.rs k
    let k := if skips then skipLandings .S f.sLand k else k
    let k := if skipv && f.vTrap then skipWord .V k else setRep .V f.rv k
    let k := if skipv then skipLandings .V f.vLand k else k
    let k := if f.retire then { k with q := #v[k.q[0], [], [], [], [], k.q[5], k.q[6]], argSeq := Vector.replicate 4 [] } else k
    { k with frozen := none, pc := if k.run == .draining then k.pc else f.tpc, skips := false, skipv := false
             lateHold := late k })

/-- What an ERET does to a frozen thread (R351, R354). -/
def thaw (sp : BitVec 7) (r : BitVec 2) (f : Freeze) (s : State) : State :=
  if restartMode s sp then (restartThread sp r s).mapReck sp r (fun k => { k with skips := false, skipv := false })
  else resumeThread sp r f (s.reck sp r).skips (s.reck sp r).skipv s

/-- ERET at the tender (R351). One given to a thread that stands at a debug stop is accepted, and takes effect at the
resume (R370). -/
def eret (s : State) : State :=
  let sp := s.cur.sp
  let r := s.my.tender.tsel
  match (s.reck sp r).frozen with
  | none => s.mapTender sp (fun t => { t with err := true })
  | some f =>
    if f.fatal then s.mapTender sp (fun t => { t with err := true })
    else if (s.reck sp r).stop.isSome then s.mapReck sp r (fun k => { k with frozen := some { f with eret := true } })
    else thaw sp r f s

/-- RESUME of a debug stop (R369, R371): the thread goes on; an ERET that was given meanwhile takes effect (R370). -/
def endStop (sp : BitVec 7) (r : BitVec 2) (s : State) : State :=
  if (s.reck sp r).stop.isNone then s
  else
    let s := s.mapReck sp r (fun k => { k with stop := none })
    match (s.reck sp r).frozen with
    | some f => if f.eret then thaw sp r f s else s
    | none => s

/-! ### Commands (R55 to R59, R153, R162) -/

/-- The argument queue of a stream of commands (R52). -/
def argQueue : Stream → Fin 7
  | .M => 1 | .K => 2 | .C => 3 | .Q => 4 | _ => 0

/-- The pacing register of a stream of commands (R337). -/
def paceOf (e : Stream) (k : Reckoner) : Nat :=
  match e with
  | .M => k.pace[0].toNat | .K => k.pace[1].toNat | .C => k.pace[2].toNat | _ => k.pace[3].toNat

/-- The gap since the last dequeue has elapsed (R337). -/
def paced (e : Stream) (k : Reckoner) (clock : Nat) : Bool :=
  match (k.str e).lastDeq with
  | none => true
  | some t => decide (t + paceOf e k ≤ clock)

def Arena.at (k : Reckoner) (g : BitVec 3) : Arena := k.ag[g.toNat]'(by have := g.isLt; omega)

def Partial.empty : Partial :=
  { total := 0, list := [], sums := [], err := Ext.zero, wgen := none, gains := [], cols := [], affine := []
    dynM := 0#32, hmax := 0#32, sms := SmsConfig.reset, book := [], off := 0, saved := [], half := none, tile := none
    tileW := none, rows := [], sets := [] }

/-- A command as it leaves its queue head: its arguments popped, MDEF and its row latched (R57, R153).
`row` is the local offset of completion row `c`. -/
def newCmd (k : Reckoner) (u : Work) (args : List W64) (c : BitVec 6) (rp : Bool) : Cmd :=
  { work := u, args := args, mdef := k.mdef, row := k.cobase.toNat * 8192 + 128 * c.toNat, tcfg := 0#32
    tcfg2 := 0#32, ashape := 0#8, arena := Arena.reset, cursor := 0, flags := 0#8, result := [], rp := rp
    part := Partial.empty, stage := .checking, engine := true, place := 0, failed := false, deadAt := none, again := false }

/-- The head of a command queue left (R337, R341). -/
def dequeue (e : Stream) (seq : W32) (clock : Nat) (k : Reckoner) : Reckoner :=
  k.modStr e (fun t => { dropHead e t with lastDeq := some clock, lastActed := seq, held := false, acted := true })

/-- The S accesses so far have been performed: posted stores, and the reads of timed loads (R159, R294). -/
def sPerformed (k : Reckoner) : Bool :=
  k.posted.isEmpty && !k.buffer.any (fun b => b.stream == .S && b.data.isNone)

/-- An S word of number `n` is one before a push, which none means is not known. -/
def beforePush (push : Option W32) (n : W32) : Bool := match push with | some p => seqBefore n p | none => true

/-- The S accesses before the push of an argument have been performed (R159, R239, R256, R283, R294). -/
def pushPerformed (push : Option W32) (k : Reckoner) : Bool :=
  !k.posted.any (fun p => beforePush push p.work.seq) &&
  !k.buffer.any (fun b => b.stream == .S && b.data.isNone && beforePush push b.work.seq)

/-- The S words that pushed the entries of the argument queue of a stream. -/
def pushesOf (e : Stream) (k : Reckoner) : List W32 :=
  match e with
  | .M => k.argSeq[0] | .K => k.argSeq[1] | .C => k.argSeq[2] | .Q => k.argSeq[3] | _ => []

/-- So many entries of an argument queue popped. -/
def dropArgs (e : Stream) (n : Nat) (k : Reckoner) : Reckoner :=
  { k with q := k.q.set (argQueue e).val (k.q[(argQueue e).val].drop n)
           argSeq := Vector.ofFn (fun (i : Fin 4) => if i.val + 1 = (argQueue e).val then k.argSeq[i].drop n else k.argSeq[i]) }

/-- A command of a thread that stands is cut once the unit that had begun has completed, or has met a fault, which it
meets again when it goes on (R340). -/
def cutStanding (e : Stream) (s : State) : State :=
  if standing s.me && !begunUnit s s.cur.sp s.cr e then s.mapMe (freezeCmd [] e) else s

/-- What a command still running is after its step: kept with its units, held, or cut. A DEAD of its own is
remembered with its cursor (R165). A unit that faults has not begun: what it has asked of other devices is nobody's; a
Girder command leaves its turn to others (R228). -/
def keepCmd (e : Stream) (c : Cmd) (x : Out Unit) : State :=
  let put (h : Bool) (s : State) : State := cutStanding e (s.modStr e (fun t => { t with active := some c, held := h }))
  match x with
  | .ok _ s => put false s
  | .hold s => put true s
  | .trap f s =>
    let s := orphan (fun w => w == unitOfCmd (threadId s s.cur.sp s.cr) e c) s
    if standing s.me then put false s
    else
      let c := { c with deadAt := if f.cause == cDEAD then some c.cursor else c.deadAt, engine := c.engine && e != .M }
      raiseTrap s.cur.sp s.cr (trapInfo e c.work c.cursor f) (s.modStr e (fun t => { t with active := some c, held := false }))

/-- A unit applied, or prepared: then its cursor stands. -/
def pastUnit (cursor : Nat) (c : Cmd) : Cmd :=
  if c.again then { c with again := false, cursor := cursor } else { c with cursor := cursor + 1 }

/-- Units of a command from its cursor to its end, in at most `n` strides (R162). -/
def runUnits (total : Cmd → Nat) (unit : Cmd → State → Out Cmd) : Nat → Cmd → State → Cmd × Out Unit
  | 0, c, s => (c, .ok () s)
  | n + 1, c, s =>
    if total c ≤ c.cursor then (c, .ok () s)
    else match sparing s (unit c s) with
    | .ok c' s' => runUnits total unit n (pastUnit c.cursor c') s'
    | .hold s' => (c, .hold s')
    | .trap f s' => (c, .trap f s')

/-- A command in execution goes on: its units, and after the last its closing work, which leaves it
finished. -/
def runCmd (e : Stream) (total : Cmd → Nat) (unit close : Cmd → State → Out Cmd) (c : Cmd) (s : State) : State :=
  let n := s.cur.units.getD (2 * (total c - c.cursor))
  match runUnits total unit n c s with
  | (c', .ok _ s') =>
    if c'.cursor < total c' then keepCmd e c' (.ok () s')
    else match sparing s' (close c' s') with
      | .ok c'' s'' => keepCmd e { c'' with stage := .finished } (.ok () s'')
      | .hold s'' => keepCmd e c' (.hold s'')
      | .trap f s'' => keepCmd e c' (.trap f s'')
  | (c', x) => keepCmd e c' x

/-- A command stands at its argument stage for q2 (R275), or no longer does. -/
def takeTurn (e : Stream) (k : Reckoner) : Reckoner := if k.q2turn.contains e then k else { k with q2turn := k.q2turn ++ [e] }
def leaveTurn (e : Stream) (k : Reckoner) : Reckoner := { k with q2turn := k.q2turn.erase e }

/-- Another engine stood at its argument stage for q2 before (R275). -/
def behind (e : Stream) (k : Reckoner) : Bool := k.q2turn.head?.any (· != e)

/-- A command that holds at a stage before its arguments does not stand in line for q2. -/
def offTurn (e : Stream) {α : Type} : Out α → Out α
  | .hold s => .hold (s.mapMe (leaveTurn e))
  | x => x

/-- A command that its engine does not let go yet: a K command, past its tokens, stands at its arguments (R255); an M
command stands before them (R234). -/
def atGate (e : Stream) {α : Type} : Out α → Out α
  | .hold s => .hold (s.mapMe (if e == .K then takeTurn e else leaveTurn e))
  | x => x

/-- The arguments of a command popped from the queue of its stream: an empty queue holds it, or is QPROTO
once the thread has executed EXIT (R55, R322). The accesses before the first push come first (R159, R294). A K command
does not overtake a MATTN that waited for q2 before it (R275). -/
def popArgs (e : Stream) (need : Nat) (s : State) : Out (List W64) :=
  let args := s.me.q[(argQueue e).val]
  if need = 0 then .ok [] s
  else
    let s := if e == .K then s.mapMe (takeTurn .K) else s
    if args.length < need then
      if s.me.run == .draining then .trap (flt cQPROTO) s else .hold s
    else if e == .K && behind .K s.me then .hold s
    else
    let push := (pushesOf e s.me).head?
    if !pushPerformed push s.me then .hold (markWaits .S (fun b => beforePush push b.work.seq) s)
    else .ok (args.take need) (s.mapMe (fun k => dropArgs e need (leaveTurn e k)))

/-- A command at its queue head: pacing, tokens, what its engine asks before it leaves its head, its
arguments and latches (R55, R153, R234, R337). `gate` is the engine's own condition (lease, ladder order,
dispatcher). -/
def beginCmd (e : Stream) (w : Tok) (pops : State → Out (List W64)) (c : BitVec 6) (rp : Bool)
    (gate : State → Out Unit) (latch : State → Cmd → Cmd) (s : State) : Out Cmd :=
  let u := s.unit e
  if !paced e s.me s.my.clock then offTurn e (.hold s)
  else match waitTokens e w s with
    | none => offTurn e (.hold s)
    | some s =>
      (atGate e (gate s)).bind fun _ s => (pops s).bind fun args s =>
        .ok (latch s (newCmd s.me u args c rp)) (s.mapMe (dequeue e u.seq s.my.clock))

/-- A command that has left its head: the checks of its begin, on what it latches again each time that it makes them
(R241, R257), what its begin changes, then its units. -/
def goOn (e : Stream) (relatch : State → Cmd → Cmd) (start : State → State) (check : State → Cmd → Option Flt)
    (total : Cmd → Nat) (unit close : Cmd → State → Out Cmd) (c : Cmd) (s : State) : State :=
  match c.stage with
  | .checking =>
    let c := relatch s c
    match check s c with
    | some f => keepCmd e { c with failed := true } (.trap f s)
    | none => runCmd e total unit close { c with stage := .running } (start s)
  | .running => runCmd e total unit close c s
  | _ => s

/-- A command of the M, K, C or Q engine: begun when none is in execution, then run. One that a freeze has cut, or that has
begun behind others (R228), asks its engine before it goes on (`back`). -/
def cmdWord (e : Stream) (w : Tok) (pops : State → Out (List W64)) (c : BitVec 6) (rp : Bool)
    (gate back : State → Out Unit) (latch relatch : State → Cmd → Cmd) (start : State → State) (check : State → Cmd → Option Flt) (total : Cmd → Nat)
    (unit close : Cmd → State → Out Cmd) (s : State) : Host.Outcome State Fault Refusal :=
  .next (if s.atTender then quarantine s.cur.sp s
    else
      match (s.me.str e).active with
      | some c =>
        if c.engine || !c.underway then goOn e relatch start check total unit close c s
        else match back s with
          | .ok _ s => goOn e relatch start check total unit close { c with engine := true } s
          | .hold s => held e s
          | .trap f s => raiseTrap s.cur.sp s.cr (trapInfo e c.work c.cursor f) s
      | none =>
        match beginCmd e w pops c rp gate latch s with
        | .ok c s => if c.engine then goOn e relatch start check total unit close c s else keepCmd e c (.hold s)
        | .hold s => held e s
        | .trap f s => raiseTrap s.cur.sp s.cr (trapInfo e (s.unit e) 0 f) s)

/-- A NOP of a command engine, or a word that acts at its head and has no completion row (R100, R235):
pacing, tokens, its body, its signals. A CNOP or QNOP that completes is a C or Q command (R353). -/
def plainWord (e : Stream) (w : Tok) (body : State → Out Unit) (s : State) : Host.Outcome State Fault Refusal :=
  .next (if s.atTender then quarantine s.cur.sp s
    else
      let u := s.unit e
      if !paced e s.me s.my.clock then held e s
      else match waitTokens e w s with
        | none => held e s
        | some s =>
          match body s with
          | .ok _ s =>
            let s := if e == .C || e == .Q then setUnsafe s else s
            s.mapMe (fun k => trySignal e ((dequeue e u.seq s.my.clock k).modStr e (fun t => { t with sig := sigOf w, ahead := t.ahead - 1 })))
          | .hold s => held e s
          | .trap f s => raiseTrap s.cur.sp s.cr (trapInfo e u 0 f) s)

/-! ### Completion rows (R54, R57 to R59, R163) -/

/-- The reply record of a command (R163). -/
def replyOf (e : Stream) (c : Cmd) : W64 :=
  (0#8 ++ c.flags ++ 0#8 ++ streamCode e ++ Decode.fld (encode c.work.instr) 20 5 ++ c.work.seq : BitVec 64)

/-- The RESULT bytes of a command written into its row, others kept (R58). -/
def putResult (row : Row) : Table Byte → Row
  | [] => row
  | (j, b) :: t => putResult ((row &&& ~~~(atByte j 255)) ||| atByte j b.toNat) t

/-- The row after its update (R59). -/
def rowAfter (row : Row) (e : Stream) (r : BitVec 2) (c : Cmd) : Row :=
  let count := row.extractLsb' 0 64 + 1#64
  let flags := row.extractLsb' 64 8 ||| c.flags
  let head : BitVec 192 :=
    0#16 ++ (0#6 ++ r) ++ (0#5 ++ streamCode e) ++ c.work.seq ++ 0#48 ++ 0#8 ++ flags ++ count
  putResult (row.extractLsb' 192 832 ++ head) c.result

/-- The reply of a command, pushed with its row update (R54, R163). -/
def pushReply (e : Stream) (c : Cmd) (k : Reckoner) : Reckoner :=
  if c.rp then { k with q := k.q.set 5 (k.q[5] ++ [replyOf e c]) } else k

/-- The reply of a command whose row update faults: it has entered before the update, and is not pushed again (R163). -/
def replied (sp : BitVec 7) (r : BitVec 2) (e : Stream) (c : Cmd) (s : State) : State :=
  s.mapReck sp r (fun k => (pushReply e c k).modStr e (fun t => { t with active := some { c with rp := false } }))

/-- The row update of a command (R59), with its reply (R54), after which it leaves its stream and its signals are
owed. A fault of it that waits for a record is not met again (R347). -/
def countRow (sp : BitVec 7) (r : BitVec 2) (e : Stream) (c : Cmd) (s : State) : State :=
  let off : BitVec 24 := BitVec.ofNat 24 c.row
  if stands (s.reck sp r) && !rowLive sp off s || (s.reck sp r).faults.any (ofCmd e c) then s
  else if !rowLive sp off s then
    raiseTrap sp r (trapInfo e c.work c.cursor { deadRow off with item := itemOf 13 0 0 0 0 0, wr := true }) (replied sp r e c s)
  else
    match (readSpad sp off s).bind fun row s =>
        writeSpad sp off (BitVec.allOnes 128) (rowAfter row e r c) s with
    | .hold s => s
    | .trap f s' => if stands (s.reck sp r) then s else raiseTrap sp r (trapInfo e c.work c.cursor f) (replied sp r e c s')
    | .ok _ s =>
      let dirties := restartMode s sp && (e == .C || e == .Q)
      s.mapReck sp r (fun k =>
        let k := pushReply e c (if dirties then { k with restart := { k.restart with dirty := true } } else k)
        trySignal e (k.modStr e (fun t =>
          { t with
            active := none, held := false, ahead := t.ahead - 1
            sig := sigOf (Decode.fld (encode c.work.instr) 25 4) })))

/-- A finished command's row update, its reply, its signals (R54, R59): a full q5 holds it. -/
def completeCmd (sp : BitVec 7) (r : BitVec 2) (e : Stream) (s : State) : State :=
  let k := s.reck sp r
  match (k.str e).active with
  | none => s
  | some c =>
    if c.underway then s
    else if c.rp && decide (16 ≤ k.q[5].length) then
      s.mapReck sp r (fun k => k.modStr e (fun t => { t with held := true }))
    else countRow sp r e c s

/-! ### Free values -/

/-- A fresh number for the next free value. -/
def fresh (s : State) : Nat × State := (s.free, { s with free := s.free + 1 })

end Sys2Proof.Machine
end

