-- ==== Sys2Proof/Machine/Operands.lean ====
section
/-! DEFINITION. Operand forms: scalar registers with the queues mapped on them (R52 to R54, R122), the
widened immediate (R61), order, scope and space (R62, R298), vector and predicate registers with their
rotation, liveness, wakes, guards and landings (R145, R187, R188, R190). -/

namespace Sys2Proof.Machine

/-! ### Scalar sources (R52 to R54) -/

/-- The command pushes a reply (R164, R281): RP of a C or Q word. -/
def replies : Instr → Bool
  | .ccpy _ _ r => r == 1#1
  | .c2d _ _ r => r == 1#1
  | .cgth _ _ r _ => r == 1#1
  | .cgthArena _ _ r _ => r == 1#1
  | .csct _ _ r _ => r == 1#1
  | .csctArena _ _ r _ => r == 1#1
  | .ctile _ _ _ r _ => r == 1#1
  | .ccb _ _ r _ _ => r == 1#1
  | .cdec _ _ _ r => r == 1#1
  | .cenc _ _ r => r == 1#1
  | .cqld _ _ r _ => r == 1#1
  | .cfill _ _ r => r == 1#1
  | .qscan _ _ _ r _ _ => r == 1#1
  | .qtopk _ _ _ r _ _ => r == 1#1
  | .qred _ _ _ r _ _ => r == 1#1
  | _ => false

/-- How many arguments a command pops from the queue of its stream (R55). MATTN pops two more from q2. -/
def argNeed : Instr → Nat
  | .ccpy _ _ _ => 3
  | .c2d _ _ _ => 5
  | .cgth _ _ _ _ => 5
  | .cgthArena _ _ _ _ => 4
  | .csct _ _ _ _ => 5
  | .csctArena _ _ _ _ => 4
  | .ctile _ _ _ _ _ => 1
  | .ccb _ _ _ _ _ => 1
  | .cdec _ _ _ _ => 3
  | .cenc _ _ _ => 4
  | .cqld _ _ _ _ => 2
  | .cfill _ _ _ => 3
  | .mmaid _ _ _ _ _ _ _ => 1
  | .mexpsh _ _ _ _ => 3
  | .mstat _ _ _ _ => 2
  | .mattn _ _ _ _ _ _ => 2
  | .kload _ _ _ _ => 2
  | .kpatch _ _ _ _ => 2
  | .kgain _ _ _ => 1
  | .khist _ _ _ => 2
  | .kout _ _ _ _ _ _ _ _ => 1
  | .koutD _ _ _ _ _ _ _ => 2
  | .smscfg _ _ _ => 2
  | .smsrst _ _ => 2
  | .qscan _ _ _ _ _ _ => 5
  | .qtopk _ _ _ _ _ _ => 4
  | .qred _ _ _ _ g _ => if g == 1#1 then 6 else 5
  | _ => 0

/-- A reply of the thread is still to come (R54). -/
def replyToCome (k : Reckoner) : Bool :=
  cmdStreams.any (fun e =>
    (k.str e).queue.any (fun u => replies u.instr) ||
    (match (k.str e).active with | some c => c.rp | none => false))

/-- The Reckoner whose q6 feeds this one's q7: the ring of the node's Reckoners on the Span (R54). -/
def ringPrev (x : Span) (r : BitVec 2) : BitVec 2 :=
  if r = 0#2 then BitVec.ofNat 2 (x.nreck - 1) else r - 1#2

/-- The thread has executed EXIT. -/
def exited (k : Reckoner) : Bool := k.run == .draining || k.run == .retired

/-- A read of an empty q5 or q7 has nothing to wait for, which is QPROTO; else it holds (R54). -/
def nothingToCome (s : State) (n : BitVec 5) : Bool :=
  if n = 29#5 then !replyToCome s.me else exited (s.my.reck (ringPrev s.my s.cr))

/-- The entries waiting for a read-direction register. -/
def queueFor (n : BitVec 5) (s : State) : List W64 :=
  if n = 29#5 then s.me.q[5] else (s.my.reck (ringPrev s.my s.cr)).q[6]

/-- One entry popped from the queue of a read-direction register, kept with the unit (R53). -/
def popFor (n : BitVec 5) (s : State) : State :=
  match queueFor n s with
  | [] => s
  | v :: rest =>
    let s := if n = 29#5 then s.mapMe (fun k => { k with q := k.q.set 5 rest })
      else s.mapReck s.cur.sp (ringPrev s.my s.cr) (fun k => { k with q := k.q.set 6 rest })
    setUnsafe (s.modUnit .S (fun u => { u with popped := Table.put u.popped n.toNat v }))

/-- The read-direction registers among the sources that this execution has not popped yet. -/
def toPop (ns : List (BitVec 5)) (s : State) : List (BitVec 5) :=
  [29#5, 31#5].filter (fun n => ns.contains n && ((s.unit .S).popped.find? n.toNat).isNone)

/-- R53: every queue among the sources popped once, all together, or the word holds; one of them that is empty for good
is QPROTO (R54). -/
def popSrcs (ns : List (BitVec 5)) (s : State) : Out Unit :=
  if s.atTender then .ok () s
  else
    let empty := (toPop ns s).filter (fun n => (queueFor n s).isEmpty)
    if empty.isEmpty then .ok () ((toPop ns s).foldl (fun s n => popFor n s) s)
    else if empty.any (nothingToCome s) then .trap (flt cQPROTO) s
    else .hold s

/-- The value of a scalar source after its pops. -/
def gVal (n : BitVec 5) (s : State) : W64 :=
  if n = 0#5 then 0#64
  else if s.atTender then s.my.tender.g[n.toNat]'(n.isLt)
  else if isQueueReg n then ((s.unit .S).popped.find? n.toNat).getD 0#64
  else s.me.g[n.toNat]'(n.isLt)

/-- Whether a write-direction queue has room (R52). q0 to q4 and q6 stand at 0 to 4 and 6. -/
def queueRoom (n : BitVec 5) (s : State) : Bool :=
  decide ((s.me.q[(n.toNat - 24) % 7]'(Nat.mod_lt _ (by omega))).length
    < Config.scalarQueueDepth ((n.toNat - 24) % 7))

/-- The number of the S word that pushes: the head of its stream, or the atomic that S waits for (R294, R308). -/
def pushSeq (s : State) : W32 :=
  match s.me.wait with | .none => (s.unit .S).seq | _ => (s.me.str .S).lastActed

/-- A scalar register written: g0 discards, a queue register pushes, any other holds the value. -/
def gPut (n : BitVec 5) (v : W64) (s : State) : State :=
  if n = 0#5 then s
  else if s.atTender then s.mapTender s.cur.sp (fun t => { t with g := t.g.set n.toNat v (n.isLt) })
  else if isQueueReg n then
    let s := if n = 30#5 then setUnsafe s else s
    let from' := pushSeq s
    s.mapMe (fun k =>
      let i := (n.toNat - 24) % 7
      let old := k.q[i]'(Nat.mod_lt _ (by omega))
      { k with
        q := k.q.set i (old ++ [v]) (Nat.mod_lt _ (by omega))
        argSeq := Vector.ofFn (fun (j : Fin 4) => if j.val + 1 = i then k.argSeq[j] ++ [from'] else k.argSeq[j]) })
  else s.mapMe (fun k => { k with g := k.g.set n.toNat v (n.isLt) })

/-- R53: the write-back, which holds while a queue has no room. A push to q6 follows every earlier access of the
stream (R294). -/
def writeDst (n : BitVec 5) (v : W64) (s : State) : Out Unit :=
  if !s.atTender && isQueueReg n && !queueRoom n s then .hold s
  else if !s.atTender && n == 30#5 && !sPerformed s.me then .hold (markWaits .S (fun _ => true) s)
  else .ok () (gPut n v s)

/-- A word that computes a value from its sources and writes it. -/
def aluBody (ns : List (BitVec 5)) (d : BitVec 5) (f : State → W64) (s : State) : Out Unit :=
  (popSrcs ns s).bind fun _ s => writeDst d (f s) s

/-- The immediate of an S word under the PIMMs of its unit (R61). -/
def immS {n : Nat} (v : BitVec n) (s : State) : W64 := wideImm (s.unit .S).pimms n v

/-! ### Order, scope, space, policy (R62, R298) -/

/-- MDEF as the core holds it. -/
def mdefOf (s : State) : BitVec 7 := if s.atTender then s.my.tender.mdef else s.me.mdef
def orderOf (e : Stream) (s : State) : BitVec 3 :=
  match (s.unit e).pmem with | some p => p.order | none => (mdefOf s).extractLsb' 4 3
def scopeOf (e : Stream) (s : State) : BitVec 2 :=
  match (s.unit e).pmem with | some p => p.scope | none => (mdefOf s).extractLsb' 2 2
def policyOf (e : Stream) (s : State) : BitVec 2 :=
  match (s.unit e).pmem with | some p => p.policy | none => (mdefOf s).extractLsb' 0 2
def spaceAsk (e : Stream) (s : State) : Option (BitVec 3) := (s.unit e).pmem.map (·.space)

def hasAcquire (o : BitVec 3) : Bool := o == 1#3 || o == 3#3 || o == 4#3
def hasRelease (o : BitVec 3) : Bool := o == 2#3 || o == 3#3 || o == 4#3

/-- A unit, or a repetition of it, comes before another of its stream. -/
def workBefore (a b : Work) : Bool := seqBefore a.seq b.seq || (a.seq == b.seq && decide (a.rep < b.rep))

/-- A timed load whose access is still to be made. -/
def unread (b : LandEntry) : Bool := b.data.isNone && b.fault.isNone

/-- A timed load whose read has not been performed: its data has not come, be it for a fault. -/
def absent (b : LandEntry) : Bool := b.data.isNone

/-- The timed loads that an access of a stream waits for, of those whose data has not come (R298, R301): the acquiring
ones, those before an acquire fence, and for a release or sc access all of them. -/
def waitsFor (e : Stream) (order : BitVec 3) (writes : Bool) (k : Reckoner) (b : LandEntry) : Bool :=
  hasAcquire b.order || (e == .S && k.fence.any (fun f => seqBefore b.work.seq f)) ||
  order == 4#3 || (writes && hasRelease order)

/-- What an access of a stream waits for before it is performed (R298, R301): an earlier acquiring timed
load, or one before an acquire fence; for a release or sc access, every earlier access. -/
def mustWait (e : Stream) (order : BitVec 3) (writes : Bool) (k : Reckoner) : Bool :=
  k.buffer.any (fun b => b.stream == e && absent b && waitsFor e order writes k b) ||
  ((order == 4#3 || (writes && hasRelease order)) && e == .S && !k.posted.isEmpty)

/-- An access of the current word waits as R298 says. -/
def orderGate (e : Stream) (writes : Bool) (s : State) : Out Unit :=
  if !s.atTender && mustWait e (orderOf e s) writes s.me then
    .hold (markWaits e (waitsFor e (orderOf e s) writes s.me) s)
  else .ok () s

/-- What a Reckoner's own virtual access asks (R14): no Span scratchpad frame. -/
def ownAsk (e : Stream) (wr : Bool) (s : State) : Ask :=
  ⟨wr, false, false, true, s.atTender, spaceAsk e s, policyOf e s, false⟩

/-- The root under which the current core translates (R108, R348). -/
def rootOf (s : State) : W64 := if s.atTender then s.my.tender.troot else s.my.xroot

/-- The access of the S word of the current core. -/
def wordAccess (s : State) : Access :=
  { workAccess (threadId s s.cur.sp s.cr) .S (s.unit .S) with tender := s.atTender }

/-! ### Lanes (R185) -/

/-- Lane `i` of a row. -/
def lane (v : Row) (i : Nat) : W32 := v.extractLsb' (32 * i) 32

/-- The number whose 32-bit digits are given. -/
def packNat (f : Nat → W32) : Nat → Nat
  | 0 => 0
  | n + 1 => packNat f n + (f n).toNat * 2 ^ (32 * n)

/-- A row by its lanes. -/
def packRow (f : Nat → W32) : Row := BitVec.ofNat 1024 (packNat f 32)
/-- A 32-bit mask by its bits. -/
def packBits (f : Nat → Bool) : Nat → Nat
  | 0 => 0
  | n + 1 => packBits f n + (f n).toNat * 2 ^ n
def packMask (f : Nat → Bool) : W32 := BitVec.ofNat 32 (packBits f 32)

/-- The lanes of `new` that a mask selects, over `old`. -/
def mergeRow (mask : W32) (old new : Row) : Row := packRow (fun i => if mask.getLsbD i then lane new i else lane old i)

/-- The bytes of a row that a lane mask selects. -/
def laneBytes (mask : W32) : BitVec 128 :=
  BitVec.ofNat 128 (packBits (fun j => mask.getLsbD (j / 4)) 128)

/-! ### Vector and predicate registers -/

/-- R145: the physical vector register of a name. -/
def vphys (base : BitVec 4) (n : BitVec 5) : BitVec 5 :=
  if 16 ≤ n.toNat then BitVec.ofNat 5 (16 + (n.toNat - 16 + base.toNat) % 16) else n
/-- R145: the physical predicate register of a name. -/
def pphys (base : BitVec 4) (n : BitVec 3) : BitVec 3 :=
  if 4 ≤ n.toNat then BitVec.ofNat 3 (4 + (n.toNat - 4 + base.toNat) % 4) else n

def Reckoner.vreg (k : Reckoner) (n : BitVec 5) : Row := k.v[n.toNat]'(n.isLt)
def Reckoner.preg (k : Reckoner) (n : BitVec 3) : W32 := k.p[n.toNat]'(n.isLt)
def Reckoner.xreg (k : Reckoner) (n : BitVec 3) : BitVec 24 := k.x[n.toNat]'(n.isLt)

/-- The physical registers that the current V word's names stand for. -/
def vName (n : BitVec 5) (s : State) : BitVec 5 := vphys (s.unit .V).base n
def pName (n : BitVec 3) (s : State) : BitVec 3 := pphys (s.unit .V).base n

/-- A guard or predicate source, read at issue. -/
def pVal (n : BitVec 3) (s : State) : W32 := s.me.preg (pName n s)
/-- A vector source, read at issue. -/
def vVal (n : BitVec 5) (s : State) : Row := s.me.vreg (vName n s)

/-- R191: the first dead register among the sources, in the order of their fields (log 52). -/
def vLiveCheck (ns : List (BitVec 5)) (s : State) : Out Unit :=
  match ns.find? (fun n => !s.me.vlive.getLsbD (vName n s).toNat) with
  | some n => .trap (deadItem 1 0 (vName n s).toNat 0 0 0) s
  | none => .ok () s

/-- The bank of a physical vector register (R184). -/
def vBankOf (r : BitVec 2) (n : BitVec 5) : BankName := .vbank r (n.extractLsb' 3 2)

/-- The banks of the registers that a V word reads and writes, woken (R196), all together (log 35). -/
def vBanks : List (BitVec 5) → State → Out Unit
  | [], s => .ok () s
  | n :: ns, s => (useBank s.cur.sp (vBankOf s.cr (vName n s)) s).also (vBanks ns)

/-- A vector register dies by a kill mark (R190). -/
def vKill (on : Bool) (n : BitVec 5) (s : State) : State :=
  if on then
    let p := vName n s
    bankDied s.cur.sp (vBankOf s.cr p)
      (fun x => x.setReck s.cr { x.reck s.cr with vlive := (x.reck s.cr).vlive &&& ~~~(1#32 <<< p.toNat) }) s
  else s

/-- A result scheduled at issue + latency (R187). -/
def schedule (lat : Nat) (dest : VDest) (mask : W32) (v : Row) (s : State) : State :=
  s.mapMe (fun k => { k with landings := k.landings ++ [⟨k.scyV, k.scyV + BitVec.ofNat 64 lat, dest, mask, v⟩] })

/-- A V word that reads vector registers and writes one: liveness, wakes, the computation on the sources
as read at issue, the kill, the landing of the lanes of `mask` (R187, R188, R191). -/
def vBody (srcs : List (BitVec 5)) (lat : Nat) (d : BitVec 5) (mask : State → W32) (f : State → Row)
    (kill : Bool) (ka : BitVec 5) (s : State) : Out Unit :=
  (vLiveCheck srcs s).bind fun _ s => (vBanks (srcs ++ [d]) s).bind fun _ s =>
    .ok () (schedule lat (.vreg (vName d s)) (mask s) (f s) (vKill kill ka s))

/-- A V word that writes a predicate under its guard (R204, R215). -/
def pBody (srcs : List (BitVec 5)) (lat : Nat) (d : BitVec 3) (mask : State → W32) (f : State → W32)
    (kill : Bool) (ka : BitVec 5) (s : State) : Out Unit :=
  (vLiveCheck srcs s).bind fun _ s => (vBanks srcs s).bind fun _ s =>
    .ok () (schedule lat (.pred (pName d s)) (mask s) ((f s).zeroExtend 1024) (vKill kill ka s))

/-- The scalar operand of a V word: the head of q0, or a hold, or QPROTO once the thread has executed
EXIT (R187). -/
def qHead (s : State) : Out W64 :=
  match s.me.q[0] with
  | v :: _ => .ok v s
  | [] => if exited s.me then .trap (flt cQPROTO) s else .hold s

/-- The head of q0 removed. -/
def qPop (s : State) : State := s.mapMe (fun k => { k with q := k.q.set 0 (k.q[0]).tail })

/-! ### Wide-flag registers (R142) -/

def Reckoner.wide (k : Reckoner) (n : BitVec 3) : WideFlag := k.w[n.toNat]'(n.isLt)
def Reckoner.setWide (k : Reckoner) (n : BitVec 3) (f : WideFlag) : Reckoner := { k with w := k.w.set n.toNat f (n.isLt) }

/-- A deposit into wN: it waits until wN is EMPTY, and lands 6 V cycles on. -/
def deposit (n : BitVec 3) (r : WideRec) (s : State) : State :=
  s.mapMe (fun k => k.setWide n (.pending (k.scyV + 6#64) r))

def depositGate (on : Bool) (n : BitVec 3) (s : State) : Out Unit :=
  if on && s.me.wide n != .empty then .hold s else .ok () s

/-- The word deposits into wN (R142). -/
def deposits (n : BitVec 3) : Instr → Bool
  | .vflag _ _ m _ => m == n
  | .vreda _ _ _ _ _ f m => f == 1#1 && m == n
  | .freda _ _ _ _ _ f m => f == 1#1 && m == n
  | .fredm _ _ _ _ _ f m => f == 1#1 && m == n
  | .vredm _ _ _ _ _ f m => f == 1#1 && m == n
  | _ => false

/-- Some repetition of a unit still to come deposits into wN. -/
def unitDeposits (n : BitVec 3) (u : Work) : Bool :=
  match u.prep with
  | none => deposits n u.instr
  | some p => ((List.range p.count.toNat).drop u.rep).any (fun j =>
      match decode (advWord (encode u.instr) p j) with
      | .ok i => deposits n i
      | .error _ => false)

/-- The record of wN for BW and RDW: a FULL one; a hold while it is PENDING or a deposit stands in the V
queue; else QPROTO (R142). -/
def wideRead (n : BitVec 3) (s : State) : Out WideRec :=
  match s.me.wide n with
  | .full r => .ok r s
  | .pending due r => if reached due s.me.scyV then .ok r s else .hold s
  | .empty => if (s.me.str .V).queue.any (unitDeposits n) then .hold s else .trap (flt cQPROTO) s

def wideClear (n : BitVec 3) (s : State) : State := s.mapMe (fun k => k.setWide n .empty)

end Sys2Proof.Machine
end

