-- ==== Sys2Proof/Machine/Flags.lean ====
section
/-! DEFINITION. Conditions and flags: comparisons of scalars and of lanes (R131, R140, R215), the
conditions of R24 that commands gather, the records of wide flags (R142, R221, R225). -/

namespace Sys2Proof.Machine

/-- 1 or 0 as a scalar. -/
def bit64 (b : Bool) : W64 := if b then 1#64 else 0#64

/-- The comparison that SLT's f3 selects (R131). -/
def sltCond (f : BitVec 3) (x y : W64) : Bool :=
  match f.toNat with
  | 0 => x.slt y
  | 1 => x.ult y
  | 2 => x == y
  | _ => x != y

/-! The conditions of R24 as bits of a completion row (R58). -/
def fINV : BitVec 8 := 0x01#8
def fOFL : BitVec 8 := 0x02#8
def fUFL : BitVec 8 := 0x04#8
def fSAT : BitVec 8 := 0x08#8

/-- A flag when its condition holds. -/
def flagIf (b : Bool) (f : BitVec 8) : BitVec 8 := if b then f else 0#8

/-- OFL and UFL of one rounding (R24). -/
def roundFlags (r : Rounded) : BitVec 8 := flagIf r.ofl fOFL ||| flagIf r.ufl fUFL

/-- Number of active lanes of a guard. -/
def activeCount (g : W32) : Nat := (List.range 32).countP (fun i => g.getLsbD i)

/-- A record's any, all and none for a number of lanes out of 32 (R221). -/
def recordFor (count : Nat) (active : Nat) : WideRec :=
  ⟨BitVec.ofNat 16 count, decide (1 ≤ active), decide (active = 32), decide (active = 0)⟩

/-! Lane comparisons of floats (R215): exact, false on NaN, zeros equal. -/
def fEq (x y : W32) : Bool := (f32 x).eq (f32 y)
def fLt (x y : W32) : Bool := (f32 x).lt (f32 y)
def fLe (x y : W32) : Bool := (f32 x).lt (f32 y) || (f32 x).eq (f32 y)

end Sys2Proof.Machine
end

