-- ==== Sys2Proof/Machine/Branch.lean ====
section
/-! DEFINITION. Branches and jumps (R140, R141), the consumers of wide flags (R143), the hardware loop
(R146) with its profiling snapshot (R372). -/

namespace Sys2Proof.Machine

/-- The target of a branch: the address of the word plus four times the offset, as an exact integer. -/
def branchTarget {n : Nat} (o : BitVec n) (s : State) : Int :=
  ((s.unit .S).pc.toNat : Int) + 4 * wideInt (s.unit .S).pimms n o

/-- Fetch goes on at a target below 2^52 that is not negative, else ADDR (R140). -/
def branchTo (t : Int) (s : State) : Out Unit :=
  if t < 0 || 2 ^ 52 ≤ t then .trap (fltAt cADDR (BitVec.ofInt 64 t)) s
  else .ok () (setPc (BitVec.ofInt 52 t) s)

/-- A conditional branch (R140). -/
def branchBody (a b : BitVec 5) (o : BitVec 8) (taken : W64 → W64 → Bool) (s : State) : Out Unit :=
  (popSrcs [a, b] s).bind fun _ s =>
    if taken (gVal a s) (gVal b s) then branchTo (branchTarget o s) s else .ok () s

def execBeq (w : Tok) (a b : BitVec 5) (o : BitVec 8) (s : State) := sWord w (branchBody a b o (· == ·)) s
def execBne (w : Tok) (a b : BitVec 5) (o : BitVec 8) (s : State) := sWord w (branchBody a b o (· != ·)) s
def execBlt (w : Tok) (a b : BitVec 5) (o : BitVec 8) (s : State) := sWord w (branchBody a b o BitVec.slt) s
def execBge (w : Tok) (a b : BitVec 5) (o : BitVec 8) (s : State) :=
  sWord w (branchBody a b o (fun x y => !x.slt y)) s
def execBltn (w : Tok) (a b : BitVec 5) (o : BitVec 8) (s : State) := sWord w (branchBody a b o BitVec.ult) s
def execBgen (w : Tok) (a b : BitVec 5) (o : BitVec 8) (s : State) :=
  sWord w (branchBody a b o (fun x y => !x.ult y)) s

/-! ### Jumps (R141) -/

/-- The address of the word after this one. -/
def nextPc (s : State) : W64 := (s.unit .S).pc.zeroExtend 64 + 4#64

def jBody (o : BitVec 18) (s : State) : Out Unit := branchTo (branchTarget o s) s
def jalBody (o : BitVec 18) (s : State) : Out Unit :=
  (branchTo (branchTarget o s) s).bind fun _ s' => .ok () (gPut 23#5 (nextPc s) s')
def jrBody (a : BitVec 5) (s : State) : Out Unit :=
  (popSrcs [a] s).bind fun _ s =>
    let t := gVal a s
    if t.extractLsb' 52 12 != 0#12 then .trap (fltAt cADDR t) s
    else .ok () (setPc (t.extractLsb' 0 52 &&& ~~~3#52) s)

def execJ (w : Tok) (o : BitVec 18) (s : State) := sWord w (jBody o) s
def execJal (w : Tok) (o : BitVec 18) (s : State) := sWord w (jalBody o) s
def execJr (w : Tok) (a : BitVec 5) (s : State) := sWord w (jrBody a) s

/-! ### Wide flags (R143) -/

/-- The condition of BW. -/
def wideCond (c : BitVec 5) (r : WideRec) : Bool :=
  match c.toNat with
  | 0 => r.any
  | 1 => r.all
  | 2 => r.none
  | _ => !r.all

/-- The part of a record that RDW selects. -/
def widePart (sel : BitVec 3) (r : WideRec) : W64 :=
  match sel.toNat with
  | 0 => r.count.zeroExtend 64
  | 1 => bit64 r.any
  | 2 => bit64 r.all
  | 3 => bit64 r.none
  | _ => (0#45 ++ BitVec.ofBool r.none ++ BitVec.ofBool r.all ++ BitVec.ofBool r.any ++ r.count : BitVec 64)

/-- The wide-flag register that a 5-bit field names. -/
def wideName (n : BitVec 5) : BitVec 3 := n.extractLsb' 0 3

def bwBody (n c : BitVec 5) (o : BitVec 8) (s : State) : Out Unit :=
  (wideRead (wideName n) s).bind fun r s =>
    if wideCond c r then (branchTo (branchTarget o s) s).bind fun _ s => .ok () (wideClear (wideName n) s)
    else .ok () (wideClear (wideName n) s)

def rdwBody (d n : BitVec 5) (sel : BitVec 3) (s : State) : Out Unit :=
  (wideRead (wideName n) s).bind fun r s =>
    (writeDst d (widePart sel r) s).bind fun _ s => .ok () (wideClear (wideName n) s)

def execBw (w : Tok) (n c : BitVec 5) (o : BitVec 8) (s : State) := sOnly w (bwBody n c o) s
def execRdw (w : Tok) (d n : BitVec 5) (sel : BitVec 3) (s : State) := sOnly w (rdwBody d n sel) s

/-! ### Rows that the Span writes of itself -/

/-- A whole row of the scratchpad written by the Span itself, with no race-watch mark: a dead row becomes
live, and its bank, where it is not FULL, wakes (R195, log 18). -/
def writeOwnRow (sp : BitVec 7) (row : Nat) (v : Row) (s : State) : State :=
  let off : BitVec 24 := BitVec.ofNat 24 (128 * row)
  let s := reviveRow sp off s
  let x := s.span sp
  let s := s.setSpan sp (x.landBank (spadBankOf off) (x.dueBank (spadBankOf off)))
  { s with mem := s.mem.putRow (spadAddr sp off / 128) (BitVec.allOnes 128) v
           errors := Table.del s.errors (spadAddr sp off / 128) }

/-- Row `i` of the counters, 1 to 6, of a profiling snapshot (R372). -/
def profRow (prof : Table W32) (i : Nat) : Row := packRow (fun l => (Table.find? prof (32 * (i - 1) + l)).getD 0#32)

/-- The 192 counters on a clock: since the last snapshot or clear each has counted the clocks for which its stream is known
to have waited, or more of the clocks that went by, up to its largest number (R372, log 14). -/
def counted (t : Tender) (clock f : Nat) : Table W32 :=
  (List.range 192).map (fun i =>
    let n := ((Table.find? t.prof i).getD 0#32).toNat +
      max ((Table.find? t.waited i).getD 0) (min (Config.conflictClocks f i) (clock - t.profSince))
    (i, if 0xFFFFFFFF < n then 0xFFFFFFFF#32 else BitVec.ofNat 32 n))

/-- A snapshot of the profiling account for a loop exit at a schedule cycle (R372). -/
def snapshot (sp : BitVec 7) (r : BitVec 2) (scy : W64) (s : State) : State :=
    let t := (s.span sp).tender
    let clock := (s.span sp).clock
    let (f, s) := fresh s
    let prof := counted t clock f
    let s := s.mapTender sp (fun t => { t with profCount := t.profCount + 1#64, prof := prof, profSince := clock, waited := [] })
    let base := t.profBase.toNat
    let head : Row := (scy ++ 0#56 ++ (0#6 ++ r) ++ (t.profCount + 1#64) : BitVec 192).zeroExtend 1024
    let s := writeOwnRow sp base head s
    (List.range 6).foldl (fun s i => writeOwnRow sp (base + 1 + i) (profRow prof (i + 1)) s) s

/-- The loop exit of a clock noted, where TPROF.EN = 1: its snapshot is written at the end of the clock, so that
those of one clock stand in the order of their Reckoners (R372). -/
def noteExit (s : State) : State :=
  if s.my.tender.profEn then s.setMy { s.my with snaps := s.my.snaps ++ [(s.cr, s.me.scyS)] } else s

/-! ### The hardware loop (R146)

An ADDR trap of the branch of LOOP, LBR or BW leaves LC, RRB and wN as they stood: the trapping word has done
nothing (R340), and its retry counts, rotates and consumes once (log 42). -/

def loopBody (a : BitVec 5) (o : BitVec 8) (s : State) : Out Unit :=
  (popSrcs [a] s).bind fun _ s =>
    let n := gVal a s
    (if n = 0#64 then branchTo (branchTarget o s) s else .ok () s).bind fun _ s =>
      .ok () (s.mapMe (fun k => { k with lc := n }))

def lbrBody (o : BitVec 18) (s : State) : Out Unit :=
  let again := (1#64).ult s.me.lc
  (if again then branchTo (branchTarget o s) s else .ok () s).bind fun _ s =>
    let s := s.mapMe (fun k => { k with rrb := k.rrb - 1#4, lc := if again then k.lc - 1#64 else 0#64 })
    .ok () (if again then s else noteExit s)

def execLoop (w : Tok) (a : BitVec 5) (o : BitVec 8) (s : State) := sOnly w (loopBody a o) s
def execLbr (w : Tok) (o : BitVec 18) (s : State) := sOnly w (lbrBody o) s

end Sys2Proof.Machine
end

