-- ==== Sys2Proof/Machine/Tiles.lean ====
section
/-! DEFINITION. Tiles: TCFG (R30, R31), images with their data and scale regions (R32), tags (R33, R34),
the values of elements and scales (R26 to R29, R35), accumulator rows (R226). -/

namespace Sys2Proof.Machine

/-! ### TCFG (R30) -/

def cfgType (c : W32) : BitVec 4 := c.extractLsb' 28 4
def cfgRows (c : W32) : Nat := (c.extractLsb' 20 8).toNat
def cfgCols (c : W32) : Nat := (c.extractLsb' 12 8).toNat
def cfgSc (c : W32) : Bool := c.getLsbD 11
def cfgCb (c : W32) : BitVec 3 := c.extractLsb' 8 3
def cfgWgen (c : W32) : BitVec 4 := c.extractLsb' 4 4
def cfgWithWgen (c : W32) (g : BitVec 4) : W32 := (c &&& 0xFFFFFF0F#32) ||| (g.zeroExtend 32 <<< 4)

def tBF16 : BitVec 4 := 0#4
def tI8 : BitVec 4 := 1#4
def tC4 : BitVec 4 := 2#4
def tC8 : BitVec 4 := 3#4
def tF32 : BitVec 4 := 4#4
def tI32 : BitVec 4 := 5#4

/-- Bits of an element (R17, R26). -/
def elemBits (c : W32) : Nat :=
  match (cfgType c).toNat with
  | 0 => 16 | 1 => 8 | 2 => 4 | 3 => 8 | _ => 32

/-- Bytes that hold elements. -/
def dataBytes (c : W32) : Nat := (cfgRows c * cfgCols c * elemBits c + 7) / 8
/-- The data region rounded up to a row: where the scale region begins (R32). -/
def dataRegion (c : W32) : Nat := (dataBytes c + 127) / 128 * 128
/-- The image size (R32). -/
def imageBytes (c : W32) : Nat := dataRegion c + (if cfgSc c then cfgRows c * cfgCols c / 8 else 0)
/-- Rows of the image. -/
def imageRows (c : W32) : Nat := (imageBytes c + 127) / 128

/-- A TCFG value that a CSRW may place (R31). -/
def cfgOk (c : W32) : Bool :=
  decide ((cfgType c).toNat ≤ 5) && decide (1 ≤ cfgRows c) && decide (cfgRows c ≤ 128) &&
  decide (1 ≤ cfgCols c) && decide (cfgCols c ≤ 128) &&
  (!cfgSc c || ((cfgType c == tI8 || cfgType c == tC4 || cfgType c == tC8) && cfgCols c % 32 == 0)) &&
  decide (imageBytes c ≤ 32768)

/-! ### Tiles of a Span -/

def Span.tile (x : Span) (t : BitVec 4) : Tile := x.tiles[t.toNat]'(t.isLt)
def Span.setTile (x : Span) (t : BitVec 4) (v : Tile) : Span := { x with tiles := x.tiles.set t.toNat v (t.isLt) }
def Span.cfg (x : Span) (t : BitVec 4) : W32 := x.tcfg[t.toNat]'(t.isLt)
def Span.setCfg (x : Span) (t : BitVec 4) (c : W32) : Span := { x with tcfg := x.tcfg.set t.toNat c (t.isLt) }

/-- An image row. -/
def Tile.row (t : Tile) (u : Nat) : Row := (Table.find? t.img u).getD 0#1024
def Tile.putRow (t : Tile) (u : Nat) (v : Row) : Tile := { t with img := Table.put t.img u v }

/-- `n` bits of the image from a bit offset; no element straddles a row. -/
def Tile.bits (t : Tile) (o n : Nat) : Nat := ((t.row (o / 1024)).extractLsb' (o % 1024) n).toNat
def Tile.putBits (t : Tile) (o n v : Nat) : Tile :=
  let old := t.row (o / 1024)
  let m : Row := BitVec.ofNat 1024 ((2 ^ n - 1) * 2 ^ (o % 1024))
  t.putRow (o / 1024) ((old &&& ~~~m) ||| BitVec.ofNat 1024 (v % 2 ^ n * 2 ^ (o % 1024)))

/-- The bits of element (i, j) (R32). -/
def Tile.elem (t : Tile) (c : W32) (i j : Nat) : Nat := t.bits ((i * cfgCols c + j) * elemBits c) (elemBits c)
def Tile.putElem (t : Tile) (c : W32) (i j v : Nat) : Tile :=
  t.putBits ((i * cfgCols c + j) * elemBits c) (elemBits c) v

/-- Bit offset of the scale word of row i, block m. -/
def scaleBit (c : W32) (i m : Nat) : Nat := 8 * (dataRegion c + (i * (cfgCols c / 32) + m) * 4)
def Tile.scale (t : Tile) (c : W32) (i m : Nat) : W32 := BitVec.ofNat 32 (t.bits (scaleBit c i m) 32)
def Tile.putScale (t : Tile) (c : W32) (i m : Nat) (v : W32) : Tile := t.putBits (scaleBit c i m) 32 v.toNat

/-- A scale word from its fields (R32). -/
def scaleWord (dtag stag : BitVec 4) (s : BitVec 20) : W32 := 0#4 ++ dtag ++ stag ++ s
def dtagOf (w : W32) : BitVec 4 := w.extractLsb' 24 4
def stagOf (w : W32) : BitVec 4 := w.extractLsb' 20 4
def s20Of (w : W32) : BitVec 20 := w.extractLsb' 0 20
/-- A block is in step (R33). -/
def inStep (w : W32) : Bool := dtagOf w == stagOf w

/-- The tile rows with data bytes or scale words in image row u (R202). -/
def rowsIn (c : W32) (u : Nat) : List Nat :=
  (List.range (cfgRows c)).filter (fun i =>
    let lo := i * cfgCols c * elemBits c
    let hi := (i + 1) * cfgCols c * elemBits c
    (decide (lo < 1024 * (u + 1)) && decide (1024 * u < hi)) ||
    (cfgSc c && decide (scaleBit c i 0 < 1024 * (u + 1)) && decide (1024 * u < scaleBit c (i + 1) 0)))

def Tile.isLive (t : Tile) (i : Nat) : Bool := t.live.contains i

/-- `n` elements from column 0 of a row set to zero. -/
def zeroElems (c : W32) (i : Nat) : Nat → Tile → Tile
  | 0, t => t
  | n + 1, t => zeroElems c i n (t.putElem c i n 0)

/-- A tile row made live; the bytes of a dead one read as zero until written (R202; log 15): its elements, and its scale
words unless a scale write has reached them while it was dead. -/
def Tile.revive (t : Tile) (c : W32) (i : Nat) : Tile :=
  if t.isLive i then t
  else
    let t := zeroElems c i (cfgCols c) t
    { t with live := insertNat t.live i }

/-- Every row of a tile dies (R190, R197). Its bytes, those of scale words too, read as zero until they are written
again (R202). -/
def killTile (sp : BitVec 7) (t : BitVec 4) (s : State) : State :=
  bankDied sp (.tile t) (fun x => x.setTile t ⟨[], []⟩) s

/-- The first dead tile row among some. -/
def tileLiveCheck (t : BitVec 4) (rows : List Nat) (s : State) : Out Unit :=
  match rows.find? (fun i => !(s.my.tile t).isLive i) with
  | some i => .trap (deadItem 2 0 t.toNat i 0 0) s
  | none => .ok () s

/-! ### The landing of a VMOVT write (R202, R34) -/

/-- One lane of a VMOVT write: data bytes, whose block takes DTAG and whose rows become live; or a scale
word, which keeps DTAG. -/
def putTileLane (c : W32) (g : BitVec 4) (u i : Nat) (v : W32) (t : Tile) : Tile :=
  let o := 128 * u + 4 * i
  if imageBytes c ≤ o then t
  else if dataRegion c ≤ o then
    let w := (o - dataRegion c) / 4
    let row := w / (cfgCols c / 32)
    let m := w % (cfgCols c / 32)
    t.putScale c row m (scaleWord (dtagOf (t.scale c row m)) g (s20Of v))
  else
    let first := 8 * o / elemBits c / cfgCols c
    let last := min (cfgRows c - 1) ((8 * o + 31) / elemBits c / cfgCols c)
    let t := (List.range (last + 1 - first)).foldl (fun t k => t.revive c (first + k)) t
    let t := t.putBits (8 * o) 32 v.toNat
    if cfgSc c && decide (o < dataBytes c) then
      let l := 8 * o / elemBits c
      let m := l % cfgCols c / 32
      let w := t.scale c (l / cfgCols c) m
      t.putScale c (l / cfgCols c) m (scaleWord g (stagOf w) (s20Of w))
    else t

/-- The lanes of a mask, from lane 0 up. -/
def foldLanes {α : Type} (mask : W32) (f : Nat → α → α) : Nat → α → α
  | 0, x => x
  | n + 1, x => let x := foldLanes mask f n x; if mask.getLsbD n then f n x else x

/-- A VMOVT write lands as one event: WGEN first, then the lanes (R202). -/
def landTile (sp : BitVec 7) (t : BitVec 4) (u : Nat) (c : W32) (mask : W32) (v : Row) (s : State) : State :=
  s.mapSpan sp (fun x =>
    let g := if cfgSc c then cfgWgen (x.cfg t) + 1#4 else cfgWgen (x.cfg t)
    let x := x.setCfg t (cfgWithWgen (x.cfg t) g)
    let x := x.landBank (.tile t) (x.wokenBank (.tile t))
    x.setTile t (foldLanes mask (fun i t => putTileLane c g u i (lane v i) t) 32 (x.tile t)))

/-! ### Codebooks and element values (R27, R28, R35) -/

def Span.book (x : Span) (b : BitVec 3) : Codebook := x.books[b.toNat]'(b.isLt)

/-- An element's value as a matrix operand, and whether a code ran past its codebook (R28). -/
structure Elem where
  v : Ext
  past : Bool
  deriving DecidableEq, Repr

/-- The value of element bits of a type under a codebook. -/
def elemValue (ty : BitVec 4) (book : List (BitVec 16)) (b : Nat) : Elem :=
  match ty.toNat with
  | 0 => ⟨bf16 (BitVec.ofNat 16 b), false⟩
  | 1 => ⟨.fin (Dy.ofInt (BitVec.ofNat 8 b).toInt), false⟩
  | 2 => ⟨(match book[b]? with | some e => bf16 e | none => .nan), (book[b]?).isNone⟩
  | 3 => ⟨(match book[b]? with | some e => bf16 e | none => .nan), (book[b]?).isNone⟩
  | 4 => ⟨f32 (BitVec.ofNat 32 b), false⟩
  | _ => ⟨.fin (Dy.ofInt (BitVec.ofNat 32 b).toInt), false⟩

/-- The tile type reads through a codebook. -/
def usesBook (c : W32) : Bool := cfgType c == tC4 || cfgType c == tC8

/-! ### Accumulators (R226) -/

def Span.array (x : Span) (a : BitVec 1) : ArraySt := x.arr[a.toNat]'(a.isLt)
def Span.setArray (x : Span) (a : BitVec 1) (v : ArraySt) : Span := { x with arr := x.arr.set a.toNat v (a.isLt) }
def ArraySt.tile (x : ArraySt) (a : BitVec 3) : AccTile := x.acc[a.toNat]'(a.isLt)
def ArraySt.setTile (x : ArraySt) (a : BitVec 3) (v : AccTile) : ArraySt := { x with acc := x.acc.set a.toNat v (a.isLt) }
def Span.acc (x : Span) (r : BitVec 1) (a : BitVec 3) : AccTile := (x.array r).tile a
def Span.setAcc (x : Span) (r : BitVec 1) (a : BitVec 3) (v : AccTile) : Span :=
  x.setArray r ((x.array r).setTile a v)

/-- Word `n` of an accumulator row. -/
def accWord (v : AccRow) (n : Nat) : W32 := v.extractLsb' (32 * n) 32
/-- An accumulator row by its words. -/
def packAcc (f : Nat → W32) : AccRow := BitVec.ofNat 4096 (packNat f 128)
/-- How many times a row has been written. -/
def AccTile.count (t : AccTile) (i : Nat) : Nat := (Table.find? t.writes i).getD 0
def AccTile.putRow (t : AccTile) (i : Nat) (v : AccRow) : AccTile :=
  ⟨Table.put t.rows i v, Table.put t.writes i (t.count i + 1)⟩

/-- A row stands in the row mask that a command's first two arguments give (R268, R269). -/
def Cmd.inMask (c : Cmd) (row : Nat) : Bool := (c.args.getD 1 0#64 ++ c.args.getD 0 0#64 : BitVec 128).getLsbD row

/-- A Girder command writes a row of an accumulator: the rows that it streams, those of them in its row mask for MATTN
(R269), those of its mask for MEXPSH (R268), all for MZERO. -/
def writesAcc (c : Cmd) (arr : BitVec 1) (a : BitVec 3) (row : Nat) : Bool :=
  match c.work.instr with
  | .mma _ r i _ _ _ _ => r == arr && i == a && decide (row < cfgRows c.tcfg)
  | .mmaid _ r i _ _ _ _ => r == arr && i == a && decide (row < cfgRows c.tcfg)
  | .mma32 _ r i _ _ _ _ _ => r == arr && i == a && decide (row < cfgRows c.tcfg)
  | .mattn _ i _ _ _ _ => arr == 1#1 && i == a && decide (row < cfgRows c.tcfg) && c.inMask row
  | .mexpsh _ r i _ => r == arr && i == a && c.inMask row
  | .mzero _ r i _ => r == arr && i == a
  | _ => false

/-- A Girder command of some Reckoner is writing a row of an accumulator: it has begun and has not completed, so that
no reader is ordered after it (R240). -/
def beingWritten (x : Span) (arr : BitVec 1) (a : BitVec 3) (row : Nat) : Bool :=
  x.recks.any (fun k => (k.str .M).active.any (fun c => c.stage != .checking && writesAcc c arr a row))

/-- Every row of an accumulator tile dies (R190, R197). -/
def killAcc (sp : BitVec 7) (r : BitVec 1) (a : BitVec 3) (s : State) : State :=
  bankDied sp (.acc r a) (fun x => x.setAcc r a { x.acc r a with rows := [] }) s

end Sys2Proof.Machine
end

