-- ==== Sys2Proof/Machine/Landing.lean ====
section
/-! DEFINITION. Landings: V results, predicates and wide flags (R142, R187, R188, R210), timed loads and
their buffer (R125 to R128, R325). -/

namespace Sys2Proof.Machine

/-! ### Results of V words -/

/-- A vector register written at a landing: lanes outside the mask keep their values, or become zero in a
dead register, which becomes live (R188). -/
def landVreg (sp : BitVec 7) (r : BitVec 2) (n : BitVec 5) (mask : W32) (v : Row) (s : State) : State :=
  let k := s.reck sp r
  let old := if k.vlive.getLsbD n.toNat then k.vreg n else 0#1024
  let s := s.setReck sp r
    { k with v := k.v.set n.toNat (mergeRow mask old v) (n.isLt), vlive := k.vlive ||| (1#32 <<< n.toNat) }
  let x := s.span sp
  s.setSpan sp (x.landBank (vBankOf r n) (x.wokenBank (vBankOf r n)))

/-- One pending landing takes place. A VMOVA whose row has been written since its issue, or is being written, gives
free values (R203, R240, log 7). -/
def landOne (sp : BitVec 7) (r : BitVec 2) (l : VLanding) (s : State) : State :=
  match l.dest with
  | .vreg n => landVreg sp r n l.mask l.value s
  | .pred n =>
    s.mapReck sp r (fun k =>
      { k with p := k.p.set n.toNat ((k.preg n &&& ~~~l.mask) ||| (l.value.extractLsb' 0 32 &&& l.mask)) (n.isLt) })
  | .tile t u c => landTile sp t u c l.mask l.value s
  | .accRead n a i row gen =>
    let t := (s.span sp).acc a i
    if gen == some (t.count row.toNat) && !beingWritten (s.span sp) a i row.toNat then landVreg sp r n l.mask l.value s
    else
      let (k, s) := fresh s
      landVreg sp r n l.mask (packRow (fun j => Config.racyWord t.rows k j)) s

/-- A landing put among others by its due cycle, after those due no later: one cycle's landings stay in
issue order (R210). -/
def insertDue (now : W64) (l : VLanding) : List VLanding → List VLanding
  | [] => [l]
  | x :: t => if (now - l.due).toNat > (now - x.due).toNat then l :: x :: t else x :: insertDue now l t

/-- The vector register that a result writes. -/
def VDest.reg : VDest → Option (BitVec 5)
  | .vreg n => some n
  | .accRead n _ _ _ _ => some n
  | _ => none

/-- A landing due at `d` and issued at `i` comes before another: the earlier due, then the earlier issued
(R210). -/
def landsBefore (now d i d' i' : W64) : Bool :=
  decide ((d - now).toInt < (d' - now).toInt) || (d == d' && decide ((i - now).toInt < (i' - now).toInt))

/-- A result waits for the row of a VLDT to the same register that is due and comes before it (R210). -/
def heldBack (k : Reckoner) (l : VLanding) : Bool :=
  k.buffer.any (fun b => b.stream == .V && l.dest.reg == some b.dest && entryDue k b &&
    landsBefore k.scyV b.due b.issued l.due l.issued)

/-- A V result lands now. -/
def landsNow (k : Reckoner) (l : VLanding) : Bool := reached l.due k.scyV && !heldBack k l

/-- The landings due by now, in their order. -/
def dueLandings (k : Reckoner) : List VLanding :=
  (k.landings.filter (landsNow k)).foldl (fun acc l => insertDue k.scyV l acc) []

/-- Every V result due by now lands. -/
def landResults (sp : BitVec 7) (r : BitVec 2) (s : State) : State :=
  let k := s.reck sp r
  let due := dueLandings k
  let s := s.setReck sp r { k with landings := k.landings.filter (fun l => !landsNow k l) }
  (due.foldl (fun s l => landOne sp r l s) s).mapReck sp r (trySignal .V)

/-- A wide flag whose cycle has come is FULL (R142). -/
def settleWide (sp : BitVec 7) (r : BitVec 2) (s : State) : State :=
  s.mapReck sp r (fun k =>
    trySignal .V { k with w := k.w.map (fun f =>
      match f with
      | .pending due rec' => if reached due k.scyV then .full rec' else f
      | _ => f) })

/-! ### Timed loads -/

/-- An LDT entry lands at once, whatever its slot, once a SYNC drains (R325). -/
def draining (k : Reckoner) : Bool :=
  (k.str .S).queue.any (fun u => match u.instr with | .sync _ => u.waited | .node _ => u.waited | .region _ => u.waited | _ => false)

/-- An entry's data written to its destination. For an LDT the row holds its 8 bytes in bits [63:0]. -/
def landEntry (sp : BitVec 7) (r : BitVec 2) (b : LandEntry) (d : Row) (s : State) : State :=
  match b.stream with
  | .S => if b.dest = 0#5 then s else
      s.mapReck sp r (fun k => { k with g := k.g.set b.dest.toNat (d.extractLsb' 0 64) (b.dest.isLt) })
  | _ => landVreg sp r b.dest b.mask d s

/-- The cycle by which entries of a stream are ordered. -/
def nowOf (k : Reckoner) : Stream → W64
  | .S => k.scyS
  | _ => k.scyV

/-- An entry may land: it has its data, it is due or a drain lets it land, and no landing to the same
register that comes before it is still to take place (R126, R210, R325). -/
def landable (k : Reckoner) (b : LandEntry) : Bool :=
  b.data.isSome && (entryDue k b || (b.stream == .S && draining k)) &&
  !k.buffer.any (fun o => o.stream == b.stream && o.dest == b.dest &&
    landsBefore (nowOf k b.stream) o.due o.issued b.due b.issued) &&
  !(b.stream == .V && k.landings.any (fun l => l.dest.reg == some b.dest && reached l.due k.scyV &&
    landsBefore k.scyV l.due l.issued b.due b.issued))

/-- Results and entries that may land do so one after another; `fuel` is the number of entries at most. -/
def landTimed (sp : BitVec 7) (r : BitVec 2) : Nat → State → State
  | 0, s => landResults sp r s
  | fuel + 1, s =>
    let s := landResults sp r s
    let k := s.reck sp r
    match k.buffer.find? (landable k) with
    | none => s
    | some b =>
      match b.data with
      | some d =>
        landTimed sp r fuel
          ((landEntry sp r b d (s.setReck sp r { k with buffer := k.buffer.erase b })).mapReck sp r
            (fun k => trySignal .V (trySignal .S k)))
      | none => s

/-- Something waits for this entry while the counter of its stream stands, which would keep its cycle from ever coming
(log 36). -/
def waitedFor (k : Reckoner) (b : LandEntry) : Bool :=
  standsStill b.stream k && (k.str b.stream).waits.contains (b.work.seq, b.work.rep)

/-- A faulted entry whose fault is raised now: its cycle has come (R128), a drain lands it (R325), or it is waited for in
a hold of its stream. -/
def faultDue (k : Reckoner) (b : LandEntry) : Bool :=
  b.fault.isSome && !pendingLand k.faults b && (entryDue k b || (b.stream == .S && draining k) || waitedFor k b)

/-- The faults of the entries due, as their records name them. -/
def landTraps (k : Reckoner) : List TrapInfo :=
  (k.buffer.filter (faultDue k)).filterMap (fun b => b.fault.map (fun f => { trapInfo b.stream b.work 0 f with land := true }))

/-- The faults of due entries raised at their landing (R128), and taken as any fault is (R343). At the edge of a debug
stop they are taken with the stop (R370). -/
def landFaults (sp : BitVec 7) (r : BitVec 2) (s : State) : State :=
  if (landTraps (s.reck sp r)).isEmpty || (s.reck sp r).stopMet then s
  else takeOrWait sp r (s.mapReck sp r (fun k => { k with faults := k.faults ++ landTraps k }))

/-- An acquire fence has nothing left to order once every S read before it has been performed (R301). -/
def dropFence (sp : BitVec 7) (r : BitVec 2) (s : State) : State :=
  s.mapReck sp r (fun k =>
    { k with fence := k.fence.filter (fun f => k.buffer.any (fun b => b.stream == .S && absent b && seqBefore b.work.seq f)) })

/-- The start of a schedule cycle of a Reckoner: results, wide flags, timed loads, and the faults of timed
loads. -/
def settle (sp : BitVec 7) (r : BitVec 2) (s : State) : State :=
  landFaults sp r (dropFence sp r (settleWide sp r (landTimed sp r Config.landingEntries s)))

/-- What a timed request asks of its translation (R14, R62): the policy and space it carries. -/
def entryAsk (b : LandEntry) : Ask := ⟨false, false, false, true, false, b.space, b.policy, false⟩

/-- The first 4-byte word of the 8-byte unit at an address in its row (R305). -/
def unitWord (a : W64) : BitVec 5 := BitVec.ofNat 5 ((a.extractLsb' 3 4).toNat * 2)

/-- A fault that names the lowest lane that fails, and the lowest word of the row that it touches (R345). -/
def atLane {α : Type} (ln word : BitVec 5) : Out α → Out α
  | .trap f s => .trap { f with lane := ln, word := word } s
  | x => x

/-- A fault of an access of an S word names the first word of its unit (R305, R345). -/
def atUnit {α : Type} (a : W64) : Out α → Out α := atLane 0#5 (unitWord a)

/-- The lanes of an entry that touch its row: those of the guard, or the first word of the 8-byte unit
(R305). -/
def entryLane (b : LandEntry) : BitVec 5 × BitVec 5 :=
  match b.stream with
  | .S => (0#5, unitWord b.addr)
  | _ =>
    let l := ((List.range 32).find? (fun i => b.mask.getLsbD i)).getD 0
    (BitVec.ofNat 5 l, BitVec.ofNat 5 l)

/-- The record of a fault of a timed load names its lowest active lane, and the word that it touches (R345). -/
def entryFault (b : LandEntry) (f : Flt) : Flt := { f with lane := (entryLane b).1, word := (entryLane b).2 }

/-- The data of a row as an entry keeps it: the 8-byte unit of an LDT, the row of a VLDT. -/
def entryData (b : LandEntry) (row : Row) : Row :=
  match b.stream with
  | .S => (row.extractLsb' (64 * (b.addr.extractLsb' 3 4).toNat) 64).zeroExtend 1024
  | _ => row

/-- Whether an earlier access of the stream may meet the row of an entry: its own row, as its translation stands,
is the same, or, on another device, has the same home (R292, R381). -/
def meetsRow (s : State) (pa pb : Nat) : Bool :=
  homeAddr s pa / 128 == homeAddr s pb / 128 || (isFabric pa && isFabric pb && fabricDev pa == fabricDev pb)

/-- Where a timed request would go now. -/
def entryPeek (sp : BitVec 7) (b : LandEntry) (s : State) : Option Nat :=
  peek sp (s.span sp).xroot (b.addr.extractLsb' 0 52) s

/-- Whether the read of an entry may be performed now: earlier accesses of its stream to the same row or remote
home, and for sc every earlier access, come first (R292, R299, R381); an earlier acquiring load too, and the reads
before an acquire fence (R298, R301). -/
def entryReady (sp : BitVec 7) (s : State) (k : Reckoner) (b : LandEntry) (pa : Nat) : Bool :=
  (b.stream != .S || !k.posted.any (fun p => workBefore p.work b.work && (b.order == 4#3 || meetsRow s p.pa pa))) &&
  !k.buffer.any (fun o => o.stream == b.stream && workBefore o.work b.work && absent o &&
    (b.order == 4#3 || hasAcquire o.order || (entryPeek sp o s).any (meetsRow s pa) ||
      (b.stream == .S && k.fence.any (fun f => seqBefore o.work.seq f && seqBefore f b.work.seq))))

/-- The landing of an entry trapped: its access is made again after ERET only (R128). -/
def landingTrapped (k : Reckoner) (b : LandEntry) : Bool :=
  match k.frozen with
  | none => false
  | some f => (match b.stream with | .S => f.sLand | _ => f.vLand).contains (b.work.seq, b.work.rep)

/-- The access of entry `i` made: its translation, the race watch, its read. The data, or the fault, is
kept in the entry. -/
def readEntry (sp : BitVec 7) (r : BitVec 2) (i : Nat) (s : State) : State :=
  let k := s.reck sp r
  match k.buffer[i]? with
  | none => s
  | some b =>
    if !unread b || landingTrapped k b then s
    else
      let put (s : State) (b' : LandEntry) : State :=
        s.mapReck sp r (fun k => { k with buffer := k.buffer.set i b' })
      let w := workAccess (threadId s sp r) b.stream b.work
      match onceSent w b.addr false (translateFree sp (s.span sp).xroot (entryAsk b) b.addr) s with
      | .hold s => s
      | .trap f s => put (leaveWalk sp b s) { b with missed := false, fault := some (entryFault b f) }
      | .ok p s =>
        let s := leaveWalk sp b s
        let b := { b with missed := false }
        if !entryReady sp s k b p.pa then put s b
        else
          let quiet' := b.stream == .V && b.mask == 0#32
          let watched := if quiet' then Out.ok () s else
            watchRow sp r p.pa false none (b.watch && p.watch) (b.addr &&& ~~~0x7F#64) (entryLane b).1 (entryLane b).2 s
          match watched.bind fun _ s => readRowAs ⟨w, b.addr, some p.page, false⟩ p.pa s with
          | .hold s => s
          | .trap f s => put s { b with fault := some (entryFault b f) }
          | .ok row s => put s { b with data := some (entryData b row) }

end Sys2Proof.Machine
end

