-- ==== Sys2Proof/Machine/Clock.lean ====
section
/-! DEFINITION. One clock of a Span: the schedule counters (R5, R124, R209) and what the start of a schedule cycle
brings (R126 to R128, R142, R187, R368), the interlock of S results (R123), the hold limit of the lease (R237), the
snapshots of loop exits (R372). -/

namespace Sys2Proof.Machine

/-- The thread's streams move with the clock: it runs or drains, and does not stand. -/
def clocked (k : Reckoner) : Bool := (k.run == .running || k.run == .draining) && !standing k

/-- The head of a queue of commands could leave it: no command is in execution, its gap has elapsed, its tokens and
its arguments are there, and the stores before its first push have been performed (R55, R159, R294, R337). -/
def headReady (x : Span) (e : Stream) (k : Reckoner) : Bool :=
  clocked k && !k.stopMet && !k.faults.any (fun t => t.stream == e && !t.spl && !t.fetch) && (k.str e).active.isNone &&
  (k.str e).sig.isNone &&
  (match (k.str e).queue.head? with
   | some u => paced e k x.clock && decide (argNeed u.instr ≤ (k.q[(argQueue e).val]).length) &&
      (argNeed u.instr = 0 || (pushPerformed (pushesOf e k).head? k && !(e == .K && behind .K k))) && (u.waited || (takeTokens e (Decode.fld (encode u.instr) 25 4) k.tok).isSome)
   | none => false)

/-! ### The interlock (R123) -/

/-- The scalar registers that an S word reads. -/
def sourcesOf : Instr → List (BitVec 5)
  | .add _ _ a b => [a, b] | .sub _ _ a b => [a, b] | .and _ _ a b => [a, b] | .or _ _ a b => [a, b]
  | .xor _ _ a b => [a, b] | .sll _ _ a b => [a, b] | .srl _ _ a b => [a, b] | .sra _ _ a b => [a, b]
  | .mul _ _ a b => [a, b] | .mulh _ _ a b _ => [a, b] | .div _ _ a b => [a, b] | .rem _ _ a b => [a, b]
  | .min _ _ a b => [a, b] | .max _ _ a b => [a, b] | .slt _ _ a b _ => [a, b] | .sel _ d a b => [d, a, b]
  | .addsh _ _ a b _ => [a, b] | .clz _ _ a => [a] | .popc _ _ a => [a] | .bfx _ _ a b => [a, b]
  | .bfi _ d a b => [d, a, b] | .addi _ _ a _ => [a] | .andi _ _ a _ => [a] | .ori _ _ a _ => [a]
  | .xori _ _ a _ => [a] | .slli _ _ a _ => [a] | .srli _ _ a _ => [a] | .srai _ _ a _ => [a]
  | .slti _ _ a _ => [a] | .lsh _ d _ => [d] | .agen _ _ a b _ => [a, b] | .lds _ _ a _ => [a]
  | .sts _ d a _ => [d, a] | .ldt _ _ a _ => [a] | .stx _ a b => [a, b]
  | .aadd _ _ a b => [a, b] | .aand _ _ a b => [a, b] | .aor _ _ a b => [a, b] | .axor _ _ a b => [a, b]
  | .amin _ _ a b => [a, b] | .amax _ _ a b => [a, b] | .aswp _ _ a b => [a, b] | .acas _ d a b => [d, a, b]
  | .aincw _ _ a b => [a, b] | .aaddb _ _ a b => [a, b]
  | .dcas _ d a b => [d, d + 1#5, a, a + 1#5, b, b + 1#5] | .amov2 _ _ a b => [a, a + 1#5, b, b + 1#5]
  | .cwait _ a _ => [a] | .beq _ a b _ => [a, b] | .bne _ a b _ => [a, b] | .blt _ a b _ => [a, b]
  | .bge _ a b _ => [a, b] | .bltn _ a b _ => [a, b] | .bgen _ a b _ => [a, b] | .jr _ a => [a]
  | .loop _ a _ => [a] | .csrw _ a _ => [a] | .launch _ a => [a]
  | _ => []

/-- The head of the S stream reads a result that is still on its way (R123). -/
def interlocked (k : Reckoner) (clock : Nat) : Bool :=
  match (k.str .S).queue.head? with
  | some u => (sourcesOf u.now).any (fun n => (Table.find? k.ready n.toNat).any (fun c => decide (clock < c)))
  | none => false

/-! ### The counters -/

/-- A stream holds: on its own account, or for a fault of it that waits for a record (R124, R209, R347). -/
def stalled (e : Stream) (k : Reckoner) : Bool :=
  standsStill e k || k.faults.any (fun t => t.stream == e && !t.spl && !t.fetch)

/-- The counter of a stream advances with the clock: a word has acted on it, or nothing holds the stream. -/
def advances (e : Stream) (k : Reckoner) : Bool := !k.lateHold && ((k.str e).acted || !stalled e k)

/-- A clock of one stream; one of the clocks for which its head holds on bank conflicts goes by (R207), be it one on which
late data holds both streams or not (log 14). -/
def tickStream (e : Stream) (k : Reckoner) : Reckoner :=
  (if advances e k then bumpCycle e k else k).modStr e (fun t =>
    { t with acted := false, queue := mapHead (fun u => { u with serve := u.serve.map List.tail }) t.queue })

/-- The bank group for which the head of the V stream of a Reckoner waits on a clock (R207, R372). -/
def waitingGroup (k : Reckoner) : Option Nat :=
  if !clocked k || k.stopMet then none
  else match (k.str .V).queue.head? with
    | some u => u.serve.bind List.head?
    | none => none

/-- A clock more of a Reckoner's V stream in the conflict counter of the group for which it waits (R372). -/
def noteWait (x : Span) (r : BitVec 2) : Span :=
  match waitingGroup (x.reck r) with
  | none => x
  | some g =>
    let n := 16 * (4 + r.toNat) + g
    let t := x.tender.waited
    { x with tender := { x.tender with waited := Table.put t n ((Table.find? t n).getD 0 + 1) } }

/-- The counter that DBGCMP names stands at its cycle (R367). -/
def atStop (k : Reckoner) : Bool :=
  k.dbgcmp.getLsbD 63 &&
  (if k.dbgcmp.getLsbD 62 then k.scyV else k.scyS).extractLsb' 0 48 == k.dbgcmp.extractLsb' 0 48

/-- The stream that DBGCMP names. -/
def stopStream (k : Reckoner) : Stream := if k.dbgcmp.getLsbD 62 then .V else .S

/-- An armed stop is met and not yet taken (R368). -/
def stopDue (k : Reckoner) : Bool := k.stopMet

/-- Every bank of a Span (R184). -/
def allBanks : List BankName :=
  (List.range 16).map (fun n => .vbank (BitVec.ofNat 2 (n / 4)) (BitVec.ofNat 2 n)) ++
  (List.range 16).map (fun n => .tile (BitVec.ofNat 4 n)) ++
  (List.range 16).map (fun n => .acc (BitVec.ofNat 1 (n / 8)) (BitVec.ofNat 3 n)) ++
  (List.range 128).map (fun n => .spad (BitVec.ofNat 7 n))

/-- An idle time has been written on this clock. -/
def idleWritten (k : Reckoner) : Bool := k.bret != k.bretOn || k.boff != k.boffOn

/-- The transitions due by now have taken place. -/
def settleAll (x : Span) : Span := allBanks.foldl (fun x n => x.setBank n (x.dueBank n)) x

/-- The idle counts of the clock that ends are judged by the idle times in force on it, before others come into force
(R194, R195). `x` stands on the clock that begins. -/
def settleBanks (x : Span) : Span := if x.recks.any idleWritten then settleAll x else x

/-- The idle times written by CSRW apply from the next clock (R194). -/
def applyIdle (k : Reckoner) : Reckoner := { k with bretOn := k.bret, boffOn := k.boff }

/-- The counters of one Reckoner advance. A stop is met where the counter that it names arrives at its cycle
(R368). -/
def tickCounters (k : Reckoner) : Reckoner :=
  let moved := advances (stopStream k) k
  let k := tickStream .S (tickStream .V k)
  { k with stopMet := moved && atStop k }

/-- A clock of one Reckoner: its splitter may take a word again (R44). -/
def tickReck (k : Reckoner) : Reckoner :=
  applyIdle { (if clocked k && !stopDue k then tickCounters k else k) with steered := false }

/-- What a clock edge that has been settled leaves: whether late data holds both streams (R127). -/
def settled (k : Reckoner) : Reckoner :=
  ({ k with lateHold := late k }.modStr .S (fun t => { t with waits := [] })).modStr .V (fun t => { t with waits := [] })

/-- The start of a schedule cycle: the landings due in it take place, or hold both streams (R126, R127). -/
def startCycle (sp : BitVec 7) (s : State) (r : BitVec 2) : State :=
  if clocked (s.reck sp r) then
    let s := settle sp r s
    if clocked (s.reck sp r) then s.mapReck sp r settled else s
  else s

/-- The faults that wait for the end of the clock are taken (R343). -/
def endClock (sp : BitVec 7) (s : State) (r : BitVec 2) : State :=
  if clocked (s.reck sp r) && !stopDue (s.reck sp r) && !(s.reck sp r).faults.isEmpty then takeFaults sp r s else s

/-- The Reckoners of a Span, in ascending order. -/
def allRecks : List (BitVec 2) := [0#2, 1#2, 2#2, 3#2]

/-! ### The lease -/

/-- The holder has a Girder command in execution (R237). -/
def girderBusy (k : Reckoner) : Bool := (k.str .M).active.isSome

/-- A Reckoner requests the lease (R235). A frozen or stopped thread, whose queues stand, does not, nor does a command
that stands at pacing (R338). -/
def requesting (x : Span) (r : BitVec 2) : Bool :=
  x.lease.req.getLsbD r.toNat && clocked (x.reck r) && paced .M (x.reck r) x.clock

/-- The search for the next holder: ascending after the last, wrapping (R235). -/
def grantOrder : Option (BitVec 2) → List (BitVec 2)
  | none => [0#2, 1#2, 2#2, 3#2]
  | some r => [r + 1#2, r + 2#2, r + 3#2, r]

/-- The tokens and the count of an MLEASE at the head of a queue. -/
def mleaseHead (k : Reckoner) : Option (Tok × W32 × Nat) :=
  match (k.str .M).queue.head? with
  | some u => match u.instr with
    | .mlease w n => some (w, u.seq, if n = 0#6 then 64 else n.toNat)
    | _ => none
  | none => none

/-- The lease granted to a Reckoner: an MLEASE completes and signals, a Girder command has an implicit
lease of 1. -/
def grantTo (sp : BitVec 7) (r : BitVec 2) (s : State) : State :=
  let own := mleaseHead (s.reck sp r)
  let n := match own with | some (_, _, n) => n | none => 1
  let s := s.mapSpan sp (fun x =>
    { x with lease := ⟨some r, n, some r, x.lease.req &&& ~~~(1#4 <<< r.toNat), 0#4, 0⟩ })
  match own with
  | some (w, seq, _) =>
    s.mapReck sp r (fun k => trySignal .M ((dequeue .M seq (s.span sp).clock k).modStr .M (fun t => { t with sig := sigOf w })))
  | none => s

/-- A free lease granted to the first of some requesting Reckoners (R235). -/
def grantAmong (p : BitVec 2 → Bool) (sp : BitVec 7) (s : State) : State :=
  let x := s.span sp
  if x.lease.holder.isSome then s
  else match (grantOrder x.lease.last).find? (fun r => p r && requesting x r) with
    | some r => grantTo sp r s
    | none => s

/-- The grant of this clock: of a lease that was free as the clock began, among the requests that stood then (R235). -/
def grantNext (sp : BitVec 7) (s : State) : State := grantAmong (fun r => (s.span sp).lease.due.getLsbD r.toNat) sp s

/-- The hold limit of the lease has been reached (R237). -/
def limitReached (x : Span) : Bool :=
  match x.lease.holder with
  | some h => decide (Config.holdLimit ≤ x.lease.hold) && !girderBusy (x.reck h)
  | none => false

/-- R237: at the hold limit the lease is revoked and granted, and a LEASE is left pending. -/
def revokeDue (sp : BitVec 7) (s : State) : State :=
  match (s.span sp).lease.holder with
  | none => s
  | some h =>
    if limitReached (s.span sp) then
      let s := s.mapReck sp h (fun k => { k with pendLease := true })
      grantAmong (fun _ => true) sp (s.mapSpan sp (fun x => { x with lease := { x.lease with holder := none, count := 0, hold := 0 } }))
    else s

/-- What the lease has come to on this clock: the revocation and the grant that the clock edge has brought (R235, R237). -/
def leaseNow (sp : BitVec 7) (s : State) : State := grantNext sp (revokeDue sp s)

/-- The hold limit runs while the holder has no Girder command in execution and another Reckoner requests
the lease; a frozen holder stops it (R237, R340). -/
def tickLease (x : Span) : Span :=
  match x.lease.holder with
  | none => x
  | some h =>
    let k := x.reck h
    if girderBusy k then { x with lease := { x.lease with hold := 0 } }
    else if !allRecks.any (fun r => r != h && requesting x r) then { x with lease := { x.lease with hold := 0 } }
    else if !standing k then { x with lease := { x.lease with hold := x.lease.hold + 1 } }
    else x

/-- A lease free as a clock begins is granted on it, among the requests that stood then (R235). -/
def dueLease (x : Span) : Span :=
  { x with lease := { x.lease with due :=
      if x.lease.holder.isSome then 0#4 else BitVec.ofNat 4 (packReqs (fun i => requesting x (BitVec.ofNat 2 i)) 4) } }
where
  packReqs (f : Nat → Bool) : Nat → Nat
    | 0 => 0
    | n + 1 => packReqs f n + (f n).toNat * 2 ^ n

/-! ### Bands (R230, R231) -/

/-- Band `j` of an array is enabled in a latched ASHAPE. -/
def bandIn (c : Cmd) (arr : BitVec 1) (j : Nat) : Bool := c.ashape.getLsbD (4 * arr.toNat + j)

/-- The command streams through an array. -/
def streamsOn (arr : BitVec 1) : Instr → Bool
  | .mwld _ r _ _ _ => r == arr
  | .mma _ r _ _ _ _ _ => r == arr
  | .mmaid _ r _ _ _ _ _ => r == arr
  | .mma32 _ r _ _ _ _ _ _ => r == arr
  | .mattn _ _ _ _ _ _ => true
  | _ => false

/-- A command in execution needs a band. -/
def bandNeeded (x : Span) (arr : BitVec 1) (j : Nat) : Bool :=
  x.recks.toList.any (fun k => match (k.str .M).active with
    | some c => c.underway && streamsOn arr c.work.instr && bandIn c arr j
    | none => false)

/-- A band whose idle count stands at 0 on this clock: in ASHAPE, or needed by a command (R231). -/
def bandInUse (x : Span) (arr : BitVec 1) (j : Nat) : Bool :=
  x.ashape.getLsbD (4 * arr.toNat + j) || bandNeeded x arr j

/-- The idle count of a band has reached `idle`, before a clock (R231). -/
def gateDue (clock : Nat) (idle : BitVec 16) (b : Band) : Bool :=
  !b.gated && idle != 0#16 && decide (b.busy + idle.toNat < clock)

/-- A gated band, its weights dead (R231). -/
def Band.gate (b : Band) : Band := ⟨true, false, none, b.busy⟩

def ArraySt.mapBands (x : ArraySt) (f : Nat → Band → Band) : ArraySt :=
  { x with band := Vector.ofFn (fun (j : Fin 4) => f j.val x.band[j]) }

/-- The bands of a Span over a clock edge: a use on the clock that ends sets the idle count to 0, and a band whose
count has reached BGIDLE as written is gated on the clock that begins (R231). -/
def tickBands (x : Span) : Span :=
  { x with arr := Vector.ofFn (fun (a : Fin 2) => x.arr[a].mapBands (fun j b =>
      let b := if bandInUse x (BitVec.ofNat 1 a.val) j then { b with busy := x.clock } else b
      if gateDue (x.clock + 1) x.bgidle b then b.gate else b)) }

/-! ### Loop exits -/

/-- The snapshots of the loop exits of a clock, in ascending order of their Reckoners (R372). -/
def takeSnaps (sp : BitVec 7) (s : State) : State :=
  let exits := (s.span sp).snaps
  let s := if exits.isEmpty then s else s.mapSpan sp (fun x => { x with snaps := [] })
  allRecks.foldl (fun s r => (exits.filter (fun e => e.1 == r)).foldl (fun s e => snapshot sp r e.2 s) s) s

/-! ### The clock -/

/-- The clock edge: what ends with the clock, then the bands, the conflict counters, the banks, the schedule counters,
BGIDLE as written (R231), the lease. -/
def edge (sp : BitVec 7) (s : State) : State :=
  (allRecks.foldl (endClock sp) (takeSnaps sp (leaseNow sp s))).mapSpan sp (fun x =>
    let x := allRecks.foldl noteWait (tickBands x)
    let x := settleBanks { x with clock := x.clock + 1 }
    dueLease (tickLease { x with bgidleOn := x.bgidle, recks := x.recks.map tickReck }))

/-- One clock of a Span: its edge, and the start of the next schedule cycle of each Reckoner. -/
def tickSpan (sp : BitVec 7) (s : State) : State := allRecks.foldl (startCycle sp) (edge sp s)

end Sys2Proof.Machine
end

