-- ==== Sys2Proof/Machine/Distributor.lean ====
section
/-! DEFINITION. Node records (R326), their readiness (R329) and their submission (R328, R333, R336). -/

namespace Sys2Proof.Machine

/-! ### Fields of a record (R326) -/

def recWord (rec' : List W64) (i : Nat) : W64 := rec'.getD i 0#64
def recTag (rec' : List W64) : BitVec 16 := (recWord rec' 2).extractLsb' 48 16
def recGroup (rec' : List W64) : BitVec 8 := (recWord rec' 2).extractLsb' 40 8
def recSpans (rec' : List W64) : Nat := ((recWord rec' 2).extractLsb' 24 8).toNat
def recReck (rec' : List W64) : Nat := ((recWord rec' 2).extractLsb' 16 3).toNat
def recLevel (rec' : List W64) : Nat := ((recWord rec' 2).extractLsb' 8 4).toNat
def recPrio (rec' : List W64) : BitVec 2 := (recWord rec' 2).extractLsb' 4 2

/-- The fields of word 2 that are marked zero: [39:32], [23:19], [15:12], [7:6], [3:0]. -/
def recZeros : W64 := 0x000000FF00F8F0CF#64

/-- A region of nonzero length lies wholly below 2^52. -/
def regionOk (base len : W64) : Bool := len == 0#64 || decide (base.toNat + len.toNat ≤ 2 ^ 52)

/-- A record is well formed (R326). -/
def recordOk (rec' : List W64) : Bool :=
  recWord rec' 2 &&& recZeros == 0#64 &&
  (recWord rec' 0).extractLsb' 0 2 == 0#2 && decide ((recWord rec' 0).toNat < 2 ^ 52) &&
  decide (1 ≤ recSpans rec') && decide (recSpans rec' ≤ 128) &&
  decide (1 ≤ recReck rec') && decide (recReck rec' ≤ 4) &&
  decide (1 ≤ recLevel rec') && decide (recLevel rec' ≤ 4) &&
  (recGroup rec' != 0#8) == decide (recLevel rec' = 4) &&
  regionOk (recWord rec' 3) (recWord rec' 4) && regionOk (recWord rec' 5) (recWord rec' 6) &&
  decide ((recWord rec' 7).toNat < 2 ^ 52)

/-- The application cores run and the tables can be written: steps 1 and 2 of start-up have succeeded (R16). -/
def started (s : State) : Bool := decide (2 ≤ s.boot)

/-! ### Nodes of the scoreboard -/

/-- The node that stands on a Span. -/
def nodeOn (s : State) (sp : BitVec 7) : Option Node := s.nodes.find? (fun n => (s.span sp).node == some n.id)

/-- A node of the scoreboard changed. -/
def mapNode (id : Nat) (f : Node → Node) (s : State) : State :=
  { s with nodes := s.nodes.map (fun n => if n.id == id then f n else n) }

/-! ### Readiness (R329) -/

/-- A 64 KiB page resolves under a root to a leaf with MIG = 0 whose frame lies in deck SRAM or HBM4E, and
with W = 1 where it is to be written. -/
def pageReady (s : State) (root : W64) (wr : Bool) (va : Nat) : Bool :=
  match walk s root (BitVec.ofNat 52 va) with
  | .bad _ _ _ => false
  | .leaf lvl e =>
    let pa := frameAddr e (pageSize lvl) (BitVec.ofNat 52 va)
    !isFabric pa && (placeOwn s pa == .hbm || placeOwn s pa == .deck) && tierAgrees s e pa false &&
    !e.getLsbD 6 && (!wr || e.getLsbD 1)

/-- The 64 KiB pages that meet a region. -/
def regionPages (base len : W64) : List Nat :=
  if len = 0#64 then []
  else
    let first := base.toNat / 0x10000
    let last := (base.toNat + len.toNat - 1) / 0x10000
    (List.range (last - first + 1)).map (fun i => (first + i) * 0x10000)

/-- Every page that meets a region is ready. -/
def regionReady (s : State) (root base len : W64) (wr : Bool) : Bool := (regionPages base len).all (pageReady s root wr)

/-- The single-bit errors of the rows that the walks of some pages read, corrected (R121). -/
def fixPages (root : W64) (pages : List Nat) (s : State) : State :=
  pages.foldl (fun s va => walkFix (BitVec.ofNat 52 va) 3 ((root.extractLsb' 12 40).toNat * 0x1000) s) s

/-- The DONE unit of a record (R326): bits [2:0] are ignored. -/
def doneUnit (rec' : List W64) : Nat := (recWord rec' 7).toNat / 8 * 8

/-- The DONE unit translates as dispatch asks (R329, R332). -/
def doneReady (s : State) (rec' : List W64) : Bool :=
  recWord rec' 7 == 0#64 || pageReady s (recWord rec' 1) true (doneUnit rec')

/-- The pages of a node are ready (R329). -/
def nodeReady (s : State) (n : Node) : Bool :=
  let w := recWord n.record
  regionReady s (w 1) (w 3) (w 4) false && regionReady s (w 1) (w 5) (w 6) true && doneReady s n.record

/-- A node examined: whether its pages are ready (R329), or, for one that waits for its DONE unit, that the increment
is to be tried (R332). -/
def examined (s : State) (n : Node) : Node := { n with ready := n.status == .joining || nodeReady s n }

/-- The walks of an examination: those of a node that stands in dispatch order (R121, R329). -/
def examinedWalks (s : State) (n : Node) : State :=
  let w := recWord n.record
  if n.status == .pending || n.status == .preempted then
    fixPages (w 1) (regionPages (w 3) (w 4) ++ regionPages (w 5) (w 6) ++ (if w 7 == 0#64 then [] else [doneUnit n.record])) s
  else s

/-- The examination of every node on a submission, a join and the completion of an invalidation (R329, R332). -/
def examine (s : State) : State := { s.nodes.foldl examinedWalks s with nodes := s.nodes.map (examined s) }

/-! ### Submission -/

/-- The scoreboard has a free entry. -/
def boardRoom (s : State) : Bool := decide (s.nodes.length < Config.scoreboard)

/-- A node put into the scoreboard, and every node examined: pending, its effective priority its PRIO (R329, R330). -/
def addNode (rec' : List W64) (s : State) : State :=
  let n : Node :=
    { id := s.nextNode, record := rec', status := .pending, order := s.nextOrder, dispatched := 0, since := s.interval
      eff := recPrio rec', spans := [], preempt := none, taken := [], saved := [], restoring := false, ready := false }
  examine { s with nodes := s.nodes ++ [n], nextNode := s.nextNode + 1, nextOrder := s.nextOrder + 1 }

def State.window (s : State) (n : BitVec 5) : Window := s.windows[n.toNat]'(n.isLt)
def State.setWindow (s : State) (n : BitVec 5) (w : Window) : State :=
  { s with windows := s.windows.set n.toNat w (n.isLt) }

/-- R328: a GO judges the record in DREC, first its form, then the room. -/
def submitWindow (n : BitVec 5) (s : State) : State :=
  let w := s.window n
  let rec' := w.drec.toList
  let cause : BitVec 4 := if !recordOk rec' then 2#4 else if !boardRoom s then 1#4 else 0#4
  let s := s.setWindow n { w with tag := recTag rec', cause := cause }
  if cause == 0#4 then addNode rec' s else s

/-- DSTAT of a window (R327). -/
def dstat (n : BitVec 5) (s : State) : W64 :=
  let w := s.window n
  w.tag ++ 0#28 ++ w.cause ++ 0#3 ++ BitVec.ofNat 13 (Config.scoreboard - s.nodes.length)

/-- A write of DKILL (R333). -/
def writeDkill (v : W64) (s : State) : State :=
  if v.getLsbD 0 then killTag (v.extractLsb' 48 16) s else s

end Sys2Proof.Machine
end

