-- ==== Sys2Proof/Machine/Device.lean ====
section
/-! DEFINITION. Device registers (R106): the tender CSRs (R349, R362, R372), translation control and its
invalidations (R118, R119), the distributor (R327), the fabric block (R383, R384), the status of power and
ageing (R366), host control (R374, R378). -/

namespace Sys2Proof.Machine

/-! ### The tender CSRs -/

/-- The head record: entry 15 when it is occupied, else the oldest (R347). -/
def headRecord (x : Span) : Option Record := x.rowFatal.orElse (fun _ => x.rowsOrd.head?)

/-- A frozen thread's register, or zero (R349). -/
def ifFrozen (k : Reckoner) (f : Freeze → W64) : W64 := match k.frozen with | some z => f z | none => 0#64

/-- TSTAT: FROZEN, QUAR, FATAL, ERR. -/
def tstat (x : Span) : W64 :=
  let fr (r : BitVec 2) : BitVec 1 := BitVec.ofBool (x.reck r).frozen.isSome
  (0#56 ++ fr 3#2 ++ fr 2#2 ++ fr 1#2 ++ fr 0#2 ++ BitVec.ofBool x.tender.quar ++ BitVec.ofBool x.rowFatal.isSome
    ++ BitVec.ofBool x.tender.err ++ 0#1 : BitVec 64)

/-- TPWR (R362). -/
def tpwr (t : Tender) : W64 :=
  (0#32 ++ BitVec.ofBool t.pendNotice ++ 0#1 ++ t.ceil ++ 0#4 ++ t.evrow ++ 0#6 ++ BitVec.ofBool t.even : BitVec 64)

/-- TPROF (R372). -/
def tprof (t : Tender) : W64 := (BitVec.ofBool t.profEn ++ 0#46 ++ t.profBase : BitVec 64)

/-- A read of a tender CSR by its number from 0x100. A number that R349 does not give reads zero. -/
def readTender (sp : BitVec 7) (n : Nat) (s : State) : W64 :=
  let x := s.span sp
  let t := x.tender
  let k := x.reck t.tsel
  if n = 0x100 then tstat x
  else if n = 0x102 then t.tsel.zeroExtend 64
  else if n = 0x103 then (0#62 ++ BitVec.ofBool k.skipv ++ BitVec.ofBool k.skips : BitVec 64)
  else if n = 0x104 then (0#63 ++ BitVec.ofBool t.rm : BitVec 64)
  else if 0x110 ≤ n && n ≤ 0x11F then
    match headRecord x with
    | some r => r[n % 16]'(Nat.mod_lt _ (by omega))
    | none => 0#64
  else if n = 0x120 then ifFrozen k (fun z => z.tpc.zeroExtend 64)
  else if n = 0x121 then ifFrozen k (fun z => (0#48 ++ z.rv ++ z.rs : BitVec 64))
  else if 0x140 ≤ n && n ≤ 0x15F then
    let g := n % 32
    if g = 0 || 24 ≤ g then 0#64 else ifFrozen k (fun _ => k.g[n % 32]'(Nat.mod_lt _ (by omega)))
  else if n = 0x180 then x.xroot
  else if n = 0x181 then t.troot
  else if n = 0x182 then t.tvec.zeroExtend 64
  else if n = 0x190 then t.tsave.zeroExtend 64
  else if n = 0x191 then (BitVec.ofBool t.swcBusy ++ BitVec.ofBool t.swcErr ++ 0#62 : BitVec 64)
  else if n = 0x1A0 then tpwr t
  else if n = 0x1B0 then tprof t
  else 0#64

/-- R349: TRPOP retires the head record; with an empty queue it sets ERR. -/
def popRecord (sp : BitVec 7) (s : State) : State :=
  s.mapSpan sp (fun x =>
    if x.rowFatal.isSome then { x with rowFatal := none }
    else match x.rowsOrd with
      | [] => { x with tender := { x.tender with err := true } }
      | _ :: t => { x with rowsOrd := t })

/-- R362: a write of TPWR; CEIL 3 raises PROT and changes nothing. -/
def writeTpwr (sp : BitVec 7) (v : W64) (s : State) : Except (BitVec 8) State :=
  if v.extractLsb' 28 2 == 3#2 then .error cPROT
  else .ok (s.mapTender sp (fun t =>
    { t with pendNotice := t.pendNotice && !v.getLsbD 31, ceil := v.extractLsb' 28 2
             evrow := v.extractLsb' 7 17, even := v.getLsbD 0, evReset := t.evReset || v.getLsbD 0 }))

/-- R372: a write of TPROF; a BASE above 131,065 raises PROT and changes no field. -/
def writeTprof (sp : BitVec 7) (v : W64) (s : State) : Except (BitVec 8) State :=
  if 131065 < (v.extractLsb' 0 17).toNat then .error cPROT
  else
    let clock := (s.span sp).clock
    .ok (s.mapTender sp (fun t =>
      { t with profEn := v.getLsbD 63, profBase := v.extractLsb' 0 17
               prof := if v.getLsbD 17 then [] else t.prof
               profSince := if v.getLsbD 17 then clock else t.profSince
               waited := if v.getLsbD 17 then [] else t.waited }))

/-- A register of a frozen selected thread changed. -/
def onFrozen (sp : BitVec 7) (f : Freeze → Freeze) (s : State) : State :=
  s.mapReck sp (s.span sp).tender.tsel (fun k => { k with frozen := k.frozen.map f })

/-- A write of a tender CSR; a cause where the write raises one. -/
def writeTenderCsr (sp : BitVec 7) (n : Nat) (v : W64) (s : State) : Except (BitVec 8) State :=
  let r := (s.span sp).tender.tsel
  if n = 0x100 then
    .ok (s.mapTender sp (fun t => { t with quar := t.quar && !v.getLsbD 3, err := t.err && !v.getLsbD 1 }))
  else if n = 0x101 then .ok (if v.getLsbD 0 then popRecord sp s else s)
  else if n = 0x102 then .ok (s.mapTender sp (fun t => { t with tsel := v.extractLsb' 0 2 }))
  else if n = 0x103 then
    .ok (s.mapReck sp r (fun k => { k with skips := v.getLsbD 0, skipv := v.getLsbD 1 }))
  else if n = 0x104 then .ok (s.mapTender sp (fun t => { t with rm := v.getLsbD 0 }))
  else if n = 0x120 then .ok (onFrozen sp (fun z => { z with tpc := v.extractLsb' 0 52 &&& ~~~3#52 }) s)
  else if n = 0x121 then
    .ok (onFrozen sp (fun z => { z with rs := v.extractLsb' 0 8, rv := v.extractLsb' 8 8 }) s)
  else if 0x140 ≤ n && n ≤ 0x15F then
    let g := n % 32
    .ok (s.mapReck sp r (fun k =>
      if g = 0 || 24 ≤ g || k.frozen.isNone then k else { k with g := k.g.set (n % 32) v (Nat.mod_lt _ (by omega)) }))
  else if n = 0x180 then .ok (s.mapSpan sp (fun x => { x with xroot := v &&& ~~~0xFFF#64 }))
  else if n = 0x181 then .ok (s.mapTender sp (fun t => { t with troot := v &&& ~~~0xFFF#64 }))
  else if n = 0x182 then .ok (s.mapTender sp (fun t => { t with tvec := v.extractLsb' 0 52 &&& ~~~3#52 }))
  else if n = 0x190 then .ok (s.mapTender sp (fun t => { t with tsave := v.extractLsb' 0 52 &&& ~~~0x7F#52 }))
  else if n = 0x1A0 then writeTpwr sp v s
  else if n = 0x1B0 then writeTprof sp v s
  else .ok s

/-! ### Invalidation (R118, R119) -/

def invalMode (ctl : W64) : BitVec 2 := ctl.extractLsb' 34 2
def invalAsid (ctl : W64) : BitVec 12 := ctl.extractLsb' 36 12
def invalLen (ctl : W64) : Nat := (ctl.extractLsb' 0 32).toNat

/-- The invalidation affects a translation, by its page. -/
def affects (va : BitVec 52) (ctl : W64) (e : Page) : Bool :=
  match (invalMode ctl).toNat with
  | 0 => e.asid == invalAsid ctl && decide (e.base < va.toNat + invalLen ctl * 0x10000) &&
      decide (va.toNat < e.base + e.size)
  | 1 => e.asid == invalAsid ctl
  | _ => true

/-- A marker behind every entry that a queue holds now: so many commands stand ahead of it. -/
def markQueue (e : Stream) (k : Reckoner) : Reckoner :=
  k.modStr e (fun t => { t with ahead := t.queue.length + (if t.active.isSome then 1 else 0) })

/-- A window atomic on its way is waited for if it has used an affected translation. -/
def markWindow (va : BitVec 52) (ctl : W64) (u : WindowUpdate) : WindowUpdate :=
  { u with stale := u.stale || u.page.any (affects va ctl) }

/-- The stores and window atomics that a thread has on their way under affected translations are waited for. -/
def markSent (va : BitVec 52) (ctl : W64) (k : Reckoner) : Reckoner :=
  { k with posted := k.posted.map (fun p => { p with stale := p.stale || affects va ctl p.page })
           windows := k.windows.map (markWindow va ctl) }

/-- IC = 1: the lines of the affected pages leave an instruction cache (R118). -/
def keepLines (va : BitVec 52) (ctl : W64) (c : List FetchLine) : List FetchLine :=
  if ctl.getLsbD 33 then c.filter (fun l => !affects va ctl l.page) else c

/-- R119 steps 1 and 2: the affected entries leave the caches of new accesses, the markers enter the copy
and Pier queues, and the accesses on their way are waited for, those to other devices and those of saved contexts too. -/
def startInval (s : State) : State :=
  let va := s.inval.va
  let ctl := s.inval.ctl
  { s with
    inval := { s.inval with busy := true }
    spans := s.spans.map (fun x =>
      { x with
        tlb := x.tlb.filter (fun e => !affects va ctl e.page)
        staleTlb := x.tlb.filter (fun e => affects va ctl e.page)
        icache := keepLines va ctl x.icache
        recks := x.recks.map (fun k => markSent va ctl (markQueue .Q (markQueue .C k))) })
    nodes := s.nodes.map (fun n =>
      { n with saved := n.saved.map (fun e => (e.1, { e.2 with recks := e.2.recks.map (markSent va ctl) })) })
    fabric := { s.fabric with
      updates := s.fabric.updates.map (markWindow va ctl)
      requests := s.fabric.requests.map (fun q => { q with stale := q.stale || q.page.any (affects va ctl) }) } }

/-- A write of XINVC: its fields, then GO. A GO that is ignored has its other fields written all the same, and N = 0
completes at once only in MODE 0, where N counts (log 25). -/
def writeXinvc (v : W64) (s : State) : State :=
  let ctl := v &&& 0x0000FFFEFFFFFFFF#64
  if !v.getLsbD 63 then { s with inval := { s.inval with ctl := ctl } }
  else if s.inval.busy || invalMode ctl == 3#2 then { s with inval := { s.inval with ctl := ctl, err := true } }
  else if invalMode ctl == 0#2 && invalLen ctl = 0 then { s with inval := { s.inval with ctl := ctl } }
  else startInval { s with inval := { s.inval with ctl := ctl } }

/-! ### The fabric block (R384) -/

def word256 (m : BitVec 256) (i : Nat) : W64 := m.extractLsb' (64 * i) 64
def setWord256 (m : BitVec 256) (i : Nat) (v : W64) : BitVec 256 :=
  (m &&& ~~~((BitVec.allOnes 64).zeroExtend 256 <<< (64 * i))) ||| (v.zeroExtend 256 <<< (64 * i))

def readFabric (o : Nat) (f : Fabric) : W64 :=
  if o < 0x20 then word256 f.vdmem (o / 8)
  else if 0x1020 ≤ o && o < 0x3000 then word256 ((Table.find? f.vgrp ((o - 0x1000) / 32)).getD 0#256) (o % 32 / 8)
  else if 0x3000 ≤ o && o < 0x3400 then
    let w := (Table.find? f.vwin ((o - 0x3000) / 16)).getD (0#64, 0#64)
    if o % 16 = 0 then w.1 else w.2
  else if o = 0x3400 then f.thresh.zeroExtend 64
  else if 0x3500 ≤ o && o < 0x3580 then
    let l := f.link[(o - 0x3500) / 8 % 16]'(Nat.mod_lt _ (by omega))
    (0#32 ++ l.repl ++ 0#10 ++ l.state ++ l.lanes : BitVec 64)
  else 0#64

def writeFabric (o : Nat) (v : W64) (f : Fabric) : Fabric :=
  if o < 0x20 then { f with vdmem := setWord256 f.vdmem (o / 8) v }
  else if 0x1020 ≤ o && o < 0x3000 then
    let g := (o - 0x1000) / 32
    { f with vgrp := Table.put f.vgrp g (setWord256 ((Table.find? f.vgrp g).getD 0#256) (o % 32 / 8) v) }
  else if 0x3000 ≤ o && o < 0x3400 then
    let n := (o - 0x3000) / 16
    let w := (Table.find? f.vwin n).getD (0#64, 0#64)
    let w' := if o % 16 = 0 then (v &&& 0x8FFFFFFFFFFF0000#64, w.2) else (w.1, v &&& 0xFFFFFFFF#64)
    { f with vwin := Table.put f.vwin n w' }
  else if o = 0x3400 then { f with thresh := v.extractLsb' 0 16 }
  else f

/-- A write that takes members out of a mask and puts none in. -/
def onlyClears (old new : W64) : Bool := new != old && new &&& ~~~old == 0#64

/-- The members of a fabric group are written while no node of it stands here: the number is to be used anew, and its first
phase here is still to begin; a write that only takes members out is none (R382, log 61). -/
def newGroup (o : Nat) (v : W64) (s : State) : State :=
  let g := (o - 0x1000) / 32
  let old := ((Table.find? s.fabric.vgrp g).getD 0#256).extractLsb' (64 * (o % 32 / 8)) 64
  let here := s.nodes.any (fun n => (recGroup n.record).toNat == g && n.status != .joining)
  if 0x1020 ≤ o && decide (o < 0x3000) && !here && !onlyClears old v then
    { s with fabric := { s.fabric with vgrpOn := Table.del s.fabric.vgrpOn g } }
  else s

/-! ### Host control (R374, R378) -/

def State.port (s : State) (n : BitVec 3) : Port := s.ports[n.toNat]'(n.isLt)
def State.setPort (s : State) (n : BitVec 3) (p : Port) : State := { s with ports := s.ports.set n.toNat p (n.isLt) }

/-- R378: a write that changes MODE is accepted while STATE is 0 or 3. -/
def writeHpcfg (n : BitVec 3) (v : W64) (s : State) : State :=
  let p := s.port n
  if p.state == 0#2 || p.state == 3#2 then s.setPort n { p with cxl := v.getLsbD 0 } else s

/-- R374: the first write of HPNET after reset. -/
def writeHpnet (v : W64) (s : State) : State :=
  if s.hplock then s else { s with hpnet := v.extractLsb' 0 3, hplock := true }

/-- AGST0 and AGST1 (R366). -/
def agst (s : State) (half : Nat) : W64 :=
  BitVec.ofNat 64 (packBits' (fun i => (s.span (BitVec.ofNat 7 (64 * half + i))).repl) 64)
where
  packBits' (f : Nat → Bool) : Nat → Nat
    | 0 => 0
    | n + 1 => packBits' f n + (f n).toNat * 2 ^ n

/-! ### Register space (R106) -/

/-- Where the register space begins. -/
def regBase : Nat := 0x18000000000

/-- A register of the distributor block (R327, R349). -/
def readDistributor (o : Nat) (s : State) : W64 :=
  if o < 0x20000 then
    let n : BitVec 5 := BitVec.ofNat 5 (o / 0x1000)
    match o % 0x1000 with
    | 0x88 => dstat n s
    | 0x90 => s.pmax.zeroExtend 64
    | _ => 0#64
  else if 0x100000 ≤ o && o < 0x180000 && 0x100 ≤ o % 0x1000 / 8 then
    readTender (BitVec.ofNat 7 ((o - 0x100000) / 0x1000)) (o % 0x1000 / 8) s
  else 0#64

def writeDistributor (o : Nat) (v : W64) (s : State) : State :=
  if o < 0x20000 then
    let n : BitVec 5 := BitVec.ofNat 5 (o / 0x1000)
    let w := s.window n
    let p := o % 0x1000
    if p < 0x80 then s.setWindow n { w with drec := w.drec.set (p / 8 % 16) v (Nat.mod_lt _ (by omega)) }
    else if p = 0x80 then (if v.getLsbD 0 && started s then submitWindow n s else s)
    else if p = 0x90 then { s with pmax := v.extractLsb' 0 32 }
    else if p = 0x98 then writeDkill v s
    else s
  else if 0x100000 ≤ o && o < 0x180000 && 0x100 ≤ o % 0x1000 / 8 then
    match writeTenderCsr (BitVec.ofNat 7 ((o - 0x100000) / 0x1000)) (o % 0x1000 / 8) v s with
    | .ok s => s
    | .error _ => s
  else s

/-- An aligned 8-byte load of register space; an undefined offset and the debug block read zero. -/
def readDevice (pa : Nat) (s : State) : W64 :=
  let o := pa - regBase
  let p := o % 0x1000000
  match o / 0x1000000 with
  | 0 => match p with
    | 0 => s.inval.va.zeroExtend 64
    | 8 => s.inval.ctl
    | 0x10 => (0#62 ++ BitVec.ofBool s.inval.err ++ BitVec.ofBool s.inval.busy : BitVec 64)
    | _ => 0#64
  | 1 => readDistributor p s
  | 2 => readFabric p s.fabric
  | 4 => if p = 0 then agst s 0 else if p = 8 then agst s 1 else 0#64
  | 8 =>
    if p < 0x40 then
      let q := s.port (BitVec.ofNat 3 (p / 8))
      (0#56 ++ q.state ++ 0#5 ++ BitVec.ofBool q.cxl : BitVec 64)
    else if p = 0x40 then (0#60 ++ BitVec.ofBool s.hplock ++ s.hpnet : BitVec 64)
    else 0#64
  | _ => 0#64

/-- An aligned 8-byte store to offset `p` of register block `b` (R106). -/
def writeRegBlock (b p : Nat) (v : W64) (s : State) : State :=
  match b with
  | 0 => match p with
    | 0 => { s with inval := { s.inval with va := v.extractLsb' 0 52 &&& ~~~0xFFFF#52 } }
    | 8 => writeXinvc v s
    | 0x10 => { s with inval := { s.inval with err := s.inval.err && !v.getLsbD 1 } }
    | _ => s
  | 1 => writeDistributor p v s
  | 2 =>
    let s := newGroup p v s
    { s with fabric := writeFabric p v s.fabric }
  | 8 => if p < 0x40 then writeHpcfg (BitVec.ofNat 3 (p / 8)) v s else if p = 0x40 then writeHpnet v s else s
  | _ => s

/-- An aligned 8-byte store to register space; an undefined offset and the debug block ignore it. -/
def writeDevice (pa : Nat) (v : W64) (s : State) : State :=
  writeRegBlock ((pa - regBase) / 0x1000000) ((pa - regBase) % 0x1000000) v s

end Sys2Proof.Machine
end

