-- ==== Sys2Proof/Machine/ScalarMem.lean ====
section
/-! DEFINITION. Scalar memory: LDS, STS (R137), LDT (R129) and its landings (R125 to R128, R325), STX and
its store (R138), CWAIT (R139), the walks of timed requests (R116). -/

namespace Sys2Proof.Machine

/-- SPACE of a PMEM before a local access asserts the local tier (R62). -/
def localSpace (e : Stream) (a : W64) (wr : Bool) (s : State) : Out Unit :=
  match spaceAsk e s with
  | some sp => if sp = 0#3 then .ok () s else .trap { fltAt cADDR a with wr := wr } s
  | none => .ok () s

/-- The race watch on a local row by an S access; the tender is no thread. -/
def watchS (off : BitVec 24) (wr : Bool) (s : State) : Out Unit :=
  if s.atTender then .ok () s
  else watchRow s.cur.sp s.cr (spadAddr s.cur.sp off) wr (some off) false (BitVec.ofNat 64 (128 * rowOf off)) 0#5
    (unitWord (off.zeroExtend 64)) s

/-- The offset of LDS and STS: (g[a] + v)[23:0] with [2:0] cleared. -/
def localOff (a : BitVec 5) (i : BitVec 8) (s : State) : BitVec 24 :=
  (gVal a s + immS i s).extractLsb' 0 24 &&& 0xFFFFF8#24

/-- The 8 bytes of a row at a local offset. -/
def unit64 (row : Row) (o : Nat) : W64 := row.extractLsb' (8 * (o % 128)) 64

/-- The row of an LDS. Where several of its checks fail, SPACE decides before liveness, and liveness before the race watch
(log 39). -/
def ldsRow (off : BitVec 24) (s : State) : Out Row :=
  (localSpace .S (off.zeroExtend 64) false s).bind fun _ s => (orderGate .S false s).bind fun _ s =>
  if !rowLive s.cur.sp off s then .trap (deadRow off) s
  else (useBank s.cur.sp (spadBankOf off) s).bind fun _ s => (watchS off false s).bind fun _ s => readSpad s.cur.sp off s

def ldsBody (d a : BitVec 5) (i : BitVec 8) (s : State) : Out Unit :=
  (popSrcs [a] s).bind fun _ s =>
  let off := localOff a i s
  (atUnit (off.zeroExtend 64) (ldsRow off s)).bind fun row s => writeDst d (unit64 row off.toNat) s

/-- The store of an STS. -/
def stsRow (off : BitVec 24) (v : W64) (s : State) : Out Unit :=
  (localSpace .S (off.zeroExtend 64) true s).bind fun _ s => (orderGate .S true s).bind fun _ s =>
  (useBank s.cur.sp (spadBankOf off) s).bind fun _ s => (watchS off true s).bind fun _ s =>
    writeSpad s.cur.sp off (byteMask (off.toNat % 128) 8) (atByte (off.toNat % 128) v.toNat) s

def stsBody (d a : BitVec 5) (i : BitVec 8) (s : State) : Out Unit :=
  (popSrcs [d, a] s).bind fun _ s =>
  let off := localOff a i s
  atUnit (off.zeroExtend 64) (stsRow off (gVal d s) s)

def execLds (w : Tok) (d a : BitVec 5) (i : BitVec 8) (s : State) := sWord w (ldsBody d a i) s
def execSts (w : Tok) (d a : BitVec 5) (i : BitVec 8) (s : State) := sWord w (stsBody d a i) s

/-! ### Timed loads -/

/-- A Pier command in execution, until its row update, is one outstanding request (R281). -/
def pierRequest (k : Reckoner) : Nat := if (k.str .Q).active.isSome then 1 else 0

/-- A row that a copy command of a Span has asked of another device, which has not answered yet (R155). A row of this device
answers in the step that asks it. -/
def copyRequest (sp : BitVec 7) (q : Request) : Bool :=
  q.answer.isNone && q.who.any (fun w => w.stream == .C && !w.tender && w.sp == sp)

/-- Requests of a Span that memory has not answered (R155, R208, R281, R360). -/
def outstanding (s : State) (sp : BitVec 7) : Nat :=
  ((s.span sp).recks.toList.map (fun k => k.buffer.countP absent + pierRequest k)).sum +
    s.fabric.requests.countP (copyRequest sp)

/-- A timed request may be made: an entry is free and MRCAP allows it. -/
def requestGate (s : State) : Out Unit :=
  if Config.landingEntries ≤ s.me.buffer.length || s.my.cap.toNat ≤ outstanding s s.cur.sp then .hold s else .ok () s

/-- The translation of a timed request misses its cache. -/
def misses (a : W64) (s : State) : Bool :=
  (tlbFind s.my.tlb (s.my.xroot.extractLsb' 52 12) (a.extractLsb' 0 52)).isNone

/-- A miss of a timed request is an outstanding translation of the die: it joins the walk of its page, or
starts one; the 4,097th holds its requester (R116). -/
def requestWalk (a : W64) (policy : BitVec 2) (s : State) : Out Unit :=
  let va := a.extractLsb' 0 52
  let root := s.my.xroot
  let sp := s.cur.sp
  if !misses a s then .ok () s
  else if Config.dieWalks ≤ dieOutstanding s sp then .hold s
  else
    let page := va.toNat / 0x10000
    match s.walks.findIdx? (walkJoins sp root page) with
    | some i => .ok () { s with walks := s.walks.modify i (fun w => { w with spans := sp :: w.spans }) }
    | none => .ok () { s with walks := s.walks ++ [⟨root, page, policy, [sp]⟩] }

/-- The form of a virtual operand (R101), judged at issue (R128). -/
def virtForm (a : W64) (wr : Bool) (s : State) : Out Unit :=
  if a.extractLsb' 52 12 != 0#12 then .trap { fltAt cADDR a with wr := wr } s else .ok () s

def ldtBody (d a : BitVec 5) (slot : BitVec 8) (s : State) : Out Unit :=
  (popSrcs [a] s).bind fun _ s =>
  let addr := gVal a s
  (atUnit addr (virtForm addr false s)).bind fun _ s =>
  if s.atTender then
    (onceSent (wordAccess s) addr false (translate s.cur.sp (rootOf s) (ownAsk .S false s) addr) s).bind fun p s =>
      if place s p.pa = .regs then .ok () (gPut d (readDevice (p.pa / 8 * 8) s) s)
      else (readRowAs ⟨wordAccess s, addr, some p.page, false⟩ p.pa s).bind fun row s =>
        .ok () (gPut d (unit64 row (p.pa / 8 * 8)) s)
  else
    (requestGate s).bind fun _ s =>
      let missed := misses addr s
      (requestWalk addr (policyOf .S s) s).bind fun _ s =>
      let b : LandEntry :=
        { stream := .S, work := s.unit .S, dest := d, mask := 0#32, issued := s.me.scyS
          due := s.me.scyS + slot.zeroExtend 64, addr := addr
          order := orderOf .S s, scope := scopeOf .S s, space := spaceAsk .S s, policy := policyOf .S s
          watch := s.me.rwatch.getLsbD 1, missed := missed, data := none, fault := none }
      .ok () (s.mapMe (fun k => { k with buffer := k.buffer ++ [b] }))

def execLdt (w : Tok) (d a : BitVec 5) (slot : BitVec 8) (s : State) := sWord w (ldtBody d a slot) s

/-- The data of a request returns from memory (R125): it waits in its entry; in a drain an LDT's is written
at once (R325). -/
def execLandingBufferFill (sp : BitVec 7) (r : BitVec 2) (k : Nat) (s : State) : Host.Outcome State Fault Refusal :=
  let x := s.reck sp r
  let i := ((List.range x.buffer.length).filter (fun i => (x.buffer[i]?).any unread))[k]?
  match i with
  | none => .next s
  | some i =>
    let s := readEntry sp r i s
    .next (if clocked (s.reck sp r) && draining (s.reck sp r) then landFaults sp r (landTimed sp r Config.landingEntries s)
      else s)

/-- The entries whose cycle has come are written, or their faults are raised (R126, R128). -/
def execTimedLanding (sp : BitVec 7) (r : BitVec 2) (s : State) : Host.Outcome State Fault Refusal :=
  .next (if clocked (s.reck sp r) then landFaults sp r (landTimed sp r Config.landingEntries s) else s)

/-- The data of the k-th late entry arrives and is written on that clock, in the frozen streams' hold
(R127). While a thread is frozen, data waits in its entry (R340). -/
def execLateDataArrival (sp : BitVec 7) (r : BitVec 2) (k : Nat) (s : State) : Host.Outcome State Fault Refusal :=
  let x := s.reck sp r
  let i := ((List.range x.buffer.length).filter (fun i => (x.buffer[i]?).any (fun b => unread b && entryDue x b)))[k]?
  match i with
  | none => .next s
  | some i =>
    let s := readEntry sp r i s
    .next (if clocked (s.reck sp r) then landFaults sp r (landTimed sp r Config.landingEntries s) else s)

/-- R116: the k-th walk of a Span's die ends. -/
def execWalkComplete (sp : BitVec 7) (k : Nat) (s : State) : Host.Outcome State Fault Refusal :=
  let mine := (List.range s.walks.length).filter (fun i =>
    (s.walks[i]?).any (fun w => w.spans.any (fun n => n.toNat / 32 == sp.toNat / 32)))
  match mine[k]? with
  | none => .next s
  | some i =>
    match s.walks[i]? with
    | none => .next s
    | some w => .next (finishWalk i w s)

/-! ### STX -/

/-- A store of 8 bytes at a physical address, as one masked row write (R138). -/
def store64 (pa : Nat) (v : W64) (s : State) : Out Unit :=
  writeRowAt pa (byteMask (pa % 128 / 8 * 8) 8) (atByte (pa % 128 / 8 * 8) v.toNat) s

/-- The store of an STX by the agent that makes it. -/
def store64As (via : Via) (pa : Nat) (v : W64) (s : State) : Out Unit :=
  writeRowAs via pa (byteMask (pa % 128 / 8 * 8) 8) (atByte (pa % 128 / 8 * 8) v.toNat) s

/-- A row of deck SRAM or HBM4E in a watched page of a thread with VIRT = 1: the store is not posted (R303,
R305). -/
def watchedVirt (s : State) (k : Reckoner) (p : Phys) : Bool :=
  k.rwatch.getLsbD 1 && p.watch && !isFabric p.pa && (placeOwn s p.pa == .hbm || placeOwn s p.pa == .deck)

/-- A timed load of the S stream goes, as its translation stands, to a row. -/
def entryMeets (pa : Nat) (s : State) (b : LandEntry) : Bool := (entryPeek s.cur.sp b s).any (meetsRow s pa)

/-- An earlier access of the S stream to a row is still to be performed (R292). -/
def rowOwed (pa : Nat) (s : State) : Bool :=
  s.me.posted.any (fun q => meetsRow s q.pa pa) || s.me.buffer.any (fun b => b.stream == .S && absent b && entryMeets pa s b)

/-- S holds for earlier accesses of its own: those that an order names, and those to a row. -/
def holdFor (order : BitVec 3) (pa : Nat) (s : State) : State :=
  markWaits .S (fun b => waitsFor .S order true s.me b || entryMeets pa s b) s

/-- An STX to an address whose form is good: its translation, then the store, posted unless it is watched (R138, R303). -/
def stxStore (addr v : W64) (s : State) : Out Unit :=
  (onceSent (wordAccess s) addr true (translate s.cur.sp (rootOf s) (ownAsk .S true s) addr) s).bind fun p s =>
  if s.atTender then
    if place s p.pa = .regs then .ok () (writeDevice (p.pa / 8 * 8) v s)
    else store64As ⟨wordAccess s, addr, some p.page, false⟩ p.pa v s
  else if mustWait .S 0#3 true s.me then .hold (markWaits .S (waitsFor .S 0#3 true s.me) s)
  else if watchedVirt s s.me p then
    if mustWait .S (orderOf .S s) true s.me || rowOwed p.pa s then .hold (holdFor (orderOf .S s) p.pa s)
    else
      (watchRow s.cur.sp s.cr p.pa true none true (addr &&& ~~~0x7F#64) 0#5 (unitWord addr) s).bind fun _ s =>
      store64 p.pa v (setUnsafe s)
  else
    let q : Posted := ⟨p.pa, s.unit .S, v, orderOf .S s, scopeOf .S s, p.page, false⟩
    .ok () (setUnsafe (s.mapMe (fun k => { k with posted := k.posted ++ [q] })))

def stxBody (a b : BitVec 5) (s : State) : Out Unit :=
  (popSrcs [a, b] s).bind fun _ s =>
  let addr := gVal a s
  atUnit addr ((virtForm addr true s).bind fun _ s => stxStore addr (gVal b s) s)

def execStx (w : Tok) (a b : BitVec 5) (s : State) := sWord w (stxBody a b) s

/-- A posted store may be performed: earlier accesses of the stream to its row or remote home, and for a release
every earlier access, have been (R292, R298, R381). -/
def postedReady (sp : BitVec 7) (s : State) (k : Reckoner) (i : Nat) (p : Posted) : Bool :=
  let rel := hasRelease p.order
  !(k.posted.take i).any (fun q => rel || meetsRow s q.pa p.pa) &&
  !k.buffer.any (fun b => b.stream == .S && absent b && workBefore b.work p.work &&
    (rel || (entryPeek sp b s).any (meetsRow s p.pa)))

/-- The virtual address of a posted store. -/
def Posted.va (p : Posted) : W64 := BitVec.ofNat 64 (p.page.base + p.pa % p.page.size)

/-- R138: a posted store is performed as one masked row write at its home. -/
def execPostedStorePerform (sp : BitVec 7) (r : BitVec 2) (k : Nat) (s : State) : Host.Outcome State Fault Refusal :=
  let x := s.reck sp r
  match x.posted[k]? with
  | none => .next s
  | some p =>
    if !postedReady sp s x k p then .next s
    else match store64As ⟨workAccess (threadId s sp r) .S p.work, p.va, some p.page, p.stale⟩ p.pa p.data s with
      | .ok _ s => .next (s.mapReck sp r (fun x =>
        let x := { x with posted := x.posted.eraseIdx k }
        if clocked x then trySignal .S x else x))
      | .hold s => .next s
      | .trap f s =>
        if stands x then .next s
        else .next (raiseTrap sp r { trapInfo .S p.work 0 { f with word := unitWord (BitVec.ofNat 64 p.pa) } with after := true } s)

/-- A window atomic of a thread is still on its way through the switches (R313). -/
def inSwitches (t : ThreadId) (s : State) : Bool := s.fabric.updates.any (fun u => u.work.isSome && u.thread == t)

/-! ### CWAIT -/

/-- CWAIT acquires (R139, R298). A dead row is DEAD for any n, n = 0 included (log 40). -/
def cwaitBody (a : BitVec 5) (n : BitVec 8) (s : State) : Out Unit :=
  (popSrcs [a] s).bind fun _ s =>
  let off : BitVec 24 := BitVec.ofNat 24 (s.me.cobase.toNat * 8192 + 128 * n.toNat)
  if !rowLive s.cur.sp off s then .trap { deadRow off with item := itemOf 13 0 0 0 0 0 } s
  else if mustWait .S 0#3 false s.me then .hold (markWaits .S (waitsFor .S 0#3 false s.me) s)
  else (readSpad s.cur.sp off s).bind fun row s =>
    if (row.extractLsb' 0 64).ult (gVal a s) then .hold s else .ok () s

def execCwait (w : Tok) (a : BitVec 5) (n : BitVec 8) (s : State) := sOnly w (cwaitBody a n) s

end Sys2Proof.Machine
end

