-- ==== Sys2Proof/Machine/Atomics.lean ====
section
/-! DEFINITION. Atomics (R307 to R312), window atomics (R313, R314), FENCE (R301). -/

namespace Sys2Proof.Machine

/-! ### Windows (R383) -/

/-- The device and the address at its home of a physical address. -/
def homeOf (s : State) (pa : Nat) : BitVec 8 × Nat :=
  if isFabric pa then (fabricDev pa, pa % 2 ^ 43) else (s.fabric.dev, pa)

/-- A registered window covers an address. -/
def inWindow (s : State) (pa : Nat) : Bool :=
  let (dev, a) := homeOf s pa
  s.fabric.vwinOn.any (fun e =>
    let (wa, wb) := e.2
    wa.getLsbD 63 && wa.extractLsb' 52 8 == dev && decide ((wa.extractLsb' 16 36).toNat * 0x10000 ≤ a) &&
    decide (a < (wa.extractLsb' 16 36).toNat * 0x10000 + (wb.extractLsb' 0 32).toNat * 0x10000))

/-! ### The operations -/

/-- What an atomic on one unit makes of it: the new value, none when nothing is written, and the result. -/
def atomicOp (op : BitVec 7) (old x exp : W64) : Option W64 × W64 :=
  match op.toNat with
  | 0x38 => (some (old + x), old)
  | 0x39 => (some (old &&& x), old)
  | 0x3A => (some (old ||| x), old)
  | 0x3B => (some (old ^^^ x), old)
  | 0x3C => (some (if x.slt old then x else old), old)
  | 0x3D => (some (if old.slt x then x else old), old)
  | 0x3E => (some x, old)
  | 0x3F => (if old == exp then some x else none, old)
  | _ => (some (if x.ule old then 0#64 else old + 1#64), old)

/-- AADDB on its 4-byte unit (R311). -/
def aaddbOp (old : W32) (x : W64) : Option W32 × W64 :=
  let sum := old.toNat + (x.extractLsb' 0 32).toNat
  if sum ≤ (x.extractLsb' 32 32).toNat then (some (BitVec.ofNat 32 sum), old.zeroExtend 64)
  else (none, old.zeroExtend 64 ||| (1#64 <<< 63))

/-- The operations that a window allows (R314): AADD to AMAX. -/
def windowOp (op : BitVec 7) : Bool := decide (0x38 ≤ op.toNat) && decide (op.toNat ≤ 0x3D)

/-! ### Where an atomic acts -/

/-- Earlier accesses of the S stream that an atomic follows (R292, R298): those its order names, and those
to its row. -/
def atomicWaits (pa : Nat) (s : State) : Bool :=
  !s.atTender &&
  (mustWait .S (orderOf .S s) true s.me || rowOwed pa s)

/-- R309 step 1 for an address: its form; a local row is live. -/
def atomicForm (a : W64) (s : State) : Out Unit :=
  if a.getLsbD 63 then
    if rowLive s.cur.sp (a.extractLsb' 0 24) s then .ok () s else .trap (deadRow (a.extractLsb' 0 24)) s
  else if a.extractLsb' 52 12 != 0#12 then .trap { fltAt cADDR a with wr := true } s
  else .ok () s

/-- R309 step 2 for an address. -/
def atomicTarget (a : W64) (s : State) : Out Target :=
  resolve s.cur.sp (rootOf s) (ownAsk .S true s) a s

/-- The unit of `n` bytes at byte `o` of a row. -/
def unitOfRow (row : Row) (o n : Nat) : W64 := BitVec.ofNat 64 ((row.toNat / 2 ^ (8 * o)) % 2 ^ (8 * n))

/-- A target's address within its row, for a unit of `n` bytes. -/
def unitOffset (t : Target) (n : Nat) : Nat := t.addr % 128 / n * n

/-- The result given back: S holds until its write-back (R308); the tender takes it at once. -/
def returnOld (d : BitVec 5) (v : W64) (s : State) : Out Unit :=
  if s.atTender then .ok () (gPut d v s)
  else .ok () (setUnsafe (s.mapMe (fun k => { k with wait := .atomic d v })))

/-- The read-modify-write of one unit of `n` bytes at its home, indivisible (R308). -/
def modifyUnit (t : Target) (n : Nat) (f : W64 → Option W64 × W64) (s : State) : Out W64 :=
  (readTarget t s).bind fun row s =>
    let o := unitOffset t n
    match f (unitOfRow row o n) with
    | (none, res) => .ok res s
    | (some v, res) => (writeTarget t (byteMask o n) (atByte o v.toNat) s).map (fun _ => res)

/-- The old value of a unit in a response. -/
def flitOld : FlitBody → W64
  | .old _ v => v
  | _ => 0#64

/-- An atomic on another device goes out as one flit, and its home answers with the old value (R307, R381). -/
def remoteAtomic (op : BitVec 7) (a : W64) (pa : Nat) (x e : W64) (s : State) : Out W64 :=
  (soleAccess (wordAccess s) (remotely (viaOf (wordAccess s) (rootOf s) a false s)
    (askHome pa true (.atomic (BitVec.ofNat 43 pa) op x e)) s)).map flitOld

/-- The lowest word of a row that a unit of `n` bytes touches (R305, R307). -/
def atomicWord (n : Nat) (a : W64) : BitVec 5 := if n = 4 then a.extractLsb' 2 5 else unitWord a

/-- The page through which an address of the current core translated. -/
def pageOf (a : W64) (s : State) : Option Page :=
  (tlbFind s.my.tlb ((rootOf s).extractLsb' 52 12) (a.extractLsb' 0 52)).map TlbEntry.page

/-- The local fabric port takes a window atomic: it is in the switches, on its way to its home device. -/
def portTake (u : WindowUpdate) (s : State) : State :=
  let s := { s with fabric := { s.fabric with updates := s.fabric.updates ++ [u] } }
  if isFabric u.pa then sendFlit (fabricDev u.pa) (.window (BitVec.ofNat 43 u.pa) u.op u.x) s else s

/-- A window atomic (R313): posted, and d receives 0 at issue. Its own order counts as relaxed; an earlier acquire holds it
as it holds any later access (R298). -/
def postWindow (op : BitVec 7) (pa : Nat) (page : Option Page) (d : BitVec 5) (x : W64) (s : State) : Out Unit :=
  if !windowOp op then .trap { fltAt cATOMX (BitVec.ofNat 64 pa) with wr := true } s
  else if unreachable s pa then .trap (eccAt pa true) s
  else if !s.atTender && mustWait .S 0#3 true s.me then .hold (markWaits .S (waitsFor .S 0#3 true s.me) s)
  else
    let u : WindowUpdate :=
      ⟨pa / 8 * 8, op, x, if s.atTender then none else some (s.unit .S), threadId s s.cur.sp s.cr, page, false⟩
    if s.atTender then .ok () (gPut d 0#64 (portTake u s))
    else
      (writeDst d 0#64 s).bind fun _ s =>
        .ok () (setUnsafe (s.mapMe (fun k => { k with windows := k.windows ++ [u] })))

/-- ATOMX names the address operand. -/
def nameAddr (a : W64) : Out Unit → Out Unit
  | .trap f s => .trap (if f.cause == cATOMX then { f with addr := a } else f) s
  | x => x

/-- R310: an atomic on one unit. `f` is what it makes of the unit under x = g[b]. In register space, which only a
tender reaches, it reads zero and writes nothing (R106). One that has been sent to another device has met its checks, and
waits for its answer alone (R112, R340). -/
def atomicBody (op : BitVec 7) (n : Nat) (d a b : BitVec 5) (f : W64 → W64 → W64 → Option W64 × W64) (s : State) :
    Out Unit :=
  (popSrcs [a, b] s).bind fun _ s =>
  let addr := gVal a s
  let x := gVal b s
  let exp := gVal d s
  let sent := sentFor (wordAccess s) addr true s
  atLane 0#5 (atomicWord n addr) <| match sent with
  | some q => (remoteAtomic op addr q.pa x exp s).bind fun v s => returnOld d v s
  | none => (atomicForm addr s).bind fun _ s => (atomicTarget addr s).bind fun t s =>
  if !addr.getLsbD 63 && inWindow s t.addr then nameAddr addr (postWindow op t.addr (pageOf addr s) d x s)
  else if atomicWaits t.addr s then .hold (holdFor (orderOf .S s) t.addr s)
  else if place s t.addr == .regs then returnOld d 0#64 s
  else if t.remote s then (remoteAtomic op addr t.addr x exp s).bind fun v s => returnOld d v s
  else (modifyUnit t n (fun old => f old x exp) s).bind fun v s => returnOld d v s

/-- One of the 8-byte atomics. -/
def atomic8 (op : BitVec 7) (d a b : BitVec 5) : State → Out Unit := atomicBody op 8 d a b (atomicOp op)

def execAadd (w : Tok) (d a b : BitVec 5) (s : State) := sWord w (atomic8 0x38#7 d a b) s
def execAand (w : Tok) (d a b : BitVec 5) (s : State) := sWord w (atomic8 0x39#7 d a b) s
def execAor (w : Tok) (d a b : BitVec 5) (s : State) := sWord w (atomic8 0x3A#7 d a b) s
def execAxor (w : Tok) (d a b : BitVec 5) (s : State) := sWord w (atomic8 0x3B#7 d a b) s
def execAmin (w : Tok) (d a b : BitVec 5) (s : State) := sWord w (atomic8 0x3C#7 d a b) s
def execAmax (w : Tok) (d a b : BitVec 5) (s : State) := sWord w (atomic8 0x3D#7 d a b) s
def execAswp (w : Tok) (d a b : BitVec 5) (s : State) := sWord w (atomic8 0x3E#7 d a b) s
def execAcas (w : Tok) (d a b : BitVec 5) (s : State) := sWord w (atomic8 0x3F#7 d a b) s
def execAincw (w : Tok) (d a b : BitVec 5) (s : State) := sWord w (atomic8 0x40#7 d a b) s
def execAaddb (w : Tok) (d a b : BitVec 5) (s : State) :=
  sWord w (atomicBody 0x41#7 4 d a b (fun old x _ =>
    let (v, res) := aaddbOp (old.extractLsb' 0 32) x
    (v.map (·.zeroExtend 64), res))) s

/-! ### Two units (R312) -/

/-- ATOMX of DCAS and AMOV2: mixed forms, a place that is not this device's deck SRAM or HBM4E, one unit
named twice, a window. -/
def pairBad (a0 a1 : W64) (t0 t1 : Target) (s : State) : Bool :=
  let onDevice (a : W64) (t : Target) : Bool :=
    a.getLsbD 63 || (!isFabric t.addr && (placeOwn s t.addr == .hbm || placeOwn s t.addr == .deck))
  a0.getLsbD 63 != a1.getLsbD 63 || !onDevice a0 t0 || !onDevice a1 t1 || t0.addr / 8 == t1.addr / 8 ||
  (!a0.getLsbD 63 && (inWindow s t0.addr || inWindow s t1.addr))

/-- A pair of registers written; the g0 of a pair discards. -/
def returnPair (d : BitVec 5) (v0 v1 : W64) (s : State) : Out Unit :=
  if s.atTender then .ok () (gPut (d + 1#5) v1 (gPut d v0 s))
  else .ok () (setUnsafe (s.mapMe (fun k => { k with wait := .atomic2 d v0 v1 })))

/-- R312: both units read, then both written when the condition holds, as one access. -/
def pairBody (d a b : BitVec 5) (writes : W64 → W64 → State → Bool) (s : State) : Out Unit :=
  let a0 := gVal a s
  let a1 := gVal (a + 1#5) s
  (atUnit a0 (atomicForm a0 s)).bind fun _ s => (atUnit a1 (atomicForm a1 s)).bind fun _ s =>
  (atUnit a0 (atomicTarget a0 s)).bind fun t0 s => (atUnit a1 (atomicTarget a1 s)).bind fun t1 s =>
  if pairBad a0 a1 t0 t1 s then .trap { fltAt cATOMX a0 with wr := true, word := unitWord a0 } s
  else if atomicWaits t0.addr s || atomicWaits t1.addr s then
    .hold (holdFor (orderOf .S s) t1.addr (holdFor (orderOf .S s) t0.addr s))
  else (atUnit a0 (readTarget t0 s)).bind fun r0 s => (atUnit a1 (readTarget t1 s)).bind fun r1 s =>
    let o0 := unitOfRow r0 (unitOffset t0 8) 8
    let o1 := unitOfRow r1 (unitOffset t1 8) 8
    if writes o0 o1 s then
      (atUnit a0 (writeTarget t0 (byteMask (unitOffset t0 8) 8) (atByte (unitOffset t0 8) (gVal b s).toNat) s)).bind fun _ s =>
      (atUnit a1 (writeTarget t1 (byteMask (unitOffset t1 8) 8) (atByte (unitOffset t1 8) (gVal (b + 1#5) s).toNat) s)).bind
        fun _ s => returnPair d o0 o1 s
    else returnPair d o0 o1 s

def execDcas (w : Tok) (d a b : BitVec 5) (s : State) :=
  sWord w (pairBody d a b (fun o0 o1 s => o0 == gVal d s && o1 == gVal (d + 1#5) s)) s
def execAmov2 (w : Tok) (d a b : BitVec 5) (s : State) := sWord w (pairBody d a b (fun _ _ _ => true)) s

/-- R308: the old value is written back, and S goes on. A full destination queue holds the write-back, and a push to q6
follows every earlier access of the stream (R294). -/
def execAtomicWriteBack (sp : BitVec 7) (r : BitVec 2) (s : State) : Host.Outcome State Fault Refusal :=
  let s' := { s with cur := ⟨sp, .reck r, none, false⟩ }
  let done (s : State) : State :=
    let s := (s.mapMe (fun k => { k with wait := .none })).modStr .S (fun t => { t with waits := [] })
    if clocked s.me then s.mapMe (trySignal .S) else s
  match (s.reck sp r).wait with
  | .atomic d v =>
    if isQueueReg d && !queueRoom d s' then .next s
    else if d == 30#5 && !sPerformed (s.reck sp r) then .next (markWaits .S (fun _ => true) s')
    else .next (done (gPut d v s'))
  | .atomic2 d v0 v1 => .next (done (gPut (d + 1#5) v1 (gPut d v0 s')))
  | _ => .next s

/-! ### Window updates on their way (R313) -/

/-- The Reckoner on which the thread of a window atomic still runs. -/
def windowReck (u : WindowUpdate) (s : State) : Option (BitVec 7 × BitVec 2) :=
  let sp := u.thread.2.extractLsb' 2 7
  let r := u.thread.2.extractLsb' 0 2
  if (s.span sp).node == some u.thread.1 && ((s.reck sp r).run == .running || (s.reck sp r).run == .draining) then some (sp, r)
  else none

/-- A window atomic that cannot be performed raises ECC at its unit (R121, R385), one of a tender as a fault of the
tender's own accesses (R348). Until then its thread neither retires nor leaves its Span (log 53). -/
def windowLost (u : WindowUpdate) (s : State) : State :=
  match u.work, windowReck u s with
  | some w, some (sp, r) =>
    let i := { trapInfo .S w 0 { eccAt u.pa true with word := unitWord (BitVec.ofNat 64 u.pa) } with after := true }
    if stands (s.reck sp r) || (s.reck sp r).faults.contains i then s else raiseTrap sp r i s
  | some _, none => s
  | none, _ => quarantine (u.thread.2.extractLsb' 2 7) s

/-- The flit of a window atomic. -/
def windowFlit (u : WindowUpdate) (dst : BitVec 8) (b : FlitBody) : Bool :=
  dst == fabricDev u.pa && b == .window (BitVec.ofNat 43 u.pa) u.op u.x

/-- The flits of window atomics like one that no receiver has acknowledged yet (R380). -/
def flitsOut (u : WindowUpdate) (s : State) : Nat :=
  (s.fabric.link.toList.map (fun l =>
    l.buffer.countP (fun f => windowFlit u f.dst f.body) + l.queue.countP (fun w => windowFlit u w.1 w.2))).sum

/-- The flit of a window atomic to another device has been accepted: fewer flits like it are under way than such atomics. -/
def flitTaken (u : WindowUpdate) (s : State) : Bool :=
  decide (flitsOut u s < s.fabric.updates.countP (fun v => v.pa == u.pa && v.op == u.op && v.x == u.x))

/-- The local fabric port accepts the oldest posted window atomic. -/
def execWindowAtomicAccept (sp : BitVec 7) (r : BitVec 2) (s : State) : Host.Outcome State Fault Refusal :=
  match (s.reck sp r).windows with
  | [] => .next s
  | u :: rest =>
    if unreachable s u.pa then .next (windowLost u s) else
    .next ((portTake u s).mapReck sp r (fun k =>
      let k := { k with windows := rest }
      if clocked k then trySignal .S k else k))

/-- A window update at its home unit on this device: a read and a partial store of its row (R121). -/
def applyUpdate (pa : Nat) (op : BitVec 7) (x : W64) (s : State) : Out Unit :=
  if unreachable s pa then .trap (eccAt pa true) s
  else (meetRow pa true s).bind fun _ s =>
    let a := homeAddr s pa
    match (atomicOp op (s.mem.w64 a) x 0#64).1 with
    | some v => .ok () { s with mem := s.mem.putNat a 0xFF v.toNat 8 }
    | none => .ok () s

/-- An update leaves the switches: its home applies it, this device, or another one, which has then accepted its flit
(log 11). Where it cannot, its thread meets ECC (R385), and while that thread stands the update waits. -/
def deliver (s : State) (u : WindowUpdate) : State :=
  let gone := { s with fabric := { s.fabric with updates := s.fabric.updates.erase u } }
  let lost := if (windowReck u s).any (fun p => stands (s.reck p.1 p.2)) then s else windowLost u gone
  if remote s u.pa && flitTaken u s then gone
  else if unreachable s u.pa then lost
  else if remote s u.pa then s
  else match applyUpdate u.pa u.op u.x gone with
    | .ok _ t => t
    | _ => lost

/-- The switches deliver the merged update of the k-th waiting update: every update of its unit and
operation, each once. -/
def execWindowUpdateDelivery (k : Nat) (s : State) : Host.Outcome State Fault Refusal :=
  match s.fabric.updates[k]? with
  | none => .next s
  | some u =>
    .next ((s.fabric.updates.filter (fun v => homeAddr s v.pa == homeAddr s u.pa && v.op == u.op)).foldl deliver s)

/-! ### FENCE -/

/-- R301: with release, S holds until its earlier accesses are performed; with acquire, later S accesses
follow the earlier reads. -/
def fenceBody (s : State) : Out Unit :=
  if s.atTender then .ok () s
  else
    let o := orderOf .S s
    if hasRelease o && !sPerformed s.me then .hold (markWaits .S (fun _ => true) s)
    else if hasAcquire o && s.me.buffer.any (fun b => b.stream == .S && absent b) then
      .ok () (s.mapMe (fun k => { k with fence := k.fence ++ [(s.unit .S).seq] }))
    else .ok () s

def execFence (w : Tok) (s : State) := sWord w fenceBody s

end Sys2Proof.Machine
end

