-- ==== Sys2Proof/Machine/Rows.lean ====
section
/-! DEFINITION. Row accesses of commands (R101, R155, R157, R158): what they ask of a translation, MRCAP,
reads and masked writes, and the latches of a begin (R153). -/

namespace Sys2Proof.Machine

/-- Argument `i` of a command. -/
def Cmd.arg (c : Cmd) (i : Nat) : W64 := c.args.getD i 0#64

/-- A command ahead of an invalidation marker may use the translations cached before it, if its move says
so (R119 step 3). -/
def staleOk (e : Stream) (s : State) : Bool := s.cur.stale && decide (0 < (s.me.str e).ahead)

/-- What a row access of a C or Q command asks: it may reach a Span's scratchpad through its mapping (R14). -/
def cmdAsk (e : Stream) (c : Cmd) (wr : Bool) (s : State) : Ask :=
  { write := wr, fetch := false, spadOk := true, fabricOk := true, regsOk := false
    space := c.work.pmem.map (·.space)
    policy := match c.work.pmem with | some p => p.policy | none => c.mdef.extractLsb' 0 2
    stale := staleOk e s }

/-- MRCAP holds a request outside the issuing Span's scratchpad (R155). -/
def requestRoom (t : Target) (s : State) : Out Unit :=
  match t with
  | .spad sp _ => if sp = s.cur.sp || outstanding s s.cur.sp < s.my.cap.toNat then .ok () s else .hold s
  | .phys _ => if outstanding s s.cur.sp < s.my.cap.toNat then .ok () s else .hold s

/-- The access of a unit of a command that runs. -/
def unitAccess (e : Stream) (c : Cmd) (s : State) : Access := unitOfCmd (threadId s s.cur.sp s.cr) e c

/-- Where an address of a command's row leads. A row that has been asked of another device is neither translated nor
counted again (R112, R155). -/
def cmdTarget (e : Stream) (c : Cmd) (wr : Bool) (a : W64) (s : State) : Out Target :=
  sentTarget (unitAccess e c s) a wr (fun s =>
    (resolve s.cur.sp s.my.xroot (cmdAsk e c wr s) a s).bind fun t s => (requestRoom t s).map fun _ => t) s

/-- An access of a unit of a command as it goes out to another device. -/
def unitVia (e : Stream) (c : Cmd) (a : W64) (s : State) : Via :=
  viaOf (unitAccess e c s) s.my.xroot a (staleOk e s) s

/-- A row read at, and a masked row write to, the target that an address of a command's row leads to. -/
def unitRead (e : Stream) (c : Cmd) (a : W64) (t : Target) (s : State) : Out Row :=
  readTargetAs (unitVia e c a s) t s
def unitWrite (e : Stream) (c : Cmd) (a : W64) (t : Target) (mask : BitVec 128) (v : Row) (s : State) : Out Unit :=
  writeTargetAs (unitVia e c a s) t mask v s

/-- A row read by a command. -/
def cmdRead (e : Stream) (c : Cmd) (a : W64) (s : State) : Out Row :=
  (cmdTarget e c false a s).bind fun t s => unitRead e c a t s

/-- A masked row write by a command. -/
def cmdWrite (e : Stream) (c : Cmd) (a : W64) (mask : BitVec 128) (v : Row) (s : State) : Out Unit :=
  (cmdTarget e c true a s).bind fun t s => unitWrite e c a t mask v s

/-! ### Rows written together (R181, R284) -/

/-- A row to be written: the address that names it, where that leads, its bytes and the value. -/
abbrev RowWrite := W64 × Target × BitVec 128 × Row

/-- A target's bank made ready for a write, whatever the path to it. -/
def readyTarget (t : Target) (s : State) : Out Unit :=
  match spadTarget s t with
  | some (n, off) => useBank n (spadBankOf off) s
  | none => .ok () s

/-- The banks of rows made ready, all together (log 35). -/
def readyEach : List RowWrite → State → Out Unit
  | [], s => .ok () s
  | (_, t, _, _) :: r, s => (readyTarget t s).also (readyEach r)

/-- Rows written one after another. -/
def writeEach (e : Stream) (c : Cmd) : List RowWrite → State → Out Unit
  | [], s => .ok () s
  | (a, t, m, v) :: r, s => (unitWrite e c a t m v s).bind fun _ s => writeEach e c r s

/-- Nothing is done of an attempt: whether it would meet a fault. -/
def wouldTrap (s0 : State) : Out Unit → Out Unit
  | .trap f s => .trap f { s0 with fabric := s.fabric }
  | _ => .ok () s0

/-- The rows of a unit written once each has been checked (R181, R284): no row of this device is written before every one of
them is ready and found without fault and every other device has answered for its own, and then all of them are; a fault
leaves none of them written (log 11). -/
def writeTogether (e : Stream) (c : Cmd) (rows : List RowWrite) (s : State) : Out Unit :=
  let near := rows.filter (fun x => !x.2.1.remote s)
  (readyEach near s).bind fun _ s => (wouldTrap s (writeEach e c near s)).bind fun _ s =>
    (writeEach e c (rows.filter (fun x => x.2.1.remote s)) s).bind fun _ s => wholeOr s (writeEach e c near s)

/-! ### The dispatchers of a die (R152, R180, R281) -/

/-- The Reckoners of a die by RID, from the one after the last served; before any was served from the lowest (log 1). -/
def dieOrder (die : Nat) (last : Option (BitVec 7 × BitVec 2)) : List (BitVec 7 × BitVec 2) :=
  let first := match last with | some p => 4 * (p.1.toNat % 32) + p.2.toNat + 1 | none => 0
  (List.range 128).map (fun i =>
    (BitVec.ofNat 7 (32 * die + (first + i) % 128 / 4), BitVec.ofNat 2 ((first + i) % 4)))

/-- A command in execution with a copy engine. -/
def onEngine (k : Reckoner) : Bool := (k.str .C).active.any (·.engine)
/-- A CENC in execution with an encoder, which it has while it has its engine (R54, log 33). -/
def encoding (k : Reckoner) : Bool :=
  (k.str .C).active.any (fun c => c.engine &&
    (match c.work.instr with | .cenc _ _ _ => true | _ => false))

/-- How many Reckoners of a Span's die do something. -/
def countDie (s : State) (sp : BitVec 7) (f : Reckoner → Bool) : Nat :=
  ((List.range 32).map (fun i => (s.span (BitVec.ofNat 7 (32 * (sp.toNat / 32) + i))).recks.toList.countP f)).sum

/-- A copy engine of the die is free, and an encoder where the command needs one. -/
def engineFree (s : State) (sp : BitVec 7) (i : Instr) : Bool :=
  decide (countDie s sp onEngine < Config.copyEngines) &&
  (match i with | .cenc _ _ _ => decide (countDie s sp encoding < Config.encoders) | _ => true)

/-- The instruction at the head of a queue. -/
def headInstr (e : Stream) (k : Reckoner) : Instr := ((k.str e).queue.head?).elim (.nop 0#4) (·.instr)

/-- The head of the C queue of a Reckoner waits for an engine that is free. -/
def copyReady (s : State) (p : BitVec 7 × BitVec 2) : Bool :=
  let x := s.span p.1
  let k := x.reck p.2
  headReady x .C k && decide (0 < argNeed (headInstr .C k)) && engineFree s p.1 (headInstr .C k)

/-- The head of the Q queue of a Reckoner is ready, with room under MRCAP. -/
def pierHeadReady (s : State) (p : BitVec 7 × BitVec 2) : Bool :=
  let x := s.span p.1
  let k := x.reck p.2
  headReady x .Q k && decide (0 < argNeed (headInstr .Q k)) && decide (outstanding s p.1 < x.cap.toNat)

/-- The first ready Reckoner of a die in turn is the current one; one that is not ready (its arguments are short)
passes to what its arguments meet. -/
def myTurn (ready : State → BitVec 7 × BitVec 2 → Bool) (last : Option (BitVec 7 × BitVec 2)) (s : State) : Bool :=
  !ready s (s.cur.sp, s.cr) ||
  (dieOrder (s.cur.sp.toNat / 32) last).find? (ready s) == some (s.cur.sp, s.cr)

def dieIdx (sp : BitVec 7) : Fin 4 := ⟨sp.toNat / 32, by have := sp.isLt; omega⟩

/-- A copy command leaves its head: an engine of its die is free, and its Reckoner is next (R152). -/
def copyGate (s : State) : Out Unit :=
  let d := dieIdx s.cur.sp
  if engineFree s s.cur.sp (headInstr .C s.me) && myTurn copyReady s.cserved[d] s then
    .ok () (if copyReady s (s.cur.sp, s.cr) then { s with cserved := s.cserved.set d (some (s.cur.sp, s.cr)) } else s)
  else .hold s

/-- A copy command that a freeze has cut takes an engine again. -/
def copyBack (s : State) : Out Unit :=
  match (s.me.str .C).active with
  | some c => if engineFree s s.cur.sp c.work.instr then .ok () s else .hold s
  | none => .ok () s

/-- A Pier command leaves its head: MRCAP has room for its request, and its Reckoner is next (R281). -/
def pierGate (s : State) : Out Unit :=
  let d := dieIdx s.cur.sp
  if decide (outstanding s s.cur.sp < s.my.cap.toNat) && myTurn pierHeadReady s.qserved[d] s then
    .ok () (if pierHeadReady s (s.cur.sp, s.cr) then { s with qserved := s.qserved.set d (some (s.cur.sp, s.cr)) } else s)
  else .hold s

/-- Nothing to ask of an engine that a cut command has kept. -/
def keptEngine (s : State) : Out Unit := .ok () s

/-- All 128 bytes of a row. -/
def wholeRow : BitVec 128 := BitVec.allOnes 128

/-- The address of row `i` from a base. -/
def rowAt (base : W64) (i : Nat) : W64 := base + 128#64 * BitVec.ofNat 64 i

/-- Nothing latched beyond what every command latches. -/
def noLatch (_ : State) (c : Cmd) : Cmd := c
/-- Nothing after the last unit. -/
def noClose (c : Cmd) (s : State) : Out Cmd := .ok c s
/-- TCFG of a tile latched. -/
def latchTile (t : BitVec 4) (s : State) (c : Cmd) : Cmd := { c with tcfg := s.my.cfg t }
/-- ILL against a command, naming its argument. -/
def illArg (bad : Bool) (a : W64) : Option Flt := if bad then some (fltAt cILL a) else none
/-- The upper half of a count is nonzero. -/
def badCount (a : W64) : Bool := a.extractLsb' 32 32 != 0#32
def countOf (a : W64) : Nat := (a.extractLsb' 0 32).toNat

end Sys2Proof.Machine
end

