-- ==== Sys2Proof/Machine/Copy.lean ====
section
/-! DEFINITION. Copy commands (R152 to R171): CNOP, CCPY, C2D, CGTH, CSCT, CTILE, CCB, CQLD, CFILL. -/

namespace Sys2Proof.Machine

/-- A copy command: its begin, its units, its closing work. -/
def copyWord (w : Tok) (need : Nat) (c : BitVec 6) (r : BitVec 1) (latch : State → Cmd → Cmd)
    (check : Cmd → Option Flt) (total : Cmd → Nat) (unit close : Cmd → State → Out Cmd) (s : State) :=
  cmdWord .C w (popArgs .C need) c (r == 1#1) copyGate copyBack latch noLatch id (fun _ => check) total unit close s

def execCnop (w : Tok) (s : State) := plainWord .C w (fun s => .ok () s) s

/-! ### Overlap (R165) -/

/-- The row of memory of a target. -/
def rowNumber (t : Target) (s : State) : Nat := homeAddr s t.addr / 128

/-- A row as it stands before the command writes it. -/
def originalOf (t : Target) (s : State) : Kept :=
  if ((spadTarget s t).any fun p => !rowLive p.1 p.2 s) then .dead
  else match Table.find? s.errors (rowNumber t s) with
    | some .uncorrectable => .bad
    | some .poisoned => .bad
    | _ => .row (s.mem.row (rowNumber t s))

/-- A source row as it stood before the command: a row that the command has overwritten reads as it was, be it
through the same address form or another mapping (log 19). One that was dead is DEAD; once that DEAD has been
answered, the row of that unit reads as it then stands. -/
def readBefore (c : Cmd) (a : W64) (s : State) : Out Row :=
  (cmdTarget .C c false a s).bind fun t s =>
    match Table.find? c.part.saved (rowNumber t s) with
    | some (.row v) => .ok v s
    | some .bad => .trap (eccAt t.addr false) s
    | some .dead =>
      if c.deadAt == some c.cursor then unitRead .C c a t s
      else .trap (match spadTarget s t with | some p => deadRow p.2 | none => flt cDEAD) s
    | none => unitRead .C c a t s

/-- What a destination row holds before the command writes it. A row of another device is read there (log 19). -/
def keepOriginal (c : Cmd) (a : W64) (t : Target) (s : State) : Out Partial :=
  let n := rowNumber t s
  match Table.find? c.part.saved n with
  | some _ => .ok c.part s
  | none =>
    let keep (v : Kept) : Partial := { c.part with saved := Table.put c.part.saved n v }
    if t.remote s then
      match unitRead .C c a t s with
      | .ok v s => .ok (keep (.row v)) s
      | .hold s => .hold s
      | .trap _ s => .ok (keep .bad) s
    else .ok (keep (originalOf t s)) s

/-- A destination row written, its content before the command kept. -/
def writeKeeping (c : Cmd) (a : W64) (v : Row) (s : State) : Out Cmd :=
  (cmdTarget .C c true a s).bind fun t s => (keepOriginal c a t s).bind fun part s =>
    (unitWrite .C c a t wholeRow v s).map fun _ => { c with part := part }

/-- One row copied under the overlap rule. -/
def copyRow (c : Cmd) (dst src : W64) (s : State) : Out Cmd :=
  (readBefore c src s).bind fun v s => writeKeeping c dst v s

/-- One row copied as the commands' loops stand. -/
def moveRow (c : Cmd) (dst src : W64) (s : State) : Out Cmd :=
  (cmdRead .C c src s).bind fun v s => (cmdWrite .C c dst wholeRow v s).map fun _ => c

/-! ### CCPY, C2D -/

def execCcpy (w : Tok) (c : BitVec 6) (r : BitVec 1) (s : State) :=
  copyWord w 3 c r noLatch (fun c => illArg (badCount (c.arg 2)) (c.arg 2)) (fun c => countOf (c.arg 2))
    (fun c s => copyRow c (rowAt (c.arg 0) c.cursor) (rowAt (c.arg 1) c.cursor) s) noClose s

/-! Shape: count or lines in [31:0], rows of each in [47:32], [63:48] zero. -/
def shapeRows (a : W64) : Nat := (a.extractLsb' 32 16).toNat
def badShape (a : W64) : Bool := a.extractLsb' 48 16 != 0#16
def shapeUnits (a : W64) : Nat := countOf a * shapeRows a

/-- The address of row r of line l. -/
def lineRow (base pitch : W64) (l r : Nat) : W64 := rowAt (base + BitVec.ofNat 64 l * (pitch &&& ~~~0x7F#64)) r

def execC2d (w : Tok) (c : BitVec 6) (r : BitVec 1) (s : State) :=
  copyWord w 5 c r noLatch (fun c => illArg (badShape (c.arg 4)) (c.arg 4)) (fun c => shapeUnits (c.arg 4))
    (fun c s =>
      let n := shapeRows (c.arg 4)
      let l := c.cursor / n
      let r := c.cursor % n
      copyRow c (lineRow (c.arg 0) (c.arg 2) l r) (lineRow (c.arg 1) (c.arg 3) l r) s) noClose s

/-! ### CGTH, CSCT (R167) -/

/-- Element `j` of an index list, read as an ordinary access. -/
def listElem (c : Cmd) (iw : BitVec 1) (list : W64) (j : Nat) (s : State) : Out W64 :=
  let n := if iw == 1#1 then 8 else 4
  let a := list + BitVec.ofNat 64 (n * j)
  (cmdRead .C c a s).map fun row =>
    BitVec.ofNat 64 (row.toNat / 2 ^ (8 * (a.toNat % 128 / n * n)) % 2 ^ (8 * n))

/-- The far address of the element of the cursor, read once and kept with the command. -/
def farIndex (c : Cmd) (iw : BitVec 1) (s : State) : Out W64 :=
  let n := shapeRows (c.arg 4)
  if c.cursor % n = 0 then
    (listElem c iw (c.arg 2) (c.cursor / n) s).map fun i => c.arg 1 + i * (c.arg 3 &&& ~~~0x7F#64)
  else .ok (BitVec.ofNat 64 c.part.off) s

/-- The far address in arena mode, from the latched generator; the position is an exact sum (R6, R167). -/
def farArena (c : Cmd) : W64 :=
  let j := (c.arg 2).toNat + c.cursor / shapeRows (c.arg 3)
  let p := if c.arena.len = 0#32 then j else j % c.arena.len.toNat
  c.arena.base + c.arg 1 * c.arena.slot + BitVec.ofNat 64 p * c.arena.pos

/-- One row between the near and the far side; `out` is CSCT. -/
def gatherUnit (out : Bool) (rows : Nat) (far : W64) (c : Cmd) (s : State) : Out Cmd :=
  let near := rowAt (c.arg 0) c.cursor
  let f := rowAt far (c.cursor % rows)
  let c := { c with part := { c.part with off := far.toNat } }
  if out then moveRow c f near s else moveRow c near f s

def indexUnit (out : Bool) (iw : BitVec 1) (c : Cmd) (s : State) : Out Cmd :=
  (farIndex c iw s).bind fun far s => gatherUnit out (shapeRows (c.arg 4)) far c s
def arenaUnit (out : Bool) (c : Cmd) (s : State) : Out Cmd :=
  gatherUnit out (shapeRows (c.arg 3)) (farArena c) c s

/-- The four CSRs of a generator latched. -/
def latchArena (g : BitVec 3) (s : State) (c : Cmd) : Cmd := { c with arena := Arena.at s.me g }

def execCgth (w : Tok) (c : BitVec 6) (r i : BitVec 1) (s : State) :=
  copyWord w 5 c r noLatch (fun c => illArg (badShape (c.arg 4)) (c.arg 4)) (fun c => shapeUnits (c.arg 4))
    (indexUnit false i) noClose s
def execCgthArena (w : Tok) (c : BitVec 6) (r : BitVec 1) (g : BitVec 3) (s : State) :=
  copyWord w 4 c r (latchArena g) (fun c => illArg (badShape (c.arg 3)) (c.arg 3)) (fun c => shapeUnits (c.arg 3))
    (arenaUnit false) noClose s
def execCsct (w : Tok) (c : BitVec 6) (r i : BitVec 1) (s : State) :=
  copyWord w 5 c r noLatch (fun c => illArg (badShape (c.arg 4)) (c.arg 4)) (fun c => shapeUnits (c.arg 4))
    (indexUnit true i) noClose s
def execCsctArena (w : Tok) (c : BitVec 6) (r : BitVec 1) (g : BitVec 3) (s : State) :=
  copyWord w 4 c r (latchArena g) (fun c => illArg (badShape (c.arg 3)) (c.arg 3)) (fun c => shapeUnits (c.arg 3))
    (arenaUnit true) noClose s

/-! ### CTILE (R168) -/

/-- The bytes of image row `u` that hold elements or scale words. -/
def imageMask (c : W32) (u : Nat) : BitVec 128 :=
  BitVec.ofNat 128 (packBits (fun j =>
    let o := 128 * u + j
    decide (o < dataBytes c) || (decide (dataRegion c ≤ o) && decide (o < imageBytes c))) 128)

/-- The bits of a row that a byte mask selects. -/
def maskBits (m : BitVec 128) : Row :=
  BitVec.ofNat 1024 ((List.range 128).foldl (fun n j => if m.getLsbD j then n + 255 * 2 ^ (8 * j) else n) 0)

/-- The tile rows with data bytes in image row `u`. -/
def dataRowsIn (c : W32) (u : Nat) : List Nat :=
  (List.range (cfgRows c)).filter (fun i =>
    decide (i * cfgCols c * elemBits c < 1024 * (u + 1)) && decide (1024 * u < (i + 1) * cfgCols c * elemBits c))

/-- Bits [31:28] of every scale word of a row cleared. -/
def clearReserved (c : W32) (u : Nat) (v : Row) : Row :=
  if cfgSc c && decide (dataRegion c ≤ 128 * u) then packRow (fun i => lane v i &&& 0x0FFFFFFF#32) else v

/-- An image row loaded into a tile, tags as stored. -/
def loadImageRow (c : W32) (u : Nat) (v : Row) (t : Tile) : Tile :=
  let t := (dataRowsIn c u).foldl (fun t i => t.revive c i) t
  let m := maskBits (imageMask c u)
  t.putRow u ((t.row u &&& ~~~m) ||| (clearReserved c u v &&& m))

def tileUnit (t : BitVec 4) (dir : BitVec 1) (c : Cmd) (s : State) : Out Cmd :=
  let u := c.cursor
  let a := rowAt (c.arg 0) u
  if dir == 0#1 then
    (cmdRead .C c a s).bind fun v s => (useBank s.cur.sp (.tile t) s).bind fun _ s =>
      .ok c (s.setMy (s.my.setTile t (loadImageRow c.tcfg u v (s.my.tile t))))
  else
    match (rowsIn c.tcfg u).find? (fun i => !(s.my.tile t).isLive i) with
    | some i => .trap (deadItem 2 0 t.toNat i 0 0) s
    | none =>
      (useBank s.cur.sp (.tile t) s).bind fun _ s =>
        (cmdWrite .C c a (imageMask c.tcfg u) (clearReserved c.tcfg u ((s.my.tile t).row u)) s).map fun _ => c

/-- A command that latches a TCFG still at its reset value raises ILL (R31). -/
def noRows (c : Cmd) : Option Flt := if cfgRows c.tcfg = 0 then some (flt cILL) else none

def execCtile (w : Tok) (c : BitVec 6) (t : BitVec 4) (r d : BitVec 1) (s : State) :=
  copyWord w 1 c r (latchTile t) noRows (fun c => imageRows c.tcfg) (tileUnit t d) noClose s

/-! ### CCB, CQLD, CFILL -/

/-- `n` bf16 entries of a row. -/
def rowEntries (v : Row) (n : Nat) : List (BitVec 16) := (List.range n).map (fun i => v.extractLsb' (16 * i) 16)

/-- R169: a row of entries read; all are loaded together at the end. -/
def ccbUnit (sz : BitVec 1) (c : Cmd) (s : State) : Out Cmd :=
  (cmdRead .C c (rowAt (c.arg 0) c.cursor) s).map fun v =>
    { c with part := { c.part with book := c.part.book ++ rowEntries v (if sz == 1#1 then 64 else 16) } }

def ccbClose (b : BitVec 3) (c : Cmd) (s : State) : Out Cmd :=
  .ok c (s.setMy { s.my with books := s.my.books.set b.toNat (some c.part.book) (b.isLt) })

def execCcb (w : Tok) (c : BitVec 6) (r : BitVec 1) (b : BitVec 3) (z : BitVec 1) (s : State) :=
  copyWord w 1 c r noLatch (fun _ => none) (fun _ => if z == 1#1 then 4 else 1) (ccbUnit z) (ccbClose b) s

/-- R170: a row pushed into vqN, which holds while it is full. -/
def cqldUnit (q : BitVec 2) (c : Cmd) (s : State) : Out Cmd :=
  if Config.vqDepth ≤ (s.me.vq[q.toNat]'(q.isLt)).length then .hold s
  else (cmdRead .C c (rowAt (c.arg 0) c.cursor) s).bind fun v s =>
    .ok c (s.mapMe (fun k => { k with vq := k.vq.set q.toNat ((k.vq[q.toNat]'(q.isLt)) ++ [v]) (q.isLt) }))

def execCqld (w : Tok) (c : BitVec 6) (r : BitVec 1) (q : BitVec 2) (s : State) :=
  copyWord w 2 c r noLatch (fun c => illArg (badCount (c.arg 1)) (c.arg 1)) (fun c => countOf (c.arg 1)) (cqldUnit q)
    noClose s

/-- A value in every 8-byte unit of a row. -/
def fillRow (v : W64) : Row := packRow (fun i => if i % 2 = 0 then v.extractLsb' 0 32 else v.extractLsb' 32 32)

def execCfill (w : Tok) (c : BitVec 6) (r : BitVec 1) (s : State) :=
  copyWord w 3 c r noLatch (fun c => illArg (badCount (c.arg 2)) (c.arg 2)) (fun c => countOf (c.arg 2))
    (fun c s => (cmdWrite .C c (rowAt (c.arg 0) c.cursor) wholeRow (fillRow (c.arg 1)) s).map fun _ => c) noClose s

/-- The default order gives each command a step of the table for its completion (R59). -/
def execCompletionRowUpdate (sp : BitVec 7) (r : BitVec 2) (e : BitVec 3) (s : State) :
    Host.Outcome State Fault Refusal :=
  let st := streamOfCode e
  .next (if st == .S || st == .V then s else completeCmd sp r st { s with cur := ⟨sp, .reck r, none, false⟩ })

end Sys2Proof.Machine
end

