-- ==== Sys2Proof/Machine/Borene.lean ====
section
/-! DEFINITION. Borene blocks (R172 to R174), CDEC (R175, R176), the encoder contract (R178, R179) and CENC
(R181). A block is the number of its 26 bytes, little-endian. -/

namespace Sys2Proof.Machine

/-! ### The block -/

/-- WIN (R174): the 12-bit tail-biting window of weight i. -/
def win (bits i : Nat) : Nat := (bits / 2 ^ i + (bits % 2 ^ i) * 2 ^ (128 - i)) % 4096

/-- BEAD (R174). -/
def bead (w : Nat) : Int :=
  let h := (w * 2053 + 1237) % 4096
  ((h % 16 + h / 16 % 16 + h / 256 : Nat) : Int) - 22

/-- The stream bits of a block. -/
def blockBits (b : Nat) : Nat := b % 2 ^ 128
/-- Scale j of a block (R172). -/
def blockScale (b j : Nat) : BitVec 20 := BitVec.ofNat 20 (b / 2 ^ (128 + 20 * j))

/-- The exact value of a scale: zero for E = 0 and for an invalid one. -/
def scaleVal (x : BitVec 20) : Dy := match s20 x with | .val d => d | _ => Dy.zero
def scaleBad (x : BitVec 20) : Bool := match s20 x with | .bad => true | _ => false

/-! ### CDEC -/

def cdecCount (c : Cmd) : Nat := ((c.arg 2).extractLsb' 8 8).toNat
def cdecFirst (c : Cmd) : Nat := ((c.arg 2).extractLsb' 0 8).toNat

/-- The checks of a CDEC's begin (R175). -/
def cdecCheck (c : Cmd) : Option Flt :=
  if (c.arg 2).extractLsb' 16 48 != 0#48 then some (fltAt cILL (c.arg 2))
  else if cfgType c.tcfg != tI8 || !cfgSc c.tcfg || cfgCols c.tcfg != 128 then some (flt cILL)
  else if 128 < cdecCount c then some (fltAt cILL (c.arg 2))
  else if 0 < cdecCount c && cfgRows c.tcfg < cdecFirst c + cdecCount c then some (fltAt cILL (c.arg 2))
  else none

/-- The block lies in two rows. -/
def straddles (a : W64) : Bool := decide (128 < a.toNat % 128 + 26)

/-- The 26 bytes at byte `o` of a row and the row behind it. -/
def blockOf (o : Nat) (r0 r1 : Row) : Nat := (r0.toNat / 2 ^ (8 * o) + r1.toNat * 2 ^ (8 * (128 - o))) % 2 ^ 208

/-- One of the two rows of a straddling block read: the second is the row of its last byte, which its faults name
(log 43). -/
def readHalf (c : Cmd) (a : W64) (second : Bool) (s : State) : Out Row :=
  cmdRead .C c (if second then a + 25#64 else a) s

/-- The 26 bytes at a byte address, from one row, or from two of which one has been read before. -/
def readBlock (c : Cmd) (a : W64) (s : State) : Out Nat :=
  let o := a.toNat % 128
  match c.part.half with
  | some (second, v) =>
    (readHalf c a (!second) s).map fun r => if second then blockOf o r v else blockOf o v r
  | none => (cmdRead .C c a s).map fun r0 => blockOf o r0 0#1024

/-- The generation of a command's writes: incremented once, before its first (R34, R175). -/
def commandGen (t : BitVec 4) (c : Cmd) (s : State) : BitVec 4 :=
  match c.part.wgen with
  | some g => g
  | none => cfgWgen (s.my.cfg t) + 1#4

/-- WGEN of a tile set to a command's generation, once. -/
def bumpWgen (t : BitVec 4) (c : Cmd) (s : State) : Cmd × State :=
  match c.part.wgen with
  | some _ => (c, s)
  | none =>
    let g := cfgWgen (s.my.cfg t) + 1#4
    ({ c with part := { c.part with wgen := some g } }, s.setMy (s.my.setCfg t (cfgWithWgen (s.my.cfg t) g)))

/-- A decoded block in tile row i: its data and its scale words, in step. -/
def putBlock (cfg : W32) (g : BitVec 4) (i b : Nat) (t : Tile) : Tile :=
  let t := t.revive cfg i
  let t := (List.range 128).foldl (fun t k =>
    t.putElem cfg i k (BitVec.ofInt 8 (bead (win (blockBits b) k))).toNat) t
  (List.range 4).foldl (fun t m => t.putScale cfg i m (scaleWord g g (blockScale b m))) t

def cdecUnit (t : BitVec 4) (c : Cmd) (s : State) : Out Cmd :=
  let a := c.arg 0 + BitVec.ofNat 64 c.cursor * c.arg 1
  if straddles a && c.part.half.isNone then
    (readHalf c a s.cur.stale s).map fun v =>
      { c with again := true, part := { c.part with half := some (s.cur.stale, v) } }
  else (readBlock c a s).bind fun b s => (useBank s.cur.sp (.tile t) s).bind fun _ s =>
    let g := commandGen t c s
    let (c, s) := bumpWgen t c s
    let c := { c with part := { c.part with half := none } }
    .ok c (s.setMy (s.my.setTile t (putBlock c.tcfg g (cdecFirst c + c.cursor) b (s.my.tile t))))

def execCdec (w : Tok) (c : BitVec 6) (t : BitVec 4) (r : BitVec 1) (s : State) :=
  copyWord w 3 c r (latchTile t) cdecCheck cdecCount (cdecUnit t) noClose s

/-! ### The encoder contract -/

/-- The error term of weight i (R178). -/
def errTerm (tgt : List (BitVec 16)) (scl : List (BitVec 20)) (bits i : Nat) : Dy :=
  let sc := scl.getD (i / 32) 0#20
  match bf16 (tgt.getD i 0#16) with
  | .fin t =>
    if scaleBad sc then Dy.zero
    else
      let d := t.sub ((Dy.ofInt (bead (win bits i))).mul (scaleVal sc))
      d.mul d
  | _ => Dy.zero

/-- E(BITS), exact. -/
def blockErr (tgt : List (BitVec 16)) (scl : List (BitVec 20)) (bits : Nat) : Dy :=
  (List.range 128).foldl (fun e i => e.add (errTerm tgt scl bits i)) Dy.zero

/-- The best of the streams with a given beginning: the least error, and of equal ones the least in stream
order (R178). -/
def bestStream (err : Nat → Dy) : Nat → Nat → Nat → Nat
  | 0, _, p => p
  | k + 1, i, p =>
    let a := bestStream err k (i + 1) p
    let b := bestStream err k (i + 1) (p + 2 ^ i)
    if (err b).lt (err a) then b else a

/-- ENCODE (R178). A block whose error at BITS = 0 is zero encodes to 0 at once (R179): no error is below
zero, and 0 is the least stream. -/
def encodeBlock (tgt : List (BitVec 16)) (scl : List (BitVec 20)) : Nat :=
  if (blockErr tgt scl 0).isZero then 0 else bestStream (blockErr tgt scl) 128 0 0

/-- INV: a target that is not finite, or an invalid scale (R178). -/
def encodeInv (tgt : List (BitVec 16)) (scl : List (BitVec 20)) : Bool :=
  tgt.any (fun t => !(bf16 t).isFinite) || scl.any scaleBad

/-! ### CENC -/

/-- RESULT bytes of a command: `n` bytes of a number from byte `o` of its row. -/
def setResult (o n v : Nat) (c : Cmd) : Cmd :=
  { c with result := (List.range n).foldl (fun t j => Table.put t (o + j) (BitVec.ofNat 8 (v / 256 ^ j))) c.result }

def raiseFlags (f : BitVec 8) (c : Cmd) : Cmd := { c with flags := c.flags ||| f }

/-- The bytes of a block at byte `o` of a row, and their mask. -/
def blockPart (o b : Nat) : Row := BitVec.ofNat 1024 (b * 2 ^ (8 * o))
def blockMask (o : Nat) : BitVec 128 := BitVec.ofNat 128 ((2 ^ 26 - 1) * 2 ^ o)

/-- The 26 bytes written: every row checked before any is written; a fault leaves nothing written. The second row
of a straddling block is the row of its last byte, which its faults name (log 43). -/
def writeBlock (c : Cmd) (a : W64) (b : Nat) (s : State) : Out Unit :=
  let o := a.toNat % 128
  (cmdTarget .C c true a s).bind fun t0 s =>
    if o + 26 ≤ 128 then unitWrite .C c a t0 (blockMask o) (blockPart o b) s
    else
      (cmdTarget .C c true (a + 25#64) s).bind fun t1 s =>
        writeTogether .C c [(a, t0, blockMask o, blockPart o b),
          (a + 25#64, t1, BitVec.ofNat 128 (2 ^ (o + 26 - 128) - 1), BitVec.ofNat 1024 (b / 2 ^ (8 * (128 - o))))] s

/-- The four scales of a block, from four 32-bit words at a 16-byte address. -/
def readScales (c : Cmd) (a : W64) (s : State) : Out (List (BitVec 20)) :=
  (cmdRead .C c a s).map fun row =>
    (List.range 4).map (fun m => (lane row (a.toNat % 128 / 16 * 4 + m)).extractLsb' 0 20)

/-- A block from its stream bits and scales (R172). -/
def makeBlock (bits : Nat) (scl : List (BitVec 20)) : Nat :=
  (List.range 4).foldl (fun b m => b + (scl.getD m 0#20).toNat * 2 ^ (128 + 20 * m)) bits

/-- One block of a CENC; the blocks go in ascending order, so that one reads what an earlier one has written where they
overlap (log 54). -/
def cencUnit (c : Cmd) (s : State) : Out Cmd :=
  let j := c.cursor
  let at' (base : W64) (n : Nat) : W64 := base + BitVec.ofNat 64 (n * j)
  (cmdRead .C c (at' (c.arg 1) 256) s).bind fun r0 s =>
  (cmdRead .C c (at' (c.arg 1) 256 + 128#64) s).bind fun r1 s =>
  (readScales c (at' (c.arg 2) 16) s).bind fun scl s =>
    let tgt := rowEntries r0 64 ++ rowEntries r1 64
    let bits := encodeBlock tgt scl
    (writeBlock c (at' (c.arg 0) 26) (makeBlock bits scl) s).map fun _ =>
      raiseFlags (flagIf (encodeInv tgt scl) fINV)
        { c with part := { c.part with err := c.part.err.add (.fin (blockErr tgt scl bits)) } }

def cencClose (c : Cmd) (s : State) : Out Cmd :=
  let r := rneF32 c.part.err
  .ok (raiseFlags (roundFlags r) (setResult 28 4 (countOf (c.arg 3)) (setResult 24 4 r.bits c))) s

def execCenc (w : Tok) (c : BitVec 6) (r : BitVec 1) (s : State) :=
  cmdWord .C w (popArgs .C 4) c (r == 1#1) copyGate copyBack noLatch noLatch id (fun _ c => illArg (badCount (c.arg 3)) (c.arg 3))
    (fun c => countOf (c.arg 3)) cencUnit cencClose s

end Sys2Proof.Machine
end

