-- ==== Sys2Proof/Machine/Girder.lean ====
section
/-! DEFINITION. The Girder: its lease (R233 to R238, R243, R244), its bands (R230 to R232), the block
arithmetic (R35 to R39), and MWLD, MMA, MMAID, MMA32, MZERO (R241 to R249). -/

namespace Sys2Proof.Machine

/-! ### The lease -/

/-- The lease that the current Reckoner holds ends (R236). -/
def endLease (s : State) : State :=
  if s.my.lease.holder == some s.cr then
    s.setMy { s.my with lease := { s.my.lease with holder := none, count := 0, hold := 0 } }
  else s

/-- The current Reckoner requests the lease (R235). -/
def askLease (s : State) : State :=
  s.setMy { s.my with lease := { s.my.lease with req := s.my.lease.req ||| (1#4 <<< s.cr.toNat) } }

/-- R235: the grant of this clock. A clock edge, and every word that meets the lease, finds it made. -/
def execLeaseGrant (sp : BitVec 7) (s : State) : Host.Outcome State Fault Refusal := .next (grantNext sp s)

/-- R237: the revocation of this clock, found made in the same way. -/
def execLeaseRevoke (sp : BitVec 7) (s : State) : Host.Outcome State Fault Refusal := .next (revokeDue sp s)

/-- A Girder command begins under a lease of its Reckoner (R234 stage 3). -/
def leaseGate (s : State) : Out Unit := if s.my.lease.holder == some s.cr then .ok () s else .hold (askLease s)

/-- The Girder commands of the other Reckoners that have begun and have units left, each with its Reckoner (R228). -/
def othersUnderway (s : State) : List (Reckoner × Cmd) :=
  (allRecks.filter (· != s.cr)).filterMap (fun r =>
    ((s.my.reck r).str .M).active.bind (fun c => if c.underway then some (s.my.reck r, c) else none))

/-- A command of this place in Girder order may apply its units: no other one is at work, and none that could go on has
begun before it. One that a trap has cut is not at work, and while its thread stands those behind it do not wait for it
(R228, R238; log 28). -/
def girderTurn (place : Nat) (s : State) : Bool :=
  (othersUnderway s).all (fun p => !p.2.engine && (!clocked p.1 || decide (place < p.2.place)))

/-- The place of a command that begins now: behind every other one underway. -/
def nextPlace (s : State) : Nat := 1 + (othersUnderway s).foldl (fun n p => max n p.2.place) 0

/-- The place of a command in Girder order, with its turn if it need not wait (R228). -/
def latchPlace (s : State) (c : Cmd) : Cmd := { c with place := nextPlace s, engine := girderTurn (nextPlace s) s }

/-- A command that has begun behind others, or that a trap has cut, waits for its turn (R228). -/
def girderBack (s : State) : Out Unit :=
  match (s.me.str .M).active with
  | some c => if girderTurn c.place s then .ok () s else .hold s
  | none => .ok () s

/-! ### What a command finds at its begin -/

/-- The weight sets and the live bits of both arrays, as a command finds them when its begin checks are made: one that a trap
cuts resumes on them (R238). -/
def holdSets (s : State) (c : Cmd) : Cmd :=
  if !c.part.sets.isEmpty then c
  else { c with part := { c.part with sets := s.my.arr.toList.map (fun x => ⟨x.ws, x.band.map (·.live)⟩) } }

/-- The weight set of an array that a command streams against, with the live bits of its bands. -/
def heldSet (c : Cmd) (arr : BitVec 1) (s : State) : HeldSet :=
  (c.part.sets[arr.toNat]?).getD ⟨(s.my.array arr).ws, (s.my.array arr).band.map (·.live)⟩

/-- The first of the two gain rows. -/
def gainRow (c : Cmd) : BitVec 24 := (c.arg 0).extractLsb' 0 24

/-- The gain rows as they stand now: a store after an MMAID's begin does not reach it (R247). Rows of which one is
dead now are read at the command's first unit. -/
def latchGains (s : State) (c : Cmd) : Cmd :=
  let off := gainRow c
  let at' (o : BitVec 24) : Row := s.mem.row (spadAddr s.cur.sp o / 128)
  if (c.arg 0).getLsbD 63 && rowLive s.cur.sp off s && rowLive s.cur.sp (off + 128#24) s then
    { c with part := { c.part with rows := [(0, at' off), (1, at' (off + 128#24))] } }
  else c

/-- An MSTAT of another Reckoner that has begun before may still write the gain rows (R228, R264). -/
def statsToCome (s : State) : Bool :=
  (othersUnderway s).any (fun p => match p.2.work.instr with | .mstat _ _ _ _ => true | _ => false)

/-- The gain rows of an MMAID that has found none at its begin, taken at its turn. -/
def gainsAtTurn (s : State) (c : Cmd) : Cmd :=
  match c.work.instr with
  | .mmaid _ _ _ _ _ _ _ => if c.part.rows.isEmpty && c.part.gains.isEmpty then latchGains s c else c
  | _ => c

/-- What a command whose begin checks are made has latched: one whose checks have failed latches anew (R241). -/
def relatch (latches : State → Cmd → Cmd) (s : State) (c : Cmd) : Cmd :=
  let c := if c.failed then latches s { c with failed := false, part := { c.part with rows := [], sets := [] } } else c
  gainsAtTurn s (holdSets s c)

/-- A begin lowers the count; at 0 the lease ends (R236). -/
def countLease (s : State) : State :=
  if s.my.lease.holder == some s.cr then
    if s.my.lease.count ≤ 1 then endLease s
    else s.setMy { s.my with lease := { s.my.lease with count := s.my.lease.count - 1, hold := 0 } }
  else s

/-- The head word meets a pending LEASE (R237). -/
def leaseDue (s : State) : Bool := !s.atTender && s.me.pendLease && (s.me.str .M).active.isNone

def raiseLease (s : State) : State :=
  raiseTrap s.cur.sp s.cr (trapInfo .M (s.unit .M) 0 (flt cLEASE)) (s.mapMe (fun k => { k with pendLease := false }))

/-- What every Girder command latches: ASHAPE, COBASE, MDEF (R234 stage 5). -/
def latchGirder (n : BitVec 6) (s : State) (c : Cmd) : Cmd :=
  { c with ashape := s.my.ashape, row := s.me.cobase.toNat * 8192 + 128 * n.toNat, mdef := s.me.mdef }

/-- A Girder command (R233): it begins under its lease; its checks are made, and its units applied, at its turn in Girder
order, on what it has latched at its begin. -/
def girderWord (w : Tok) (pops : State → Out (List W64)) (n : BitVec 6) (latch : State → Cmd → Cmd)
    (check : State → Cmd → Option Flt) (total : Cmd → Nat) (unit close : Cmd → State → Out Cmd) (s : State) :
    Host.Outcome State Fault Refusal :=
  let s := leaseNow s.cur.sp s
  if leaseDue s then .next (raiseLease s)
  else
    let latches (s : State) (c : Cmd) : Cmd := latch s (latchGirder n s c)
    cmdWord .M w pops n false leaseGate girderBack (fun s c => latchPlace s (latches s c)) (relatch latches) countLease check
      total unit close s

def execMnop (w : Tok) (s : State) := plainWord .M w (fun s => .ok () s) s
def execMrel (w : Tok) (s : State) := plainWord .M w (fun s => .ok () (endLease s)) (leaseNow s.cur.sp s)

/-- R243: the lease held is ended, a new one requested; M holds until the grant, with which the word leaves its head and
signals. -/
def execMlease (w : Tok) (_n : BitVec 6) (s : State) : Host.Outcome State Fault Refusal :=
  let waits := s.my.lease.holder != some s.cr
  let s := leaseNow s.cur.sp s
  .next (if s.atTender then quarantine s.cur.sp s
    else if waits && s.my.lease.holder == some s.cr then s
    else if leaseDue s then raiseLease s
    else if !paced .M s.me s.my.clock then held .M s
    else match waitTokens .M w s with
      | none => held .M s
      | some s => held .M (askLease (endLease s)))

/-! ### Bands (R230 to R232) -/

def noBands (c : Cmd) (arr : BitVec 1) : Bool := !(List.range 4).any (bandIn c arr)
/-- Column `n` is loaded and lies in an enabled band. -/
def colIn (c : Cmd) (arr : BitVec 1) (w n : Nat) : Bool := decide (n < w) && bandIn c arr (n / 32)

def State.mapArray (s : State) (arr : BitVec 1) (f : ArraySt → ArraySt) : State :=
  s.setMy (s.my.setArray arr (f (s.my.array arr)))

/-- A wake of a gated band started, or ended once its clocks have passed. -/
def wakeBand (clock : Nat) (b : Band) : Band :=
  if b.gated then
    match b.wake with
    | none => { b with wake := some (clock + Config.wakeBand) }
    | some t => if t ≤ clock then ⟨false, false, none, clock⟩ else b
  else { b with busy := clock }

/-- The enabled bands of an array woken: the command waits for every one (R232). -/
def wakeBands (c : Cmd) (arr : BitVec 1) (s : State) : Out Unit :=
  let s := s.mapArray arr (fun x => x.mapBands (fun j b => if bandIn c arr j then wakeBand s.my.clock b else b))
  if (List.range 4).any (fun j => bandIn c arr j && ((s.my.array arr).band[j % 4]'(Nat.mod_lt _ (by omega))).gated) then .hold s
  else .ok () s

/-- Enabled bands used on this clock. -/
def touchArray (c : Cmd) (arr : BitVec 1) (s : State) : State :=
  s.mapArray arr (fun x => x.mapBands (fun j b => if bandIn c arr j then { b with busy := s.my.clock } else b))

def Span.band (x : Span) (arr : BitVec 1) (j : BitVec 2) : Band := (x.array arr).band[j.toNat]'(j.isLt)
def Span.setBand (x : Span) (arr : BitVec 1) (j : BitVec 2) (b : Band) : Span :=
  x.setArray arr { x.array arr with band := (x.array arr).band.set j.toNat b (j.isLt) }

/-- R231: a band idle past BGIDLE outside ASHAPE is gated, and its weights die. A clock edge gates every band then due
by the same test. -/
def execBandGate (sp : BitVec 7) (arr : BitVec 1) (j : BitVec 2) (s : State) : Host.Outcome State Fault Refusal :=
  let x := s.span sp
  let b := x.band arr j
  .next (if !bandInUse x arr j.toNat && gateDue x.clock x.bgidleOn b then s.setSpan sp (x.setBand arr j b.gate) else s)

/-- R232: the wake of a band ends, its weights still dead. -/
def execBandWakeDone (sp : BitVec 7) (arr : BitVec 1) (j : BitVec 2) (s : State) : Host.Outcome State Fault Refusal :=
  let x := s.span sp
  match (x.band arr j).wake with
  | some t => if t ≤ x.clock then .next (s.setSpan sp (x.setBand arr j ⟨false, false, none, x.clock⟩)) else .next s
  | none => .next s

/-! ### Checks of items (R241, R242, R246) -/

/-- A type that streams: bf16, i8, c4, c8 (R245 to R247). -/
def streamType (c : W32) : Bool := decide ((cfgType c).toNat ≤ 3)
/-- ILL of R241 when some condition fails. -/
def illIf (bad : Bool) : Option Flt := if bad then some (flt cILL) else none

/-- Of several bands, tile rows, accumulator rows, columns or blocks that fail at one unit, the record names the lowest
(log 58). -/
def bandsLive (c : Cmd) (arr : BitVec 1) (s : State) : Out Unit :=
  match (List.range 4).find? (fun j => bandIn c arr j && !(heldSet c arr s).live[j % 4]'(Nat.mod_lt _ (by omega))) with
  | some j => .trap (deadItem 7 arr.toNat j 0 0 0) s
  | none => .ok () s

def tileRowsLive (t : BitVec 4) (cfg : W32) (s : State) : Out Unit := tileLiveCheck t (List.range (cfgRows cfg)) s

/-- A codebook register not loaded is DEAD for a type that reads through it (R28). -/
def bookCheck (cfg : W32) (s : State) : Out Unit :=
  if usesBook cfg && (s.my.book (cfgCb cfg)).isNone then .trap (deadItem 5 0 (cfgCb cfg).toNat 0 0 0) s else .ok () s

def accRowsLive (arr : BitVec 1) (a : BitVec 3) (rows : List Nat) (s : State) : Out Unit :=
  match rows.find? (fun r => (Table.find? (s.my.acc arr a).rows r).isNone) with
  | some r => .trap (deadItem 3 arr.toNat a.toNat r 0 0) s
  | none => .ok () s

/-- SCALEMIS at an item. -/
def misItem (kind arr num row col blk : Nat) : Flt := fltItem cSCALEMIS (itemOf kind arr num row col blk) 0#64

/-- Blocks (r, b) of a scaled tile are in step, lowest row first (R33). -/
def tileInStep (v : Tile) (t : BitVec 4) (cfg : W32) (b : Nat) (s : State) : Out Unit :=
  if !cfgSc cfg then .ok () s
  else match (List.range (cfgRows cfg)).find? (fun r => !inStep (v.scale cfg r b)) with
    | some r => .trap (misItem 2 0 t.toNat r 0 b) s
    | none => .ok () s

def WeightSet.col (w : WeightSet) (n : Nat) : WCol := (Table.find? w.cols n).getD ⟨[], []⟩

def weightsInStep (c : Cmd) (arr : BitVec 1) (b : Nat) (s : State) : Out Unit :=
  let ws := (heldSet c arr s).ws
  if !ws.scaled then .ok () s
  else match (List.range 128).find? (fun n => colIn c arr ws.w n && !inStep ((ws.col n).scales.getD b 0#32)) with
    | some n => .trap (misItem 8 arr.toNat 0 0 n b) s
    | none => .ok () s

/-! ### Block arithmetic (R35 to R37) -/

/-- The S20 scale of value 1.0. -/
def scaleOne : Scale := .val Dy.one

/-- Element k of tile row r. -/
def tileElem (t : Tile) (cfg : W32) (book : List (BitVec 16)) (r k : Nat) : Ext :=
  (elemValue (cfgType cfg) book (t.elem cfg r k)).v
/-- The scale of block b of tile row r. -/
def tileScale (t : Tile) (cfg : W32) (r b : Nat) : Scale :=
  if cfgSc cfg then s20 (s20Of (t.scale cfg r b)) else scaleOne
/-- The scale of block b of a weight column. -/
def colScale (ws : WeightSet) (n b : Nat) : Scale :=
  if ws.scaled then s20 (s20Of ((ws.col n).scales.getD b 0#32)) else scaleOne

/-- The exact sum of the products of a block, in its K columns. -/
def blockSum (k b : Nat) (f : Nat → Ext) : Ext :=
  (List.range 32).foldl (fun x i => if 32 * b + i < k then x.add (f (32 * b + i)) else x) Ext.zero

/-- A contribution and whether it raises INV (R36). -/
structure Contrib where
  v : Ext
  inv : Bool
  deriving DecidableEq, Repr

/-- R36: a block's contribution under its two scales. Under a zero scale nothing of the block raises a flag, a code read past
its codebook either (log 59). -/
def contrib (bs : Ext) (sa sw : Scale) : Contrib :=
  match sa, sw with
  | .bad, _ => ⟨.nan, true⟩
  | _, .bad => ⟨.nan, true⟩
  | .zero, _ => ⟨Ext.zero, false⟩
  | _, .zero => ⟨Ext.zero, false⟩
  | .val a, .val w => ⟨bs.mul (.fin (a.mul w)), bs.isNan⟩

/-- acc = RNE_f32(acc + contrib) with its conditions: a NaN that acc holds raises nothing (R24, R36). -/
def addBlock (acc : W32) (x : Contrib) : W32 × BitVec 8 :=
  let sum := (f32 acc).add x.v
  let r := rneF32 sum
  (BitVec.ofNat 32 r.bits,
   roundFlags r ||| flagIf (x.inv || (sum.isNan && !(f32 acc).isNan && !x.v.isNan)) fINV)

/-- The integer that a sum of i8 products is. -/
def extInt : Ext → Int
  | .fin d => d.mant 0
  | _ => 0

/-- R37: acc = SAT_i32(acc + bs). -/
def addInt (acc : W32) (bs : Int) : W32 × BitVec 8 :=
  let (v, sat) := satI32 (acc.toInt + bs)
  (v, flagIf sat fSAT)

/-- An accumulator row whose selected columns are updated, with the conditions raised. -/
def updateRow (cols : Nat → Bool) (f : Nat → W32 → W32 × BitVec 8) (old : AccRow) : AccRow × BitVec 8 :=
  (packAcc (fun n => if cols n then (f n (accWord old n)).1 else accWord old n),
   (List.range 128).foldl (fun fl n => if cols n then fl ||| (f n (accWord old n)).2 else fl) 0#8)

/-- Rows of an accumulator updated one after another; a cleared row starts from zero words. -/
def updateRows (clear : Bool) (cols : Nat → Bool) (f : Nat → Nat → W32 → W32 × BitVec 8) :
    List Nat → AccTile → AccTile × BitVec 8
  | [], t => (t, 0#8)
  | r :: rs, t =>
    let old := if clear then 0#4096 else (Table.find? t.rows r).getD 0#4096
    let (v, fl) := updateRow cols (f r) old
    let (t, fl') := updateRows clear cols f rs (t.putRow r v)
    (t, fl ||| fl')

/-- A unit applied to the streamed rows of an accumulator. -/
def applyUnit (arr : BitVec 1) (a : BitVec 3) (rows : Nat) (clear : Bool) (cols : Nat → Bool)
    (f : Nat → Nat → W32 → W32 × BitVec 8) (c : Cmd) (s : State) : Out Cmd :=
  let (t, fl) := updateRows clear cols f (List.range rows) (s.my.acc arr a)
  .ok { c with flags := c.flags ||| fl } (touchArray c arr (s.setMy (s.my.setAcc arr a t)))

/-- The banks of the tile and the accumulator of a command, ready (R196). -/
def wakeItems (t : BitVec 4) (arr : BitVec 1) (a : BitVec 3) (s : State) : Out Unit :=
  (useBank s.cur.sp (.tile t) s).also fun s => useBank s.cur.sp (.acc arr a) s

/-- A tile that a command streams, as its first unit since its begin or its resume has read it: a row written meanwhile
with no ordering is read whole, as it was (R239). -/
def heldTile (t : BitVec 4) (c : Cmd) (s : State) : Tile := c.part.tile.getD (s.my.tile t)
def keepTile (v : Tile) (c : Cmd) : Cmd := { c with part := { c.part with tile := some v } }

/-- The kill of LT at completion (R190). -/
def killAtEnd (l : BitVec 1) (t : BitVec 4) (c : Cmd) (s : State) : Out Cmd :=
  .ok c (if l == 1#1 then killTile s.cur.sp t s else s)

/-! ### MWLD (R245) -/

/-- A weight column from a tile row, and whether a code ran past its codebook. -/
def loadCol (t : Tile) (cfg : W32) (book : List (BitVec 16)) (n : Nat) : WCol × Bool :=
  let es := (List.range (cfgCols cfg)).map (fun k => elemValue (cfgType cfg) book (t.elem cfg n k))
  (⟨es.map (·.v), if cfgSc cfg then (List.range (cfgCols cfg / 32)).map (t.scale cfg n) else []⟩, es.any (·.past))

/-- A weight set put onto the enabled bands, whose weights live; the others' are dead. -/
def setWeights (c : Cmd) (arr : BitVec 1) (ws : WeightSet) (s : State) : State :=
  s.mapArray arr (fun x =>
    { x.mapBands (fun j b => { b with live := bandIn c arr j, busy := if bandIn c arr j then s.my.clock else b.busy }) with
      ws := ws })

def mwldUnit (arr : BitVec 1) (t : BitVec 4) (c : Cmd) (s : State) : Out Cmd :=
  (wakeBands c arr s).bind fun _ s => (tileRowsLive t c.tcfg s).bind fun _ s => (bookCheck c.tcfg s).bind fun _ s =>
  (useBank s.cur.sp (.tile t) s).bind fun _ s =>
    let book := (s.my.book (cfgCb c.tcfg)).getD []
    let cols := (List.range (cfgRows c.tcfg)).filter (fun n => bandIn c arr (n / 32))
    let loaded := cols.map (fun n => (n, loadCol (s.my.tile t) c.tcfg book n))
    let ws : WeightSet :=
      { k := cfgCols c.tcfg, w := cfgRows c.tcfg, int := cfgType c.tcfg == tI8 && !cfgSc c.tcfg
        scaled := cfgSc c.tcfg, cols := loaded.map (fun e => (e.1, e.2.1)) }
    .ok { c with flags := c.flags ||| flagIf (loaded.any (fun e => e.2.2)) fINV } (setWeights c arr ws s)

def mwldCheck (arr : BitVec 1) (c : Cmd) : Option Flt :=
  illIf (cfgRows c.tcfg = 0 || !streamType c.tcfg || noBands c arr)

def execMwld (w : Tok) (r : BitVec 1) (t : BitVec 4) (c : BitVec 6) (l : BitVec 1) (s : State) :=
  girderWord w (popArgs .M 0) c (latchTile t) (fun _ => mwldCheck r) (fun _ => 1) (mwldUnit r t) (killAtEnd l t) s

/-! ### MMA (R246) -/

def mmaCheck (arr : BitVec 1) (s : State) (c : Cmd) : Option Flt :=
  illIf (cfgRows c.tcfg = 0 || !streamType c.tcfg || cfgCols c.tcfg != (heldSet c arr s).ws.k || noBands c arr)

/-- One accumulator word under block b. -/
def mmaWord (t : Tile) (cfg : W32) (book : List (BitVec 16)) (ws : WeightSet) (b r n : Nat) (acc : W32) : W32 × BitVec 8 :=
  let bs := blockSum (cfgCols cfg) b (fun k => (tileElem t cfg book r k).mul ((ws.col n).w.getD k Ext.zero))
  if cfgType cfg == tI8 && !cfgSc cfg && ws.int then addInt acc (extInt bs)
  else addBlock acc (contrib bs (tileScale t cfg r b) (colScale ws n b))

def mmaUnit (arr : BitVec 1) (a : BitVec 3) (t : BitVec 4) (z : BitVec 1) (c : Cmd) (s : State) : Out Cmd :=
  let b := c.cursor
  let clear := b == 0 && z == 1#1
  (bandsLive c arr s).bind fun _ s => (tileRowsLive t c.tcfg s).bind fun _ s => (bookCheck c.tcfg s).bind fun _ s =>
  (accRowsLive arr a (if clear then [] else List.range (cfgRows c.tcfg)) s).bind fun _ s =>
  (tileInStep (heldTile t c s) t c.tcfg b s).bind fun _ s => (weightsInStep c arr b s).bind fun _ s =>
  (wakeItems t arr a s).bind fun _ s =>
    let ws := (heldSet c arr s).ws
    let book := (s.my.book (cfgCb c.tcfg)).getD []
    let v := heldTile t c s
    applyUnit arr a (cfgRows c.tcfg) clear (colIn c arr ws.w) (mmaWord v c.tcfg book ws b) (keepTile v c) s

/-- Blocks of 32 along K. -/
def blocksOf (cfg : W32) : Nat := (cfgCols cfg + 31) / 32

def execMma (w : Tok) (r : BitVec 1) (a : BitVec 3) (t : BitVec 4) (c : BitVec 6) (z l : BitVec 1) (s : State) :=
  girderWord w (popArgs .M 0) c (latchTile t) (mmaCheck r) (fun c => blocksOf c.tcfg) (mmaUnit r a t z) (killAtEnd l t) s

/-! ### MMAID (R247) -/

def mmaidCheck (arr : BitVec 1) (c : Cmd) : Option Flt :=
  if cfgRows c.tcfg = 0 || !streamType c.tcfg || noBands c arr then some (flt cILL)
  else if !(c.arg 0).getLsbD 63 then some (fltAt cADDR (c.arg 0))
  else none

/-- Gain row `i`, as the begin has found it or as it stands. One that has died since the begin needs no read. -/
def readGain (c : Cmd) (i : Nat) (s : State) : Out Row :=
  let off := gainRow c + BitVec.ofNat 24 (128 * i)
  match Table.find? c.part.rows i with
  | some v => if rowLive s.cur.sp off s then (readSpad s.cur.sp off s).map (fun _ => v) else .ok v s
  | none => readSpad s.cur.sp off s

/-- The 128 gains, from their two rows. A row that the begin has not found is live when it is read. -/
def readGains (c : Cmd) (s : State) : Out (List (BitVec 16)) :=
  let off (i : Nat) : BitVec 24 := gainRow c + BitVec.ofNat 24 (128 * i)
  let entries (v : Row) : List (BitVec 16) := (List.range 64).map (fun i => v.extractLsb' (16 * i) 16)
  match [0, 1].find? (fun i => (Table.find? c.part.rows i).isNone && !rowLive s.cur.sp (off i) s) with
  | some i => .trap (deadRow (off i)) s
  | none => (readGain c 0 s).bind fun r0 s => (readGain c 1 s).map fun r1 => entries r0 ++ entries r1

/-- One accumulator word of the diagonal slab. -/
def slabWord (t : Tile) (cfg : W32) (book : List (BitVec 16)) (gains : List (BitVec 16)) (q r n : Nat) (acc : W32) :
    W32 × BitVec 8 :=
  addBlock acc (contrib ((tileElem t cfg book r n).mul (bf16 (gains.getD n 0#16))) (tileScale t cfg r q) scaleOne)

/-- A group of 32 columns of the diagonal slab, on the gains kept with the cursor. -/
def slabUnit (arr : BitVec 1) (a : BitVec 3) (t : BitVec 4) (z : BitVec 1) (c : Cmd) (s : State) : Out Cmd :=
  let q := c.cursor
  let clear := q == 0 && z == 1#1
  let inStepHere (s : State) : Out Unit := if 32 * q < cfgCols c.tcfg then tileInStep (heldTile t c s) t c.tcfg q s else .ok () s
  (tileRowsLive t c.tcfg s).bind fun _ s => (bookCheck c.tcfg s).bind fun _ s =>
  (accRowsLive arr a (if clear then [] else List.range (cfgRows c.tcfg)) s).bind fun _ s => (inStepHere s).bind fun _ s =>
  (wakeItems t arr a s).bind fun _ s =>
    let book := (s.my.book (cfgCb c.tcfg)).getD []
    let v := heldTile t c s
    applyUnit arr a (cfgRows c.tcfg) clear (fun n => n / 32 == q && colIn c arr (cfgCols c.tcfg) n)
      (slabWord v c.tcfg book c.part.gains q) (keepTile v c) s

/-- The bands woken, the gains read once and kept with the cursor, then the groups of columns (R247). -/
def mmaidUnit (arr : BitVec 1) (a : BitVec 3) (t : BitVec 4) (z : BitVec 1) (c : Cmd) (s : State) : Out Cmd :=
  (wakeBands c arr s).bind fun _ s =>
    if c.part.gains.isEmpty then (readGains c s).map fun g => { c with part := { c.part with gains := g, rows := [] }, again := true }
    else slabUnit arr a t z c s

def execMmaid (w : Tok) (r : BitVec 1) (a : BitVec 3) (t : BitVec 4) (c : BitVec 6) (z l : BitVec 1) (s : State) :=
  girderWord w (popArgs .M 1) c (fun s c => if statsToCome s then latchTile t s c else latchGains s (latchTile t s c)) (fun _ => mmaidCheck r) (fun _ => 4) (mmaidUnit r a t z)
    (killAtEnd l t) s

/-! ### MMA32 (R38, R39, R248) -/

/-- TRUNC_bf16 of a finite value. -/
def truncBf16 (d : Dy) : Dy :=
  match bf16 (BitVec.ofNat 16 (roundDy .bf16 .rtz false d).bits) with
  | .fin e => e
  | _ => Dy.zero

/-- The slices of an f32 value (R38). -/
inductive Slice where
  | h | m | l
  deriving DecidableEq, Repr

def sliceOf (k : Slice) (x : W32) : Ext :=
  match f32 x with
  | .fin d =>
    let h := truncBf16 d
    let m := truncBf16 (d.sub h)
    match k with
    | .h => .fin h
    | .m => .fin m
    | .l => .fin (truncBf16 ((d.sub h).sub m))
  | x => match k with | .h => x | _ => Ext.zero

/-- The passes, activation slice and weight slice (R39). -/
def passes : List (Slice × Slice) := [(.l, .h), (.h, .l), (.m, .m), (.m, .h), (.h, .m), (.h, .h)]
def passOf (p : Nat) : Slice × Slice := passes.getD p (.h, .h)

/-- A product in which a zero m or l slice adds nothing (R248). -/
def mulSlice (p : Slice × Slice) (x y : Ext) : Ext :=
  if (p.1 != .h && x.isZero) || (p.2 != .h && y.isZero) then Ext.zero else x.mul y

/-- A slice of every row of tW as a weight set. -/
def sliceSet (c : Cmd) (arr : BitVec 1) (k : Slice) (t : Tile) : WeightSet :=
  let cols := (List.range (cfgRows c.tcfg2)).filter (fun n => bandIn c arr (n / 32))
  { k := cfgCols c.tcfg2, w := cfgRows c.tcfg2, int := false, scaled := false
    cols := cols.map (fun n =>
      (n, ⟨(List.range (cfgCols c.tcfg2)).map (fun i => sliceOf k (BitVec.ofNat 32 (t.elem c.tcfg2 n i))), []⟩)) }

def latchMma32 (t u : BitVec 4) (s : State) (c : Cmd) : Cmd := { c with tcfg := s.my.cfg t, tcfg2 := s.my.cfg u }

def mma32Check (arr : BitVec 1) (c : Cmd) : Option Flt :=
  illIf (cfgRows c.tcfg = 0 || cfgRows c.tcfg2 = 0 || cfgType c.tcfg != tF32 || cfgType c.tcfg2 != tF32 ||
    cfgCols c.tcfg != cfgCols c.tcfg2 || noBands c arr)

/-- One accumulator word of a pass. -/
def mma32Word (p : Slice × Slice) (t : Tile) (cfg : W32) (ws : WeightSet) (b r n : Nat) (acc : W32) : W32 × BitVec 8 :=
  let bs := blockSum (cfgCols cfg) b (fun k =>
    mulSlice p (sliceOf p.1 (BitVec.ofNat 32 (t.elem cfg r k))) ((ws.col n).w.getD k Ext.zero))
  addBlock acc (contrib bs scaleOne scaleOne)

/-- One pass and block (R248). The slice that a pass needs is cut from the tile of weights as the command has read it whole
(R239). -/
def mma32Unit (arr : BitVec 1) (a : BitVec 3) (t u : BitVec 4) (z : BitVec 1) (c : Cmd) (s : State) : Out Cmd :=
  let nb := blocksOf c.tcfg
  let p := passOf (c.cursor / nb)
  let clear := c.cursor == 0 && z == 1#1
  (wakeBands c arr s).bind fun _ s => (tileRowsLive t c.tcfg s).bind fun _ s => (tileRowsLive u c.tcfg2 s).bind fun _ s =>
  (accRowsLive arr a (if clear then [] else List.range (cfgRows c.tcfg)) s).bind fun _ s =>
  ((useBank s.cur.sp (.tile u) s).also (wakeItems t arr a)).bind fun _ s =>
    let v := heldTile t c s
    let vw := c.part.tileW.getD (s.my.tile u)
    let ws := sliceSet c arr p.2 vw
    let s := setWeights c arr ws s
    let c := keepTile v { c with part := { c.part with tileW := some vw } }
    applyUnit arr a (cfgRows c.tcfg) clear (colIn c arr ws.w) (mma32Word p v c.tcfg ws (c.cursor % nb)) c s

def execMma32 (w : Tok) (r : BitVec 1) (a : BitVec 3) (t : BitVec 4) (c : BitVec 6) (z l : BitVec 1) (u : BitVec 4)
    (s : State) :=
  girderWord w (popArgs .M 0) c (latchMma32 t u) (fun _ => mma32Check r) (fun c => 6 * blocksOf c.tcfg) (mma32Unit r a t u z) (killAtEnd l t) s

/-! ### MZERO (R249) -/

def mzeroUnit (arr : BitVec 1) (a : BitVec 3) (c : Cmd) (s : State) : Out Cmd :=
  (useBank s.cur.sp (.acc arr a) s).bind fun _ s =>
    .ok c (s.setMy (s.my.setAcc arr a
      ((List.range 128).foldl (fun t r => t.putRow r 0#4096) (s.my.acc arr a))))

def execMzero (w : Tok) (r : BitVec 1) (a : BitVec 3) (c : BitVec 6) (s : State) :=
  girderWord w (popArgs .M 0) c noLatch (fun _ _ => none) (fun _ => 1) (mzeroUnit r a) noClose s

end Sys2Proof.Machine
end

