-- ==== Sys2Proof/Machine/VectorMem.lean ====
section
/-! DEFINITION. Vector moves and memory: VMOV, VBCAST, VPOP (R199), VAMOV, VRMS (R200), VRMG (R201), VMOVT
(R202), VMOVA (R203), VLD, VST (R205, R206), VGTH, VSCT (R207), VLDT (R208), landings of V results (R187,
R142). -/

namespace Sys2Proof.Machine

/-! ### Moves -/

def execVmov (w : Tok) (p : BitVec 3) (k : BitVec 1) (d a : BitVec 5) (s : State) :=
  vWord w (vBody [a] 2 d (pVal p) (vVal a) (k == 1#1) a) s

def vbcastBody (p : BitVec 3) (d : BitVec 5) (s : State) : Out Unit :=
  (qHead s).bind fun v s => (vBanks [d] s).bind fun _ s =>
    .ok () (schedule 2 (.vreg (vName d s)) (pVal p s) (packRow (fun _ => v.extractLsb' 0 32)) (qPop s))

def execVbcast (w : Tok) (p : BitVec 3) (d : BitVec 5) (s : State) := vWord w (vbcastBody p d) s

/-- A CQLD that names vqN stands in the C queue or is in execution (R199). -/
def cqldComes (n : BitVec 2) (k : Reckoner) : Bool :=
  let names (i : Instr) : Bool := match i with | .cqld _ _ _ q => q == n | _ => false
  (k.str .C).queue.any (fun u => names u.instr) ||
  (match (k.str .C).active with | some c => names c.work.instr | none => false)

def Reckoner.vqueue (k : Reckoner) (n : BitVec 2) : List Row := k.vq[n.toNat]'(n.isLt)
def Reckoner.setVq (k : Reckoner) (n : BitVec 2) (q : List Row) : Reckoner := { k with vq := k.vq.set n.toNat q (n.isLt) }

def vpopBody (p : BitVec 3) (d : BitVec 5) (n : BitVec 2) (s : State) : Out Unit :=
  match s.me.vqueue n with
  | [] => if cqldComes n s.me then .hold s else .trap (flt cQPROTO) s
  | v :: rest =>
    (vBanks [d] s).bind fun _ s =>
      let s := setUnsafe (s.mapMe (fun k => k.setVq n rest))
      .ok () (schedule 2 (.vreg (vName d s)) (pVal p s) v s)

def execVpop (w : Tok) (p : BitVec 3) (d : BitVec 5) (n : BitVec 2) (s : State) := vWord w (vpopBody p d n) s

def vamovBody (n : BitVec 3) (s : State) : Out Unit :=
  (qHead s).bind fun v s =>
    .ok () ((qPop s).mapMe (fun k => { k with x := k.x.set n.toNat (v.extractLsb' 0 24) (n.isLt) }))

def vrmsBody (s : State) : Out Unit :=
  (qHead s).bind fun v s => .ok () ((qPop s).mapMe (fun k => { k with rms := v.extractLsb' 0 7 }))

def execVamov (w : Tok) (n : BitVec 3) (s : State) := vWord w (vamovBody n) s
def execVrms (w : Tok) (s : State) := vWord w vrmsBody s

/-- 128 bytes from byte `n` of two rows one after the other (R201). -/
def rotateMerge (n : BitVec 7) (lo hi : Row) : Row := ((hi ++ lo : BitVec 2048) >>> (8 * n.toNat)).extractLsb' 0 1024

def execVrmg (w : Tok) (p : BitVec 3) (k : BitVec 1) (d a b : BitVec 5) (s : State) :=
  vWord w (vBody [a, b] 4 d (pVal p) (fun s => rotateMerge s.me.rms (vVal a s) (vVal b s)) (k == 1#1) a) s

/-! ### Tiles and accumulators -/

/-- The bytes of an image row, those past the image reading zero. -/
def imageRow (c : W32) (t : Tile) (u : Nat) : Row :=
  t.row u &&& BitVec.ofNat 1024 (2 ^ (8 * (imageBytes c - 128 * u)) - 1)

def vmovtBody (p : BitVec 3) (d : BitVec 5) (s : State) : Out Unit :=
  (qHead s).bind fun v s =>
  if v.extractLsb' 13 51 != 0#51 then .trap (fltAt cILL v) s
  else
    let t := v.extractLsb' 0 4
    let u := (v.extractLsb' 4 8).toNat
    let c := s.my.cfg t
    if cfgRows c = 0 || imageBytes c ≤ 128 * u then .trap (fltAt cILL v) s
    else if v.getLsbD 12 then
      (vLiveCheck [d] s).bind fun _ s => ((vBanks [d] s).also fun s => useBank s.cur.sp (.tile t) s).bind fun _ s =>
        .ok () (schedule 6 (.tile t u c) (pVal p s) (vVal d s) (qPop s))
    else
      (tileLiveCheck t (rowsIn c u) s).bind fun _ s =>
      ((vBanks [d] s).also fun s => useBank s.cur.sp (.tile t) s).bind fun _ s =>
        .ok () (schedule 6 (.vreg (vName d s)) (pVal p s) (imageRow c (s.my.tile t) u) (qPop s))

def execVmovt (w : Tok) (p : BitVec 3) (d : BitVec 5) (s : State) := vWord w (vmovtBody p d) s

/-- A row being written is read with no check of liveness: its lanes are unpredictable and raise no trap (R240). -/
def vmovaBody (p : BitVec 3) (d : BitVec 5) (s : State) : Out Unit :=
  (qHead s).bind fun v s =>
  if v.extractLsb' 13 51 != 0#51 then .trap (fltAt cILL v) s
  else
    let a := v.extractLsb' 0 3
    let arr := v.extractLsb' 3 1
    let row := v.extractLsb' 4 7
    let qt := (v.extractLsb' 11 2).toNat
    let wet := beingWritten s.my arr a row.toNat
    if !wet && (Table.find? (s.my.acc arr a).rows row.toNat).isNone then
      .trap (deadItem 3 arr.toNat a.toNat row.toNat 0 0) s
    else
      let r := (Table.find? (s.my.acc arr a).rows row.toNat).getD 0#4096
      ((vBanks [d] s).also fun s => useBank s.cur.sp (.acc arr a) s).bind fun _ s =>
        .ok () (schedule 10 (.accRead (vName d s) arr a row (if wet then none else some ((s.my.acc arr a).count row.toNat))) (pVal p s)
          (packRow (fun i => accWord r (32 * qt + i))) (qPop s))

def execVmova (w : Tok) (p : BitVec 3) (d : BitVec 5) (s : State) := vWord w (vmovaBody p d) s

/-! ### Local rows (R205) -/

/-- x[N] + 128 × off, modulo 2^24. -/
def xStep (x : BitVec 3) (o : BitVec 7) (s : State) : BitVec 24 :=
  s.me.xreg x + (wideImm (s.unit .V).pimms 7 o).setWidth 24 * 128#24

/-- The base address of a local word. -/
def vBase (pi : BitVec 1) (x : BitVec 3) (o : BitVec 7) (s : State) : BitVec 24 :=
  if pi == 1#1 then s.me.xreg x else xStep x o s

/-- The post-increment of an issued word. -/
def postInc (pi : BitVec 1) (x : BitVec 3) (o : BitVec 7) (s : State) : State :=
  if pi == 1#1 then
    let v := xStep x o s
    s.mapMe (fun k => { k with x := k.x.set x.toNat v (x.isLt) })
  else s

/-- The lowest active lane. -/
def lowLane (g : W32) : BitVec 5 := BitVec.ofNat 5 (((List.range 32).find? (fun i => g.getLsbD i)).getD 0)

/-- The race watch on a local row by the lanes of a V word; `word` is the word of the row that the lowest
touches. -/
def watchV (off : BitVec 24) (wr : Bool) (lane word : BitVec 5) (s : State) : Out Unit :=
  watchRow s.cur.sp s.cr (spadAddr s.cur.sp off) wr (some off) false (BitVec.ofNat 64 (128 * rowOf off)) lane word s

/-- VLD. Where several of its checks fail, SPACE decides before liveness, and liveness before the race watch (log 39). -/
def vldBody (p : BitVec 3) (pi : BitVec 1) (d : BitVec 5) (x : BitVec 3) (o : BitVec 7) (s : State) : Out Unit :=
  let g := pVal p s
  let off := vBase pi x o s
  if g == 0#32 then
    (vBanks [d] s).bind fun _ s => .ok () (postInc pi x o (schedule 8 (.vreg (vName d s)) g 0#1024 s))
  else
    (atLane (lowLane g) (lowLane g) (localSpace .V (off.zeroExtend 64) false s)).bind fun _ s =>
    if !rowLive s.cur.sp off s then .trap { deadRow off with lane := lowLane g, word := lowLane g } s
    else
      (orderGate .V false s).bind fun _ s =>
      ((vBanks [d] s).also fun s => useBank s.cur.sp (spadBankOf off) s).bind fun _ s => (watchV off false (lowLane g) (lowLane g) s).bind fun _ s =>
      (atLane (lowLane g) (lowLane g) (readSpad s.cur.sp off s)).bind fun row s =>
        .ok () (postInc pi x o (schedule 8 (.vreg (vName d s)) g row s))

/-- VST. Its register's bank and the bank of its row wake together (log 35). -/
def vstBody (p : BitVec 3) (pi : BitVec 1) (d : BitVec 5) (x : BitVec 3) (o : BitVec 7) (s : State) : Out Unit :=
  let g := pVal p s
  let off := vBase pi x o s
  (vLiveCheck [d] s).bind fun _ s =>
  if g == 0#32 then (vBanks [d] s).bind fun _ s => .ok () (postInc pi x o s)
  else
    (atLane (lowLane g) (lowLane g) (localSpace .V (off.zeroExtend 64) true s)).bind fun _ s => (orderGate .V true s).bind fun _ s =>
    ((vBanks [d] s).also fun s => useBank s.cur.sp (spadBankOf off) s).bind fun _ s => (watchV off true (lowLane g) (lowLane g) s).bind fun _ s =>
    (atLane (lowLane g) (lowLane g) (writeSpad s.cur.sp off (laneBytes g) (vVal d s) s)).bind fun _ s => .ok () (postInc pi x o s)

def execVld (w : Tok) (p : BitVec 3) (i : BitVec 1) (d : BitVec 5) (x : BitVec 3) (o : BitVec 7) (s : State) :=
  vWord w (vldBody p i d x o) s
def execVst (w : Tok) (p : BitVec 3) (i : BitVec 1) (d : BitVec 5) (x : BitVec 3) (o : BitVec 7) (s : State) :=
  vWord w (vstBody p i d x o) s

/-! ### Gather and scatter (R207) -/

/-- The address of a lane: (base + O lane i) mod 2^24 with [1:0] cleared. -/
def laneAddr (base : BitVec 24) (offs : Row) (i : Nat) : BitVec 24 :=
  (base + (lane offs i).setWidth 24) &&& ~~~3#24

/-- The active lanes of a guard, lowest first. -/
def lanesOf (g : W32) : List Nat := (List.range 32).filter (fun i => g.getLsbD i)

/-- The rows that the lanes touch, each once in order of its lowest lane, with that lane. -/
def rowsTouched (addr : Nat → BitVec 24) (g : W32) : List (Nat × BitVec 24) :=
  (lanesOf g).foldl (fun acc i => if acc.any (fun e => rowOf e.2 == rowOf (addr i)) then acc else acc ++ [(i, addr i)]) []

/-- Index of the 4-byte word of its row that an address names. -/
def wordIndex (a : BitVec 24) : BitVec 5 := a.extractLsb' 2 5

/-- The banks of rows woken, all together (R196, log 35). -/
def wakeRows : List (Nat × BitVec 24) → State → Out Unit
  | [], s => .ok () s
  | e :: t, s => (useBank s.cur.sp (spadBankOf e.2) s).also (wakeRows t)

/-- Each row in turn; the state before, when one faults. -/
def eachRow (f : Nat × BitVec 24 → State → Out Unit) : List (Nat × BitVec 24) → State → Out Unit
  | [], s => .ok () s
  | e :: t, s => (f e s).bind fun _ s => eachRow f t s

/-- DEAD at the first row that is dead, in lane order. -/
def rowsLive (rows : List (Nat × BitVec 24)) (s : State) : Out Unit :=
  match rows.find? (fun e => !rowLive s.cur.sp e.2 s) with
  | some (i, a) => .trap { deadRow a with lane := BitVec.ofNat 5 i, word := wordIndex a } s
  | none => .ok () s

def watchLane (wr : Bool) (e : Nat × BitVec 24) (s : State) : Out Unit :=
  watchV e.2 wr (BitVec.ofNat 5 e.1) (wordIndex e.2) s

/-- The bank group of a local offset: o[13:10] (R372). -/
def bankGroup (off : BitVec 24) : Nat := (off.extractLsb' 10 4).toNat

/-- The rows beyond the first in any one bank, in the order of their lanes, each by its bank group (R207, R372). `seen` are
the banks of the rows before. -/
def bankConflicts : List BankName → List (Nat × BitVec 24) → List Nat
  | _, [] => []
  | seen, e :: t =>
    let b := spadBankOf e.2
    if seen.contains b then bankGroup e.2 :: bankConflicts seen t else bankConflicts (b :: seen) t

/-- Each row beyond the first in any one bank holds V issue for one clock, before the word issues (R207). -/
def serveConflicts (rows : List (Nat × BitVec 24)) (s : State) : Out Unit :=
  match (s.unit .V).serve with
  | none =>
    let l := bankConflicts [] rows
    if l.isEmpty then .ok () s else .hold (s.modUnit .V (fun u => { u with serve := some l }))
  | some l => if l.isEmpty then .ok () s else .hold s

/-- The words gathered, by lane, from rows read one after another. -/
def gatherRows (addr : Nat → BitVec 24) (g : W32) : List (Nat × BitVec 24) → Row → State → Out Row
  | [], acc, s => .ok acc s
  | e :: t, acc, s =>
    (atLane (BitVec.ofNat 5 e.1) (wordIndex e.2) (readSpad s.cur.sp e.2 s)).bind fun row s =>
      gatherRows addr g t (packRow (fun i =>
        if g.getLsbD i && rowOf (addr i) == rowOf e.2 then lane row (wordIndex (addr i)).toNat else lane acc i)) s

/-- SPACE of a PMEM before a word whose lanes reach rows of their own: a fault names the address of the lowest active lane
(R62, R207, R345). -/
def lanesSpace (g : W32) (addr : Nat → BitVec 24) (wr : Bool) (s : State) : Out Unit :=
  if g == 0#32 then .ok () s
  else
    let a := addr (lowLane g).toNat
    atLane (lowLane g) (wordIndex a) (localSpace .V (a.zeroExtend 64) wr s)

/-- VGTH. Where several of its checks fail, SPACE decides before liveness, and liveness before the race watch (log 39). -/
def vgthBody (p : BitVec 3) (pi : BitVec 1) (d : BitVec 5) (x : BitVec 3) (o : BitVec 7) (s : State) : Out Unit :=
  let g := pVal p s
  let base := vBase pi x o s
  (vLiveCheck [d + 1#5] s).bind fun _ s => (vBanks [d + 1#5, d] s).bind fun _ s =>
  let addr := laneAddr base (vVal (d + 1#5) s)
  let rows := rowsTouched addr g
  (lanesSpace g addr false s).bind fun _ s =>
  (rowsLive rows s).bind fun _ s => (if g == 0#32 then .ok () s else orderGate .V false s).bind fun _ s =>
  (wakeRows rows s).bind fun _ s => (serveConflicts rows s).bind fun _ s =>
  (wholeOr s (eachRow (watchLane false) rows s)).bind fun _ s =>
  (gatherRows addr g rows 0#1024 s).bind fun v s =>
    .ok () (postInc pi x o (schedule 14 (.vreg (vName d s)) g v s))

/-- The masked write of the lanes aimed at a row; of two lanes at one word the higher stays. -/
def scatterRow (addr : Nat → BitVec 24) (g : W32) (v : Row) (e : Nat × BitVec 24) (s : State) : Out Unit :=
  let mine := (lanesOf g).filter (fun i => rowOf (addr i) == rowOf e.2)
  let word (j : Nat) : Option Nat := (mine.filter (fun i => (wordIndex (addr i)).toNat == j)).getLast?
  atLane (BitVec.ofNat 5 e.1) (wordIndex e.2) <| writeSpad s.cur.sp e.2 (laneBytes (packMask (fun j => (word j).isSome)))
    (packRow (fun j => match word j with | some i => lane v i | none => 0#32)) s

/-- VSCT. A row that cannot be written traps the word, which has then done nothing (R340). -/
def vsctBody (p : BitVec 3) (pi : BitVec 1) (d : BitVec 5) (x : BitVec 3) (o : BitVec 7) (s : State) : Out Unit :=
  let g := pVal p s
  let base := vBase pi x o s
  (vLiveCheck [d + 1#5, d] s).bind fun _ s => (vBanks [d, d + 1#5] s).bind fun _ s =>
  let addr := laneAddr base (vVal (d + 1#5) s)
  let rows := rowsTouched addr g
  (lanesSpace g addr true s).bind fun _ s =>
  (if g == 0#32 then .ok () s else orderGate .V true s).bind fun _ s =>
  (wakeRows rows s).bind fun _ s => (serveConflicts rows s).bind fun _ s =>
  (wholeOr s (eachRow (watchLane true) rows s)).bind fun _ s =>
  (wholeOr s (eachRow (scatterRow addr g (vVal d s)) rows s)).bind fun _ s => .ok () (postInc pi x o s)

def execVgth (w : Tok) (p : BitVec 3) (i : BitVec 1) (d : BitVec 5) (x : BitVec 3) (o : BitVec 7) (s : State) :=
  vWord w (vgthBody p i d x o) s
def execVsct (w : Tok) (p : BitVec 3) (i : BitVec 1) (d : BitVec 5) (x : BitVec 3) (o : BitVec 7) (s : State) :=
  vWord w (vsctBody p i d x o) s

/-! ### Timed row loads (R208) -/

def vldtBody (p : BitVec 3) (d : BitVec 5) (slot : BitVec 8) (s : State) : Out Unit :=
  (qHead s).bind fun a s =>
  (atLane (lowLane (pVal p s)) (lowLane (pVal p s)) (virtForm a false s)).bind fun _ s => (requestGate s).bind fun _ s => (vBanks [d] s).bind fun _ s =>
  let missed := misses a s
  (requestWalk a (policyOf .V s) s).bind fun _ s =>
    let b : LandEntry :=
      { stream := .V, work := s.unit .V, dest := vName d s, mask := pVal p s, issued := s.me.scyV
        due := s.me.scyV + slot.zeroExtend 64, addr := a, order := orderOf .V s, scope := scopeOf .V s, space := spaceAsk .V s, policy := policyOf .V s
        watch := s.me.rwatch.getLsbD 1, missed := missed, data := none, fault := none }
    .ok () ((qPop s).mapMe (fun k => { k with buffer := k.buffer ++ [b] }))

def execVldt (w : Tok) (p : BitVec 3) (d : BitVec 5) (slot : BitVec 8) (s : State) := vWord w (vldtBody p d slot) s

/-! ### Landings -/

/-- R187: the results due by the V cycle that begins are written. -/
def execVResultLanding (sp : BitVec 7) (r : BitVec 2) (s : State) : Host.Outcome State Fault Refusal :=
  .next (if clocked (s.reck sp r) then landResults sp r s else s)

/-- R142: a pending wide flag whose cycle has come is FULL. -/
def execWideFlagFull (sp : BitVec 7) (r : BitVec 2) (n : BitVec 3) (s : State) : Host.Outcome State Fault Refusal :=
  let k := s.reck sp r
  match k.wide n with
  | .pending due rec' =>
    .next (if clocked k && reached due k.scyV then s.mapReck sp r (fun k => trySignal .V (k.setWide n (.full rec'))) else s)
  | _ => .next s

end Sys2Proof.Machine
end

