-- ==== Sys2Proof/Machine/Ladder.lean ====
section
/-! DEFINITION. The ladder stage: its order (R255), the comparison (R251, R252), the ladder commands (R259
to R263, normalise mode R278), and MSTAT (R264). -/

namespace Sys2Proof.Machine

/-! ### The ladder stage (R255) -/

/-- The array that a K command names; the soft-maximum stage's commands stand with array 0 (R271). -/
def ladderArray : Instr → Option (BitVec 1)
  | .kload _ r _ _ => some r
  | .kpatch _ r _ _ => some r
  | .kgain _ r _ => some r
  | .khist _ r _ => some r
  | .kout _ r _ _ _ _ _ _ => some r
  | .koutD _ r _ _ _ _ _ => some r
  | .smscfg _ _ _ => some 0#1
  | .smsrst _ _ => some 0#1
  | _ => none

/-- The command at the head of a K queue is ready to begin on an array. -/
def ladderReady (x : Span) (arr : BitVec 1) (r : BitVec 2) : Bool :=
  headReady x .K (x.reck r) && ladderArray (headInstr .K (x.reck r)) == some arr

/-- A K command that has begun and has units left, with its place in the ladder order: one that a freeze has cut gives
it up (R257). -/
def ladderRuns (k : Reckoner) : Bool := (k.str .K).active.any (fun c => c.engine && c.underway)

/-- The command of another Reckoner is underway in the ladder order. -/
def ladderTaken (s : State) : Bool := allRecks.any (fun r => r != s.cr && ladderRuns (s.my.reck r))

/-- The Reckoner last served (R255). -/
def serveLadder (arr : BitVec 1) (s : State) : State :=
  s.setMy { s.my with kserved := s.my.kserved.set arr.toNat (some s.cr) (arr.isLt) }

/-- A command leaves its head in ladder order: after the earlier one has applied its units, and round-robin among
the ready ones of its array. One whose arguments are short passes to what they meet. -/
def ladderGate (arr : BitVec 1) (s : State) : Out Unit :=
  let x := s.my
  if !ladderReady x arr s.cr then .ok () s
  else if ladderTaken s then .hold s
  else if (grantOrder (x.kserved[arr.toNat]'(arr.isLt))).find? (ladderReady x arr) == some s.cr then .ok () (serveLadder arr s)
  else .hold s

/-- A command that a freeze has cut goes on as if it followed those that ran meanwhile: when none of them is underway
(R257). -/
def ladderBack (s : State) : Out Unit := if ladderTaken s then .hold s else .ok () s

/-- A K command: what it latches once (R255 stage 4), and what it copies when its begin checks are made (R257). -/
def ladderWord (arr : BitVec 1) (w : Tok) (need : Nat) (n : BitVec 6) (latch copies : State → Cmd → Cmd)
    (check : State → Cmd → Option Flt) (total : Cmd → Nat) (unit close : Cmd → State → Out Cmd) (s : State) :
    Host.Outcome State Fault Refusal :=
  cmdWord .K w (popArgs .K need) n false (ladderGate arr) ladderBack latch copies id check total unit close s

def execKnop (w : Tok) (s : State) := plainWord .K w (fun s => .ok () s) s

/-! ### Local rows -/

/-- The first of some checks that fails. -/
def firstFault (l : List (Option Flt)) : Option Flt := l.findSome? id
def illOf (bad : Bool) (a : W64) : Option Flt := illArg bad a
/-- An address argument without bit 63 is ADDR (R257). -/
def addrOf (a : W64) : Option Flt := if a.getLsbD 63 then none else some (fltAt cADDR a)

/-- The local offset of a row operand, [6:0] ignored. -/
def rowOff (a : W64) : BitVec 24 := a.extractLsb' 0 24 &&& ~~~0x7F#24
/-- Row i from a local offset. -/
def offAt (o : BitVec 24) (i : Nat) : BitVec 24 := o + BitVec.ofNat 24 (128 * i)

/-- `n` rows of the scratchpad from an offset: the first dead one is DEAD before any wake. -/
def readRows (o : BitVec 24) (n : Nat) (s : State) : Out (List Row) :=
  match (List.range n).find? (fun i => !rowLive s.cur.sp (offAt o i) s) with
  | some i => .trap (deadRow (offAt o i)) s
  | none => go (List.range n) s
where
  go : List Nat → State → Out (List Row)
    | [], s => .ok [] s
    | i :: t, s => (readSpad s.cur.sp (offAt o i) s).bind fun v s => (go t s).map fun vs => v :: vs

/-- Word `i` of consecutive rows. -/
def wordOf (rows : List Row) (i : Nat) : W32 := lane (rows.getD (i / 32) 0#1024) (i % 32)

/-! ### The comparison (R251, R252) -/

/-- An accumulator word or a threshold read in a column's type. -/
def ladderVal (isF32 : Bool) (w : W32) : Ext := if isF32 then f32 w else .fin (Dy.ofInt w.toInt)

/-- What enters a comparison beside the word: F, M, G, B. -/
structure Scope where
  f : Ext
  m : Ext
  g : Ext
  b : Ext
  deriving DecidableEq, Repr

def Scope.plain : Scope := ⟨Ext.one, Ext.one, Ext.one, Ext.zero⟩

/-- R252: a gain, offset or maximum that gives every code of its scope the value 0 with INV. -/
def Scope.bad (x : Scope) : Bool := !x.g.isFinite || !x.b.isFinite || !x.m.isFinite

/-- A threshold is exceeded; an undefined Q is not counted. -/
def exceeds (col : LadderCol) (x : Scope) (a : Ext) (t : W32) : Bool :=
  let l := a.mul x.f
  let q := x.m.mul ((x.g.mul (ladderVal col.isF32 t)).add x.b)
  if col.desc then l.lt q else q.lt l

/-- LADDER: the code of a word, and whether INV is raised. -/
def ladderCode (col : LadderCol) (x : Scope) (w : W32) : Nat × Bool :=
  let a := ladderVal col.isF32 w
  if x.bad || a.isNan then (0, true) else (col.t.countP (exceeds col x a), false)

/-- A list of thresholds is non-decreasing and free of NaN (R250). -/
def sortedOk (isF32 : Bool) : List W32 → Bool
  | [] => true
  | [a] => !(ladderVal isF32 a).isNan
  | a :: b :: t => !(ladderVal isF32 a).isNan && !(ladderVal isF32 b).lt (ladderVal isF32 a) && sortedOk isF32 (b :: t)

/-! ### KLOAD (R259) -/

def ArraySt.slot (x : ArraySt) (k : BitVec 2) : Table LadderCol := x.ladder[k.toNat]'(k.isLt)
def ArraySt.putCol (x : ArraySt) (k : BitVec 2) (n : Nat) (c : LadderCol) : ArraySt :=
  { x with ladder := x.ladder.set k.toNat (Table.put (x.slot k) n c) (k.isLt) }

def kloadFirst (c : Cmd) : Nat := ((c.arg 1).extractLsb' 0 8).toNat
def kloadCount (c : Cmd) : Nat := ((c.arg 1).extractLsb' 8 8).toNat

/-- The checks of a KLOAD's begin: the descriptor before the address (log 63). -/
def kloadCheck (_ : State) (c : Cmd) : Option Flt :=
  firstFault [illOf ((c.arg 1).extractLsb' 16 48 != 0#48) (c.arg 1), illOf (128 < kloadFirst c + kloadCount c) (c.arg 1),
    addrOf (c.arg 0)]

/-- The rows that a column image of width K takes. -/
def imageRowsOf (k : Nat) : Nat := (4 * 2 ^ k + 127) / 128

def kloadUnit (arr : BitVec 1) (slot : BitVec 2) (c : Cmd) (s : State) : Out Cmd :=
  let o := rowOff (c.arg 0) + BitVec.ofNat 24 c.part.off
  (readRows o 1 s).bind fun r0 s =>
    let h := wordOf r0 0
    let k := (h.extractLsb' 0 4).toNat
    if h.extractLsb' 6 26 != 0#26 || k = 0 || 8 < k then .trap (flt cILL) s
    else (readRows o (imageRowsOf k) s).bind fun rows s =>
      let t := (List.range (2 ^ k - 1)).map (fun i => wordOf rows (i + 1))
      if !sortedOk (h.getLsbD 5) t then .trap (flt cILL) s
      else
        .ok { c with part := { c.part with off := c.part.off + 128 * imageRowsOf k } }
          (s.mapArray arr (fun x => x.putCol slot (kloadFirst c + c.cursor) ⟨k, h.getLsbD 4, h.getLsbD 5, t⟩))

def execKload (w : Tok) (r : BitVec 1) (k : BitVec 2) (c : BitVec 6) (s : State) :=
  ladderWord r w 2 c noLatch noLatch kloadCheck kloadCount (kloadUnit r k) noClose s

/-! ### KPATCH (R260) -/

/-- The checks of a KPATCH's begin: the descriptor, then the address, then the column of its unit (log 63). -/
def kpatchCheck (_ : State) (c : Cmd) : Option Flt :=
  firstFault [illOf ((c.arg 1).extractLsb' 24 40 != 0#40 || (c.arg 1).getLsbD 7) (c.arg 1), addrOf (c.arg 0)]

/-- The m words from a 4-byte local offset. -/
def readWords (a : W64) (m : Nat) (s : State) : Out (List W32) :=
  if m = 0 then .ok [] s
  else
    let o := a.extractLsb' 0 24
    let j := (o.extractLsb' 2 5).toNat
    (readRows (rowOff a) ((j + m + 31) / 32) s).map fun rows => (List.range m).map (fun i => wordOf rows (j + i))

def kpatchUnit (arr : BitVec 1) (slot : BitVec 2) (c : Cmd) (s : State) : Out Cmd :=
  let n := ((c.arg 1).extractLsb' 0 7).toNat
  let j0 := ((c.arg 1).extractLsb' 8 8).toNat
  let m := ((c.arg 1).extractLsb' 16 8).toNat
  match Table.find? ((s.my.array arr).slot slot) n with
  | none => .trap (deadItem 6 arr.toNat slot.toNat 0 n 0) s
  | some col =>
    if 2 ^ col.k - 1 < j0 + m then .trap (flt cILL) s
    else (readWords (c.arg 0) m s).bind fun new s =>
      let t := col.t.take j0 ++ new ++ col.t.drop (j0 + m)
      if m = 0 then .ok c s
      else if !sortedOk col.isF32 t then .trap (flt cILL) s
      else .ok c (s.mapArray arr (fun x => x.putCol slot n { col with t := t }))

def execKpatch (w : Tok) (r : BitVec 1) (k : BitVec 2) (c : BitVec 6) (s : State) :=
  ladderWord r w 2 c noLatch noLatch kpatchCheck (fun _ => 1) (kpatchUnit r k) noClose s

/-! ### KGAIN (R261) -/

def kgainUnit (arr : BitVec 1) (c : Cmd) (s : State) : Out Cmd :=
  (readRows (rowOff (c.arg 0)) 8 s).bind fun rows s =>
    .ok c (s.mapArray arr (fun x =>
      { x with affine := some ((List.range 128).map (fun r => (wordOf rows r, wordOf rows (128 + r)))) }))

def execKgain (w : Tok) (r : BitVec 1) (c : BitVec 6) (s : State) :=
  ladderWord r w 1 c noLatch noLatch (fun _ c => addrOf (c.arg 0)) (fun _ => 1) (kgainUnit r) noClose s

/-! ### KHIST (R262) -/

/-- A finite f32 above zero. -/
def positive (w : W32) : Bool := (f32 w).isFinite && !(f32 w).isZero && !f32Neg w

def khistCheck (_ : State) (c : Cmd) : Option Flt :=
  let d := c.arg 0
  let h := (d.extractLsb' 8 4).toNat
  firstFault [illOf (d.extractLsb' 4 4 != 0#4 || d.extractLsb' 12 52 != 0#52) d, illOf (h = 0 || 9 ≤ h) d,
    illOf (!positive ((c.arg 1).extractLsb' 0 32) || !positive ((c.arg 1).extractLsb' 32 32)) (c.arg 1)]

def ArraySt.history (x : ArraySt) (n : BitVec 4) : Hist := x.hist[n.toNat]'(n.isLt)
def ArraySt.setHistory (x : ArraySt) (n : BitVec 4) (h : Hist) : ArraySt := { x with hist := x.hist.set n.toNat h (n.isLt) }

def khistUnit (arr : BitVec 1) (c : Cmd) (s : State) : Out Cmd :=
  let d := c.arg 0
  .ok c (s.mapArray arr (fun x => x.setHistory (d.extractLsb' 0 4)
    ⟨(d.extractLsb' 8 4).toNat, (c.arg 1).extractLsb' 0 32, (c.arg 1).extractLsb' 32 32, [], 0⟩))

def execKhist (w : Tok) (r : BitVec 1) (c : BitVec 6) (s : State) :=
  ladderWord r w 2 c noLatch noLatch khistCheck (fun _ => 1) (khistUnit r) noClose s

/-! ### KOUT (R263, R278) -/

/-- The fields of a KOUT descriptor. -/
def koRows (c : Cmd) : Nat := ((c.arg 0).extractLsb' 0 8).toNat
def koCols (c : Cmd) : Nat := ((c.arg 0).extractLsb' 8 8).toNat
def koRa (c : Cmd) : Bool := (c.arg 0).getLsbD 16
def koHist (c : Cmd) : BitVec 4 := (c.arg 0).extractLsb' 17 4
def koMode (c : Cmd) : BitVec 2 := (c.arg 0).extractLsb' 21 2
def koW4 (c : Cmd) : Bool := (c.arg 0).getLsbD 23

/-- Whether a KOUT writes to scratchpad or to a tile, its array, slot, accumulator and DYN bit. -/
structure KoutForm where
  arr : BitVec 1
  slot : BitVec 2
  acc : BitVec 3
  tile : Option (BitVec 4)
  dyn : Bool
  deriving DecidableEq, Repr

/-- Rows and columns of the command. -/
def KoutForm.rows (k : KoutForm) (c : Cmd) : Nat := if k.tile.isSome then cfgRows c.tcfg else koRows c
def KoutForm.cols (k : KoutForm) (c : Cmd) : Nat := if k.tile.isSome then cfgCols c.tcfg else koCols c
/-- The destination holds c4 codes. -/
def KoutForm.four (k : KoutForm) (c : Cmd) : Bool := if k.tile.isSome then cfgType c.tcfg == tC4 else koW4 c

/-- The maximum of a history register (R254). -/
def Hist.max (h : Hist) : W32 :=
  if h.h ≤ h.v then (h.entries.take h.h).foldl (fun m e => if (f32 m).lt (f32 e) then e else m) 0#32 else h.cal

/-- TCFG of the tile that a KOUT names (R255 stage 4). -/
def koutLatch (k : KoutForm) (s : State) (c : Cmd) : Cmd :=
  { c with tcfg := match k.tile with | some t => s.my.cfg t | none => 0#32 }

/-- A KOUT's own copies at its begin: the columns of its slot below COLS, the row affine, F and M (R257; log 46). -/
def koutCopies (k : KoutForm) (s : State) (c : Cmd) : Cmd :=
  let ar := s.my.array k.arr
  let h := ar.history (koHist c)
  { c with
    part := { c.part with
      cols := (ar.slot k.slot).filter (fun e => decide (e.1 < k.cols c))
      affine := if koRa c then ar.affine.getD [] else []
      dynM := h.max, list := [(h.ref, 0#32)] } }

/-- Some column below COLS of the copy fails a test. -/
def someCol (c : Cmd) (p : LadderCol → Bool) : Bool := c.part.cols.any (fun e => p e.2)

/-- The checks of a KOUT's begin, in the order of R263 and R278. -/
def koutCheck (k : KoutForm) (s : State) (c : Cmd) : Option Flt :=
  let d := c.arg 0
  let ar := s.my.array k.arr
  let n := k.cols c
  firstFault [
    illOf (d.extractLsb' 24 40 != 0#40 || decide (2 ≤ (koMode c).toNat) || (!k.dyn && koHist c != 0#4) ||
      (if k.tile.isSome then koW4 c || koRows c != 0 || koCols c != 0
       else koRows c == 0 || decide (128 < koRows c) || koCols c == 0 || decide (128 < koCols c))) d,
    illIf (k.tile.isSome && !usesBook c.tcfg),
    ((List.range n).find? (fun i => (Table.find? c.part.cols i).isNone)).map
      (fun i => deadItem 6 k.arr.toNat k.slot.toNat 0 i 0),
    illIf (k.four c && someCol c (fun l => decide (4 < l.k))),
    if koRa c && ar.affine.isNone then some (deadItem 10 k.arr.toNat 0 0 0 0) else none,
    if k.dyn && (ar.history (koHist c)).h == 0 then some (deadItem 9 k.arr.toNat (koHist c).toNat 0 0 0) else none,
    illIf (koMode c == 1#2 && (k.arr != 1#1 || koRa c || k.dyn || decide (127 < n) || someCol c (fun l => !l.isF32))),
    if k.tile.isNone then addrOf (c.arg 1) else none]

/-- F, M, G, B of row r: the row affine, the dynamic scale, or in normalise mode l of the row (R251, R278). -/
def koutScope (k : KoutForm) (c : Cmd) (acc : AccRow) (r : Nat) : Scope :=
  let x := if k.dyn then { Scope.plain with f := f32 (c.part.list.getD 0 (0#32, 0#32)).1, m := f32 c.part.dynM } else Scope.plain
  if koMode c == 1#2 then { x with g := f32 (accWord acc 127) }
  else if koRa c then
    let gb := c.part.affine.getD r (0#32, 0#32)
    { x with g := f32 gb.1, b := f32 gb.2 }
  else x

/-- A scope of row r is bad whatever the row's words hold (R252): by its row affine or the dynamic scale, not by the word
that a normalise takes from the row. -/
def badScope (k : KoutForm) (c : Cmd) (r : Nat) : Bool := koMode c != 1#2 && (koutScope k c 0#4096 r).bad

/-- The codes of a row. -/
def koutCodes (k : KoutForm) (c : Cmd) (acc : AccRow) (r : Nat) : List (Nat × Bool) :=
  (List.range (k.cols c)).map (fun n =>
    match Table.find? c.part.cols n with
    | some col => ladderCode col (koutScope k c acc r) (accWord acc n)
    | none => (0, false))

/-- The largest magnitude of the non-NaN words read, as f32 (R254, R22). -/
def rowMax (k : KoutForm) (c : Cmd) (acc : AccRow) : W32 :=
  (List.range (k.cols c)).foldl (fun m n =>
    match Table.find? c.part.cols n with
    | some col =>
      let a := (ladderVal col.isF32 (accWord acc n)).abs
      if (f32 m).lt a then rneF32Bits a else m
    | none => m) c.part.hmax

/-- The scale of the blocks that a KOUT writes (R263). An M that is infinite or rounds past the largest S20
has no stated scale (log 20). -/
def koutScale (k : KoutForm) (c : Cmd) : BitVec 20 :=
  if !k.dyn then s20One
  else
    let v := s20OfF32 c.part.dynM
    if !(f32 c.part.dynM).isFinite || v.extractLsb' 11 8 == 0xFF#8 then Config.histScale c.part.dynM else v

/-- R270: the row's reference describes another accumulator. -/
def unbound (s : State) (a : BitVec 3) (r : Nat) : Bool :=
  (Table.find? s.my.sms.rho r).isSome && Table.find? s.my.sms.bind r != some a

/-- The codes of row r written to the destination tile. -/
def putCodes (k : KoutForm) (c : Cmd) (g : BitVec 4) (r : Nat) (codes : List (Nat × Bool)) (t : Tile) : Tile :=
  let t := t.revive c.tcfg r
  let t := (List.range (k.cols c)).foldl (fun t n => t.putElem c.tcfg r n (codes.getD n (0, false)).1) t
  if cfgSc c.tcfg then
    (List.range (cfgCols c.tcfg / 32)).foldl (fun t m => t.putScale c.tcfg r m (scaleWord g g (koutScale k c))) t
  else t

/-- The bytes of row r in scratchpad, and their mask: with W4 and an odd COLS the last byte keeps its upper
nibble. -/
def codeRow (four : Bool) (cols : Nat) (codes : List (Nat × Bool)) (old : Row) : Row × BitVec 128 :=
  let code (n : Nat) : Nat := (codes.getD n (0, false)).1
  let v (j : Nat) : Nat :=
    if four then
      code (2 * j) % 16 + 16 * (if 2 * j + 1 < cols then code (2 * j + 1) % 16 else (old.extractLsb' (8 * j + 4) 4).toNat)
    else code j
  let n := if four then (cols + 1) / 2 else cols
  (BitVec.ofNat 1024 ((List.range n).foldl (fun x j => x + v j * 2 ^ (8 * j)) 0), byteMask 0 n)

/-- The codes of row r driven out. -/
def koutWrite (k : KoutForm) (r : Nat) (codes : List (Nat × Bool)) (c : Cmd) (s : State) : Out Cmd :=
  match k.tile with
  | some t =>
    (useBank s.cur.sp (.tile t) s).bind fun _ s =>
      let g := commandGen t c s
      let (c, s) := if cfgSc c.tcfg then bumpWgen t c s else (c, s)
      .ok c (s.setMy (s.my.setTile t (putCodes k c g r codes (s.my.tile t))))
  | none =>
    let o := offAt (rowOff (c.arg 1)) r
    let old := if rowLive s.cur.sp o s then s.mem.row (spadAddr s.cur.sp o / 128) else 0#1024
    let (v, m) := codeRow (koW4 c) (k.cols c) codes old
    (writeSpad s.cur.sp o m v s).map fun _ => c

/-- An accumulator row as a K command reads it: free words, with no check of its liveness, while a Girder command is
writing it (R240, R256; log 7). -/
def accRead (arr : BitVec 1) (a : BitVec 3) (r : Nat) (s : State) : Out AccRow :=
  let t := s.my.acc arr a
  if beingWritten s.my arr a r then
    let (k, s) := fresh s
    .ok (packAcc (Config.racyWord t.rows k)) s
  else match Table.find? t.rows r with
    | none => .trap (deadItem 3 arr.toNat a.toNat r 0 0) s
    | some v => .ok v s

/-- One row. The words of a row that a Girder command is writing raise nothing (R240). -/
def koutUnit (k : KoutForm) (c : Cmd) (s : State) : Out Cmd :=
  let r := c.cursor
  let wet := beingWritten s.my k.arr k.acc r
  (accRead k.arr k.acc r s).bind fun acc s =>
  if koMode c == 1#2 && unbound s k.acc r then .trap (misItem 12 0 0 r 0 0) s
  else
    (useBank s.cur.sp (.acc k.arr k.acc) s).bind fun _ s =>
      let codes := koutCodes k c acc r
      let inv := if wet then badScope k c r else codes.any (·.2)
      let c := raiseFlags (flagIf inv fINV) { c with part := { c.part with hmax := rowMax k c acc } }
      koutWrite k r codes c s

/-- R254 and R190 at the end: the recorded maximum, the kill of LA. -/
def koutClose (k : KoutForm) (la : BitVec 1) (c : Cmd) (s : State) : Out Cmd :=
  let push (x : ArraySt) : ArraySt :=
    let h := x.history (koHist c)
    x.setHistory (koHist c) { h with entries := (c.part.hmax :: h.entries).take 8, v := min (h.v + 1) 8 }
  let s := if k.dyn then s.mapArray k.arr push else s
  .ok c (if la == 1#1 then killAcc s.cur.sp k.arr k.acc s else s)

def koutWord (k : KoutForm) (w : Tok) (need : Nat) (c : BitVec 6) (la : BitVec 1) (s : State) :=
  ladderWord k.arr w need c (koutLatch k) (koutCopies k) (koutCheck k) k.rows (koutUnit k) (koutClose k la) s

def execKout (w : Tok) (r : BitVec 1) (k : BitVec 2) (a : BitVec 3) (t : BitVec 4) (c : BitVec 6) (l y : BitVec 1) (s : State) :=
  koutWord ⟨r, k, a, some t, y == 1#1⟩ w 1 c l s
def execKoutD (w : Tok) (r : BitVec 1) (k : BitVec 2) (a : BitVec 3) (c : BitVec 6) (l y : BitVec 1) (s : State) :=
  koutWord ⟨r, k, a, none, y == 1#1⟩ w 2 c l s

/-! ### MSTAT (R264) -/

def msRows (c : Cmd) : Nat := ((c.arg 1).extractLsb' 0 8).toNat
def msCols (c : Cmd) : Nat := ((c.arg 1).extractLsb' 8 8).toNat

/-- The checks of an MSTAT's begin: the descriptor before the address (log 63). -/
def mstatCheck (_ : State) (c : Cmd) : Option Flt :=
  firstFault [illOf ((c.arg 1).extractLsb' 17 47 != 0#47 || msRows c == 0 || decide (128 < msRows c) || msCols c == 0 ||
      decide (128 < msCols c)) (c.arg 1),
    addrOf (c.arg 0)]

/-- The words of a row as exact values. -/
def statWords (c : Cmd) (acc : AccRow) : List Ext :=
  (List.range (msCols c)).map (fun n => ladderVal (!(c.arg 1).getLsbD 16) (accWord acc n))

/-- SUM, SSQ and MAX of a row, with the conditions raised. -/
def rowStats (xs : List Ext) : W32 × W32 × W32 × BitVec 8 :=
  if xs.any Ext.isNan then (nan32, nan32, nan32, fINV)
  else
    let sum := rneF32 (xs.foldl Ext.add Ext.zero)
    let ssq := rneF32 (xs.foldl (fun t x => t.add (x.mul x)) Ext.zero)
    let mx := rneF32 (xs.foldl (fun m x => if m.lt x.abs then x.abs else m) Ext.zero)
    (BitVec.ofNat 32 sum.bits, BitVec.ofNat 32 ssq.bits, BitVec.ofNat 32 mx.bits,
     roundFlags sum ||| roundFlags ssq ||| roundFlags mx ||| flagIf (xs.foldl Ext.add Ext.zero).isNan fINV)

/-- Rows written one after another; a fault leaves nothing of them written. -/
def writeRows : List (BitVec 24 × BitVec 128 × Row) → State → Out Unit
  | [], s => .ok () s
  | (o, m, v) :: t, s => (writeSpad s.cur.sp o m v s).bind fun _ s => writeRows t s

/-- Banks of rows made ready, all together (log 35). -/
def readyRows : List (BitVec 24 × BitVec 128 × Row) → State → Out Unit
  | [], s => .ok () s
  | (o, _, _) :: t, s => (useBank s.cur.sp (spadBankOf o) s).also (readyRows t)

/-- The rows of one result from a byte offset: word r of row r / 32. -/
def statRows (o : BitVec 24) (n : Nat) (f : Nat → W32) : List (BitVec 24 × BitVec 128 × Row) :=
  (List.range ((n + 31) / 32)).map (fun i =>
    (offAt o i, laneBytes (packMask (fun j => decide (32 * i + j < n))), packRow (fun j => f (32 * i + j))))

def mstatUnit (arr : BitVec 1) (a : BitVec 3) (c : Cmd) (s : State) : Out Cmd :=
  (accRowsLive arr a (List.range (msRows c)) s).bind fun _ s => (useBank s.cur.sp (.acc arr a) s).bind fun _ s =>
    let stats := (List.range (msRows c)).map (fun r =>
      rowStats (statWords c ((Table.find? (s.my.acc arr a).rows r).getD 0#4096)))
    let g (r : Nat) : W32 × W32 × W32 × BitVec 8 := stats.getD r (0#32, 0#32, 0#32, 0#8)
    let o := rowOff (c.arg 0)
    let rows := statRows o (msRows c) (fun r => (g r).1) ++ statRows (offAt o 4) (msRows c) (fun r => (g r).2.1) ++
      statRows (offAt o 8) (msRows c) (fun r => (g r).2.2.1)
    (readyRows rows s).bind fun _ s => (wholeOr s (writeRows rows s)).map fun _ =>
      raiseFlags (stats.foldl (fun f x => f ||| x.2.2.2) 0#8) c

def execMstat (w : Tok) (r : BitVec 1) (a : BitVec 3) (c : BitVec 6) (s : State) :=
  girderWord w (popArgs .M 2) c noLatch mstatCheck (fun _ => 1) (mstatUnit r a) noClose s

end Sys2Proof.Machine
end

