-- ==== Sys2Proof/Machine/Attention.lean ====
section
/-! DEFINITION. The soft-maximum stage (R265 to R271), SMSCFG, SMSRST (R273, R274), MATTN (R275, R276), MEXPSH
(R268, R277). -/

namespace Sys2Proof.Machine

/-! ### Configuration and references (R273, R274) -/

def smscfgCheck (_ : State) (c : Cmd) : Option Flt :=
  firstFault [illOf ((c.arg 0).extractLsb' 32 32 != 0#32) (c.arg 0), illOf ((c.arg 1).extractLsb' 4 60 != 0#60) (c.arg 1),
    illOf (!positive ((c.arg 0).extractLsb' 0 32)) (c.arg 0)]

def smscfgUnit (k : BitVec 2) (c : Cmd) (s : State) : Out Cmd :=
  .ok c (s.setMy { s.my with sms := { s.my.sms with
    cfg := ⟨true, (c.arg 0).extractLsb' 0 32, k, (c.arg 1).extractLsb' 0 3, (c.arg 1).getLsbD 3⟩ } })

def execSmscfg (w : Tok) (k : BitVec 2) (c : BitVec 6) (s : State) :=
  ladderWord 0#1 w 2 c noLatch noLatch smscfgCheck (fun _ => 1) (smscfgUnit k) noClose s

/-- A 128-bit row or key mask from two arguments. -/
def maskBit (lo hi : W64) (n : Nat) : Bool := (hi ++ lo : BitVec 128).getLsbD n

def smsrstUnit (c : Cmd) (s : State) : Out Cmd :=
  let keep {α : Type} (t : Table α) : Table α := t.filter (fun e => !maskBit (c.arg 0) (c.arg 1) e.1)
  .ok c (s.setMy { s.my with sms := { s.my.sms with rho := keep s.my.sms.rho, bind := keep s.my.sms.bind } })

def execSmsrst (w : Tok) (c : BitVec 6) (s : State) :=
  ladderWord 0#1 w 2 c noLatch noLatch (fun _ _ => none) (fun _ => 1) smsrstUnit noClose s

/-! ### Shifts (R268) -/

/-- SHIFT(w, e) and the conditions it raises. -/
def shiftWord (e : Int) (w : W32) : W32 × BitVec 8 :=
  match f32 w with
  | .nan => (nan32, fINV)
  | .inf _ => (w, 0#8)
  | .fin d =>
    if d.isZero then (w, 0#8)
    else
      let r := rneF32 (.fin (d.scale e))
      (BitVec.ofNat 32 r.bits, roundFlags r)

/-- Every word of a row shifted. -/
def shiftRow (e : Int) (row : AccRow) : AccRow × BitVec 8 := updateRow (fun _ => true) (fun _ w => shiftWord e w) row

/-! ### MEXPSH (R277) -/

/-- The masked rows, ascending. -/
def maskedRows (c : Cmd) : List Nat := (List.range 128).filter (maskBit (c.arg 0) (c.arg 1))

def mexpshUnit (arr : BitVec 1) (a : BitVec 3) (c : Cmd) (s : State) : Out Cmd :=
  let r := (maskedRows c).getD c.cursor 0
  match Table.find? (s.my.acc arr a).rows r with
  | none => .trap (deadItem 3 arr.toNat a.toNat r 0 0) s
  | some row =>
    (useBank s.cur.sp (.acc arr a) s).bind fun _ s =>
      let (v, fl) := shiftRow ((c.arg 2).extractLsb' 0 16).toInt row
      .ok (raiseFlags fl c) (s.setMy (s.my.setAcc arr a ((s.my.acc arr a).putRow r v)))

def execMexpsh (w : Tok) (r : BitVec 1) (a : BitVec 3) (c : BitVec 6) (s : State) :=
  girderWord w (popArgs .M 3) c noLatch (fun _ c => illOf ((c.arg 2).extractLsb' 16 48 != 0#48) (c.arg 2))
    (fun c => (maskedRows c).length) (mexpshUnit r a) noClose s

/-! ### Scoring one row (R267) -/

/-- What a row's scoring comes to: its new reference, none where reference and binding stand, the code of
each key, and the conditions raised. -/
structure Scored where
  rho : Option Int
  code : Nat → Nat
  flags : BitVec 8

/-- The largest of some scores. -/
def maxScore : List Ext → Ext
  | [] => .nan
  | x :: t => t.foldl (fun m y => if m.lt y then y else m) x

/-- ceil(m / Λ), clamped, and whether SAT is raised. -/
def binade (m : Ext) (lam : W32) : Int × Bool :=
  match m with
  | .inf n => (if n then -32767 else 32767, true)
  | .nan => (0, false)
  | .fin d =>
    match f32 lam with
    | .fin l =>
      let c := d.ceilDiv l
      (clampInt (-32767) 32767 c, decide (c < -32767) || decide (32767 < c))
    | _ => (0, false)

/-- SMSROW without its shift: `rho` is the row's reference, −32768 when it has none. -/
def smsRow (lam : W32) (thr : List W32) (rho : Int) (active : List Nat) (score : Nat → Ext) : Scored :=
  if active.isEmpty then ⟨none, fun _ => 0, 0#8⟩
  else if active.any (fun n => (score n).isNan) then ⟨none, fun _ => 0, fINV⟩
  else
    let (c, sat) := binade (maxScore (active.map score)) lam
    let new := max rho c
    let base := (Ext.fin (Dy.ofInt new)).mul (f32 lam)
    ⟨some new, fun n => if active.contains n then thr.countP (fun t => ((f32 t).add base).lt (score n)) else 0, flagIf sat fSAT⟩

/-! ### MATTN (R275) -/

/-- The masks popped at stage 4: two arguments of q1, then two of q2, together, q2 in the order in which the K and M
engines reach their argument stages (R275). -/
def mattnArgs (s : State) : Out (List W64) :=
  let s := s.mapMe (takeTurn .M)
  let short := decide (s.me.q[1].length < 2) || decide (s.me.q[2].length < 2)
  if short then
    if s.me.run == .draining then .trap (flt cQPROTO) s else .hold s
  else if behind .M s.me then .hold s
  else
    let push := (pushesOf .M s.me).head?
    if !pushPerformed push s.me then .hold (markWaits .S (fun b => beforePush push b.work.seq) s)
    else
      .ok (s.me.q[1].take 2 ++ s.me.q[2].take 2) (s.mapMe (fun k => dropArgs .K 2 (dropArgs .M 2 (leaveTurn .M k))))

/-- The copies of R271: the configuration, column 0 of SLOT, codebook CB. -/
def mattnLatch (t : BitVec 4) (s : State) (c : Cmd) : Cmd :=
  let cfg := s.my.sms.cfg
  { c with
    tcfg := s.my.cfg t
    part := { c.part with
      sms := cfg
      cols := ((s.my.array 0#1).slot cfg.slot).filter (fun e => e.1 == 0)
      book := (s.my.book cfg.cb).getD [] } }

/-- The stage's thresholds as copied. -/
def smsColumn (c : Cmd) : LadderCol := (Table.find? c.part.cols 0).getD ⟨0, false, false, []⟩

/-- The checks of a MATTN's begin, in order (R241, R266, R275). -/
def mattnCheck (s : State) (c : Cmd) : Option Flt :=
  let cfg := c.part.sms
  let ws0 := (heldSet c 0#1 s).ws
  let ws1 := (heldSet c 1#1 s).ws
  let col := smsColumn c
  firstFault [
    illIf (cfgRows c.tcfg == 0 || !streamType c.tcfg || cfgCols c.tcfg != ws0.k || ws0.w == 0 || ws1.k != ws0.w ||
      noBands c 0#1 || noBands c 1#1),
    if !cfg.configured then some (deadItem 11 0 0 0 0 0) else none,
    if c.part.cols.isEmpty then some (deadItem 6 0 cfg.slot.toNat 0 0 0) else none,
    illIf (col.k != 8 || col.desc || !col.isF32),
    if (s.my.book cfg.cb).isNone then some (deadItem 5 0 cfg.cb.toNat 0 0 0) else none,
    illIf (c.part.book.length != 256 || !(bf16 (c.part.book.getD 0 0#16)).isZero),
    illIf (cfg.ones && !bandIn c 1#1 3)]

/-- ACT: the key columns that the mask admits. -/
def activeKeys (c : Cmd) (s : State) : List Nat :=
  (List.range 128).filter (fun n => colIn c 0#1 (heldSet c 0#1 s).ws.w n && maskBit (c.arg 2) (c.arg 3) n)

/-- Column `j` reads as ones. -/
def onesColumn (c : Cmd) (j : Nat) : Bool := c.part.sms.ones && j == 127
/-- OUT: the value columns, and the column of ones. -/
def outColumn (c : Cmd) (s : State) (j : Nat) : Bool := colIn c 1#1 (heldSet c 1#1 s).ws.w j || onesColumn c j

/-- The first block out of step among some columns of a weight set. -/
def blocksInStep (c : Cmd) (arr : BitVec 1) (cols : List Nat) (s : State) : Out Unit :=
  let ws := (heldSet c arr s).ws
  if !ws.scaled then .ok () s
  else
    let pairs := cols.flatMap (fun n => (List.range ((ws.k + 31) / 32)).map (fun b => (n, b)))
    match pairs.find? (fun e => !inStep ((ws.col e.1).scales.getD e.2 0#32)) with
    | some (n, b) => .trap (misItem 8 arr.toNat 0 0 n b) s
    | none => .ok () s

/-- The checks of a row, in order (R275). -/
def mattnRowChecks (a : BitVec 3) (t : BitVec 4) (z : BitVec 1) (row : Nat) (c : Cmd) (s : State) : Out Unit :=
  let tileStep (s : State) : Out Unit :=
    if !cfgSc c.tcfg then .ok () s
    else match (List.range (blocksOf c.tcfg)).find? (fun b => !inStep ((s.my.tile t).scale c.tcfg row b)) with
      | some b => .trap (misItem 2 0 t.toNat row 0 b) s
      | none => .ok () s
  (bandsLive c 0#1 s).bind fun _ s => (bandsLive c 1#1 s).bind fun _ s => (tileLiveCheck t [row] s).bind fun _ s =>
  (bookCheck c.tcfg s).bind fun _ s => (accRowsLive 1#1 a (if z == 1#1 then [] else [row]) s).bind fun _ s =>
  if unbound s a row then .trap (misItem 12 0 0 row 0 0) s
  else (tileStep s).bind fun _ s => (blocksInStep c 0#1 (activeKeys c s) s).bind fun _ s =>
    blocksInStep c 1#1 ((List.range 128).filter (fun j => outColumn c s j && !onesColumn c j)) s

/-- The score of a key: what MMA with Z = 1 would leave, and its conditions (R36). -/
def scoreOf (t : Tile) (cfg : W32) (book : List (BitVec 16)) (ws : WeightSet) (row n : Nat) : W32 × BitVec 8 :=
  (List.range (blocksOf cfg)).foldl (fun acc b =>
    let bs := blockSum (cfgCols cfg) b (fun k => (tileElem t cfg book row k).mul ((ws.col n).w.getD k Ext.zero))
    let r := addBlock acc.1 (contrib bs (tileScale t cfg row b) (colScale ws n b))
    (r.1, acc.2 ||| r.2)) (0#32, 0#8)

/-- The value word of column `j` after every block of keys (R275, R276): a key of code 0 forms no product. -/
def valueWord (c : Cmd) (ws : WeightSet) (code : Nat → Nat) (j : Nat) (old : W32) : W32 × BitVec 8 :=
  (List.range ((ws.k + 31) / 32)).foldl (fun acc b =>
    let bs := blockSum ws.k b (fun n =>
      if code n = 0 then Ext.zero
      else (bf16 (c.part.book.getD (code n) 0#16)).mul
        (if onesColumn c j then Ext.one else (ws.col j).w.getD n Ext.zero))
    let r := addBlock acc.1 (contrib bs scaleOne (if onesColumn c j then scaleOne else colScale ws j b))
    (r.1, acc.2 ||| r.2)) (old, 0#8)

/-- A row's step: zeroing, scores, reference, shift, sums, all at once (R275). -/
def attendRow (a : BitVec 3) (t : BitVec 4) (z : BitVec 1) (row : Nat) (c : Cmd) (s : State) : Cmd × State :=
  let book := (s.my.book (cfgCb c.tcfg)).getD []
  let ws0 := (heldSet c 0#1 s).ws
  let ws1 := (heldSet c 1#1 s).ws
  let active := activeKeys c s
  let scores := active.map (fun n => (n, scoreOf (s.my.tile t) c.tcfg book ws0 row n))
  let score (n : Nat) : Ext := f32 ((Table.find? scores n).getD (0#32, 0#8)).1
  let old := if z == 1#1 then 0#4096 else (Table.find? (s.my.acc 1#1 a).rows row).getD 0#4096
  let rho := (Table.find? s.my.sms.rho row).getD (-32768)
  let x := smsRow c.part.sms.lam (smsColumn c).t rho active score
  let (acc, fsh) := match x.rho with
    | some new => if rho != -32768 && decide (rho < new) then shiftRow (-(new - rho)) old else (old, 0#8)
    | none => (old, 0#8)
  let (acc, fv) := updateRow (outColumn c s) (valueWord c ws1 x.code) acc
  let sms := match x.rho with
    | some new => { s.my.sms with rho := Table.put s.my.sms.rho row new, bind := Table.put s.my.sms.bind row a }
    | none => s.my.sms
  let s := s.setMy { s.my with sms := sms }
  let s := s.setMy (s.my.setAcc 1#1 a ((s.my.acc 1#1 a).putRow row acc))
  (raiseFlags (scores.foldl (fun f e => f ||| e.2.2) (x.flags ||| fsh ||| fv)) c, touchArray c 1#1 (touchArray c 0#1 s))

def mattnUnit (a : BitVec 3) (t : BitVec 4) (z : BitVec 1) (c : Cmd) (s : State) : Out Cmd :=
  let row := c.cursor
  (wakeBands c 0#1 s).bind fun _ s => (wakeBands c 1#1 s).bind fun _ s =>
  if !maskBit (c.arg 0) (c.arg 1) row then .ok c s
  else
    (mattnRowChecks a t z row c s).bind fun _ s => (wakeItems t 1#1 a s).bind fun _ s =>
      let (c, s) := attendRow a t z row c s
      .ok c s

def execMattn (w : Tok) (a : BitVec 3) (t : BitVec 4) (c : BitVec 6) (z l : BitVec 1) (s : State) :=
  girderWord w mattnArgs c (mattnLatch t) mattnCheck (fun c => cfgRows c.tcfg) (mattnUnit a t z) (killAtEnd l t) s

end Sys2Proof.Machine
end

