-- ==== Sys2Proof/Machine/Link.lean ====
section
/-! DEFINITION. Viaduct links: the receiver (R380), lane shedding (R385), the replay interval (R384), fabric
enumeration (R382). -/

namespace Sys2Proof.Machine

/-! ### The receiver (R380) -/

/-- The flit comes from before the number expected: it has been accepted already. -/
def oldSeq (next seq : BitVec 12) : Bool := decide (2048 ≤ (seq - next).toNat)

/-- What this device holds at an address of its own map that a flit may reach: memory, never device registers
(R106). -/
def flitTarget (s : State) (a : Nat) : Option Target :=
  match placeOwn s a with
  | .hbm => some (.phys a)
  | .deck => some (.phys a)
  | .cxl => some (.phys a)
  | .spad n => some (.spad n (BitVec.ofNat 24 a))
  | _ => none

/-- What an atomic of the ordered class makes of its unit at the home (R307, R311). -/
def flitAtomic (op : BitVec 7) (x e old : W64) : Option W64 × W64 :=
  if op = 0x41#7 then
    let (v, res) := aaddbOp (old.extractLsb' 0 32) x
    (v.map (·.zeroExtend 64), res)
  else if op < 0x38#7 || 0x41#7 < op then (none, old)
  else atomicOp op old x e

/-- An access of the ordered class served at its home and answered (R104, R107, R381): with what it gives, or with the
cause that it meets. A bank that wakes holds the flit. -/
def serveFlit (dst : BitVec 8) (a : BitVec 43) (o : Out FlitBody) : Out Unit :=
  match o with
  | .ok d s => .ok () (sendFlit dst d s)
  | .hold s => .hold s
  | .trap f s => .ok () (sendFlit dst (.failed a f.cause) s)

/-- An access of another device at the target that its address names; a hole is PROT (R107). -/
def atHome (f : Flit) (a : BitVec 43) (act : Target → State → Out FlitBody) (s : State) : Out Unit :=
  serveFlit f.src a (match flitTarget s a.toNat with
    | some t => act t s
    | none => .trap (flt cPROT) s)

/-- What the acceptance of a flit brings about on this device. A response answers the oldest access that waits for it. A
window update that meets an error is lost (log 11). -/
def acceptBody (f : Flit) (s : State) : Out Unit :=
  if f.dst != s.fabric.dev then .ok () s
  else match f.body with
    | .store a mask d => atHome f a (fun t s => (writeTarget t mask d s).map (fun _ => .stored a)) s
    | .load a => atHome f a (fun t s => (readTarget t s).map (fun d => .data a d)) s
    | .atomic a op x e =>
      atHome f a (fun t s => (modifyUnit t (if op = 0x41#7 then 4 else 8) (flitAtomic op x e) s).map (fun v => .old a v)) s
    | .window a op x =>
      if windowOp op && (flitTarget s a.toNat).isSome then
        match applyUpdate (a.toNat / 8 * 8) op x s with
        | .trap _ s => .ok () s
        | o => o
      else .ok () s
    | .arrival g => .ok () { s with fabric := { s.fabric with arrived := s.fabric.arrived ++ [(f.src, g)] } }
    | .data _ _ => .ok () (mapRequests (answerFirst f.src f.body) s)
    | .old _ _ => .ok () (mapRequests (answerFirst f.src f.body) s)
    | .stored _ => .ok () (mapRequests (answerFirst f.src f.body) s)
    | .failed _ _ => .ok () (mapRequests (answerFirst f.src f.body) s)
    | _ => .ok () s

/-- The flits of a replay buffer that are left when those before a number, or up to it, have been accepted; a number that
none of them bears leaves them all. -/
def Link.settleTo (n : BitVec 12) (upTo : Bool) (l : Link) : Link :=
  match l.buffer.findIdx? (fun f => f.seq == n) with
  | some i => { l with buffer := l.buffer.drop (if upTo then i + 1 else i) }
  | none => if !upTo && n == l.send then { l with buffer := [] } else l

/-- What the far receiver says of this link's own flits: an acknowledgement up to a number, or a replay from
a number, which the sender answers from its buffer (R380). Room in the buffer takes the flits that wait. -/
def acceptControl (src : BitVec 8) (b : FlitBody) (l : Link) : Link :=
  match b with
  | .ack n => Link.fill src (l.settleTo n true)
  | .replay n => Link.fill src { l.settleTo n false with replays := l.replays + 1 }
  | _ => l

/-- The receiver's word to the sender: an acknowledgement, or a replay request (R380, log 11). -/
def Link.tell (b : FlitBody) (l : Link) : Link := { l with told := l.told ++ [b] }

/-- R380: a receiver takes the flit with the number it expects, and acknowledges it; for a bad check or a gap it asks
for a replay from the first missing number; a flit accepted before is discarded. -/
def execFlitReceive (link : BitVec 4) (f : Flit) (s : State) : Host.Outcome State Fault Refusal :=
  let i : Fin 16 := ⟨link.toNat, link.isLt⟩
  let l := s.fabric.link[i]
  .next (if !l.up then s
    else if f.good && f.seq == l.next then
      match acceptBody f (mapLink i (fun l => acceptControl s.fabric.dev f.body (Link.tell (.ack f.seq) { l with next := l.next + 1#12 })) s) with
      | .ok _ s => s
      | .hold s => mapLink i (fun _ => l) s
      | .trap _ s => s
    else if f.good && oldSeq l.next f.seq then s
    else mapLink i (fun l => Link.tell (.replay l.next) { l with replays := l.replays + 1 }) s)

/-! ### The replay count (R384, R385) -/

/-- The interval of a link ends: REPL takes its count, and a count above the threshold is to shed a step. -/
def endReplays (thresh : BitVec 16) (l : Link) : Link :=
  { l with repl := BitVec.ofNat 16 (min l.replays 0xFFFF), replays := 0
           shed := l.up && (l.shed || (thresh != 0#16 && decide (thresh.toNat < l.replays))) }

def execReplayIntervalEnd (link : BitVec 4) (s : State) : Host.Outcome State Fault Refusal :=
  .next (mapLink ⟨link.toNat, link.isLt⟩ (endReplays s.fabric.thresh) s)

/-- One step fewer lanes: 8, 4, 2, then down (R385). -/
def shedStep (l : Link) : Link :=
  if l.lanes = 8#4 then { l with lanes := 4#4, shed := false }
  else if l.lanes = 4#4 then { l with lanes := 2#4, shed := false }
  else { l with lanes := 0#4, state := 0#2, shed := false }

/-- The flits of a link that went down, on another link in the same order: its replay buffer, then what waited for room
in it (R385). -/
def handOver (l : Link) (s : State) : State :=
  (l.buffer.map (fun f => (f.dst, f.body)) ++ l.queue).foldl (fun s w => sendFlit w.1 w.2 s) s

/-- R385: a link whose count passed the threshold sheds a step, and sends its replay buffer again; one that
goes down hands its traffic to the other links. When none is left, what was in flight never arrives, and raises ECC as it is
tried again (askHome, deliver). -/
def execLaneShed (link : BitVec 4) (s : State) : Host.Outcome State Fault Refusal :=
  let i : Fin 16 := ⟨link.toNat, link.isLt⟩
  let l := s.fabric.link[i]
  .next (if !(l.up && l.shed) then s
    else
      let s' := mapLink i shedStep s
      if s'.fabric.link[i].up || (upLink s').isNone then s'
      else handOver l (mapLink i (fun l => { l with buffer := [], queue := [] }) s'))

/-! ### Enumeration (R16 step 5, R382) -/

/-- A link after training. -/
def trained (up : Bool) (l : Link) : Link :=
  { l with lanes := if up then 8#4 else 0#4, state := if up then 2#2 else 0#2 }

/-- R382: the links train and this device takes its DEV, once, after the earlier steps of R16. -/
def execFabricEnumeration (dev : BitVec 8) (links : BitVec 16) (s : State) : Host.Outcome State Fault Refusal :=
  .next (if s.fabric.enumerated || decide (s.boot < 2) then s
    else
      { s with
        boot := 5
        fabric := { s.fabric with
          dev := dev, enumerated := true
          link := Vector.ofFn (fun (i : Fin 16) => trained (links.getLsbD i.val) s.fabric.link[i]) } })

end Sys2Proof.Machine
end

