-- ==== Sys2Proof/Machine/System.lean ====
section
/-! DEFINITION. SYNC (R321 to R323), REGION (R353), TRAP and BRK (R350), ERET (R351), EXIT (R150), NODE (R335),
LAUNCH (R336), SPHINT (R197), the prefix words (R60 to R63). -/

namespace Sys2Proof.Machine

/-! ### The drain of SYNC, REGION and NODE (R321, R322) -/

/-- A stream has nothing queued, nothing in execution and owes no signal. -/
def emptyStream (e : Stream) (k : Reckoner) : Bool :=
  let t := k.str e
  t.queue.isEmpty && t.active.isNone && t.sig.isNone

/-- The streams beside S. -/
def otherStreams : List Stream := [.V, .M, .K, .C, .Q]

/-- Every word steered earlier is complete, whether or not its signals have found room (R51), the landing buffer is empty,
posted stores are performed and window atomics accepted. -/
def drained (k : Reckoner) : Bool :=
  otherStreams.all (fun e => (k.str e).queue.isEmpty && (k.str e).active.isNone) && sQuiet k && vQuiet k

/-- The V words that take q0 (R187). -/
def takesScalar : Instr → Bool
  | .vbcast _ _ _ => true
  | .vamov _ _ => true
  | .vrms _ => true
  | .vmovt _ _ _ => true
  | .vmova _ _ _ => true
  | .vldt _ _ _ _ => true
  | _ => false

/-- The arguments that a command pops are short: q1 to q4 of its stream, and q2 for MATTN (R55, R267). -/
def argsShort (e : Stream) (i : Instr) (k : Reckoner) : Bool :=
  decide ((k.q[(argQueue e).val]).length < argNeed i) ||
  (match i with | .mattn _ _ _ _ _ _ => decide (k.q[2].length < 2) | _ => false)

/-- The unit at the head of an idle stream of commands, its gap elapsed. -/
def waitingHead (x : Span) (e : Stream) (k : Reckoner) : Option Work :=
  let t := k.str e
  if t.active.isNone && t.sig.isNone && paced e k x.clock then t.queue.head? else none

/-- A command holds for arguments that only the S stream could push (R322). -/
def argStranded (x : Span) (r : BitVec 2) (k : Reckoner) (e : Stream) : Bool :=
  match waitingHead x e k with
  | some u => u.waited && (e != .M || x.lease.holder == some r) && argsShort e u.instr k
  | none => false

/-- A C or Q word holds for a token of the S stream at 0 (R322). -/
def tokStranded (x : Span) (k : Reckoner) (e : Stream) (side : Nat) (i : Fin 12) : Bool :=
  match waitingHead x e k with
  | some u => !u.waited && (Decode.fld (encode u.instr) 25 4).getLsbD side && k.tok[i.val] == 0#4
  | none => false

/-- A V word holds for q0 (R322). -/
def vStranded (k : Reckoner) : Bool :=
  match (k.str .V).queue.head? with
  | some u => u.waited && takesScalar u.now && k.q[0].isEmpty
  | none => false

/-- R322: a word steered earlier waits for what only the S stream can supply. -/
def stranded (x : Span) (r : BitVec 2) (k : Reckoner) : Bool :=
  cmdStreams.any (argStranded x r k) || vStranded k || tokStranded x k .C 3 (tokNext .S) ||
  tokStranded x k .Q 2 (tokPred .S)

/-- The drain: QPROTO where it can never end, a hold until it has ended. -/
def drainGate (s : State) : Out Unit :=
  if stranded s.my s.cr s.me then .trap (flt cQPROTO) s
  else if drained s.me then .ok () s else .hold s

/-! ### SYNC -/

/-- SYNC: at level 0 it is done once drained; else the thread arrives, once, and S holds until its barrier
completes (R321). -/
def syncBody (s : State) : Out Unit :=
  (drainGate s).bind fun _ s =>
    let s := setUnsafe s
    if s.me.level = 0#3 then .ok () s
    else .hold (s.mapMe (fun k => { k with wait := .arrived k.level }))

def execSync (w : Tok) (s : State) := sOnly w syncBody s

/-! ### REGION -/

/-- R353: the restart marker; in restart mode a drain first, and what a restart brings back is saved. -/
def regionBody (s : State) : Out Unit :=
  let next := (s.unit .S).pc + 4#52
  if restartMode s s.cur.sp then
    (drainGate s).bind fun _ s =>
      .ok () (s.mapMe (fun k =>
        { k with restart := { point := next, tok := k.tok, rrb := k.rrb, lc := k.lc, dirty := false } }))
  else .ok () (s.mapMe (fun k => { k with restart := { k.restart with point := next } }))

def execRegion (w : Tok) (s : State) := sOnly w regionBody s

/-! ### TRAP and BRK -/

/-- The word has taken effect and owes its signals (R350). -/
def tookEffect (w : Tok) (s : State) : State :=
  let u := s.unit .S
  s.mapMe (fun k => k.modStr .S (fun t =>
    { dropHead .S t with sig := sigOf w, held := false, waits := [], acted := true, lastActed := u.seq }))

/-- R350: the word traps after its effect; ADDR is its immediate, and RESUME the next unsteered unit. -/
def trapAfter (w : Tok) (c : BitVec 8) (imm : BitVec 13) (s : State) : State :=
  match waitTokens .S w s with
  | none => held .S s
  | some s =>
    raiseTrap s.cur.sp s.cr { trapInfo .S (s.unit .S) 0 (fltAt c (imm.zeroExtend 64)) with after := true }
      (tookEffect w s)

/-- A session is granted a node: the node carries its tag, and the record names its certificate digest (R373). -/
def granted (t : Session) (n : Node) : Bool := t.done && t.tag == nodeTag n && Config.recordNames n.record t.digest

/-- The finished sessions that hold a Span (R369, R373). -/
def holders (s : State) (sp : BitVec 7) : List Session :=
  match nodeOn s sp with
  | some n => s.trust.sessions.filter (fun t => granted t n)
  | none => []

/-- A thread stands at a debug stop: a freeze with no record (R368, R371), reported to the sessions that hold its
Span (R369). -/
def stopThread (sp : BitVec 7) (r : BitVec 2) (why : BitVec 3) (imm : BitVec 13) (s : State) : State :=
  let told := (holders s sp).map (fun t => SpdmReply.stopped t.id (ridOf sp r))
  let s := s.mapReck sp r (fun k =>
    { freezeCmds [] s sp r k with stop := some ⟨why, imm⟩, pend := [] })
  { s with trust := { s.trust with out := s.trust.out ++ told } }

/-- A claimed BRK is a debug stop (R371), with which the faults that the thread has met on this clock are taken: the thread
freezes once (R370). Where no session holds the Span, the stop is taken as a BRK trap (R369). -/
def claimedBrk (w : Tok) (imm : BitVec 13) (s : State) : State :=
  match waitTokens .S w s with
  | none => held .S s
  | some s =>
    if (holders s s.cur.sp).isEmpty then
      raiseTrap s.cur.sp s.cr { trapInfo .S (s.unit .S) 0 (fltAt cBRK (BitVec.allOnes 64)) with after := true } (tookEffect w s)
    else
      let s := tookEffect w s
      let s := if s.me.faults.isEmpty then s else takeFaults s.cur.sp s.cr s
      if s.me.run == .idle then s else stopThread s.cur.sp s.cr 2#3 imm s

def execTrap (w : Tok) (i : BitVec 13) (s : State) : Host.Outcome State Fault Refusal :=
  .next (if s.atTender then quarantine s.cur.sp s else trapAfter w cSWTRAP i s)

def execBrk (w : Tok) (i : BitVec 13) (s : State) : Host.Outcome State Fault Refusal :=
  .next (if s.atTender then quarantine s.cur.sp s
    else if s.me.claim then claimedBrk w i s else trapAfter w cBRK i s)

/-! ### ERET -/

/-- ERET at a Reckoner raises PROT; at the tender it resumes the thread named by TSEL (R351). -/
def eretBody (s : State) : Out Unit := if s.atTender then .ok () (eret s) else .trap (flt cPROT) s

def execEret (w : Tok) (s : State) := sWord w eretBody s

/-! ### EXIT -/

/-- R150: the thread's fetch stops, and it drains; at the tender, a return to idle (R348). -/
def exitBody (s : State) : Out Unit :=
  if s.atTender then .ok () (s.mapTender s.cur.sp (fun t => { t with running := false, pend := [] }))
  else .ok () (s.mapMe (fun k => { k with run := .draining, exitPc := (s.unit .S).pc }))

def execExit (w : Tok) (s : State) := sWord w exitBody s

/-! ### NODE -/

/-- The registers that a thread keeps when it is taken (R335). -/
def takenOf (x : Span) (k : Reckoner) (i : Nat) (r : BitVec 2) (pc : BitVec 52) : TakenThread :=
  { sp := i, r := r, pc := pc, g := k.g, mdef := k.mdef, vrm := k.vrm, cobase := k.cobase, rrb := k.rrb, lc := k.lc
    tcfg := x.tcfg, ashape := x.ashape, bgidle := x.bgidle, bret := k.bret, boff := k.boff, vqcb := k.vqcb, ag := k.ag
    level := k.level, pace := k.pace, rwatch := k.rwatch, dbgcmp := k.dbgcmp, scyS := k.scyS, scyV := k.scyV }

/-- What a thread leaves behind when it is taken: the entries of q0 to q7 and its wide-flag records go
(R335). q7 is its predecessor's q6. -/
def takeReck (sp : BitVec 7) (r : BitVec 2) (s : State) : State :=
  let x := s.span sp
  let s := s.mapReck sp (ringPrev x r) (fun k => { k with q := k.q.set 6 [] })
  s.mapReck sp r (fun k =>
    { k with run := .taken, q := Vector.replicate 7 [], argSeq := Vector.replicate 4 [], q2turn := []
             w := Vector.replicate 8 .empty, pend := []
             streams := k.streams.map (fun t =>
               { t with queue := [], sig := none, active := none, held := false, waits := [], acted := false }) })

/-- Every thread of the node on a Span has been taken, or has retired. -/
def allTaken (x : Span) : Bool :=
  (nodeRecks x).all (fun r => (x.reck r).run == .taken || (x.reck r).run == .retired)

/-- The node gives way once none of its Spans is left to it (R334): it stands in dispatch order again with its
record PRIO, aged from now. -/
def giveWay (id : Nat) (s : State) : State :=
  if (spansOf s id).isEmpty then
    { mapNode id (fun n => { n with status := .preempted, eff := recPrio n.record, since := s.interval, preempt := none }) s with
      victim := if s.victim == some id then none else s.victim }
  else s

/-- The contexts of a node that stand to be restored: their Spans have been given to it again (R356). -/
def toRestore (s : State) (n : Node) : List (BitVec 7 × Span) :=
  n.saved.filter (fun e => (s.span e.1).node == some n.id)

/-- Spans of a node under pre-emption whose threads are all taken or retired are freed, once one of its
threads has been taken or one of its Spans saved (R334). -/
def freeTaken (id : Nat) (s : State) : State :=
  match s.nodes.find? (fun n => n.id == id) with
  | none => s
  | some n =>
    if n.preempt.isNone || (n.taken.isEmpty && decide (n.saved.length ≤ (toRestore s n).length)) then s
    else giveWay id (((spansOf s id).filter (fun sp => allTaken (s.span sp))).foldl freeSpan s)

/-- A thread taken at NODE (R335), once the clock on which its NODE acts has passed (log 41): its registers recorded under the place of its Span in its node. -/
def takeThread (n : Node) (s : State) : State :=
  let s := setUnsafe (s.mapMe (fun k => bumpCycle .S (bumpCycle .V k)))
  let i := n.spans.findIdx (· == s.cur.sp)
  let t := takenOf s.my s.me i s.cr ((s.unit .S).pc + 4#52)
  let s := dropLease s.cur.sp s.cr (takeReck s.cur.sp s.cr s)
  freeTaken n.id (mapNode n.id (fun n => { n with taken := n.taken ++ [t] }) s)

/-- NODE: the boundary at which a pre-emption may be taken (R335); a thread signals before it is taken, and a
counter at 15 holds it (R50), and so does a window atomic of its own in the switches (log 53). -/
def nodeWord (w : Tok) (s : State) : State :=
  match waitTokens .S w s with
  | none => held .S s
  | some s =>
    match (nodeOn s s.cur.sp).filter (fun n => n.preempt.isSome) with
    | none => issued .S w (setUnsafe s)
    | some n =>
      match drainGate s with
      | .ok _ s =>
        if (giveTokens .S w s.me.tok).isSome && !inSwitches (threadId s s.cur.sp s.cr) s then takeThread n s else held .S s
      | .hold s => held .S s
      | .trap f s => raiseTrap s.cur.sp s.cr (trapInfo .S (s.unit .S) 0 f) s

def execNode (w : Tok) (s : State) : Host.Outcome State Fault Refusal :=
  .next (if s.atTender then quarantine s.cur.sp s else nodeWord w s)

/-! ### LAUNCH -/

/-- The 16 words of a row. -/
def rowWords (v : Row) : List W64 := (List.range 16).map (fun i => v.extractLsb' (64 * i) 64)

/-- The record as a thread may submit it: its context, and no higher priority than its own node (R336). -/
def launchRecord (rec' : List W64) (s : State) : List W64 :=
  let own := match nodeOn s s.cur.sp with | some n => recPrio n.record | none => 0#2
  let w2 := recWord rec' 2
  let p := if recPrio rec' < own then own else recPrio rec'
  (rec'.set 1 s.my.xroot).set 2 ((w2 &&& ~~~0x30#64) ||| (p.zeroExtend 64 <<< 4))

/-- The row of 16 words. -/
def wordsRow (l : List W64) : Row := BitVec.ofNat 1024 (l.foldr (fun w n => w.toNat + 2 ^ 64 * n) 0)

/-- The record that a LAUNCH submits, made once, from its row, the thread's XROOT and its node's PRIO as they are then:
it is kept while the scoreboard is full (R336). -/
def launchRow (a : BitVec 5) (s : State) : Out Row :=
  match (s.unit .S).kept with
  | some row => .ok row s
  | none =>
    let w := wordAccess s
    (sentTarget w (gVal a s) false (resolve s.cur.sp (rootOf s) { ownAsk .S false s with space := none } (gVal a s)) s).bind fun t s =>
    (readTargetAlone (viaOf w (rootOf s) (gVal a s) false s) t s).bind fun row s =>
      if !recordOk (rowWords row) then .trap (fltAt cILL (gVal a s)) s
      else
        let row := wordsRow (launchRecord (rowWords row) s)
        .ok row (s.modUnit .S (fun u => { u with kept := some row }))

/-- R336. -/
def launchBody (a : BitVec 5) (s : State) : Out Unit :=
  (popSrcs [a] s).bind fun _ s =>
  if !sPerformed s.me then .hold (markWaits .S (fun _ => true) s)
  else (launchRow a s).bind fun row s =>
    if !boardRoom s then .hold s
    else .ok () (setUnsafe (addNode (rowWords row) s))

def execLaunch (w : Tok) (a : BitVec 5) (s : State) := sOnly w (launchBody a) s

/-! ### SPHINT -/

/-- The bank that CLASS and INDEX name (R197). -/
def hintBank (r : BitVec 2) (cls : BitVec 3) (idx : BitVec 8) : BankName :=
  match cls.toNat with
  | 0 => .vbank r (idx.extractLsb' 0 2)
  | 1 => .tile (idx.extractLsb' 0 4)
  | 2 => .acc 0#1 (idx.extractLsb' 0 3)
  | 3 => .acc 1#1 (idx.extractLsb' 0 3)
  | _ => .spad (idx.extractLsb' 0 7)

/-- SPHINT live: a bank that is not FULL starts its wake (R195). A mark of an earlier SPHINT retain stays (log 55). -/
def startWake (sp : BitVec 7) (n : BankName) (s : State) : State :=
  let x := s.span sp
  let b := x.dueBank n
  if b.st != .full && b.wake.isNone then s.setSpan sp (x.setBank n { b with wake := some (x.clock + wakeOf n) }) else s

/-- SPHINT retain: the bank is marked for its first idle clock (R195). A bank in RETAIN with a live item, and
one that is OFF, keep their state; one whose wake is in progress is marked, and goes when the wake has ended (log 56). -/
def markBank (sp : BitVec 7) (n : BankName) (s : State) : State :=
  let x := s.span sp
  let b := x.dueBank n
  if b.st == .full || b.wake.isSome || (b.st == .retain && !x.bankLive n) then
    s.setSpan sp (x.setBank n { b with mark := some x.clock })
  else s

/-- SPHINT drop: every item of the bank dies; vector registers die by kill marks alone (R197). -/
def dropBank (sp : BitVec 7) (n : BankName) (s : State) : State :=
  match n with
  | .vbank _ _ => s
  | .tile t => killTile sp t s
  | .acc a i => killAcc sp a i s
  | .spad i => killSpadBank sp i s

/-- SPHINT. Its drop is ordered as a store of the S stream (R197). -/
def sphintBody (x : BitVec 2) (y : BitVec 3) (i : BitVec 8) (s : State) : Out Unit :=
  let n := hintBank s.cr y i
  if x = 0#2 then .ok () (startWake s.cur.sp n s)
  else if x = 1#2 then .ok () (markBank s.cur.sp n s)
  else (orderGate .S true s).bind fun _ s => .ok () (dropBank s.cur.sp n s)

def execSphint (w : Tok) (x : BitVec 2) (y : BitVec 3) (i : BitVec 8) (s : State) := sOnly w (sphintBody x y i) s

/-! ### Prefix words -/

/-- A prefix word has no effect of its own: it joins the unit of the words that follow (R60). -/
def execPimm (i : BitVec 25) (s : State) : Host.Outcome State Fault Refusal := .next (gather (encode (.pimm i)) s)
def execPmem (o : BitVec 3) (sc : BitVec 2) (p : BitVec 3) (l : BitVec 2) (s : State) : Host.Outcome State Fault Refusal :=
  .next (gather (encode (.pmem o sc p l)) s)
def execPrep (c : BitVec 8) (st : BitVec 3) (d a b : BitVec 1) (s : State) : Host.Outcome State Fault Refusal :=
  .next (gather (encode (.prep c st d a b)) s)

end Sys2Proof.Machine
end

