-- ==== Sys2Proof/Machine/Barrier.lean ====
section
/-! DEFINITION. Domain instances (R315), the barrier (R317 to R320, R323, R324). -/

namespace Sys2Proof.Machine

/-- A member of a domain instance as its barrier sees it: its thread, its wait, and whether it has executed
EXIT or stands where it cannot arrive. -/
structure Member where
  who : ThreadId
  wait : SWait
  out : Bool
  absent : Bool
  deriving DecidableEq, Repr

def memberOf (id : Nat) (sp : BitVec 7) (r : BitVec 2) (k : Reckoner) : Member :=
  ⟨(id, ridOf sp r), k.wait, exited k, k.run == .taken⟩

/-- The threads of a node on a Span. -/
def spanMembers (id : Nat) (sp : BitVec 7) (x : Span) : List Member :=
  (nodeRecks x).map (fun r => memberOf id sp r (x.reck r))

/-- The threads of a node: on its Spans, saved whole, and taken at NODE (a taken thread whose Span is freed has
not arrived, R335). -/
def nodeMembers (s : State) (n : Node) : List Member :=
  ((spansOf s n.id).filter (fun sp => n.saved.all (fun e => e.1 != sp))).flatMap (fun sp => spanMembers n.id sp (s.span sp)) ++
  n.saved.flatMap (fun e => spanMembers n.id e.1 e.2) ++
  (n.taken.filter (fun t => !(spansOf s n.id).contains (n.spans.getD t.sp 0#7))).map
    (fun t => ⟨(n.id, ridOf (n.spans.getD t.sp 0#7) t.r), .none, false, true⟩)

/-- A thread of a node that has yet to be dispatched: no member of it has arrived. -/
def unborn (n : Node) : List Member :=
  if n.status == .pending then [⟨(n.id, 0#9), .none, false, true⟩] else []

/-- The nodes of a fabric group on this device. -/
def groupNodes (s : State) (g : BitVec 8) : List Node := s.nodes.filter (fun n => recGroup n.record == g && n.status != .joining)

/-- The threads of a fabric group on this device, and its nodes to be dispatched. -/
def groupMembers (s : State) (g : BitVec 8) : List Member := (groupNodes s g).flatMap (fun n => nodeMembers s n ++ unborn n)

/-- R315: the members on this device of the instance of a level that contains the threads of a Span. -/
def instanceOf (s : State) (n : Node) (sp : BitVec 7) (g : BitVec 8) (level : BitVec 3) : List Member :=
  match level.toNat with
  | 1 => spanMembers n.id sp (s.span sp)
  | 2 => (nodeMembers s n).filter (fun m => m.who.2.toNat / 128 == sp.toNat / 32)
  | 3 => nodeMembers s n
  | _ => groupMembers s g

/-- Every member that has not executed EXIT has arrived at the level (R317, R319). -/
def allArrived (level : BitVec 3) (ms : List Member) : Bool :=
  ms.all (fun m => m.out || (!m.absent && m.wait == .arrived level))

/-- The other devices of a fabric group under the mask of its phase (R382, R384). -/
def otherDevices (s : State) (g : BitVec 8) : List (BitVec 8) :=
  let mask := (Table.find? s.fabric.vgrpOn g.toNat).getD 0#256
  ((List.range 256).map (BitVec.ofNat 8)).filter (fun d => mask.getLsbD d.toNat && d != s.fabric.dev)

/-- This device arrives at its group's barrier once all its members have: it tells the other devices, once. -/
def sendArrival (g : BitVec 8) (s : State) : State :=
  if s.fabric.arrived.contains (s.fabric.dev, g) then s
  else
    let s := (otherDevices s g).foldl (fun s d => sendFlit d (.arrival g) s) s
    { s with fabric := { s.fabric with arrived := s.fabric.arrived ++ [(s.fabric.dev, g)] } }

/-- Every other device of the group has arrived. -/
def groupArrived (s : State) (g : BitVec 8) : Bool :=
  (otherDevices s g).all (fun d => s.fabric.arrived.contains (d, g))

/-- R318: the window atomics sent in the phase are at their homes. This device tells others that it has arrived only then. -/
def windowsHome (s : State) (level : BitVec 3) : Bool := decide (level.toNat < 3) || s.fabric.updates.isEmpty

/-- An arrived thread is let go. -/
def letGo (level : BitVec 3) (k : Reckoner) : Reckoner :=
  if k.wait == .arrived level then { k with wait := .released } else k

/-- The members of the instance among the threads of a node on a Span let go. -/
def letGoSpan (level : BitVec 3) (ts : List ThreadId) (id : Nat) (sp : BitVec 7) (x : Span) : Span :=
  { x with recks := Vector.ofFn (fun (r : Fin 4) =>
      if ts.contains (id, ridOf sp (BitVec.ofNat 2 r.val)) then letGo level x.recks[r] else x.recks[r]) }

/-- R324: the marks of members that completed the barrier are void for its other members. -/
def voidMarks (ts : List ThreadId) (s : State) : State :=
  { s with marks := s.marks.map (fun m =>
      if ts.contains m.who then { m with void := m.void ++ ts.filter (fun t => !m.void.contains t) } else m) }

/-- The fabric's side of a fabric-level barrier: the arrivals are used up, the masks and the registrations that
the next phase runs under are taken (R383, R384). -/
def turnPhase (g : BitVec 8) (s : State) : State :=
  let others := otherDevices s g
  let f := s.fabric
  { s with fabric := { f with
      arrived := (f.dev :: others).foldl (fun l d => l.erase (d, g)) f.arrived
      vgrpOn := Table.put f.vgrpOn g.toNat ((Table.find? f.vgrp g.toNat).getD 0#256)
      vwinOn := f.vwin } }

/-- A released SYNC completes: its cycle, its place, its signals (R321). -/
def finishSync (sp : BitVec 7) (r : BitVec 2) (s : State) : State :=
  let s := { s with cur := ⟨sp, .reck r, none, false⟩ }
  match s.me.wait with
  | .released =>
    if clocked s.me && !stopDue s.me then
      match (s.unit .S).instr with
      | .sync w => issued .S w (s.mapMe (fun k => { k with wait := .none }))
      | _ => s.mapMe (fun k => { k with wait := .none })
    else s
  | _ => s

/-- R318: the barrier of an instance completes. -/
def completeBarrier (n : Node) (sp : BitVec 7) (g : BitVec 8) (level : BitVec 3) (s : State) : State :=
  let ts := ((instanceOf s n sp g level).filter (fun m => m.wait == .arrived level)).map (·.who)
  let s := { s with spans := Vector.ofFn (fun (i : Fin 128) =>
      match s.spans[i].node with
      | some id => letGoSpan level ts id (BitVec.ofNat 7 i.val) s.spans[i]
      | none => s.spans[i]) }
  let s := { s with nodes := s.nodes.map (fun m =>
      { m with saved := m.saved.map (fun e => (e.1, letGoSpan level ts m.id e.1 e.2)) }) }
  let s := voidMarks ts s
  let s := if level = 4#3 then turnPhase g s else s
  if level = 1#3 then (nodeRecks (s.span sp)).foldl (fun s r => finishSync sp r s) s else s

/-- A fabric group that has started on this device and of which no member here can wait any more, since all have executed
EXIT or their nodes have ended, holds no other device: this one arrives for them, phase by phase (R319, R333). One that has
not started here, or whose number is used anew, has members still to come (log 61). -/
def arriveEmpty (s : State) (g : BitVec 8) : State :=
  if (Table.find? s.fabric.vgrpOn g.toNat).isSome && (groupMembers s g).all (·.out) && windowsHome s 4#3 then
    let s := sendArrival g s
    if groupArrived s g then turnPhase g s else s
  else s

/-- The groups at whose barriers another device, or this one, has arrived. -/
def calledGroups (s : State) : List (BitVec 8) := (s.fabric.arrived.map (·.2)).eraseDups

/-- R317, R318 for the thread of a Reckoner: its barrier completes when every member has arrived and, at fabric
level, every other device; a SYNC that a barrier has let go ends. The device arrives too for the groups that no thread
of its own can arrive for. -/
def execBarrierComplete (sp : BitVec 7) (r : BitVec 2) (s : State) : Host.Outcome State Fault Refusal :=
  let s := (calledGroups s).foldl arriveEmpty s
  .next (match (s.reck sp r).wait, nodeOn s sp with
    | .released, _ => finishSync sp r s
    | .arrived level, some n =>
      let g := (s.reck sp r).group
      if allArrived level (instanceOf s n sp g level) && windowsHome s level then
        let s := if level = 4#3 then sendArrival g s else s
        if level != 4#3 || groupArrived s g then
          finishSync sp r (completeBarrier n sp g level s)
        else s
      else s
    | _, _ => s)

end Sys2Proof.Machine
end

