-- ==== Sys2Proof/Machine/Control.lean ====
section
/-! DEFINITION. Register writes with a step of their own (R118, R362, R372, R374, R378) and the others (R3, R106),
the end of an invalidation (R119), the 10 us boundary (R360 to R364), ageing (R365, R366), port training (R379),
start-up (R15, R16), the scrub (R121). -/

namespace Sys2Proof.Machine

/-- A register write that a check may refuse: refused, it changes nothing. -/
def accepted (s : State) : Except (BitVec 8) State → State
  | .ok s => s
  | .error _ => s

/-! ### Register writes -/

/-- A register write by an application core or a tender: none is made before the application cores run (R16 step 3). -/
def onceStarted (f : State → State) (s : State) : Host.Outcome State Fault Refusal := .next (if started s then f s else s)

/-- R118, R119: a write of XINVC. -/
def execXinvcGo (v : W64) (s : State) : Host.Outcome State Fault Refusal := onceStarted (writeXinvc v) s

/-- R362: a write of TPWR. -/
def execTpwrWrite (sp : BitVec 7) (v : W64) (s : State) : Host.Outcome State Fault Refusal :=
  onceStarted (fun s => accepted s (writeTpwr sp v s)) s

/-- R372: a write of TPROF. -/
def execTprofClr (sp : BitVec 7) (v : W64) (s : State) : Host.Outcome State Fault Refusal :=
  onceStarted (fun s => accepted s (writeTprof sp v s)) s

/-- R374: a write of HPNET. -/
def execHpnetWrite (v : W64) (s : State) : Host.Outcome State Fault Refusal := onceStarted (writeHpnet v) s

/-- R378: a write of HPCFG. -/
def execHpcfgWrite (n : BitVec 3) (v : W64) (s : State) : Host.Outcome State Fault Refusal :=
  onceStarted (writeHpcfg n v) s

/-- R3, R106: an application core's store to register space; one of another size or alignment is ignored. -/
def execRegisterWrite (a : BitVec 52) (size : Nat) (v : W64) (s : State) : Host.Outcome State Fault Refusal :=
  onceStarted (fun s => if size = 8 ∧ a.toNat % 8 = 0 ∧ placeOwn s a.toNat = .regs then writeDevice a.toNat v s else s) s

/-! ### The end of an invalidation (R119) -/

/-- No store or window atomic of a thread that may have used an affected translation is on its way. -/
def sentQuiet (k : Reckoner) : Bool := !k.posted.any (·.stale) && !k.windows.any (·.stale)

/-- No command stands ahead of a marker either. -/
def invalQuiet (k : Reckoner) : Bool := (k.str .C).ahead == 0 && (k.str .Q).ahead == 0 && sentQuiet k

/-- An access sent to another device under an affected translation has not been answered: while a link is left, it may
still be performed there (R119 step 4, R385). -/
def staleRequest (s : State) : Bool := linkLeft s && s.fabric.requests.any (fun q => q.stale && q.answer.isNone)

/-- Every access that may have used an affected translation has been performed: of the threads, of the saved
contexts, of the requests to other devices, and of the window atomics in the switches. -/
def allQuiet (s : State) : Bool :=
  !staleRequest s &&
  s.spans.all (fun x => x.recks.all invalQuiet) &&
  s.nodes.all (fun n => n.saved.all (fun e => e.2.recks.all sentQuiet)) && !s.fabric.updates.any (·.stale)

/-- R119: the invalidation completes, and the distributor examines its nodes (R329, R332). -/
def execInvalidationComplete (s : State) : Host.Outcome State Fault Refusal :=
  .next (if s.inval.busy && allQuiet s then
      examine { s with inval := { s.inval with busy := false }, spans := s.spans.map (fun x => { x with staleTlb := [] }) }
    else s)

/-! ### Throttle notices (R361) -/

/-- The notice row: COUNT, CAP, KIND, INTERVAL. -/
def noticeRow (count : W64) (cap : BitVec 16) (kind : BitVec 8) (interval : Nat) : Row :=
  (BitVec.ofNat 64 interval ++ 0#40 ++ kind ++ cap ++ count : BitVec 192).zeroExtend 1024

/-- A notice latched at the tender and, with EVEN, written to the event row. COUNT restarts at the first notice
after EVEN was set (log 23). -/
def notice (sp : BitVec 7) (kind : BitVec 8) (s : State) : State :=
  let t := (s.span sp).tender
  if t.even then
    let count := (if t.evReset then 0#64 else t.evCount) + 1#64
    let s := s.mapTender sp (fun t => { t with pendNotice := true, evCount := count, evReset := false })
    writeOwnRow sp t.evrow.toNat (noticeRow count (s.span sp).cap kind s.interval) s
  else s.mapTender sp (fun t => { t with pendNotice := true })

/-- A Span's CAP set to another value within its range (R360). -/
def setCap (s : State) (e : BitVec 7 × BitVec 16) : State :=
  let old := (s.span e.1).cap
  if e.2.toNat < 8 || 512 < e.2.toNat || e.2 == old then s
  else notice e.1 (if e.2 < old then 1#8 else 2#8) (s.mapSpan e.1 (fun x => { x with cap := e.2 }))

/-! ### Boost permits (R363) -/

/-- The ceiling of a Span: the lower of TPWR.CEIL and BOOSTST.CEIL. -/
def ceilingOf (x : Span) : BitVec 2 := if x.tender.ceil < x.ceil then x.tender.ceil else x.ceil

/-- The node of a Span has a thread that runs and does not stand (R340, R356, R368). -/
def nodeAwake (s : State) (x : Span) : Bool :=
  match x.node with
  | none => false
  | some id => (spansOf s id).any (fun sp => (s.span sp).recks.any (fun k =>
      (k.run == .running || k.run == .draining) && !standing k))

/-- R363 step 1; a Span with the REPLACE advisory makes no claim (R366). -/
def claims (s : State) (sp : BitVec 7) : Bool :=
  let x := s.span sp
  nodeAwake s x && decide (0 < (ceilingOf x).toNat) && !x.repl

/-- The Spans of a die in the order of the search: after the last one granted. -/
def searchOrder (die : Nat) (last : Option (BitVec 5)) : List (BitVec 7) :=
  let first := match last with | some n => n.toNat + 1 | none => 0
  (List.range 32).map (fun i => BitVec.ofNat 7 (32 * die + (first + i) % 32))

/-- R363 step 2: one permit for each claim while permits remain. -/
def grantClaims (claim : BitVec 7 → Bool) : List (BitVec 7) → Permits → List (BitVec 7) × Permits
  | [], p => ([], p)
  | sp :: t, p =>
    if claim sp && decide (0 < p.pool.toNat) then
      let (g, p) := grantClaims claim t { p with pool := p.pool - 1#7, last := some (sp.extractLsb' 0 5) }
      (sp :: g, p)
    else grantClaims claim t p

/-- The clock of a Span for the next interval (R363 steps 2 and 3, R366): its ceiling when granted; else it falls,
from 3.0 GHz through one interval at 2.85 GHz. -/
def nextStep (granted : Bool) (x : Span) : Span :=
  if granted then { x with step := ceilingOf x, fall := false }
  else if x.step = 2#2 then { x with step := 1#2, fall := true }
  else if x.step = 1#2 then { x with step := 0#2, fall := false }
  else if x.repl then { x with step := 3#2, fall := false }
  else { x with fall := false }

/-- One Span settled; a fall interval that begins is announced (R364). -/
def settleSpan (granted : List (BitVec 7)) (s : State) (sp : BitVec 7) : State :=
  let falls := !granted.contains sp && (s.span sp).step == 2#2
  let s := s.mapSpan sp (nextStep (granted.contains sp))
  if falls then notice sp 3#8 s else s

/-- R363 step 4: a permit after each run of four intervals at 2.7 GHz. -/
def refill (calm : Bool) (p : Permits) : Permits :=
  if !calm then { p with calm := 0 }
  else if p.calm + 1 < 4 then { p with calm := p.calm + 1 }
  else { p with calm := 0, pool := if p.pool.toNat < 64 then p.pool + 1#7 else p.pool }

/-- One die settles. -/
def settleDie (s : State) (d : Fin 4) : State :=
  let sps := (List.range 32).map (fun i => BitVec.ofNat 7 (32 * d.val + i))
  let calm := sps.all (fun sp => (s.span sp).step == 0#2)
  let (granted, p) := grantClaims (claims s) (searchOrder d.val s.permits[d].last) s.permits[d]
  let s := { s with permits := s.permits.set d (refill calm p) }
  sps.foldl (settleSpan granted) s

/-- A change of a Span's margins takes effect at a boundary at which it runs at 2.7 GHz (R365). -/
def takeMargin (x : Span) : Span :=
  match x.margin with
  | some (c, v) => if x.step = 0#2 then { x with ceil := c, volt := v, margin := none } else x
  | none => x

/-- R360 to R365: the boundary of a 10 us interval, with the caps that the power controller sets. Intervals are counted
from reset, before the start-up has ended too (R361); a device that is still held in reset does nothing else (R16). -/
def execPowerIntervalBoundary (caps : List (BitVec 7 × BitVec 16)) (s : State) : Host.Outcome State Fault Refusal :=
  let s := { s with interval := s.interval + 1 }
  .next (if s.boot = 0 then s
    else [(0 : Fin 4), 1, 2, 3].foldl settleDie (caps.foldl setCap { s with spans := s.spans.map takeMargin }))

/-! ### Ageing (R365, R366) -/

/-- No node has been resident on the Span for 100 us. -/
def idleSpan (s : State) (x : Span) : Bool := x.node.isNone && decide (x.idleSince + Config.idleWindow ≤ s.interval)

/-- The margins that the controller has planned: in force, or waiting for their boundary. -/
def planned (x : Span) : BitVec 2 × Nat := x.margin.getD (x.ceil, x.volt)

/-- R365, R366: a reading. The ceiling comes down by one step at a time; at 0, a Span that does not hold 2.7 GHz
(`low`) has its nominal voltage raised by one step, and at the maximum (log 34) it raises the REPLACE advisory. -/
def execAgeingReading (sp : BitVec 7) (ceil : BitVec 2) (low : BitVec 1) (s : State) : Host.Outcome State Fault Refusal :=
  onceStarted (fun s =>
    let x := s.span sp
    let (c, v) := planned x
    if !idleSpan s x then s
    else if low = 0#1 then
      if ceil.toNat + 1 = c.toNat then s.mapSpan sp (fun x => { x with margin := some (ceil, v) }) else s
    else if c ≠ 0#2 then s
    else if v < Config.voltMax then s.mapSpan sp (fun x => { x with margin := some (c, v + 1) })
    else if x.repl then s
    else notice sp 4#8 (s.mapSpan sp (fun x => { x with repl := true }))) s

/-! ### Ports (R379) -/

/-- A range of an HDM decoder lies in the CXL range (R105). -/
def rangeOk (d : Nat × Nat) : Bool := decide (0x40000000000 ≤ d.1) && decide (d.1 + d.2 ≤ 0x80000000000)
def rangesMeet (a b : Nat × Nat) : Bool := decide (a.1 < b.1 + b.2) && decide (b.1 < a.1 + a.2)

/-- The decoders of a port may stand beside those of the others: disjoint, at most 4 TiB in all. -/
def decodersOk (s : State) (n : BitVec 3) (hdm : List (Nat × Nat)) : Bool :=
  let others := ((List.range 8).filter (· != n.toNat)).flatMap (fun i => (s.port (BitVec.ofNat 3 i)).hdm)
  hdm.all rangeOk && (hdm.all fun a => others.all fun b => !rangesMeet a b) && decide (hdm.Pairwise (fun a b => rangesMeet a b = false))
  && decide (((hdm ++ others).map (·.2)).sum ≤ 2 ^ 42)

/-- The decoders of a port as the operating system programs them; ranges that may not stand change none. -/
def programmed (n : BitVec 3) (hdm : List (Nat × Nat)) (s : State) : List (Nat × Nat) :=
  let p := s.port n
  if p.cxl && decodersOk s n hdm then hdm else p.hdm

/-- R379: a port that is down or has failed starts training, with its decoders as the operating system programs them;
one in training comes up or fails; one that is up loses its link, and fails, or has its decoders programmed again (log
45). A CXL port that finds an unsupported device fails. -/
def execPortLinkTraining (n : BitVec 3) (up : BitVec 1) (hdm : List (Nat × Nat)) (bad : BitVec 1) (s : State) :
    Host.Outcome State Fault Refusal :=
  let p := s.port n
  .next (if p.state = 0#2 || p.state = 3#2 then s.setPort n { p with state := 1#2, hdm := programmed n hdm s }
    else if up = 0#1 || (p.cxl && bad = 1#1) then s.setPort n { p with state := 3#2 }
    else s.setPort n { p with state := 2#2, hdm := programmed n hdm s })

/-! ### Start-up (R15, R16) -/

/-- R376: the root of trust extends the digest of each image it verifies into a measurement register, up to the
image that fails. A nonce retired before the reset stays retired, and the fuses keep their state (R375). -/
def bootTrust (n : Nat) (t : Trust) : Trust :=
  { Trust.reset with
    verified := Config.bootOk n, issued := t.issued, production := t.production
    measured := (Config.bootImages n).map (fun i => Config.extend 0#256 (Config.sha3 i)) }

/-- R15, R16 step 1: every part as at reset; memory holds what it held until it is cleared. A failed verification
leaves the device held in reset. -/
def execPowerOnReset (s : State) : Host.Outcome State Fault Refusal :=
  .next { State.reset with
    mem := s.mem, errors := s.errors, trust := bootTrust s.free s.trust, boot := if Config.bootOk s.free then 1 else 0
    free := s.free + 1, cur := s.cur, agenda := s.agenda, turn := s.turn }

/-- The address lies in deck SRAM or HBM4E of this device. -/
def ownMemory (a : Nat) : Bool := decide (a < 0x8000000000) || (decide (0x10000000000 ≤ a) && decide (a < 0x10200000000))

/-- R16 step 2: the stacks train, deck SRAM and HBM4E are cleared, a stack that fails is left out. -/
def execHbmTraining (failed : BitVec 8) (s : State) : Host.Outcome State Fault Refusal :=
  .next (if s.boot = 1 then
      { s with boot := 2, excluded := failed, mem := s.mem.filter (fun c => !ownMemory c.1)
               errors := s.errors.filter (fun e => !ownMemory (128 * e.1)) }
    else s)

/-! ### The scrub (R121) -/

/-- R121: the scrub corrects a single-bit error of a row of deck SRAM or HBM4E in place. -/
def execBackgroundScrub (row : Nat) (s : State) : Host.Outcome State Fault Refusal :=
  onceStarted (fun s => if placeOwn s (128 * row) = .hbm || placeOwn s (128 * row) = .deck then correctRow row s else s) s

end Sys2Proof.Machine
end

