-- ==== Sys2Proof/Machine/Csr.lean ====
section
/-! DEFINITION. CSRR and CSRW (R147 to R149): the CSRs of a Reckoner and those of the tender core. -/

namespace Sys2Proof.Machine

/-- RID (R10). -/
def ridCsr (s : State) : W64 := 0#47 ++ s.fabric.dev ++ s.cur.sp ++ s.cr

/-- DOMM (R316). -/
def dommCsr (k : Reckoner) : W64 := 0#48 ++ k.group ++ 0#1 ++ k.nlevel ++ 0#1 ++ k.level

/-- MRCAP (R360). -/
def mrcap (x : Span) : W64 := 0#47 ++ BitVec.ofBool (decide (x.cap.toNat < 512)) ++ x.cap

/-- BOOSTST (R364). -/
def boostst (s : State) : W64 :=
  let x := s.my
  let pool := (s.permits[s.cur.sp.toNat / 32]'(by have := s.cur.sp.isLt; omega)).pool
  0#40 ++ (0#1 ++ pool) ++ 0#10 ++ BitVec.ofBool x.repl ++ BitVec.ofBool x.fall ++ x.ceil ++ x.step

/-- CSR `f` of arena generator `g` (R135). -/
def arenaCsr (a : Arena) (f : Nat) : W64 :=
  match f with
  | 0 => a.base
  | 1 => a.slot
  | 2 => a.pos
  | _ => a.len.zeroExtend 64

def setArenaCsr (a : Arena) (f : Nat) (v : W64) : Arena :=
  match f with
  | 0 => { a with base := v }
  | 1 => { a with slot := v }
  | 2 => { a with pos := v }
  | _ => { a with len := v.extractLsb' 0 32 }

/-- A CSR of the current Reckoner, below 0x100 (R147). -/
def readCsr (c : BitVec 12) (s : State) : W64 :=
  let k := s.me
  let x := s.my
  let n := c.toNat
  if n = 0x000 then Config.caps
  else if n = 0x001 then Config.capw
  else if n = 0x010 then k.scyS
  else if n = 0x011 then k.scyV
  else if n = 0x012 then ridCsr s
  else if n = 0x020 then k.mdef.zeroExtend 64
  else if n = 0x021 then k.vrm.zeroExtend 64
  else if n = 0x022 then (0#40 ++ k.cobase ++ 0#13 : BitVec 64)
  else if n = 0x023 then k.rrb.zeroExtend 64
  else if n = 0x024 then k.lc
  else if 0x030 ≤ n && n ≤ 0x03F then (x.cfg (BitVec.ofNat 4 n)).zeroExtend 64
  else if n = 0x040 then x.ashape.zeroExtend 64
  else if n = 0x041 then x.bgidle.zeroExtend 64
  else if n = 0x042 then k.bret.zeroExtend 64
  else if n = 0x043 then k.boff.zeroExtend 64
  else if n = 0x048 then k.vqcb.zeroExtend 64
  else if 0x050 ≤ n && n ≤ 0x06F then arenaCsr (Arena.at k (BitVec.ofNat 3 ((n - 0x050) / 4))) (n % 4)
  else if n = 0x070 then dommCsr k
  else if n = 0x071 then k.pace[0].zeroExtend 64
  else if n = 0x072 then k.pace[1].zeroExtend 64
  else if n = 0x073 then k.pace[2].zeroExtend 64
  else if n = 0x074 then k.pace[3].zeroExtend 64
  else if n = 0x075 then mrcap x
  else if n = 0x078 then k.rwatch.zeroExtend 64
  else if n = 0x090 then k.dbgcmp
  else if n = 0x0A0 then boostst s
  else 0#64

/-- A TCFG written (R31): every row of the tile dies; WGEN is read-only. -/
def writeTcfg (t : BitVec 4) (v : W64) (s : State) : Except (BitVec 8) State :=
  let c := v.extractLsb' 0 32
  if cfgOk c then
    let s := killTile s.cur.sp t s
    let old := s.my.cfg t
    .ok (s.setMy (s.my.setCfg t (cfgWithWgen (c &&& 0xFFFFFF00#32) (cfgWgen old))))
  else .error cILL

/-- The idle count of a band whose ASHAPE bit is 1 stands at zero (R231). -/
def touchBands (x : Span) : Span :=
  { x with arr := Vector.ofFn (fun (a : Fin 2) =>
      let ar := x.arr[a]
      { ar with band := Vector.ofFn (fun (j : Fin 4) =>
          if x.ashape.getLsbD (4 * a.val + j.val) then { ar.band[j] with busy := x.clock } else ar.band[j]) }) }

/-- MDEF's reserved values: ORDER above 4, POLICY 3 (R62). -/
def mdefOk (v : W64) : Bool := decide ((v.extractLsb' 4 3).toNat ≤ 4) && decide ((v.extractLsb' 0 2).toNat ≤ 2)

/-- A CSR of the current Reckoner written: a reserved value raises ILL and changes nothing, a read-only
CSR or field keeps its value (R147). -/
def writeCsr (c : BitVec 12) (v : W64) (s : State) : Except (BitVec 8) State :=
  let n := c.toNat
  let me (f : Reckoner → Reckoner) : Except (BitVec 8) State := .ok (s.mapMe f)
  if n = 0x020 then (if mdefOk v then me (fun k => { k with mdef := v.extractLsb' 0 7 }) else .error cILL)
  else if n = 0x021 then me (fun k => { k with vrm := v.extractLsb' 0 2 })
  else if n = 0x022 then me (fun k => { k with cobase := v.extractLsb' 13 11 })
  else if n = 0x023 then me (fun k => { k with rrb := v.extractLsb' 0 4 })
  else if n = 0x024 then me (fun k => { k with lc := v })
  else if 0x030 ≤ n && n ≤ 0x03F then writeTcfg (BitVec.ofNat 4 n) v s
  else if n = 0x040 then .ok (s.setMy { touchBands s.my with ashape := v.extractLsb' 0 8 })
  else if n = 0x041 then .ok (s.setMy { s.my with bgidle := v.extractLsb' 0 16 })
  else if n = 0x042 then me (fun k => { k with bret := v.extractLsb' 0 16 })
  else if n = 0x043 then me (fun k => { k with boff := v.extractLsb' 0 16 })
  else if n = 0x048 then me (fun k => { k with vqcb := v.extractLsb' 0 3 })
  else if 0x050 ≤ n && n ≤ 0x06F then
    let g : BitVec 3 := BitVec.ofNat 3 ((n - 0x050) / 4)
    me (fun k => { k with ag := k.ag.set g.toNat (setArenaCsr (Arena.at k g) (n % 4) v) (g.isLt) })
  else if n = 0x070 then
    let l := v.extractLsb' 0 3
    if decide (l.toNat ≤ 4) && decide (l.toNat ≤ s.me.nlevel.toNat) then me (fun k => { k with level := l }) else .error cILL
  else if n = 0x071 then me (fun k => { k with pace := k.pace.set 0 (v.extractLsb' 0 10) })
  else if n = 0x072 then me (fun k => { k with pace := k.pace.set 1 (v.extractLsb' 0 10) })
  else if n = 0x073 then me (fun k => { k with pace := k.pace.set 2 (v.extractLsb' 0 10) })
  else if n = 0x074 then me (fun k => { k with pace := k.pace.set 3 (v.extractLsb' 0 10) })
  else if n = 0x078 then me (fun k => { k with rwatch := v.extractLsb' 0 2 })
  else if n = 0x090 then me (fun k => { k with dbgcmp := v &&& 0xC000FFFFFFFFFFFF#64 })
  else .ok s

/-- A CSR below 0x100 at the tender core: the device's constants and the tender's own MDEF; the manual
gives it no other, and a free value is read there (log 17). -/
def tenderLow (n : Nat) (s : State) : W64 × State :=
  if n = 0x000 then (Config.caps, s)
  else if n = 0x001 then (Config.capw, s)
  else if n = 0x020 then (s.my.tender.mdef.zeroExtend 64, s)
  else
    let (f, s) := fresh s
    (Config.tenderCsr n f, s)

/-- A number from 0x100 up raises PROT at a Reckoner (R147, R349). -/
def csrrBody (d : BitVec 5) (c : BitVec 12) (s : State) : Out Unit :=
  if s.atTender then
    if 0x100 ≤ c.toNat then .ok () (gPut d (readTender s.cur.sp c.toNat s) s)
    else
      let (v, s) := tenderLow c.toNat s
      .ok () (gPut d v s)
  else if 0x100 ≤ c.toNat then .trap (flt cPROT) s
  else writeDst d (readCsr c s) s

/-- What a write answers, as the word does. -/
def outOf (s : State) : Except (BitVec 8) State → Out Unit
  | .ok s' => .ok () s'
  | .error c => .trap (flt c) s

/-- A write of a number from 0x100 up raises PROT before its source is popped (log 51). -/
def csrwBody (a : BitVec 5) (c : BitVec 12) (s : State) : Out Unit :=
  if s.atTender then
    if 0x100 ≤ c.toNat then outOf s (writeTenderCsr s.cur.sp c.toNat (gVal a s) s)
    else if c = 0x020#12 then
      if mdefOk (gVal a s) then .ok () (s.mapTender s.cur.sp (fun t => { t with mdef := (gVal a s).extractLsb' 0 7 }))
      else .trap (flt cILL) s
    else .ok () s
  else if 0x100 ≤ c.toNat then .trap (flt cPROT) s
  else (popSrcs [a] s).bind fun _ s => outOf s (writeCsr c (gVal a s) s)

def execCsrr (w : Tok) (d : BitVec 5) (c : BitVec 12) (s : State) := sWord w (csrrBody d c) s
def execCsrw (w : Tok) (a : BitVec 5) (c : BitVec 12) (s : State) := sWord w (csrwBody a c) s

end Sys2Proof.Machine
end

