-- ==== Sys2Proof/Machine/Nodes.lean ====
section
/-! DEFINITION. The distributor's steps: submission and DKILL (R328, R333), readiness, order and placement (R329
to R331), joins (R332), pre-emption (R334). -/

namespace Sys2Proof.Machine

/-! ### Submission -/

/-- R328: a write of DGO. The window opens at step 4 of R16. -/
def execNodeSubmit (win : BitVec 5) (v : W64) (s : State) : Host.Outcome State Fault Refusal :=
  .next (if v.getLsbD 0 && started s then submitWindow win s else s)

/-- R333: a write of DKILL, once the window is open (R16 step 4). -/
def execDkill (v : W64) (s : State) : Host.Outcome State Fault Refusal :=
  .next (if started s then writeDkill v s else s)

/-! ### Order (R330) -/

/-- The node stands in dispatch order. -/
def waiting (n : Node) : Bool := n.status == .pending || n.status == .preempted

/-- A node comes before another: effective priority, then submission. -/
def comesBefore (a b : Node) : Bool :=
  decide (a.eff < b.eff) || (a.eff == b.eff && decide (a.order < b.order))

/-- The first of some nodes in dispatch order. -/
def firstOf : List Node → Option Node
  | [] => none
  | n :: t =>
    match firstOf t with
    | none => some n
    | some m => if comesBefore m n then some m else some n

/-- A node that may be dispatched: the last examination found it ready, and one of the fabric level waits for
enumeration (R16 step 5, R329). -/
def mayGo (s : State) (n : Node) : Bool := waiting n && n.ready && (recLevel n.record != 4 || s.fabric.enumerated)

/-- The first ready node. -/
def firstReady (s : State) : Option Node := firstOf (s.nodes.filter (mayGo s))

/-- A Span that may take a node: none is resident, and it is not quarantined (R347). -/
def spanFree (s : State) (sp : BitVec 7) : Bool := (s.span sp).node.isNone && !(s.span sp).tender.quar
def freeSpans (s : State) : List (BitVec 7) := ((List.range 128).map (BitVec.ofNat 7)).filter (spanFree s)

/-- Where a node's Span saved whole must stand again (R356). -/
def savedAt (n : Node) (pick : List (BitVec 7)) : Bool :=
  n.saved.all (fun e => pick[n.spans.findIdx (· == e.1)]? == some e.1)

/-- There is room for a node (R330); a node with saved Spans waits for the same Spans (R356). -/
def fits (s : State) (n : Node) : Bool :=
  decide (recSpans n.record ≤ (freeSpans s).length) && n.saved.all (fun e => spanFree s e.1)

/-! ### Placement (R331) -/

def onDie (d : Nat) (l : List (BitVec 7)) : List (BitVec 7) := l.filter (fun sp => sp.toNat / 32 == d)

/-- How many Spans each die gives to a node of `n` Spans that no single die holds: all of die 0, then of die
1, and so on. -/
def shares : List Nat → Nat → List Nat
  | [], _ => []
  | f :: t, n => min f n :: shares t (n - min f n)

/-- R331: the Spans picked are free and different, on the lowest die with room for the whole node, or die by
die. Which Spans of a die is the die's choice. -/
def placementOk (s : State) (n : Node) (pick : List (BitVec 7)) : Bool :=
  let want := recSpans n.record
  let free := (List.range 4).map (fun d => (onDie d (freeSpans s)).length)
  decide (pick.length = want) && decide pick.Nodup && pick.all (spanFree s) &&
  (if n.saved.isEmpty then
    match (List.range 4).find? (fun d => decide (want ≤ 32) && decide (want ≤ free.getD d 0)) with
    | some d => pick.all (fun sp => sp.toNat / 32 == d)
    | none => (List.range 4).map (fun d => (onDie d pick).length) == shares free want
  else savedAt n pick)

/-! ### The start of a node (R89, R122, R186, R316, R331) -/

/-- A thread at a node start. -/
def startReck (rec' : List W64) : Reckoner :=
  let entry := (recWord rec' 0).extractLsb' 0 52
  let level := (recWord rec' 2).extractLsb' 8 3
  let restart := { Restart.reset with point := entry }
  let g := Vector.ofFn (fun (i : Fin 32) => if 1 ≤ i.val ∧ i.val ≤ 8 then recWord rec' (i.val + 7) else 0#64)
  { Reckoner.reset with
    run := .running, pc := entry, g := g, level := level, nlevel := level, group := recGroup rec', restart := restart }

/-- A thread taken at NODE goes on at its saved address with its saved registers; all else stands as at a node
start (R335). An armed stop whose cycle is the one in which it goes on is met (R368). -/
def resumeTaken (rec' : List W64) (t : TakenThread) : Reckoner :=
  let g := Vector.ofFn (fun (i : Fin 32) => if i.val < 24 then t.g[i] else 0#64)
  let k := { startReck rec' with
    pc := t.pc, g := g, mdef := t.mdef, vrm := t.vrm, cobase := t.cobase, rrb := t.rrb, lc := t.lc, bret := t.bret
    boff := t.boff, vqcb := t.vqcb, ag := t.ag, level := t.level, pace := t.pace, rwatch := t.rwatch
    dbgcmp := t.dbgcmp, bretOn := t.bret, boffOn := t.boff, scyS := t.scyS, scyV := t.scyV }
  { k with stopMet := atStop k }

/-- The Reckoner of place `i` and number `r`: started, resumed, retired before the node gave way, or not of
the node. CLAIM of its DSTOP register stays (R371). -/
def nodeReck (n : Node) (i r : Nat) (old : Reckoner) : Reckoner :=
  { (if recReck n.record ≤ r then Reckoner.reset
     else match n.taken.find? (fun t => t.sp == i && t.r.toNat == r) with
      | some t => resumeTaken n.record t
      | none => if n.status == .pending then startReck n.record else { Reckoner.reset with run := .retired }) with
    claim := old.claim }

/-- A Span at a node start: its own items as at reset, its device state kept (R331). XROOT is CTX, its reserved bits
zero (R108). -/
def freshSpan (x : Span) (n : Node) : Span :=
  { Span.reset with
    recks := x.recks.map idleReck, node := some n.id, nreck := recReck n.record
    xroot := recWord n.record 1 &&& ~~~0xFFF#64, tlb := x.tlb, staleTlb := x.staleTlb, icache := x.icache
    clock := x.clock, cap := x.cap, step := x.step, fall := x.fall, ceil := x.ceil, volt := x.volt, margin := x.margin, repl := x.repl
    idleSince := x.idleSince, rowsOrd := x.rowsOrd, rowFatal := x.rowFatal, tender := x.tender }

/-- The Span of place `i`. TCFG, ASHAPE and BGIDLE are the Span's: the thread taken last brings them back. -/
def startSpan (x : Span) (n : Node) (i : Nat) : Span :=
  let x := { freshSpan x n with recks := Vector.ofFn (fun (r : Fin 4) => nodeReck n i r.val x.recks[r]) }
  match (n.taken.filter (fun t => t.sp == i)).getLast? with
  | some t => { x with tcfg := t.tcfg, ashape := t.ashape, bgidle := t.bgidle, bgidleOn := t.bgidle }
  | none => x

/-- A row of a local segment: its bytes, and zeros around them (R89). -/
def segRow (off : Nat) (bytes : List Byte) (row : Nat) : Row :=
  BitVec.ofNat 1024 (packBytes (fun j => if off ≤ 128 * row + j then bytes.getD (128 * row + j - off) 0#8 else 0#8) 128)
where
  packBytes (f : Nat → Byte) : Nat → Nat
    | 0 => 0
    | n + 1 => packBytes f n + (f n).toNat * 2 ^ (8 * n)

/-- A local segment written into a Span's scratchpad, whole rows at a time (R89). -/
def loadSegment (sp : BitVec 7) (seg : BitVec 24 × List Byte) (s : State) : State :=
  let first := seg.1.toNat / 128
  let rows := if seg.2.isEmpty then 0 else (seg.1.toNat + seg.2.length - 1) / 128 - first + 1
  (List.range rows).foldl (fun s i => writeOwnRow sp (first + i) (segRow seg.1.toNat seg.2 (first + i)) s) s

/-- One Span of a dispatched node: started, or taken for the context saved on it, which its tender is to
restore (R356). -/
def placeSpan (n : Node) (segs : List (BitVec 24 × List Byte)) (i : Nat) (sp : BitVec 7) (s : State) : State :=
  if n.saved.any (fun e => e.1 == sp) then
    s.mapSpan sp (fun x => { freshSpan x n with tender := { x.tender with swcBusy := true } })
  else segs.foldl (fun s g => loadSegment sp g s) (s.mapSpan sp (fun x => startSpan x n i))

/-- The Spans of a dispatched node, from place `i` on. -/
def placeSpans (n : Node) (segs : List (BitVec 24 × List Byte)) : Nat → List (BitVec 7) → State → State
  | _, [], s => s
  | i, sp :: t, s => placeSpans n segs (i + 1) t (placeSpan n segs i sp s)

/-- The masks under which the first phase of a fabric group runs on this device (R384): latched as the first of its nodes
starts, and not again when one that has given way is dispatched anew, whose phase goes on. -/
def startGroup (n : Node) (s : State) : State :=
  let g := recGroup n.record
  let begun (m : Node) : Bool := m.status == .running || m.status == .preempted
  if g != 0#8 && n.status == .pending && !s.nodes.any (fun m => recGroup m.record == g && begun m) then
    { s with fabric := { s.fabric with
        vgrpOn := Table.put s.fabric.vgrpOn g.toNat ((Table.find? s.fabric.vgrp g.toNat).getD 0#256) } }
  else s

/-- R330, R331: the first ready node that fits is dispatched to the Spans picked, and its Reckoners start. -/
def execNodeDispatch (pick : List (BitVec 7)) (segs : List (BitVec 24 × List Byte)) (s : State) :
    Host.Outcome State Fault Refusal :=
  .next (match firstReady s with
    | none => s
    | some n =>
      if !started s || !fits s n || !placementOk s n pick then s
      else
        let s := placeSpans n segs 0 pick (startGroup n s)
        { mapNode n.id (fun n =>
            { n with status := .running, dispatched := s.nextOrder, spans := pick, preempt := none, taken := []
                     restoring := !n.saved.isEmpty }) s with
          nextOrder := s.nextOrder + 1 })

/-- R330: for each 4 ms that a node stands pending, its effective priority comes down by one number, never
below 1. -/
def execPriorityAgeing (id : Nat) (s : State) : Host.Outcome State Fault Refusal :=
  .next (mapNode id (fun n =>
    if waiting n && decide (n.since + Config.ageIntervals ≤ s.interval) then
      { n with since := n.since + Config.ageIntervals, eff := if 1#2 < n.eff then n.eff - 1#2 else n.eff }
    else n) s)

/-! ### Joins (R332) -/

/-- Every thread of a node has retired. -/
def allRetired (s : State) (n : Node) : Bool :=
  decide ((spansOf s n.id).length = recSpans n.record) &&
  (spansOf s n.id).all (fun sp => (nodeRecks (s.span sp)).all (fun r => (s.reck sp r).run == .retired))

/-- An entry of the scoreboard freed. -/
def dropEntry (id : Nat) (s : State) : State :=
  { s with nodes := s.nodes.filter (fun n => n.id != id), victim := if s.victim == some id then none else s.victim }

/-- The grants of a node end with its join, but for those that another node of its tag gives the same requester (R373). -/
def joinGrants (n : Node) (s : State) : State :=
  let other (t : Session) (m : Node) : Bool := m.id != n.id && m.status != .joining && nodeTag m == t.tag && Config.recordNames m.record t.digest
  { s with trust := { s.trust with
      sessions := s.trust.sessions.filter (fun t => t.tag != nodeTag n || s.nodes.any (other t)) } }

/-- R332: the node joins: its Spans are freed, the grants of its tag end (R373); with a DONE unit its entry
waits for the increment. -/
def execNodeJoin (id : Nat) (s : State) : Host.Outcome State Fault Refusal :=
  .next (match s.nodes.find? (fun n => n.id == id) with
    | none => s
    | some n =>
      if !(n.status == .running && n.taken.isEmpty && n.saved.isEmpty && allRetired s n) then s
      else
        let s := (spansOf s id).foldl freeSpan s
        let s := joinGrants n s
        examine (if recWord n.record 7 == 0#64 then dropEntry id s
          else { mapNode id (fun n => { n with status := .joining }) s with
                 victim := if s.victim == some id then none else s.victim }))

/-- The physical address of the DONE unit. -/
def doneAddr (s : State) (rec' : List W64) : Nat :=
  match walk s (recWord rec' 1) (BitVec.ofNat 52 (doneUnit rec')) with
  | .leaf lvl e => frameAddr e (pageSize lvl) (BitVec.ofNat 52 (doneUnit rec'))
  | .bad _ _ _ => 0

/-- One added to an 8-byte unit (R332). -/
def addOne (pa : Nat) (s : State) : Out Unit :=
  (readRowAt pa s).bind fun row s => store64 pa (unit64 row pa + 1#64) s

/-- R332: DONE is incremented, and the entry freed. It is tried at its join, and again on every submission, join and
completed invalidation; it waits while the unit does not translate, or its row cannot be read (log 22). -/
def execDoneIncrement (id : Nat) (s : State) : Host.Outcome State Fault Refusal :=
  .next (match s.nodes.find? (fun n => n.id == id && n.status == .joining) with
    | none => s
    | some n =>
      if !n.ready then s
      else
        let s := walkFix (BitVec.ofNat 52 (doneUnit n.record)) 3 (((recWord n.record 1).extractLsb' 12 40).toNat * 0x1000)
          (mapNode id (fun n => { n with ready := false }) s)
        if !doneReady s n.record then s
        else match addOne (doneAddr s n.record) s with
          | .ok _ s => dropEntry id s
          | .hold s => s
          | .trap _ s => s)

/-! ### Pre-emption (R334) -/

/-- The victim among some nodes: the numerically highest PRIO, then the one dispatched last. -/
def victimOf : List Node → Option Node
  | [] => none
  | n :: t =>
    match victimOf t with
    | none => some n
    | some m =>
      if recPrio n.record < recPrio m.record || (recPrio n.record == recPrio m.record && decide (n.dispatched < m.dispatched))
      then some m else some n

/-- The running nodes that may give way. -/
def victims (s : State) : List Node :=
  s.nodes.filter (fun n => n.status == .running && recPrio n.record != 0#2 && n.preempt.isNone)

/-- R334: the first ready node has priority 0 and does not fit: a victim is asked to give way. -/
def execPreemptionRequest (s : State) : Host.Outcome State Fault Refusal :=
  .next (match firstReady s, s.victim with
    | some n, none =>
      if n.eff = 0#2 && !fits s n then
        match victimOf (victims s) with
        | some v => { mapNode v.id (fun v => { v with preempt := some s.interval }) s with victim := some v.id }
        | none => s
      else s
    | _, _ => s)

/-- A thread of the Span has neither been taken nor retired. -/
def someHeld (x : Span) : Bool := !allTaken x

/-- R334: DPMAX has elapsed without NODE: the tender is signalled for a full switch (R356 step 1). -/
def execPreemptEscalation (sp : BitVec 7) (s : State) : Host.Outcome State Fault Refusal :=
  .next (match (nodeOn s sp).bind (·.preempt) with
    | some t =>
      if someHeld (s.span sp) && decide (s.pmax.toNat ≤ 10 * (s.interval - t)) then
        s.mapSpan sp (fun x => { x with switching := true })
      else s
    | none => s)

end Sys2Proof.Machine
end

