-- ==== Sys2Proof/Machine/Codes.lean ====
section
/-! DEFINITION. Choosing a code by comparisons (R41, R42), the order of f32 values with −0 below +0
(R214, R221), and the float formats of R217. -/

namespace Sys2Proof.Machine

/-- A code and the conditions of its choice. -/
structure Code where
  c : Nat
  sat : Bool
  inv : Bool
  deriving DecidableEq, Repr

/-- The midpoint of two entries, exact. -/
def midpoint (a b : BitVec 16) : Ext :=
  match (bf16 a).add (bf16 b) with
  | .fin d => .fin (d.scale (-1))
  | x => x

/-- The midpoints m_1, m_2, … of a codebook, each under the scale. -/
def scaledMids (s : Ext) : List (BitVec 16) → List Ext
  | a :: b :: t => s.mul (midpoint a b) :: scaledMids s (b :: t)
  | _ => []

/-- The last even index j whose scaled midpoint equals the value. -/
def tieAt (x : Ext) (mids : List Ext) : Option Nat :=
  (List.range mids.length).foldl (fun r j =>
    match mids[j]? with
    | some m => if x.eq m && j % 2 == 1 then some (j + 1) else r
    | none => r) none

/-- R41 and R42: the code of a value under a positive finite scale. -/
def codeOf (book : List (BitVec 16)) (s x : W32) : Code :=
  let sv := f32 s
  let xv := f32 x
  if xv.isNan || !sv.isFinite || sv.isZero || sv.isNeg then ⟨0, false, true⟩
  else match xv with
    | .inf n => ⟨if n then 0 else book.length - 1, true, false⟩
    | _ =>
      let mids := scaledMids sv book
      let c := (tieAt xv mids).getD (mids.countP (fun m => m.lt xv))
      let hi := match book.getLast? with | some e => (sv.mul (bf16 e)).lt xv | none => false
      let lo := match book.head? with | some e => xv.lt (sv.mul (bf16 e)) | none => false
      ⟨c, hi || lo, false⟩

/-- x < y with −0 below +0; neither is NaN. -/
def fLtZ (x y : W32) : Bool :=
  (f32 x).lt (f32 y) || ((f32 x).eq (f32 y) && f32Neg x && !f32Neg y)

/-- An E4M3 pattern (R217): no infinity; 0x7F and 0xFF are NaN. -/
def e4m3 (b : BitVec 8) : Ext :=
  if b.extractLsb' 0 7 == 0x7F#7 then .nan
  else
    let s := b.getLsbD 7
    let e := (b.extractLsb' 3 4).toNat
    let t := (b.extractLsb' 0 3).toNat
    let m : Nat := if e = 0 then t else t + 8
    .fin ⟨if s then -(m : Int) else (m : Int), (if e = 0 then 1 else (e : Int)) - 10⟩

/-- A value as E4M3: a magnitude that rounds above 448, and ±∞, gives ±448. -/
def toE4m3 (mode : Rm) (neg : Bool) (x : Ext) : Nat :=
  let s := if neg then 0x80 else 0
  match x with
  | .nan => 0x7F
  | .inf _ => s + 0x7E
  | .fin d => if d.isZero then s else s + min 0x7E (roundMag .e4m3 mode d.isNeg d.m.natAbs d.e).1

/-- A value that f32 holds exactly, as f32. -/
def exactF32 (neg : Bool) (x : Ext) : W32 := BitVec.ofNat 32 (roundExt .f32 .rne neg x).bits

/-- A float as an integer in a mode, clamped; NaN gives 0 (R217). -/
def toIntClamped (mode : Rm) (lo hi : Int) (x : Ext) : Int :=
  match x with
  | .nan => 0
  | .inf n => if n then lo else hi
  | .fin d => clampInt lo hi (roundInt mode d)

/-- A conversion of one lane by its code (R217). -/
def convert (mode : Rm) (code : Nat) (x : W32) : W32 :=
  let v := f32 x
  let neg := f32Neg x
  let lo16 : BitVec 16 := x.extractLsb' 0 16
  let lo8 : BitVec 8 := x.extractLsb' 0 8
  match code with
  | 0x00 => BitVec.ofNat 32 (roundDy .f32 mode false (Dy.ofInt x.toInt)).bits
  | 0x01 => BitVec.ofNat 32 (roundDy .f32 mode false (Dy.ofInt (x.toNat : Int))).bits
  | 0x02 => BitVec.ofInt 32 (toIntClamped mode (-2147483648) 2147483647 v)
  | 0x03 => BitVec.ofInt 32 (toIntClamped mode 0 4294967295 v)
  | 0x04 => BitVec.ofNat 32 (roundExt .bf16 mode neg v).bits
  | 0x05 => widen lo16
  | 0x06 => BitVec.ofNat 32 (roundExt .f16 mode neg v).bits
  | 0x07 => exactF32 (lo16.getLsbD 15) (Fmt.f16.decode lo16.toNat)
  | 0x08 => BitVec.ofNat 32 (toE4m3 mode neg v)
  | 0x09 => exactF32 (lo8.getLsbD 7) (e4m3 lo8)
  | 0x0A => BitVec.ofNat 32 (roundExt .e5m2 mode neg v).bits
  | 0x0B => exactF32 (lo8.getLsbD 7) (Fmt.e5m2.decode lo8.toNat)
  | 0x0C => (BitVec.ofInt 8 (clampInt (-128) 127 x.toInt)).zeroExtend 32
  | 0x0D => lo8.signExtend 32
  | 0x0E => BitVec.ofInt 32 (clampInt 0 255 x.toInt)
  | 0x0F => (BitVec.ofInt 16 (clampInt (-32768) 32767 x.toInt)).zeroExtend 32
  | _ => lo16.signExtend 32

end Sys2Proof.Machine
end

