-- ==== Sys2Proof/Machine/Pier.lean ====
section
/-! DEFINITION. Pier commands (R279 to R290): QNOP, QSCAN, QTOPK, QRED. -/

namespace Sys2Proof.Machine

/-! ### Who does the work (R279, R280) -/

/-- The Pier that reads and judges a row for a command of a Span. -/
def pierOf (s : State) (sp : BitVec 7) (pa : Nat) : Nat :=
  let p := pa / 1024 % 8
  match placeOwn s pa with
  | .hbm => 8 * (pa / 0x1000000000) + p
  | .deck => 64 + 8 * ((pa - 0x10000000000) / 0x80000000) + p
  | _ => 64 + 8 * (sp.toNat / 32) + p

/-! ### Rows of a Pier command (R282) -/

/-- The level of the leaf that an address translated through. -/
def leafLevel (a : W64) (s : State) : BitVec 3 :=
  match tlbFind s.my.tlb (s.my.xroot.extractLsb' 52 12) (a.extractLsb' 0 52) with
  | some e => levelOf e.size
  | none => 7#3

/-- A target lies in a scratchpad that is not the issuing Span's, be it of this device or of another, and by whatever path
(R14, R107). -/
def foreignSpad (s : State) (t : Target) : Bool :=
  match spadTarget s t with
  | some (n, _) => n != s.cur.sp
  | none => match t with
    | .spad _ _ => false
    | .phys pa => match place s pa with | .spad _ => true | _ => false

/-- Where a row operand leads; another Span's scratchpad is ADDR (R14, R282). -/
def pierTarget (c : Cmd) (wr : Bool) (a : W64) (s : State) : Out Target :=
  (sentTarget (unitAccess .Q c s) a wr (resolve s.cur.sp s.my.xroot (cmdAsk .Q c wr s) a) s).bind fun t s =>
    if foreignSpad s t then .trap { fltAt cADDR a with wr := wr, level := leafLevel a s } s else .ok t s

/-- A row read by a Pier command. What it has read of a row once it takes from there, so that a store of another agent is
seen wholly or not at all (R283). -/
def pierRead (c : Cmd) (a : W64) (s : State) : Out (Cmd × Row) :=
  (pierTarget c false a s).bind fun t s =>
    let n := rowNumber t s
    match Table.find? c.part.rows n with
    | some v => .ok (c, v) s
    | none => (unitRead .Q c a t s).map fun v => ({ c with part := { c.part with rows := Table.put c.part.rows n v } }, v)

/-- An element of `n` bytes at an aligned address. -/
def pierElem (c : Cmd) (a : W64) (n : Nat) (s : State) : Out (Cmd × Nat) :=
  (pierRead c a s).map fun x => (x.1, x.2.toNat / 2 ^ (8 * (a.toNat % 128)) % 2 ^ (8 * n))

/-- An address with its low bits cleared. -/
def alignDown (a : W64) (n : Nat) : W64 := a - BitVec.ofNat 64 (a.toNat % n)

/-- Rows, masks and values of bytes from an address. -/
def byteRows (base : W64) (n v : Nat) : List (W64 × BitVec 128 × Row) :=
  let o := base.toNat % 128
  if n = 0 then []
  else (List.range ((o + n + 127) / 128)).map (fun k =>
    (alignDown base 128 + 128#64 * BitVec.ofNat 64 k, BitVec.ofNat 128 ((2 ^ n - 1) * 2 ^ o / 2 ^ (128 * k)),
     BitVec.ofNat 1024 (v * 2 ^ (8 * o) / 2 ^ (1024 * k))))

/-- Every destination row checked and translated. -/
def pierTargets (c : Cmd) : List (W64 × BitVec 128 × Row) → State → Out (List RowWrite)
  | [], s => .ok [] s
  | (a, m, v) :: t, s =>
    (pierTarget c true a s).bind fun x s => (pierTargets c t s).map fun xs => (a, x, m, v) :: xs

/-- The result written after every destination row has been checked; a fault leaves nothing written
(R284). -/
def pierWrite (c : Cmd) (rows : List (W64 × BitVec 128 × Row)) (s : State) : Out Unit :=
  (pierTargets c rows s).bind fun ts s => writeTogether .Q c ts s

def pierWord (w : Tok) (need : Nat) (c : BitVec 6) (r : BitVec 1) (check : Cmd → Option Flt) (total : Cmd → Nat)
    (unit close : Cmd → State → Out Cmd) (s : State) :=
  cmdWord .Q w (popArgs .Q need) c (r == 1#1) pierGate keptEngine noLatch noLatch id (fun _ => check) total unit close s

def execQnop (w : Tok) (s : State) := plainWord .Q w (fun s => .ok () s) s

/-! ### Elements (R286) -/

/-- Bytes of an element. -/
def elemSize (e : BitVec 2) : Nat := if e == 1#2 then 2 else 4
/-- An element as its 32-bit word: a bf16 widened (R20). -/
def elemWord (e : BitVec 2) (v : Nat) : W32 := if e == 1#2 then widen (BitVec.ofNat 16 v) else BitVec.ofNat 32 v
/-- The exact value of a word of a type. -/
def elemExt (e : BitVec 2) (w : W32) : Ext := if e == 2#2 then .fin (Dy.ofInt w.toInt) else f32 w

/-- Element i from a base. -/
def readElem (c : Cmd) (e : BitVec 2) (base : W64) (i : Nat) (s : State) : Out (Cmd × W32) :=
  let n := elemSize e
  (pierElem c (alignDown base n + BitVec.ofNat 64 (n * i)) n s).map fun x => (x.1, elemWord e x.2)

/-- Indices run past 0xFFFF_FFFE. -/
def indexPast (shape : W64) : Bool :=
  let n := (shape.extractLsb' 0 32).toNat
  decide (0 < n) && decide (0xFFFFFFFE < (shape.extractLsb' 32 32).toNat + n - 1)
def shapeBase (shape : W64) : Nat := (shape.extractLsb' 32 32).toNat

/-! ### QSCAN (R287) -/

def qscanCheck (m : BitVec 3) (c : Cmd) : Option Flt :=
  let cap := c.arg 4
  firstFault [illOf (cap.extractLsb' 13 51 != 0#51 || decide (4096 < cap.toNat)) cap, illOf (indexPast (c.arg 1)) (c.arg 1),
    illOf (m != 6#3 && (c.arg 2).extractLsb' 32 32 != 0#32) (c.arg 2)]

/-- QUAL. -/
def qualifies (m : BitVec 3) (x a b : Ext) : Bool :=
  match m.toNat with
  | 0 => a.lt x
  | 1 => a.lt x || a.eq x
  | 2 => x.lt a
  | 3 => x.lt a || x.eq a
  | 4 => x.eq a
  | 5 => !x.eq a
  | _ => (a.lt x || a.eq x) && (x.lt b || x.eq b)

def qscanUnit (e : BitVec 2) (m : BitVec 3) (c : Cmd) (s : State) : Out Cmd :=
  (readElem c e (c.arg 0) c.cursor s).map fun (c, w) =>
    let x := elemExt e w
    let a := elemExt e ((c.arg 2).extractLsb' 0 32)
    let b := elemExt e ((c.arg 2).extractLsb' 32 32)
    if x.isNan || a.isNan || (m == 6#3 && b.isNan) then raiseFlags fINV c
    else if qualifies m x a b then
      let p := { c.part with total := c.part.total + 1 }
      if c.part.list.length < (c.arg 4).toNat then
        { c with part := { p with list := p.list ++ [(w, BitVec.ofNat 32 (shapeBase (c.arg 1) + c.cursor))] } }
      else { c with part := p }
    else c

/-- Pairs as the number of their bytes, 8 each: value low, index high. -/
def pairNat (l : List (W32 × W32)) : Nat := l.foldr (fun p n => p.1.toNat + 2 ^ 32 * p.2.toNat + 2 ^ 64 * n) 0
def indexNat (l : List (W32 × W32)) : Nat := l.foldr (fun p n => p.2.toNat + 2 ^ 32 * n) 0

def qscanClose (ix : BitVec 1) (c : Cmd) (s : State) : Out Cmd :=
  let l := c.part.list
  let rows := if ix == 1#1 then byteRows (alignDown (c.arg 3) 8) (4 * l.length) (indexNat l)
    else byteRows (alignDown (c.arg 3) 8) (8 * l.length) (pairNat l)
  (pierWrite c rows s).map fun _ => setResult 32 4 l.length (setResult 24 8 c.part.total c)

def execQscan (w : Tok) (c : BitVec 6) (e : BitVec 2) (r : BitVec 1) (m : BitVec 3) (x : BitVec 1) (s : State) :=
  pierWord w 5 c r (qscanCheck m) (fun c => countOf (c.arg 1)) (qscanUnit e m) (qscanClose x) s

/-! ### QTOPK (R288, R289) -/

def qtopkCheck (e : BitVec 2) (p : BitVec 1) (c : Cmd) : Option Flt :=
  let k := c.arg 3
  firstFault [illOf (k == 0#64 || decide (256 < k.toNat)) k,
    illOf (p == 1#1 && (e == 1#2 || shapeBase (c.arg 1) != 0)) (c.arg 1),
    illOf (p == 0#1 && indexPast (c.arg 1)) (c.arg 1)]

/-- The total order of values (R288). -/
def valueLt (e : BitVec 2) (x y : W32) : Bool := if e == 2#2 then x.slt y else fLtZ x y

/-- A candidate ranks before another. -/
def ranksFirst (e : BitVec 2) (asc : Bool) (p q : W32 × W32) : Bool :=
  let better (x y : W32) : Bool := if asc then valueLt e x y else valueLt e y x
  better p.1 q.1 || (!better q.1 p.1 && p.2.ult q.2)

/-- A candidate inserted behind every one that it does not rank before. -/
def insertRanked (e : BitVec 2) (asc : Bool) (p : W32 × W32) : List (W32 × W32) → List (W32 × W32)
  | [] => [p]
  | q :: t => if ranksFirst e asc p q then p :: q :: t else q :: insertRanked e asc p t

/-- The candidate of a unit. -/
def qtopkRead (e : BitVec 2) (pairs : Bool) (c : Cmd) (s : State) : Out (Cmd × W32 × W32) :=
  if pairs then
    (pierElem c (alignDown (c.arg 0) 8 + BitVec.ofNat 64 (8 * c.cursor)) 8 s).map fun (c, v) =>
      (c, BitVec.ofNat 32 v, BitVec.ofNat 32 (v / 2 ^ 32))
  else (readElem c e (c.arg 0) c.cursor s).map fun (c, w) => (c, w, BitVec.ofNat 32 (shapeBase (c.arg 1) + c.cursor))

def qtopkUnit (e : BitVec 2) (p a : BitVec 1) (c : Cmd) (s : State) : Out Cmd :=
  (qtopkRead e (p == 1#1) c s).map fun (c, x) =>
    if p == 1#1 && x.2 == 0xFFFFFFFF#32 then c
    else if (elemExt e x.1).isNan then raiseFlags fINV c
    else { c with part := { c.part with list := (insertRanked e (a == 1#1) x c.part.list).take (c.arg 3).toNat } }

/-- An empty slot. -/
def emptySlot : W32 × W32 := (0#32, 0xFFFFFFFF#32)

def qtopkClose (c : Cmd) (s : State) : Out Cmd :=
  let k := (c.arg 3).toNat
  let l := c.part.list
  let last := l.getLast?.getD emptySlot
  (pierWrite c (byteRows (alignDown (c.arg 2) 8) (8 * k) (pairNat (l ++ List.replicate (k - l.length) emptySlot))) s).map
    fun _ => setResult 32 4 last.2.toNat (setResult 28 4 last.1.toNat (setResult 24 4 l.length c))

def execQtopk (w : Tok) (c : BitVec 6) (e : BitVec 2) (r p a : BitVec 1) (s : State) :=
  pierWord w 4 c r (qtopkCheck e p) (fun c => countOf (c.arg 1)) (qtopkUnit e p a) qtopkClose s

/-! ### QRED (R290) -/

def redCount (c : Cmd) : Nat := ((c.arg 3).extractLsb' 32 13).toNat

def qredCheck (e : BitVec 2) (g : BitVec 1) (c : Cmd) : Option Flt :=
  firstFault [illOf ((c.arg 3).extractLsb' 45 19 != 0#19 || redCount c == 0 || decide (4096 < redCount c)) (c.arg 3),
    illIf (e == 2#2 && g == 1#1)]

/-- The memory rows from an address, one after another. -/
def pierRows (a : W64) : Cmd → List Nat → State → Out (Cmd × List Row)
  | c, [], s => .ok (c, []) s
  | c, k :: t, s =>
    (pierRead c (a + 128#64 * BitVec.ofNat 64 k) s).bind fun (c, v) s => (pierRows a c t s).map fun (c, vs) => (c, v :: vs)

/-- `d` elements of `n` bytes from an aligned address. -/
def pierVector (c : Cmd) (a : W64) (n d : Nat) (s : State) : Out (Cmd × List Nat) :=
  let o := a.toNat % 128
  (pierRows (alignDown a 128) c (List.range ((o + n * d + 127) / 128)) s).map fun (c, rows) =>
    (c, (List.range d).map (fun i =>
      let b := o + n * i
      (rows.getD (b / 128) 0#1024).toNat / 2 ^ (8 * (b % 128)) % 2 ^ (8 * n)))

/-- The sums of a command, zero at first. -/
def redSums (c : Cmd) : List Ext := if c.part.sums.isEmpty then List.replicate (redCount c) Ext.zero else c.part.sums

/-- Weight i, 1.0 without WT. -/
def redWeight (g : BitVec 1) (c : Cmd) (s : State) : Out (Cmd × Ext) :=
  if g == 1#1 then
    (pierElem c (alignDown (c.arg 4) 4 + BitVec.ofNat 64 (4 * c.cursor)) 4 s).map fun (c, v) => (c, f32 (BitVec.ofNat 32 v))
  else .ok (c, Ext.one) s

def qredUnit (e : BitVec 2) (g i : BitVec 1) (c : Cmd) (s : State) : Out Cmd :=
  let n := if i == 1#1 then 8 else 4
  (pierElem c (alignDown (c.arg 2) n + BitVec.ofNat 64 (n * c.cursor)) n s).bind fun (c, idx) s =>
  (redWeight g c s).bind fun (c, wt) s =>
    let row := alignDown (c.arg 0 + BitVec.ofNat 64 idx * c.arg 1) (elemSize e)
    (pierVector c row (elemSize e) (redCount c) s).map fun (c, xs) =>
      let sums := List.zipWith (fun t v => t.add (wt.mul (elemExt e (elemWord e v)))) (redSums c) xs
      { c with part := { c.part with sums := sums } }

/-- One result and its conditions. -/
def redOut (e : BitVec 2) (x : Ext) : W32 × BitVec 8 :=
  if e == 2#2 then
    let (v, sat) := satI32 (extInt x)
    (v, flagIf sat fSAT)
  else
    let r := rneF32 x
    (BitVec.ofNat 32 r.bits, roundFlags r ||| flagIf x.isNan fINV)

/-- Words as the number of their bytes. -/
def wordNat (l : List W32) : Nat := l.foldr (fun w n => w.toNat + 2 ^ 32 * n) 0

def qredClose (e : BitVec 2) (g : BitVec 1) (c : Cmd) (s : State) : Out Cmd :=
  let outs := (redSums c).map (redOut e)
  let dst := alignDown (c.arg (if g == 1#1 then 5 else 4)) 4
  (pierWrite c (byteRows dst (4 * redCount c) (wordNat (outs.map (·.1)))) s).map fun _ =>
    raiseFlags (outs.foldl (fun f x => f ||| x.2) 0#8)
      (setResult 28 4 (redCount c) (setResult 24 4 (countOf (c.arg 3)) c))

def execQred (w : Tok) (c : BitVec 6) (e : BitVec 2) (r g i : BitVec 1) (s : State) :=
  pierWord w (if g == 1#1 then 6 else 5) c r (qredCheck e g) (fun c => countOf (c.arg 3)) (qredUnit e g i) (qredClose e g) s

end Sys2Proof.Machine
end

