-- ==== Sys2Proof/Machine/ScalarAlu.lean ====
section
/-! DEFINITION. S words that compute: NOP (R100), the register forms (R131, R132), the immediate forms
(R133), constants (R134), AGEN (R136). -/

namespace Sys2Proof.Machine

/-- A register form: x = g[a], y = g[b] after pops. -/
def alu2 (d a b : BitVec 5) (f : W64 → W64 → W64) : State → Out Unit :=
  aluBody [a, b] d (fun s => f (gVal a s) (gVal b s))

/-- A form of one source. -/
def alu1 (d a : BitVec 5) (f : W64 → W64) : State → Out Unit := aluBody [a] d (fun s => f (gVal a s))

/-- An immediate form: v is the immediate, widened by PIMM (R61). -/
def aluI {n : Nat} (d a : BitVec 5) (i : BitVec n) (f : W64 → W64 → W64) : State → Out Unit :=
  aluBody [a] d (fun s => f (gVal a s) (immS i s))

/-- Shift counts (R131): y[5:0]. -/
def cnt6 (y : W64) : Nat := (y.extractLsb' 0 6).toNat

/-- Signed quotient truncated toward zero; the border cases of R131. -/
def divOf (x y : W64) : W64 := if y = 0#64 then BitVec.allOnes 64 else BitVec.sdiv x y
/-- x − y × DIV(x, y). -/
def remOf (x y : W64) : W64 := x - y * divOf x y

/-- High half of the 128-bit product (R131): sg 0 both signed, 1 both unsigned, 2 x signed, y unsigned. -/
def mulhOf (sg : BitVec 3) (x y : W64) : W64 :=
  let xi : Int := if sg = 1#3 then (x.toNat : Int) else x.toInt
  let yi : Int := if sg = 0#3 then y.toInt else (y.toNat : Int)
  BitVec.ofInt 64 (xi * yi / 2 ^ 64)

/-- Leading zero bits. -/
def clzOf (x : W64) : W64 := BitVec.ofNat 64 (if x = 0#64 then 64 else 63 - Nat.log2 x.toNat)
/-- Set bits. -/
def popcOf (x : W64) : W64 := BitVec.ofNat 64 ((List.range 64).countP (fun i => x.getLsbD i))

/-! The field descriptor of BFX and BFI (R132). -/
def fieldPos (y : W64) : Nat := (y.extractLsb' 0 6).toNat
def fieldLen (y : W64) : Nat := min 64 (y.extractLsb' 8 7).toNat

def bfxOf (x y : W64) : W64 :=
  let n := fieldLen y
  let f := x.toNat / 2 ^ fieldPos y % 2 ^ n
  if y.getLsbD 15 && decide (0 < n) && decide (2 ^ (n - 1) ≤ f) then BitVec.ofInt 64 ((f : Int) - 2 ^ n)
  else BitVec.ofNat 64 f

def bfiOf (old x y : W64) : W64 :=
  let m : W64 := BitVec.ofNat 64 ((2 ^ fieldLen y - 1) * 2 ^ fieldPos y)
  (old &&& ~~~m) ||| ((x <<< fieldPos y) &&& m)

/-- The address of AGEN (R136): unsigned indices, the position wrapped by LEN. -/
def arenaAddr (g : Arena) (slot pos : W64) : W64 :=
  let j := if g.len = 0#32 then pos.toNat else pos.toNat % g.len.toNat
  g.base + slot * g.slot + BitVec.ofNat 64 j * g.pos

def execNop (w : Tok) (s : State) := sWord w (fun s => .ok () s) s
def execAdd (w : Tok) (d a b : BitVec 5) (s : State) := sWord w (alu2 d a b (· + ·)) s
def execSub (w : Tok) (d a b : BitVec 5) (s : State) := sWord w (alu2 d a b (· - ·)) s
def execAnd (w : Tok) (d a b : BitVec 5) (s : State) := sWord w (alu2 d a b (· &&& ·)) s
def execOr (w : Tok) (d a b : BitVec 5) (s : State) := sWord w (alu2 d a b (· ||| ·)) s
def execXor (w : Tok) (d a b : BitVec 5) (s : State) := sWord w (alu2 d a b (· ^^^ ·)) s
def execSll (w : Tok) (d a b : BitVec 5) (s : State) := sWord w (alu2 d a b (fun x y => x <<< cnt6 y)) s
def execSrl (w : Tok) (d a b : BitVec 5) (s : State) := sWord w (alu2 d a b (fun x y => x >>> cnt6 y)) s
def execSra (w : Tok) (d a b : BitVec 5) (s : State) := sWord w (alu2 d a b (fun x y => x.sshiftRight (cnt6 y))) s
def execMul (w : Tok) (d a b : BitVec 5) (s : State) := sWord w (alu2 d a b (· * ·)) s
def execMulh (w : Tok) (d a b : BitVec 5) (f : BitVec 3) (s : State) := sWord w (alu2 d a b (mulhOf f)) s
def execDiv (w : Tok) (d a b : BitVec 5) (s : State) := sWord w (alu2 d a b divOf) s
def execRem (w : Tok) (d a b : BitVec 5) (s : State) := sWord w (alu2 d a b remOf) s
def execMin (w : Tok) (d a b : BitVec 5) (s : State) := sWord w (alu2 d a b (fun x y => if y.slt x then y else x)) s
def execMax (w : Tok) (d a b : BitVec 5) (s : State) := sWord w (alu2 d a b (fun x y => if x.slt y then y else x)) s
def execSlt (w : Tok) (d a b : BitVec 5) (f : BitVec 3) (s : State) :=
  sWord w (alu2 d a b (fun x y => bit64 (sltCond f x y))) s
def execSel (w : Tok) (d a b : BitVec 5) (s : State) :=
  sWord w (aluBody [a, b] d (fun s => if gVal d s = 0#64 then gVal b s else gVal a s)) s
def execAddsh (w : Tok) (d a b : BitVec 5) (n : BitVec 3) (s : State) :=
  sWord w (alu2 d a b (fun x y => x + y <<< n.toNat)) s
def execClz (w : Tok) (d a : BitVec 5) (s : State) := sWord w (alu1 d a clzOf) s
def execPopc (w : Tok) (d a : BitVec 5) (s : State) := sWord w (alu1 d a popcOf) s
def execBfx (w : Tok) (d a b : BitVec 5) (s : State) := sWord w (alu2 d a b bfxOf) s
def execBfi (w : Tok) (d a b : BitVec 5) (s : State) :=
  sWord w (aluBody [a, b] d (fun s => bfiOf (gVal d s) (gVal a s) (gVal b s))) s

def execAddi (w : Tok) (d a : BitVec 5) (i : BitVec 8) (s : State) := sWord w (aluI d a i (· + ·)) s
def execAndi (w : Tok) (d a : BitVec 5) (i : BitVec 8) (s : State) := sWord w (aluI d a i (· &&& ·)) s
def execOri (w : Tok) (d a : BitVec 5) (i : BitVec 8) (s : State) := sWord w (aluI d a i (· ||| ·)) s
def execXori (w : Tok) (d a : BitVec 5) (i : BitVec 8) (s : State) := sWord w (aluI d a i (· ^^^ ·)) s
def execSlli (w : Tok) (d a : BitVec 5) (n : BitVec 6) (s : State) := sWord w (alu1 d a (· <<< n.toNat)) s
def execSrli (w : Tok) (d a : BitVec 5) (n : BitVec 6) (s : State) := sWord w (alu1 d a (· >>> n.toNat)) s
def execSrai (w : Tok) (d a : BitVec 5) (n : BitVec 6) (s : State) := sWord w (alu1 d a (·.sshiftRight n.toNat)) s
def execSlti (w : Tok) (d a : BitVec 5) (i : BitVec 8) (s : State) :=
  sWord w (aluI d a i (fun x v => bit64 (x.slt v))) s
def execLi (w : Tok) (d : BitVec 5) (i : BitVec 13) (s : State) := sWord w (aluBody [] d (fun s => immS i s)) s
def execLsh (w : Tok) (d : BitVec 5) (i : BitVec 13) (s : State) :=
  sWord w (aluBody [] d (fun s => gVal d s <<< 13 ||| i.zeroExtend 64)) s
/-- At the tender, which has no arena generators, the four CSRs read as the tender's CSRs do (log 17). -/
def execAgen (w : Tok) (d a b : BitVec 5) (g : BitVec 3) (s : State) :=
  sWord w (aluBody [a, b] d (fun s => arenaAddr (agenRegs g s) (gVal a s) (gVal b s))) s
where
  agenRegs (g : BitVec 3) (s : State) : Arena :=
    if s.atTender then
      let n := 0x50 + 4 * g.toNat
      ⟨Config.tenderCsr n s.free, Config.tenderCsr (n + 1) s.free, Config.tenderCsr (n + 2) s.free,
        (Config.tenderCsr (n + 3) s.free).extractLsb' 0 32⟩
    else Arena.at s.me g

end Sys2Proof.Machine
end

