-- ==== Sys2Proof/Machine/Supplies.lean ====
section
/-! DEFINITION. Supply banks: RETAIN, OFF and the end of a wake (R192 to R196). -/

namespace Sys2Proof.Machine

/-- R195: a FULL bank whose idle time has been reached enters RETAIN. An access on the same clock finds it there
already (`useBank`). -/
def execBankRetain (sp : BitVec 7) (n : BankName) (s : State) : Host.Outcome State Fault Refusal :=
  let x := s.span sp
  .next (if retainDue x n then s.setSpan sp (x.setBank n (x.dueBank n)) else s)

/-- R195: a bank with no live item whose idle time has been reached goes OFF. -/
def execBankOff (sp : BitVec 7) (n : BankName) (s : State) : Host.Outcome State Fault Refusal :=
  let x := s.span sp
  .next (if offDue x n then s.setSpan sp (x.setBank n (x.dueBank n)) else s)

/-- A wake that has run its latency leaves the bank FULL; its idle count starts on the first idle clock after the wake
(R192). -/
def execBankWakeDone (sp : BitVec 7) (n : BankName) (s : State) : Host.Outcome State Fault Refusal :=
  let x := s.span sp
  .next (s.setSpan sp (x.setBank n (x.wokenBank n)))

end Sys2Proof.Machine
end

