-- ==== Sys2Proof/Machine/Switch.lean ====
section
/-! DEFINITION. Full switches: the coded rows (R358), the save image (R357), the save and the restore (R355,
R356, R198). -/

namespace Sys2Proof.Machine

/-! ### Coded rows (R358) -/

/-- The tag of a row after its predecessor: the first of the table that fits. -/
def rowTag (prev v : Row) : BitVec 2 :=
  if v = 0#1024 then 0#2
  else if v = prev then 1#2
  else if (List.range 16).all (fun i => v.extractLsb' (64 * i) 64 == v.extractLsb' 0 64) then 2#2
  else 3#2

/-- The tags of rows in their order. -/
def rowTags (prev : Row) : List Row → List (BitVec 2)
  | [] => []
  | v :: t => rowTag prev v :: rowTags v t

/-- The payload of a row under its tag, as a number of bytes. -/
def payloadLen (t : BitVec 2) : Nat := if t = 2#2 then 8 else if t = 3#2 then 128 else 0
def payload (t : BitVec 2) (v : Row) : Nat := if t = 2#2 then (v.extractLsb' 0 64).toNat else if t = 3#2 then v.toNat else 0

/-- Payloads packed without gaps, and how many bytes they take. -/
def packPayloads : List (BitVec 2 × Row) → Nat × Nat
  | [] => (0, 0)
  | (t, v) :: l =>
    let (n, len) := packPayloads l
    (payload t v + n * 2 ^ (8 * payloadLen t), payloadLen t + len)

/-- `n` rows from a number, the lowest first. -/
def rowsOfNat (v : Nat) : Nat → List Row
  | 0 => []
  | n + 1 => BitVec.ofNat 1024 v :: rowsOfNat (v / 2 ^ 1024) n

/-- A stream of bytes padded with zeros to whole rows. -/
def padRows (v len : Nat) : List Row := rowsOfNat v ((len + 127) / 128)

/-- The tags as a number: tag i at bits [2i + 1:2i]. -/
def packTags : List (BitVec 2) → Nat
  | [] => 0
  | t :: l => t.toNat + 4 * packTags l

/-- The coded stream of some rows: its tag rows, then its payloads. -/
def codeRows (rows : List Row) : List Row :=
  let tags := rowTags 0#1024 rows
  let (n, len) := packPayloads (tags.zip rows)
  rowsOfNat (packTags tags) ((rows.length + 511) / 512) ++ padRows n len

/-! ### Sections (R357) -/

/-- A mask of `n` bits as whole rows. -/
def maskRows (f : Nat → Bool) (n : Nat) : List Row := padRows (packBits f n) ((n + 7) / 8)

/-- Bytes as a number, little-endian. -/
def natOfBytes : List Byte → Nat
  | [] => 0
  | b :: t => b.toNat + 256 * natOfBytes t

/-- A section whose layout the manual does not give, of 16 MiB at most (log 10). -/
def opaqueRows (span sec fresh : Nat) : List Row :=
  let b := (Config.saveSection span sec fresh).take Config.sectionLimit
  padRows (natOfBytes b) b.length

/-- Section 2 for some Reckoners: the live bits of the vector registers, then the live registers by Reckoner and
number. -/
def vectorRows (rs : List (BitVec 2)) (x : Span) : List Row :=
  let regs := rs.flatMap (fun r =>
    ((List.range 32).filter (fun n => (x.reck r).vlive.getLsbD n)).map (fun n => (x.reck r).vreg (BitVec.ofNat 5 n)))
  maskRows (fun i => rs.contains (BitVec.ofNat 2 (i / 32)) && (x.reck (BitVec.ofNat 2 (i / 32))).vlive.getLsbD (i % 32)) 128
    ++ codeRows regs

/-- Section 4: the live bits of the tile rows, then the image rows of every tile with a live row. -/
def tileRows (x : Span) : List Row :=
  let tiles := ((List.range 16).map (BitVec.ofNat 4)).filter (fun t => !(x.tile t).live.isEmpty)
  maskRows (fun i => (x.tile (BitVec.ofNat 4 (i / 128))).isLive (i % 128)) 2048 ++
  codeRows (tiles.flatMap (fun t => (List.range (imageRows (x.cfg t))).map (x.tile t).row))

/-- The rows of accumulator tile `i`, array 0 before array 1. -/
def accOf (x : Span) (i : Nat) : Table AccRow := (x.acc (BitVec.ofNat 1 (i / 8)) (BitVec.ofNat 3 i)).rows

/-- Section 5: the live bits of the accumulator rows, then four rows for each live one. -/
def accSection (x : Span) : List Row :=
  maskRows (fun i => (Table.find? (accOf x (i / 128)) (i % 128)).isSome) 2048 ++
  codeRows ((List.range 16).flatMap (fun i => (accOf x i).flatMap (fun e =>
    (List.range 4).map (fun q => e.2.extractLsb' (1024 * q) 1024))))

/-- Section 6: the units of 64 KiB written since node start, the live bits of their rows (64 bytes a unit, log
10), then every live row of them. -/
def spadSection (m : Memory) (sp : BitVec 7) (x : Span) : List Row :=
  maskRows (fun u => x.touched.contains u) 256 ++
  maskRows (fun i => x.live.contains (512 * x.touched.getD (i / 512) 0 + i % 512)) (512 * x.touched.length) ++
  codeRows (x.live.map (fun k => m.row (spadAddr sp 0#24 / 128 + k)))

/-- Sections 1 to 7. -/
def sections (m : Memory) (sp : BitVec 7) (x : Span) (fresh : Nat) : List (List Row) :=
  [opaqueRows sp.toNat 1 fresh, vectorRows (nodeRecks x) x, opaqueRows sp.toNat 3 fresh, tileRows x, accSection x, spadSection m sp x,
   opaqueRows sp.toNat 7 fresh]

/-- DIR: for each section its first row and its length, from a row on. -/
def dirOf : Nat → List (List Row) → List (Nat × Nat)
  | _, [] => []
  | at', l :: t => (at', l.length) :: dirOf (at' + l.length) t

/-- DIR as a number of 4-byte fields. -/
def packDir : List (Nat × Nat) → Nat
  | [] => 0
  | (a, n) :: t => a % 2 ^ 32 + 2 ^ 32 * (n % 2 ^ 32) + 2 ^ 64 * packDir t

/-- The header row (R357). -/
def headerRow (sp : BitVec 7) (recks : Nat) (tag : BitVec 16) (secs : List (List Row)) : Row :=
  let len := 1 + (secs.map List.length).sum
  BitVec.ofNat 1024
    (0x7 + 2 ^ 8 * 1 + 2 ^ 16 * (2 ^ recks - 1) + 2 ^ 24 * sp.toNat + 2 ^ 64 * (len % 2 ^ 64) + 2 ^ 128 * tag.toNat
      + 2 ^ 256 * packDir ((0, 1) :: dirOf 1 secs))

/-- The whole image, row by row. -/
def imageOf (m : Memory) (sp : BitVec 7) (x : Span) (tag : BitVec 16) (fresh : Nat) : List Row :=
  let secs := sections m sp x fresh
  headerRow sp x.nreck tag secs :: secs.flatten

/-! ### The save (R356) -/

/-- R356 step 2: a thread that runs freezes as R340 gives, with no record: its commands are cut where they stand, but for
those whose unit has begun. -/
def haltReck (s : State) (sp : BitVec 7) (r : BitVec 2) (k : Reckoner) : Reckoner :=
  if (k.run == .running || k.run == .draining) && !standing k then
    { freezeCmds [] s sp r k with halted := true, pend := [] }
  else k

/-- Every thread of the node on a Span that does not stand yet freezes. -/
def haltSpan (sp : BitVec 7) (s : State) : State :=
  (nodeRecks (s.span sp)).foldl (fun s r => s.mapReck sp r (haltReck s sp r)) s

/-- A thread as it is saved, where it stands, its markers gone: its commands use the tables when they go on (R119, R356).
A store that a frozen or stopped thread has still posted keeps its address, and an invalidation waits for it (log 10). -/
def savedReck (k : Reckoner) : Reckoner :=
  { k with halted := false, streams := k.streams.map (fun t => { t with ahead := 0 }) }

/-- A thread already taken at NODE is saved as it stood then: it goes on with its saved registers (R335, R355). -/
def savedThread (n : Node) (i : Nat) (r : Nat) (k : Reckoner) : Reckoner :=
  match n.taken.find? (fun t => t.sp == i && t.r.toNat == r) with
  | some t => resumeTaken n.record t
  | none => savedReck k

/-- RECK of a record (R345). -/
def recordReck (r : Record) : BitVec 2 := r[0].extractLsb' 8 2

/-- A record of a thread that stands frozen: it is saved with it (R356). -/
def recordSaved (x : Span) (r : Record) : Bool := (x.reck (recordReck r)).frozen.isSome

/-- The Span of place `i` as it is saved, with the records of its frozen threads. -/
def savedSpan (n : Node) (i : Nat) (x : Span) : Span :=
  { x with recks := Vector.ofFn (fun (r : Fin 4) => savedThread n i r.val x.recks[r]), rowsOrd := x.rowsOrd.filter (recordSaved x)
           rowFatal := x.rowFatal.filter (recordSaved x), switching := false, staleTlb := [] }

/-- Rows written one after another from a physical row address, by the tender. -/
def writeImage : Nat → List Row → State → Out Unit
  | _, [], s => .ok () s
  | pa, v :: t, s =>
    if placeOwn s pa != .hbm && placeOwn s pa != .deck then .trap (fltAt cADDR (BitVec.ofNat 64 pa)) s
    else (writeRowAt pa (BitVec.allOnes 128) v s).bind fun _ s => writeImage (pa + 128) t s

/-- The live scratchpad rows read by the tender: an error that cannot be corrected is a fault of its own. -/
def readLive (sp : BitVec 7) : List Nat → State → Out Unit
  | [], s => .ok () s
  | k :: t, s => (readRowAt (spadAddr sp 0#24 + 128 * k) s).bind fun _ s => readLive sp t s

/-- What a thread has sent on its way has arrived: its posted stores and window atomics (R340). A posted store
of a thread that a trap or a debug stop holds may wait for its ERET or its resume. -/
def sentAll (k : Reckoner) : Bool := (k.posted.isEmpty || stands k) && k.windows.isEmpty

/-- A thread that stands has nothing under way: the units that had begun have completed (R340), and its window atomics have
left the switches (log 53). -/
def atRest (s : State) (sp : BitVec 7) (r : BitVec 2) : Bool :=
  sentAll (s.reck sp r) && !inSwitches (threadId s sp r) s && (.S :: cmdStreams).all (fun e => !begunUnit s sp r e)

/-- The records of frozen threads leave the queue (R356). -/
def dropRecords (x : Span) : Span :=
  { x with rowsOrd := x.rowsOrd.filter (fun r => !recordSaved x r), rowFatal := x.rowFatal.filter (fun r => !recordSaved x r) }

/-- A save or a restore has failed by a fault of the tender's own accesses: TSWC.ERR, and the Span is quarantined (R348,
R349, R356). -/
def switchFailed (sp : BitVec 7) (s : State) : State :=
  quarantine sp (s.mapTender sp (fun t => { t with swcBusy := false, swcErr := true }))

/-- The sections of an image whose layout the device alone knows: what they hold stays with their rows (R357, log 10). -/
def keepSections (id : Nat) (sp : BitVec 7) (saved : Span) (f : Nat) (s : State) : State :=
  { s with images := [1, 3, 7].map (fun i => ⟨(id, sp), i, opaqueRows sp.toNat i f, saved⟩) ++ s.images }

/-- R356 steps 3 and 4: the image is written at TSAVE, the Span is freed; the marks of its threads
stay theirs (R304). A fault of the tender's accesses quarantines (R348). -/
def saveSpan (n : Node) (sp : BitVec 7) (s : State) : State :=
  let x := s.span sp
  let (f, s) := fresh s
  let i := n.spans.findIdx (· == sp)
  let saved := savedSpan n i x
  match (readLive sp x.live s).bind fun _ s =>
      writeImage x.tender.tsave.toNat (imageOf s.mem sp saved (nodeTag n) f) s with
  | .ok _ s =>
    let s := keepSections n.id sp saved f s
    let s := mapNode n.id (fun n =>
      { n with saved := n.saved ++ [(sp, saved)], taken := n.taken.filter (fun t => t.sp != i) }) s
    let s := s.mapSpan sp dropRecords
    let s := s.mapTender sp (fun t => { t with swcBusy := false, swcErr := false })
    freeTaken n.id { freeSpan s sp with marks := s.marks }
  | .hold s => s
  | .trap _ s => switchFailed sp s

/-- R356: the full switch of a Span whose tender has been signalled and is idle, and has restored what stood to be
restored on it: its threads freeze, and once they have come to rest the image is written. -/
def execFullSwitchSave (sp : BitVec 7) (s : State) : Host.Outcome State Fault Refusal :=
  let x := s.span sp
  .next (match nodeOn s sp with
    | some n =>
      if x.switching && !x.tender.running && !x.tender.quar && (toRestore s n).all (fun e => e.1 != sp) then
        let s := haltSpan sp s
        if (nodeRecks x).all (atRest s sp) then saveSpan n sp s else s
      else s
    | none => s)

/-! ### The restore (R198, R356) -/

/-- ARCH, SPAN, LEN and DIR of a header row. -/
def headerOk (sp : BitVec 7) (h : Row) : Bool :=
  h.extractLsb' 0 8 == 7#8 && (h.extractLsb' 24 8).toNat == sp.toNat &&
  (List.range 8).all (fun i =>
    decide ((h.extractLsb' (256 + 64 * i) 32).toNat + (h.extractLsb' (288 + 64 * i) 32).toNat ≤ (h.extractLsb' 64 64).toNat))

/-- A bank after a restore: FULL with a live item, OFF without (R198). -/
def restoreBank (n : BankName) (x : Span) : Span :=
  x.setBank n ⟨if x.bankLive n then .full else .off, none, x.clock, x.clock, none⟩

/-- The tender's CSRs that a switch saves: TMODE (R357) and TPWR (R362). -/
def restoreTender (t saved : Tender) : Tender :=
  { t with rm := saved.rm, pendNotice := saved.pendNotice, ceil := saved.ceil, evrow := saved.evrow, even := saved.even
           evReset := saved.evReset, evCount := saved.evCount, swcBusy := false, swcErr := false }

/-- `n` rows of an image from a row on, read by the tender. -/
def readImage (pa : Nat) : Nat → State → Out (List Row)
  | 0, s => .ok [] s
  | n + 1, s =>
    if placeOwn s pa != .hbm && placeOwn s pa != .deck then .trap (fltAt cADDR (BitVec.ofNat 64 pa)) s
    else (readRowAt pa s).bind fun v s => (readImage (pa + 128) n s).bind fun l s => .ok (v :: l) s

/-- Rows as one number, the first the lowest. -/
def natOfRows : List Row → Nat
  | [] => 0
  | v :: t => v.toNat + 2 ^ 1024 * natOfRows t

/-- `n` rows from their tags and payloads, after a row (R358). -/
def uncode : Nat → Nat → Nat → Row → List Row
  | 0, _, _, _ => []
  | n + 1, tags, pay, prev =>
    let t : BitVec 2 := BitVec.ofNat 2 tags
    let v : Row :=
      match t.toNat with
      | 0 => 0#1024
      | 1 => prev
      | 2 => (List.range 16).foldl (fun v i => v ||| (BitVec.ofNat 1024 (pay % 2 ^ 64) <<< (64 * i))) 0#1024
      | _ => BitVec.ofNat 1024 pay
    v :: uncode n (tags / 4) (pay / 2 ^ (8 * payloadLen t)) v

/-- The `n` rows of a coded stream. -/
def decodeRows (n : Nat) (l : List Row) : List Row :=
  uncode n (natOfRows (l.take ((n + 511) / 512))) (natOfRows (l.drop ((n + 511) / 512))) 0#1024

/-- The numbers below `n` whose bits are set in the mask rows. -/
def maskNumbers (l : List Row) (n : Nat) : List Nat :=
  (List.range n).filter (fun i => (l.getD (i / 1024) 0#1024).getLsbD (i % 1024))

/-- Section 2 put back: the live vector registers. -/
def loadVectors (l : List Row) (x : Span) : Span :=
  let live := maskNumbers (l.take 1) 128
  let x := { x with recks := x.recks.map (fun k => { k with vlive := 0#32 }) }
  (live.zip (decodeRows live.length (l.drop 1))).foldl (fun x e =>
    let r : BitVec 2 := BitVec.ofNat 2 (e.1 / 32)
    let k := x.reck r
    x.setReck r { k with v := k.v.set (e.1 % 32) e.2 (Nat.mod_lt _ (by omega)), vlive := k.vlive ||| (1#32 <<< (e.1 % 32)) }) x

/-- Section 4 put back: the image rows of the tiles with a live row, under the TCFG values restored. -/
def loadTiles (l : List Row) (x : Span) : Span :=
  let live := maskNumbers (l.take 2) 2048
  let tiles := ((List.range 16).map (BitVec.ofNat 4)).filter (fun t => live.any (fun i => i / 128 == t.toNat))
  let places := tiles.flatMap (fun t => (List.range (imageRows (x.cfg t))).map (fun u => (t, u)))
  let x := { x with tiles := Vector.ofFn (fun (t : Fin 16) =>
    ⟨[], (live.filter (fun i => i / 128 == t.val)).map (· % 128)⟩) }
  (places.zip (decodeRows places.length (l.drop 2))).foldl (fun x e => x.setTile e.1.1 ((x.tile e.1.1).putRow e.1.2 e.2)) x

/-- An accumulator row from its four rows. -/
def joinRows (l : List Row) : AccRow := BitVec.ofNat 4096 (natOfRows (l.take 4))

/-- Section 5 put back: the live accumulator rows. -/
def loadAcc (l : List Row) (x : Span) : Span :=
  let live := maskNumbers (l.take 2) 2048
  let rows := decodeRows (4 * live.length) (l.drop 2)
  let rowsFor (i : Nat) : Table AccRow :=
    (((List.range live.length).map (fun j => (live.getD j 0, joinRows (rows.drop (4 * j))))).filter (fun e => e.1 / 128 == i)).map
      (fun e => (e.1 % 128, e.2))
  { x with arr := Vector.ofFn (fun (a : Fin 2) =>
    { x.arr[a] with acc := Vector.ofFn (fun (i : Fin 8) => { x.arr[a].acc[i] with rows := rowsFor (8 * a.val + i.val) }) }) }

/-- Section 6 put back: the live scratchpad rows with their bytes; the rest of the scratchpad is dead. -/
def loadSpad (sp : BitVec 7) (l : List Row) (x : Span) (s : State) : Span × State :=
  let units := maskNumbers (l.take 1) 256
  let masks := (units.length * 64 + 127) / 128
  let live := (maskNumbers ((l.drop 1).take masks) (512 * units.length)).map (fun i => 512 * units.getD (i / 512) 0 + i % 512)
  let rows := live.zip (decodeRows live.length (l.drop (1 + masks)))
  let first := spadAddr sp 0#24 / 128
  ({ x with live := live, touched := units },
   { s with mem := rows.foldl (fun m e => m.putRow (first + e.1) (BitVec.allOnes 128) e.2) s.mem
            errors := s.errors.filter (fun e => decide (e.1 < first) || decide (first + 131072 ≤ e.1)) })

/-- Section `i` of the image at TSAVE, as its header places it. -/
def readSection (pa : Nat) (h : Row) (i : Nat) (s : State) : Out (List Row) :=
  readImage (pa + 128 * (h.extractLsb' (256 + 64 * i) 32).toNat) (h.extractLsb' (288 + 64 * i) 32).toNat s

/-- What section `i` of an image holds, if these are its rows: what the save of this context has put there, else what another
save has; of rows that no save has written, a free value (log 10). -/
def sectionItems (id : Nat) (sp : BitVec 7) (i : Nat) (l : List Row) (s : State) : Span :=
  let fits (g : SavedSection) : Bool := g.number == i && g.rows == l
  match (s.images.find? (fun g => g.owner == (id, sp) && fits g)).orElse (fun _ => s.images.find? fits) with
  | some g => g.items
  | none => (Config.foreignSection i l).getD Span.reset

/-- A Reckoner put back: section 1, but for COBASE, which section 3 holds, and the commands, which section 7 holds. What the
device itself has kept of its thread are the stores that it has posted and that its barrier has completed (R323, log 10). -/
def itemsReck (x1 x3 x7 kept : Span) (r : Fin 4) : Reckoner :=
  let k := x1.recks[r]
  { k with
    cobase := x3.recks[r].cobase
    posted := kept.recks[r].posted
    wait := if kept.recks[r].wait == .released then .released else k.wait
    streams := Vector.ofFn (fun (e : Fin 6) => { k.streams[e] with active := x7.recks[r].streams[e].active }) }

/-- The context that sections 1, 3 and 7 of an image put back (R357). -/
def itemsSpan (x1 x3 x7 kept : Span) : Span :=
  { kept with
    recks := Vector.ofFn (itemsReck x1 x3 x7 kept)
    tcfg := x3.tcfg, books := x3.books, arr := x3.arr, sms := x3.sms, lease := x3.lease, ashape := x3.ashape
    bgidle := x3.bgidle, bgidleOn := x3.bgidle
    rowsOrd := x1.rowsOrd, rowFatal := x1.rowFatal
    tender := { kept.tender with rm := x3.tender.rm } }

/-- The device state of a Span and its tender stay; the records come back behind those that stand in the queue (R331,
R356). A late timed load of a thread that goes on holds it at once, as after ERET. -/
def restoreSpan (x saved : Span) : Span :=
  let y := { saved with
    recks := Vector.ofFn (fun (r : Fin 4) => { saved.recks[r] with claim := x.recks[r].claim, lateHold := late saved.recks[r] })
    node := x.node, clock := x.clock, cap := x.cap, step := x.step, fall := x.fall, ceil := x.ceil, volt := x.volt
    margin := x.margin, repl := x.repl, idleSince := x.idleSince, snaps := x.snaps, tlb := x.tlb, staleTlb := x.staleTlb
    icache := x.icache
    rowsOrd := x.rowsOrd ++ saved.rowsOrd
    rowFatal := x.rowFatal.orElse (fun _ => saved.rowFatal), switching := x.switching
    tender := restoreTender x.tender saved.tender }
  allBanks.foldl (fun y n => restoreBank n y) y

/-- The record queue of a Span has room for the records of a context (R347). -/
def recordRoom (s : State) (sp : BitVec 7) (saved : Span) : Bool :=
  let x := s.span sp
  decide (x.rowsOrd.length + saved.rowsOrd.length ≤ 15) && (x.rowFatal.isNone || saved.rowFatal.isNone)

/-- One Span's context restored: every section of the image is read, and what it holds is put back from there (R198, R356,
R357, log 10), once the record queue has room. -/
def restoreOne (id : Nat) (sp : BitVec 7) (kept : Span) (s : State) : Out Unit :=
  let pa := (s.span sp).tender.tsave.toNat
  (readImage pa 1 s).bind fun h s =>
  let h := h.getD 0 0#1024
  (readSection pa h 1 s).bind fun l1 s => (readSection pa h 2 s).bind fun l2 s => (readSection pa h 3 s).bind fun l3 s =>
  (readSection pa h 4 s).bind fun l4 s => (readSection pa h 5 s).bind fun l5 s => (readSection pa h 6 s).bind fun l6 s =>
  (readSection pa h 7 s).bind fun l7 s =>
    let saved := itemsSpan (sectionItems id sp 1 l1 s) (sectionItems id sp 3 l3 s) (sectionItems id sp 7 l7 s) kept
    if !recordRoom s sp saved then .hold s
    else
      let (y, s) := loadSpad sp l6 (loadAcc l5 (loadTiles l4 (loadVectors l2 saved))) s
      .ok () (s.mapSpan sp (fun x => restoreSpan x y))

/-- Contexts restored one after another; one that holds is tried again. A fault of a tender's accesses quarantines its Span
(R348). -/
def restoreAll (id : Nat) : List (BitVec 7 × Span) → State → State
  | [], s => mapNode id (fun n => { n with restoring := !(toRestore s n).isEmpty }) s
  | (sp, x) :: t, s =>
    match restoreOne id sp x s with
    | .ok _ s => restoreAll id t (mapNode id (fun n => { n with saved := n.saved.filter (fun e => e.1 != sp) }) s)
    | .hold s => restoreAll id t s
    | .trap _ s => switchFailed sp s

/-- The image header that stands at a Span's TSAVE is good, or cannot be read, which is a fault of its own. -/
def imageGood (s : State) (sp : BitVec 7) : Bool :=
  match readImage (s.span sp).tender.tsave.toNat 1 s with
  | .ok h _ => headerOk sp (h.getD 0 0#1024)
  | .hold _ => true
  | .trap _ _ => true

/-- A Span whose image is refused: TSWC.ERR. Its node ends, and with it the restore on all its Spans. -/
def markBad (s : State) (sp : BitVec 7) : State :=
  if imageGood s sp then s else s.mapTender sp (fun t => { t with swcErr := true })

/-- R356: on redispatch the tenders check the headers; a bad one ends the node (R333), else every Span stands as
its image has it, once its record queue has room, and the threads that were not frozen go on. -/
def execContextRestore (id : Nat) (s : State) : Host.Outcome State Fault Refusal :=
  .next (match s.nodes.find? (fun n => n.id == id && n.restoring) with
    | none => s
    | some n =>
      let todo := toRestore s n
      let sps := todo.map (·.1)
      if !sps.all (imageGood s) then killTag (nodeTag n) (sps.foldl markBad s)
      else restoreAll id todo s)

end Sys2Proof.Machine
end

