-- ==== Sys2Proof/Machine/Trust.lean ====
section
/-! DEFINITION. The root-of-trust core: SPDM requests (R373, R374, R376) and maker tokens (R375). -/

namespace Sys2Proof.Machine

/-- R374: the message comes through the network port, a root port that is up, and is addressed to the core's
endpoint 0x09. Any other packet is discarded. -/
def reachesTrust (s : State) (m : SpdmRequest) : Bool :=
  m.port == s.hpnet && m.endpoint == 9#8 && !(s.port m.port).cxl && (s.port m.port).state == 2#2

/-- A change of the core. -/
def mapTrust (f : Trust → Trust) (s : State) : State := { s with trust := f s.trust }

/-- A reply sent. -/
def reply (m : SpdmReply) (t : Trust) : Trust := { t with out := t.out ++ [m] }

/-- A request that reaches the core: served when the connection stands where the request belongs, else answered
with UnexpectedRequest. -/
def serve (m : SpdmRequest) (ok : Trust → Bool) (f : Trust → Trust) (s : State) : Host.Outcome State Fault Refusal :=
  .next (if reachesTrust s m then mapTrust (fun t => if ok t then f t else reply .unexpectedRequest t) s else s)

/-- The bytes of a word, little-endian. -/
def wordBytes (v : Nat) : Nat → List Byte
  | 0 => []
  | n + 1 => BitVec.ofNat 8 v :: wordBytes (v / 256) n

/-- SPDM 1.3. A new version exchange starts the connection afresh. -/
def execGetVersion (m : SpdmRequest) (s : State) : Host.Outcome State Fault Refusal :=
  serve m (fun _ => true) (fun t => reply (.version 0x13#8) { t with versioned := true, negotiated := false }) s

def execGetCapabilities (m : SpdmRequest) (s : State) : Host.Outcome State Fault Refusal :=
  serve m (·.versioned) (reply .capabilities) s

/-- ML-DSA-44 and SHA3-256, or a refusal (R373). -/
def execNegotiateAlgorithms (m : SpdmRequest) (s : State) : Host.Outcome State Fault Refusal :=
  serve m (·.versioned)
    (fun t => if m.mldsa44 && m.sha3 then reply .algorithms { t with negotiated := true } else reply .refusedAlgorithm t) s

def execGetDigests (m : SpdmRequest) (s : State) : Host.Outcome State Fault Refusal :=
  serve m (·.negotiated) (reply (.digests (Config.sha3 Config.certificate))) s

def execGetCertificate (m : SpdmRequest) (s : State) : Host.Outcome State Fault Refusal :=
  serve m (·.negotiated) (reply (.certificate Config.certificate)) s

def execChallenge (m : SpdmRequest) (s : State) : Host.Outcome State Fault Refusal :=
  serve m (·.negotiated) (reply (.challengeAuth (Config.sign m.payload))) s

/-- R376: the measurement registers, signed with the attestation key. -/
def execGetMeasurements (m : SpdmRequest) (s : State) : Host.Outcome State Fault Refusal :=
  serve m (·.negotiated)
    (fun t => reply (.measurements t.measured
      (Config.sign (m.payload ++ t.measured.flatMap (fun r => wordBytes r.toNat 32)))) t) s

/-- A node of the tag that has not joined names the requester's certificate digest (R373). -/
def tagNames (s : State) (m : SpdmRequest) : Bool :=
  s.nodes.any (fun n => n.status != .joining && nodeTag n == m.tag && Config.recordNames n.record m.digest)

/-- A session bound to one node tag (R373). -/
def openSession (m : SpdmRequest) (t : Trust) : Trust :=
  reply (.keyExchange t.opened (Config.sign m.payload))
    { t with sessions := t.sessions ++ [⟨t.opened, m.tag, m.digest, false, m.port⟩], opened := t.opened + 1 }

def execKeyExchange (m : SpdmRequest) (s : State) : Host.Outcome State Fault Refusal :=
  serve m (fun t => t.negotiated && tagNames s m) (openSession m) s

/-- The session a FINISH names has been opened and is not yet complete. -/
def finishable (m : SpdmRequest) (t : Trust) : Bool :=
  t.sessions.any (fun x => some x.id == m.session && !x.done && x.port == m.port)

def finishSession (m : SpdmRequest) (t : Trust) : Trust :=
  reply (.finished (m.session.getD 0))
    { t with sessions := t.sessions.map (fun x => if some x.id == m.session && x.port == m.port then { x with done := true } else x) }

def execFinish (m : SpdmRequest) (s : State) : Host.Outcome State Fault Refusal :=
  serve m (finishable m) (finishSession m) s

/-! ### Maker tokens (R375) -/

/-- What a token signs: the device identity digest, the mask, the nonce. -/
def tokenText (dev : BitVec 256) (mask : W32) (nonce : BitVec 256) : List Byte :=
  wordBytes dev.toNat 32 ++ wordBytes mask.toNat 4 ++ wordBytes nonce.toNat 32

/-- R375: a token for this device and the nonce last issued, with a good signature, opens the features of its mask
until the next reset; the nonce is retired either way. Fuses close the features in the production state only: a
device in another has nothing to open. -/
def execMakerToken (dev : BitVec 256) (mask : W32) (nonce : BitVec 256) (sig : List Byte) (s : State) :
    Host.Outcome State Fault Refusal :=
  let good := dev == Config.deviceIdentity && nonce == Config.nonce s.trust.issued && Config.makerSigOk (tokenText dev mask nonce) sig
  .next (mapTrust (fun t =>
    reply (.token good) { t with issued := t.issued + 1, maker := if good && t.production then t.maker ||| mask else t.maker }) s)

end Sys2Proof.Machine
end

