-- ==== Sys2Proof/Machine/Threads.lean ====
section
/-! DEFINITION. Steps of a thread and of its tender: steering (R45), retirement (R151), the freeze edge (R340,
R347), the start of a handler (R348), TRPOP (R349), debug stops (R367 to R371). -/

namespace Sys2Proof.Machine

/-- R45: the splitter takes one word; a prefix word joins the unit being gathered. -/
def execSplitterSteer (sp : BitVec 7) (r : BitVec 2) (s : State) : Host.Outcome State Fault Refusal :=
  .next (match steer sp r s with
    | (s, .nothing) => s
    | (s, .pre i) => gather (encode i) { s with cur := ⟨sp, .reck r, none, false⟩ }
    | (s, .placed _) => s)

/-! ### Retirement (R151) -/

/-- Everything the thread had in flight is done; its posted stores, its window atomics and the signals that it owes too
(log 53). -/
def spent (k : Reckoner) : Bool :=
  (.S :: otherStreams).all (fun e => emptyStream e k) && k.landings.isEmpty && k.buffer.isEmpty && k.posted.isEmpty &&
  k.windows.isEmpty && k.wait == .none && k.faults.isEmpty

/-- Arguments are left in q1 to q4 (R56). -/
def leftover (k : Reckoner) : Bool := !(k.q[1].isEmpty && k.q[2].isEmpty && k.q[3].isEmpty && k.q[4].isEmpty)

/-- The fault of a retire that finds arguments left: the record names the thread's EXIT (R56). -/
def retireFault (k : Reckoner) : TrapInfo :=
  { trapInfo .S { bareUnit k with pc := k.exitPc, seq := (k.str .S).lastActed } 0 (flt cQPROTO) with after := true }

/-- What retirement leaves: q6 keeps its entries, the vector registers die and their banks go OFF at once
(R151, R186). -/
def retired (k : Reckoner) : Reckoner :=
  { k with run := .retired, q := #v[[], [], [], [], [], [], k.q[6]], argSeq := Vector.replicate 4 [], q2turn := [], w := Vector.replicate 8 .empty
           vq := Vector.replicate 4 [], vlive := 0#32, vbank := Vector.replicate 4 Bank.off, pendLease := false }

/-- R151: a drained thread retires. What the idle times of the Span have brought about so far stands, whatever times bind
its shared banks from now on (R194, R195). -/
def execThreadRetire (sp : BitVec 7) (r : BitVec 2) (s : State) : Host.Outcome State Fault Refusal :=
  let k := s.reck sp r
  .next (if !(k.run == .draining && clocked k && !stopDue k && spent k && !inSwitches (threadId s sp r) s) then s
    else if leftover k then raiseTrap sp r (retireFault k) s
    else
      let s := dropLease sp r ((s.mapSpan sp settleAll).mapReck sp r retired)
      match nodeOn s sp with
      | some n => freeTaken n.id s
      | none => s)

/-! ### Traps -/

/-- R340, R347: the pending faults of a thread become traps on one freeze edge. -/
def execTrapFreeze (sp : BitVec 7) (r : BitVec 2) (s : State) : Host.Outcome State Fault Refusal :=
  let k := s.reck sp r
  .next (if k.faults.isEmpty || stands k || k.stopMet || !(k.run == .running || k.run == .draining) then s else takeFaults sp r s)

/-- R348, R361: the idle tender fetches from TVEC when a record or a notice is pending; not while the device is held in
reset (R16 step 1). -/
def execTenderHandlerStart (sp : BitVec 7) (s : State) : Host.Outcome State Fault Refusal :=
  let x := s.span sp
  .next (if s.boot ≠ 0 ∧ (!x.tender.running && !x.tender.quar && (!x.rowsOrd.isEmpty || x.rowFatal.isSome || x.tender.pendNotice)) = true then
      s.mapTender sp (fun t => { t with running := true, pc := t.tvec, pend := [], work := none })
    else s)

/-- R349: a write of TRPOP. -/
def execTrpop (sp : BitVec 7) (v : W64) (s : State) : Host.Outcome State Fault Refusal :=
  .next (if v.getLsbD 0 && started s then popRecord sp s else s)

/-! ### Debug stops -/

/-- A finished session holds the Span (R369). -/
def sessionHolds (s : State) (sp : BitVec 7) : Bool := !(holders s sp).isEmpty

/-- The stop that no session holds, taken as a BRK trap: it names the word that would have issued (R369). -/
def stopFault (k : Reckoner) : TrapInfo :=
  let e : Stream := if k.dbgcmp.getLsbD 62 then .V else .S
  let u := ((k.str e).queue.head?).getD { bareUnit k with seq := (k.str e).seq + 1#32 }
  { trapInfo e u 0 (fltAt cBRK (BitVec.allOnes 64)) with after := true }

/-- The thread has met its stop, its landings due are done, and it does not stand at a stop already. -/
def stopReady (k : Reckoner) : Bool :=
  k.stopMet && clocked k &&
  !(late { k with buffer := k.buffer.filter (·.fault.isNone) })

/-- R368: an armed stop is met, after the landings due in that cycle and before any word issues in it. The
stop clears EN. Landings that trap on the same edge freeze the thread once, with the stop (R370). -/
def execDebugStop (sp : BitVec 7) (r : BitVec 2) (s : State) : Host.Outcome State Fault Refusal :=
  .next (if !stopReady (s.reck sp r) then s
    else
      let held := sessionHolds s sp
      let s := landTimed sp r Config.landingEntries s
      let s := s.mapReck sp r (fun k =>
        { k with dbgcmp := k.dbgcmp &&& ~~~(1#64 <<< 63), stopMet := false
                 faults := k.faults ++ landTraps k ++ (if held then [] else [stopFault k]) })
      let s := if (s.reck sp r).faults.isEmpty then s else takeFaults sp r s
      if held && (s.reck sp r).run != .idle then stopThread sp r 1#3 0#13 s else s)

/-- DSTOP as a session reads it (R371). -/
def dstopOf (k : Reckoner) : W64 :=
  let d := k.stop.getD ⟨0#3, 0#13⟩
  (BitVec.ofBool k.stop.isSome ++ BitVec.ofBool k.claim ++ 0#46 ++ d.why ++ d.imm : BitVec 64)

/-- The in-flight table of a thread (R342). -/
def inFlightOf (k : Reckoner) : InFlight :=
  { landings := k.landings.map (fun l => (l.dest, l.mask, l.value, l.due - k.scyV))
    entries := k.buffer.map (fun b => (b.stream, b.dest, b.mask, b.data, b.due - nowOf k b.stream))
    flags := (List.range 8).filterMap (fun i => match k.wide (BitVec.ofNat 3 i) with
      | .pending due _ => some (BitVec.ofNat 3 i, due - k.scyV)
      | _ => none)
    cut := cmdStreams.filterMap (fun e => (k.str e).active.map (fun c => (e, c)))
    popped := ((k.str .S).queue.head?).elim [] (·.popped) }

/-- The CSRs of R147 that can be written. -/
def writableCsrs : List (BitVec 12) :=
  [0x020#12, 0x021#12, 0x022#12, 0x023#12, 0x024#12] ++ (List.range 16).map (fun i => BitVec.ofNat 12 (0x030 + i)) ++
  [0x040#12, 0x041#12, 0x042#12, 0x043#12, 0x048#12] ++ (List.range 32).map (fun i => BitVec.ofNat 12 (0x050 + i)) ++
  [0x070#12, 0x071#12, 0x072#12, 0x073#12, 0x074#12, 0x078#12, 0x090#12]

/-- The repetition at which the head of a stream stands. -/
def headRep (e : Stream) (k : Reckoner) : Nat := ((k.str e).queue.head?).elim 0 (fun u => if u.prep.isSome then u.rep else 0)

/-- The records of a Reckoner in the queue of its Span. -/
def recordsOf (x : Span) (r : BitVec 2) : List Record :=
  (x.rowsOrd ++ x.rowFatal.toList).filter (fun t => t[0].extractLsb' 8 2 == r)

/-- Section 1 of R357 for one Reckoner, item by item. -/
def dumpState (sp : BitVec 7) (r : BitVec 2) (s : State) : DumpState :=
  let x := s.span sp
  let k := x.reck r
  let at' : State := { s with cur := ⟨sp, .reck r, none, false⟩ }
  { resume := match k.frozen with | some f => f.tpc | none => k.pc
    rep := (headRep .S k, headRep .V k)
    g := (List.range 23).map (fun i => k.g[(i + 1) % 32]'(Nat.mod_lt _ (by omega)))
    csrs := writableCsrs.map (fun c => (c, readCsr c at'))
    seqs := k.streams.toList.map (·.seq), tok := k.tok.toList, w := k.w.toList, p := k.p.toList, x := k.x.toList
    rms := k.rms, q := k.q.toList ++ [(x.reck (ringPrev x r)).q[6]], vq := k.vq.toList
    queues := k.streams.toList.map (fun t => (t.queue, t.head, t.tail))
    flight := inFlightOf k, arrival := k.wait, frozen := k.frozen, records := recordsOf x r }

/-- The dump of a stopped thread: sections 1 and 2 of R357 for its Reckoner (R369, log 9). -/
def dumpOf (sp : BitVec 7) (r : BitVec 2) (s : State) : SpdmReply := .dump (dumpState sp r s) (vectorRows [r] (s.span sp))

/-- The rows of the snapshot of a Span's profiling account: 7 from TPROF.BASE (R372). -/
def profileOffs (sp : BitVec 7) (s : State) : List (BitVec 24) :=
  (List.range 7).map (fun i => BitVec.ofNat 24 (128 * ((s.span sp).tender.profBase.toNat + i)))

/-- The banks of rows of a scratchpad made ready, all together (R196, log 35). -/
def wakeOffs (sp : BitVec 7) : List (BitVec 24) → State → Out Unit
  | [], s => .ok () s
  | o :: t, s => (useBank sp (spadBankOf o) s).also (wakeOffs sp t)

/-- Rows of a scratchpad read one after another (R121, R191). -/
def readOffs (sp : BitVec 7) : List (BitVec 24) → State → Out (List Row)
  | [], s => .ok [] s
  | o :: t, s => (readSpad sp o s).bind fun v s => (readOffs sp t s).map fun l => v :: l

/-- The snapshot that a session reads (R372), as any read of the scratchpad: banks that wake hold it, and what cannot be read
is not sent (R121, R191, log 62). -/
def readSnapshot (sp : BitVec 7) (s : State) : State :=
  let offs := profileOffs sp s
  if offs.any (fun o => !rowLive sp o s) then mapTrust (reply .unreadable) s
  else match (wakeOffs sp offs s).bind fun _ s => readOffs sp offs s with
    | .ok rows s => mapTrust (reply (.profile rows)) s
    | .hold s => s
    | .trap _ s => mapTrust (reply .unreadable) s

/-- What a session of the grant asks, answered. RESUME lets a stopped thread go on from its frozen counters (R369). -/
def serveDebug (sp : BitVec 7) (r : BitVec 2) (a : DebugAccess) (s : State) : State :=
  match a with
  | .writeDstop v =>
    let s := s.mapReck sp r (fun k => { k with claim := v.getLsbD 62 })
    if v.getLsbD 61 then endStop sp r s else s
  | .readDstop => mapTrust (reply (.dstop (dstopOf (s.reck sp r)))) s
  | .dump => mapTrust (reply (if (s.reck sp r).stop.isSome then dumpOf sp r s else .unexpectedRequest)) s
  | .profile => readSnapshot sp s

/-- R369, R371, R373, R374: a request of a session that comes through the network port. Outside the grant it is
answered with UnexpectedRequest and changes nothing; a packet that does not reach the core is discarded. -/
def execDstopResume (m : SpdmRequest) (rid : BitVec 9) (a : DebugAccess) (s : State) : Host.Outcome State Fault Refusal :=
  let sp := rid.extractLsb' 2 7
  .next (if !reachesTrust s m then s
    else if (holders s sp).any (fun t => some t.id == m.session && t.port == m.port) then
      serveDebug sp (rid.extractLsb' 0 2) a s
    else mapTrust (reply .unexpectedRequest) s)

end Sys2Proof.Machine
end

