-- ==== Sys2Proof/Machine/VectorAlu.lean ====
section
/-! DEFINITION. Vector arithmetic: VNOP (R100), i32 and f32 lanes (R213, R214), compares (R215), VSEL (R216),
VCVT (R217), VQNT and VLUT (R219, R220), reductions (R221, R222), VSCAN (R223), VPERM (R224), VFLAG (R225),
predicate logic (R204). -/

namespace Sys2Proof.Machine

/-- The kill bit of a word (R190). -/
def killBit (k : BitVec 1) : Bool := k == 1#1

/-- A lane word of two sources. -/
def lane2 (lat : Nat) (p : BitVec 3) (k : BitVec 1) (d a b : BitVec 5) (f : W32 → W32 → W32) : State → Out Unit :=
  vBody [a, b] lat d (pVal p) (fun s => packRow (fun i => f (lane (vVal a s) i) (lane (vVal b s) i))) (killBit k) a

/-- A lane word of one source. -/
def lane1 (lat : Nat) (p : BitVec 3) (k : BitVec 1) (d a : BitVec 5) (f : State → W32 → W32) : State → Out Unit :=
  vBody [a] lat d (pVal p) (fun s => packRow (fun i => f s (lane (vVal a s) i))) (killBit k) a

/-- Per-lane shift counts. -/
def cnt5 (y : W32) : Nat := (y.extractLsb' 0 5).toNat

def execVnop (w : Tok) (s : State) := vWord w (fun s => .ok () s) s
def execVadd (w : Tok) (p : BitVec 3) (k : BitVec 1) (d a b : BitVec 5) (s : State) :=
  vWord w (lane2 2 p k d a b (· + ·)) s
def execVsub (w : Tok) (p : BitVec 3) (k : BitVec 1) (d a b : BitVec 5) (s : State) :=
  vWord w (lane2 2 p k d a b (· - ·)) s
def execVmul (w : Tok) (p : BitVec 3) (k : BitVec 1) (d a b : BitVec 5) (s : State) :=
  vWord w (lane2 2 p k d a b (· * ·)) s
def execVmin (w : Tok) (p : BitVec 3) (k : BitVec 1) (d a b : BitVec 5) (s : State) :=
  vWord w (lane2 2 p k d a b (fun x y => if y.slt x then y else x)) s
def execVmax (w : Tok) (p : BitVec 3) (k : BitVec 1) (d a b : BitVec 5) (s : State) :=
  vWord w (lane2 2 p k d a b (fun x y => if x.slt y then y else x)) s
def execVand (w : Tok) (p : BitVec 3) (k : BitVec 1) (d a b : BitVec 5) (s : State) :=
  vWord w (lane2 2 p k d a b (· &&& ·)) s
def execVor (w : Tok) (p : BitVec 3) (k : BitVec 1) (d a b : BitVec 5) (s : State) :=
  vWord w (lane2 2 p k d a b (· ||| ·)) s
def execVxor (w : Tok) (p : BitVec 3) (k : BitVec 1) (d a b : BitVec 5) (s : State) :=
  vWord w (lane2 2 p k d a b (· ^^^ ·)) s
def execVshl (w : Tok) (p : BitVec 3) (k : BitVec 1) (d a b : BitVec 5) (s : State) :=
  vWord w (lane2 2 p k d a b (fun x y => x <<< cnt5 y)) s
def execVshr (w : Tok) (p : BitVec 3) (k : BitVec 1) (d a b : BitVec 5) (s : State) :=
  vWord w (lane2 2 p k d a b (fun x y => x >>> cnt5 y)) s
def execVsra (w : Tok) (p : BitVec 3) (k : BitVec 1) (d a b : BitVec 5) (s : State) :=
  vWord w (lane2 2 p k d a b (fun x y => x.sshiftRight (cnt5 y))) s

/-! ### f32 lanes (R214) -/

/-- The mode in VRM. -/
def vrmOf (s : State) : Rm := Rm.ofBits s.me.vrm

/-- Sign of an exact zero sum of two addends of these signs (R23). -/
def zeroSum (mode : Rm) (a b : Bool) : Bool := if a == b then a else mode == .rdn

def rndF32 (mode : Rm) (zneg : Bool) (x : Ext) : W32 := BitVec.ofNat 32 (roundExt .f32 mode zneg x).bits

def fAdd (mode : Rm) (x y : W32) : W32 :=
  rndF32 mode (zeroSum mode (f32Neg x) (f32Neg y)) ((f32 x).add (f32 y))
def fSub (mode : Rm) (x y : W32) : W32 :=
  rndF32 mode (zeroSum mode (f32Neg x) (!f32Neg y)) ((f32 x).add (f32 y).neg)
def fMul (mode : Rm) (x y : W32) : W32 := rndF32 mode (f32Neg x != f32Neg y) ((f32 x).mul (f32 y))
def fFma (mode : Rm) (x y z : W32) : W32 :=
  rndF32 mode (zeroSum mode (f32Neg x != f32Neg y) (f32Neg z)) (((f32 x).mul (f32 y)).add (f32 z))
/-- The one operand that is not NaN, the canonical NaN for two, else the choice of `lt`. -/
def fPick (lt : W32 → W32 → Bool) (x y : W32) : W32 :=
  if isNan32 x then (if isNan32 y then nan32 else y) else if isNan32 y then x else if lt y x then y else x
def fMin : W32 → W32 → W32 := fPick fLtZ
def fMax : W32 → W32 → W32 := fPick (fun y x => fLtZ x y)

/-- A float lane word of two sources. -/
def flane2 (p : BitVec 3) (k : BitVec 1) (d a b : BitVec 5) (f : Rm → W32 → W32 → W32) : State → Out Unit :=
  vBody [a, b] 4 d (pVal p)
    (fun s => packRow (fun i => f (vrmOf s) (lane (vVal a s) i) (lane (vVal b s) i))) (killBit k) a

def execFadd (w : Tok) (p : BitVec 3) (k : BitVec 1) (d a b : BitVec 5) (s : State) := vWord w (flane2 p k d a b fAdd) s
def execFsub (w : Tok) (p : BitVec 3) (k : BitVec 1) (d a b : BitVec 5) (s : State) := vWord w (flane2 p k d a b fSub) s
def execFmul (w : Tok) (p : BitVec 3) (k : BitVec 1) (d a b : BitVec 5) (s : State) := vWord w (flane2 p k d a b fMul) s
def execFfma (w : Tok) (p : BitVec 3) (k : BitVec 1) (d a b : BitVec 5) (s : State) :=
  vWord w (vBody [a, b, d] 4 d (pVal p)
    (fun s => packRow (fun i => fFma (vrmOf s) (lane (vVal a s) i) (lane (vVal b s) i) (lane (vVal d s) i)))
    (killBit k) a) s
def execFmin (w : Tok) (p : BitVec 3) (k : BitVec 1) (d a b : BitVec 5) (s : State) :=
  vWord w (flane2 p k d a b (fun _ => fMin)) s
def execFmax (w : Tok) (p : BitVec 3) (k : BitVec 1) (d a b : BitVec 5) (s : State) :=
  vWord w (flane2 p k d a b (fun _ => fMax)) s

/-! ### Compares (R215) and selection (R216) -/

/-- A compare of lanes into a predicate. -/
def cmp2 (p : BitVec 3) (k : BitVec 1) (q : BitVec 3) (a b : BitVec 5) (f : W32 → W32 → Bool) : State → Out Unit :=
  pBody [a, b] 2 q (pVal p) (fun s => packMask (fun i => f (lane (vVal a s) i) (lane (vVal b s) i))) (killBit k) a

def execVceq (w : Tok) (p : BitVec 3) (k : BitVec 1) (q : BitVec 3) (a b : BitVec 5) (s : State) :=
  vWord w (cmp2 p k q a b (· == ·)) s
def execVclt (w : Tok) (p : BitVec 3) (k : BitVec 1) (q : BitVec 3) (a b : BitVec 5) (s : State) :=
  vWord w (cmp2 p k q a b BitVec.slt) s
def execVcltn (w : Tok) (p : BitVec 3) (k : BitVec 1) (q : BitVec 3) (a b : BitVec 5) (s : State) :=
  vWord w (cmp2 p k q a b BitVec.ult) s
def execFceq (w : Tok) (p : BitVec 3) (k : BitVec 1) (q : BitVec 3) (a b : BitVec 5) (s : State) :=
  vWord w (cmp2 p k q a b fEq) s
def execFclt (w : Tok) (p : BitVec 3) (k : BitVec 1) (q : BitVec 3) (a b : BitVec 5) (s : State) :=
  vWord w (cmp2 p k q a b fLt) s
def execFcle (w : Tok) (p : BitVec 3) (k : BitVec 1) (q : BitVec 3) (a b : BitVec 5) (s : State) :=
  vWord w (cmp2 p k q a b fLe) s

def execVsel (w : Tok) (p : BitVec 3) (k : BitVec 1) (d a b : BitVec 5) (s : State) :=
  vWord w (vBody [a, b] 2 d (fun _ => BitVec.allOnes 32)
    (fun s => mergeRow (pVal p s) (vVal b s) (vVal a s)) (killBit k) a) s

/-- Predicate logic (R204). -/
def predBody (p d a b : BitVec 3) (f : W32 → W32 → W32) : State → Out Unit :=
  pBody [] 2 d (pVal p) (fun s => f (pVal a s) (pVal b s)) false 0#5

def execPand (w : Tok) (p d a b : BitVec 3) (s : State) := vWord w (predBody p d a b (· &&& ·)) s
def execPor (w : Tok) (p d a b : BitVec 3) (s : State) := vWord w (predBody p d a b (· ||| ·)) s
def execPxor (w : Tok) (p d a b : BitVec 3) (s : State) := vWord w (predBody p d a b (· ^^^ ·)) s

/-! ### Conversions and codes -/

def execVcvt (w : Tok) (p : BitVec 3) (k : BitVec 1) (d a c : BitVec 5) (s : State) :=
  vWord w (lane1 4 p k d a (fun s x => convert (vrmOf s) c.toNat x)) s

/-- The codebook that VQCB names, which the word reads before its registers; one that no CCB has loaded is DEAD (R218,
R219, log 57). -/
def vqBook (s : State) : Out (List (BitVec 16)) :=
  match s.my.book s.me.vqcb with
  | some b => .ok b s
  | none => .trap (deadItem 5 0 s.me.vqcb.toNat 0 0 0) s

def execVqnt (w : Tok) (p : BitVec 3) (k : BitVec 1) (d a b : BitVec 5) (s : State) :=
  vWord w (fun s => (vqBook s).bind fun book s =>
    vBody [a, b] 6 d (pVal p)
      (fun s => packRow (fun i => BitVec.ofNat 32 (codeOf book (lane (vVal b s) i) (lane (vVal a s) i)).c))
      (killBit k) a s) s

/-- The entry of a code lane, widened; NaN past the codebook (R220). -/
def lutLane (book : List (BitVec 16)) (x : W32) : W32 :=
  match book[(x.extractLsb' 0 8).toNat]? with
  | some e => widen e
  | none => nan32

def execVlut (w : Tok) (p : BitVec 3) (k : BitVec 1) (d a : BitVec 5) (s : State) :=
  vWord w (fun s => (vqBook s).bind fun book s =>
    lane1 4 p k d a (fun _ x => lutLane book x) s) s

/-! ### Reductions -/

/-- The active lanes of a guard, rising. -/
def activeLanes (g : W32) : List Nat := (List.range 32).filter (fun i => g.getLsbD i)

/-- A reduction's value and the lane that its record counts, none for the number of active lanes. -/
abbrev Reduce := State → W32 → Row → W32 × Option Nat

/-- A reduction (R221): its value in every lane at issue + 8, its record at issue + 6. -/
def reduceBody (p : BitVec 3) (k : BitVec 1) (d a : BitVec 5) (f : BitVec 1) (n : BitVec 3) (red : Reduce) (s : State) :
    Out Unit :=
  (depositGate (f == 1#1) n s).bind fun _ s =>
  (vLiveCheck [a] s).bind fun _ s => (vBanks [a, d] s).bind fun _ s =>
    let g := pVal p s
    let (v, at') := red s g (vVal a s)
    let count := at'.getD (activeCount g)
    let s := schedule 8 (.vreg (vName d s)) (BitVec.allOnes 32) (packRow (fun _ => v)) (vKill (killBit k) a s)
    .ok () (if f == 1#1 then deposit n (recordFor count (activeCount g)) s else s)

/-- The lowest active lane that holds a pattern. -/
def laneOf (g : W32) (v : Row) (x : W32) : Nat := ((activeLanes g).find? (fun i => lane v i == x)).getD 0

def sumI32 : Reduce := fun _ g v => ((activeLanes g).foldl (fun a i => a + lane v i) 0#32, none)

/-- The signed maximum of the active lanes. -/
def maxI32 : Reduce := fun _ g v =>
  let m := (activeLanes g).foldl (fun a i => if a.slt (lane v i) then lane v i else a) 0x80000000#32
  (m, some (laneOf g v m))

/-- The float maximum of the active lanes: a NaN lane gives the canonical NaN and its lane (R221). -/
def maxF32 : Reduce := fun _ g v =>
  match (activeLanes g).find? (fun i => isNan32 (lane v i)) with
  | some i => (nan32, some i)
  | none =>
    let m := (activeLanes g).foldl (fun a i => if fLtZ a (lane v i) then lane v i else a) 0xFF800000#32
    (m, some (laneOf g v m))

/-- One level of the tree of R222; absent lanes are not added. -/
def treeLevel (mode : Rm) : List (Option W32) → List (Option W32)
  | a :: b :: t =>
    (match a, b with
      | none, b => b
      | a, none => a
      | some x, some y => some (fAdd mode x y)) :: treeLevel mode t
  | t => t

/-- The fixed tree of five levels (R222). -/
def sumF32 : Reduce := fun s g v =>
  let n0 := (List.range 32).map (fun i => if g.getLsbD i then some (lane v i) else none)
  let t := treeLevel (vrmOf s)
  let n5 := t (t (t (t (t n0))))
  (((n5.head?).join).getD 0#32, none)

def execVreda (w : Tok) (p : BitVec 3) (k : BitVec 1) (d a : BitVec 5) (f : BitVec 1) (n : BitVec 3) (s : State) :=
  vWord w (reduceBody p k d a f n sumI32) s
def execFreda (w : Tok) (p : BitVec 3) (k : BitVec 1) (d a : BitVec 5) (f : BitVec 1) (n : BitVec 3) (s : State) :=
  vWord w (reduceBody p k d a f n sumF32) s
def execFredm (w : Tok) (p : BitVec 3) (k : BitVec 1) (d a : BitVec 5) (f : BitVec 1) (n : BitVec 3) (s : State) :=
  vWord w (reduceBody p k d a f n maxF32) s
def execVredm (w : Tok) (p : BitVec 3) (k : BitVec 1) (d a : BitVec 5) (f : BitVec 1) (n : BitVec 3) (s : State) :=
  vWord w (reduceBody p k d a f n maxI32) s

/-! ### Scans and permutes -/

/-- The prefix sums of the active lanes in lane order, each lane's result (R223). -/
def scanLanes (add : W32 → W32 → W32) (exc : Bool) (g : W32) (v : Row) : List W32 :=
  ((List.range 32).foldl (fun (st : Option W32 × List W32) i =>
    if g.getLsbD i then
      let x := lane v i
      let acc' := match st.1 with | none => x | some a => add a x
      (some acc', (if exc then st.1.getD 0#32 else acc') :: st.2)
    else (st.1, 0#32 :: st.2)) (none, [])).2.reverse

def execVscan (w : Tok) (p : BitVec 3) (k : BitVec 1) (d a : BitVec 5) (e f : BitVec 1) (s : State) :=
  vWord w (vBody [a] 8 d (pVal p)
    (fun s =>
      let add := if f == 1#1 then fAdd (vrmOf s) else (fun x y => x + y)
      let r := scanLanes add (e == 1#1) (pVal p s) (vVal a s)
      packRow (fun i => r.getD i 0#32)) (killBit k) a) s

/-- The lane that an index names, or 0 (R224). -/
def permLane (v : Row) (y : W32) : W32 := if y.getLsbD 31 then 0#32 else lane v (y.extractLsb' 0 5).toNat

def execVperm (w : Tok) (p : BitVec 3) (k : BitVec 1) (d a b : BitVec 5) (s : State) :=
  vWord w (vBody [a, b] 4 d (pVal p)
    (fun s => packRow (fun i => permLane (vVal a s) (lane (vVal b s) i))) (killBit k) a) s

/-! ### VFLAG -/

def vflagBody (p n q : BitVec 3) (s : State) : Out Unit :=
  (depositGate true n s).bind fun _ s =>
    let g := pVal p s
    let count := activeCount (g &&& pVal q s)
    .ok () (deposit n ⟨BitVec.ofNat 16 count, decide (0 < count), decide (count = activeCount g), decide (count = 0)⟩ s)

def execVflag (w : Tok) (p n q : BitVec 3) (s : State) := vWord w (vflagBody p n q) s

end Sys2Proof.Machine
end

