-- ==== Sys2Proof/Machine/Dispatch.lean ====
section
/-! DEFINITION. The meaning of every instruction: one arm per constructor of Instr. -/

namespace Sys2Proof.Machine

/-- What an instruction or step does in a state. -/
def exec (i : Instr) (s : State) : Host.Outcome State Fault Refusal :=
  match i with
  | .nop w => Sys2Proof.Machine.execNop w s
  | .add w d a b => Sys2Proof.Machine.execAdd w d a b s
  | .sub w d a b => Sys2Proof.Machine.execSub w d a b s
  | .and w d a b => Sys2Proof.Machine.execAnd w d a b s
  | .or w d a b => Sys2Proof.Machine.execOr w d a b s
  | .xor w d a b => Sys2Proof.Machine.execXor w d a b s
  | .sll w d a b => Sys2Proof.Machine.execSll w d a b s
  | .srl w d a b => Sys2Proof.Machine.execSrl w d a b s
  | .sra w d a b => Sys2Proof.Machine.execSra w d a b s
  | .mul w d a b => Sys2Proof.Machine.execMul w d a b s
  | .mulh w d a b f => Sys2Proof.Machine.execMulh w d a b f s
  | .div w d a b => Sys2Proof.Machine.execDiv w d a b s
  | .rem w d a b => Sys2Proof.Machine.execRem w d a b s
  | .min w d a b => Sys2Proof.Machine.execMin w d a b s
  | .max w d a b => Sys2Proof.Machine.execMax w d a b s
  | .slt w d a b f => Sys2Proof.Machine.execSlt w d a b f s
  | .sel w d a b => Sys2Proof.Machine.execSel w d a b s
  | .addsh w d a b n => Sys2Proof.Machine.execAddsh w d a b n s
  | .clz w d a => Sys2Proof.Machine.execClz w d a s
  | .popc w d a => Sys2Proof.Machine.execPopc w d a s
  | .bfx w d a b => Sys2Proof.Machine.execBfx w d a b s
  | .bfi w d a b => Sys2Proof.Machine.execBfi w d a b s
  | .addi w d a imm => Sys2Proof.Machine.execAddi w d a imm s
  | .andi w d a imm => Sys2Proof.Machine.execAndi w d a imm s
  | .ori w d a imm => Sys2Proof.Machine.execOri w d a imm s
  | .xori w d a imm => Sys2Proof.Machine.execXori w d a imm s
  | .slli w d a n => Sys2Proof.Machine.execSlli w d a n s
  | .srli w d a n => Sys2Proof.Machine.execSrli w d a n s
  | .srai w d a n => Sys2Proof.Machine.execSrai w d a n s
  | .slti w d a imm => Sys2Proof.Machine.execSlti w d a imm s
  | .li w d imm => Sys2Proof.Machine.execLi w d imm s
  | .lsh w d imm => Sys2Proof.Machine.execLsh w d imm s
  | .agen w d a b g => Sys2Proof.Machine.execAgen w d a b g s
  | .lds w d a imm => Sys2Proof.Machine.execLds w d a imm s
  | .sts w d a imm => Sys2Proof.Machine.execSts w d a imm s
  | .ldt w d a sel => Sys2Proof.Machine.execLdt w d a sel s
  | .stx w a b => Sys2Proof.Machine.execStx w a b s
  | .aadd w d a b => Sys2Proof.Machine.execAadd w d a b s
  | .aand w d a b => Sys2Proof.Machine.execAand w d a b s
  | .aor w d a b => Sys2Proof.Machine.execAor w d a b s
  | .axor w d a b => Sys2Proof.Machine.execAxor w d a b s
  | .amin w d a b => Sys2Proof.Machine.execAmin w d a b s
  | .amax w d a b => Sys2Proof.Machine.execAmax w d a b s
  | .aswp w d a b => Sys2Proof.Machine.execAswp w d a b s
  | .acas w d a b => Sys2Proof.Machine.execAcas w d a b s
  | .aincw w d a b => Sys2Proof.Machine.execAincw w d a b s
  | .aaddb w d a b => Sys2Proof.Machine.execAaddb w d a b s
  | .dcas w d a b => Sys2Proof.Machine.execDcas w d a b s
  | .amov2 w d a b => Sys2Proof.Machine.execAmov2 w d a b s
  | .fence w => Sys2Proof.Machine.execFence w s
  | .sync w => Sys2Proof.Machine.execSync w s
  | .cwait w a n => Sys2Proof.Machine.execCwait w a n s
  | .beq w a b o => Sys2Proof.Machine.execBeq w a b o s
  | .bne w a b o => Sys2Proof.Machine.execBne w a b o s
  | .blt w a b o => Sys2Proof.Machine.execBlt w a b o s
  | .bge w a b o => Sys2Proof.Machine.execBge w a b o s
  | .bltn w a b o => Sys2Proof.Machine.execBltn w a b o s
  | .bgen w a b o => Sys2Proof.Machine.execBgen w a b o s
  | .j w o => Sys2Proof.Machine.execJ w o s
  | .jal w o => Sys2Proof.Machine.execJal w o s
  | .jr w a => Sys2Proof.Machine.execJr w a s
  | .bw w n c o => Sys2Proof.Machine.execBw w n c o s
  | .rdw w d n sel => Sys2Proof.Machine.execRdw w d n sel s
  | .loop w a o => Sys2Proof.Machine.execLoop w a o s
  | .lbr w o => Sys2Proof.Machine.execLbr w o s
  | .region w => Sys2Proof.Machine.execRegion w s
  | .csrr w d c => Sys2Proof.Machine.execCsrr w d c s
  | .csrw w a c => Sys2Proof.Machine.execCsrw w a c s
  | .trap w imm => Sys2Proof.Machine.execTrap w imm s
  | .exit w => Sys2Proof.Machine.execExit w s
  | .node w => Sys2Proof.Machine.execNode w s
  | .launch w a => Sys2Proof.Machine.execLaunch w a s
  | .brk w imm => Sys2Proof.Machine.execBrk w imm s
  | .eret w => Sys2Proof.Machine.execEret w s
  | .sphint w x y imm => Sys2Proof.Machine.execSphint w x y imm s
  | .vnop w => Sys2Proof.Machine.execVnop w s
  | .vadd w p k d a b => Sys2Proof.Machine.execVadd w p k d a b s
  | .vsub w p k d a b => Sys2Proof.Machine.execVsub w p k d a b s
  | .vmul w p k d a b => Sys2Proof.Machine.execVmul w p k d a b s
  | .vmin w p k d a b => Sys2Proof.Machine.execVmin w p k d a b s
  | .vmax w p k d a b => Sys2Proof.Machine.execVmax w p k d a b s
  | .vand w p k d a b => Sys2Proof.Machine.execVand w p k d a b s
  | .vor w p k d a b => Sys2Proof.Machine.execVor w p k d a b s
  | .vxor w p k d a b => Sys2Proof.Machine.execVxor w p k d a b s
  | .vshl w p k d a b => Sys2Proof.Machine.execVshl w p k d a b s
  | .vshr w p k d a b => Sys2Proof.Machine.execVshr w p k d a b s
  | .vsra w p k d a b => Sys2Proof.Machine.execVsra w p k d a b s
  | .vceq w p k q a b => Sys2Proof.Machine.execVceq w p k q a b s
  | .vclt w p k q a b => Sys2Proof.Machine.execVclt w p k q a b s
  | .vcltn w p k q a b => Sys2Proof.Machine.execVcltn w p k q a b s
  | .fadd w p k d a b => Sys2Proof.Machine.execFadd w p k d a b s
  | .fsub w p k d a b => Sys2Proof.Machine.execFsub w p k d a b s
  | .fmul w p k d a b => Sys2Proof.Machine.execFmul w p k d a b s
  | .ffma w p k d a b => Sys2Proof.Machine.execFfma w p k d a b s
  | .fmin w p k d a b => Sys2Proof.Machine.execFmin w p k d a b s
  | .fmax w p k d a b => Sys2Proof.Machine.execFmax w p k d a b s
  | .fceq w p k q a b => Sys2Proof.Machine.execFceq w p k q a b s
  | .fclt w p k q a b => Sys2Proof.Machine.execFclt w p k q a b s
  | .fcle w p k q a b => Sys2Proof.Machine.execFcle w p k q a b s
  | .vcvt w p k d a c => Sys2Proof.Machine.execVcvt w p k d a c s
  | .vqnt w p k d a b => Sys2Proof.Machine.execVqnt w p k d a b s
  | .vlut w p k d a => Sys2Proof.Machine.execVlut w p k d a s
  | .vsel w p k d a b => Sys2Proof.Machine.execVsel w p k d a b s
  | .vreda w p k d a f n => Sys2Proof.Machine.execVreda w p k d a f n s
  | .freda w p k d a f n => Sys2Proof.Machine.execFreda w p k d a f n s
  | .fredm w p k d a f n => Sys2Proof.Machine.execFredm w p k d a f n s
  | .vredm w p k d a f n => Sys2Proof.Machine.execVredm w p k d a f n s
  | .vscan w p k d a e f => Sys2Proof.Machine.execVscan w p k d a e f s
  | .vperm w p k d a b => Sys2Proof.Machine.execVperm w p k d a b s
  | .vflag w p n q => Sys2Proof.Machine.execVflag w p n q s
  | .pand w p d a b => Sys2Proof.Machine.execPand w p d a b s
  | .por w p d a b => Sys2Proof.Machine.execPor w p d a b s
  | .pxor w p d a b => Sys2Proof.Machine.execPxor w p d a b s
  | .vmov w p k d a => Sys2Proof.Machine.execVmov w p k d a s
  | .vbcast w p d => Sys2Proof.Machine.execVbcast w p d s
  | .vrmg w p k d a b => Sys2Proof.Machine.execVrmg w p k d a b s
  | .vrms w => Sys2Proof.Machine.execVrms w s
  | .vmovt w p d => Sys2Proof.Machine.execVmovt w p d s
  | .vmova w p d => Sys2Proof.Machine.execVmova w p d s
  | .vamov w n => Sys2Proof.Machine.execVamov w n s
  | .vpop w p d n => Sys2Proof.Machine.execVpop w p d n s
  | .vld w p imm d x o => Sys2Proof.Machine.execVld w p imm d x o s
  | .vst w p imm d x o => Sys2Proof.Machine.execVst w p imm d x o s
  | .vgth w p imm d x o => Sys2Proof.Machine.execVgth w p imm d x o s
  | .vsct w p imm d x o => Sys2Proof.Machine.execVsct w p imm d x o s
  | .vldt w p d sel => Sys2Proof.Machine.execVldt w p d sel s
  | .mnop w => Sys2Proof.Machine.execMnop w s
  | .mlease w n => Sys2Proof.Machine.execMlease w n s
  | .mrel w => Sys2Proof.Machine.execMrel w s
  | .mwld w r t c l => Sys2Proof.Machine.execMwld w r t c l s
  | .mma w r a t c z l => Sys2Proof.Machine.execMma w r a t c z l s
  | .mmaid w r a t c z l => Sys2Proof.Machine.execMmaid w r a t c z l s
  | .mma32 w r a t c z l u => Sys2Proof.Machine.execMma32 w r a t c z l u s
  | .mzero w r a c => Sys2Proof.Machine.execMzero w r a c s
  | .mexpsh w r a c => Sys2Proof.Machine.execMexpsh w r a c s
  | .mstat w r a c => Sys2Proof.Machine.execMstat w r a c s
  | .mattn w a t c z l => Sys2Proof.Machine.execMattn w a t c z l s
  | .knop w => Sys2Proof.Machine.execKnop w s
  | .kload w r sel c => Sys2Proof.Machine.execKload w r sel c s
  | .kpatch w r sel c => Sys2Proof.Machine.execKpatch w r sel c s
  | .kgain w r c => Sys2Proof.Machine.execKgain w r c s
  | .khist w r c => Sys2Proof.Machine.execKhist w r c s
  | .kout w r sel a t c l y => Sys2Proof.Machine.execKout w r sel a t c l y s
  | .koutD w r sel a c l y => Sys2Proof.Machine.execKoutD w r sel a c l y s
  | .smscfg w sel c => Sys2Proof.Machine.execSmscfg w sel c s
  | .smsrst w c => Sys2Proof.Machine.execSmsrst w c s
  | .cnop w => Sys2Proof.Machine.execCnop w s
  | .ccpy w c r => Sys2Proof.Machine.execCcpy w c r s
  | .c2d w c r => Sys2Proof.Machine.execC2d w c r s
  | .cgth w c r imm => Sys2Proof.Machine.execCgth w c r imm s
  | .cgthArena w c r g => Sys2Proof.Machine.execCgthArena w c r g s
  | .csct w c r imm => Sys2Proof.Machine.execCsct w c r imm s
  | .csctArena w c r g => Sys2Proof.Machine.execCsctArena w c r g s
  | .ctile w c t r d => Sys2Proof.Machine.execCtile w c t r d s
  | .ccb w c r b sel => Sys2Proof.Machine.execCcb w c r b sel s
  | .cdec w c t r => Sys2Proof.Machine.execCdec w c t r s
  | .cenc w c r => Sys2Proof.Machine.execCenc w c r s
  | .cqld w c r q => Sys2Proof.Machine.execCqld w c r q s
  | .cfill w c r => Sys2Proof.Machine.execCfill w c r s
  | .qnop w => Sys2Proof.Machine.execQnop w s
  | .qscan w c e r m x => Sys2Proof.Machine.execQscan w c e r m x s
  | .qtopk w c e r p a => Sys2Proof.Machine.execQtopk w c e r p a s
  | .qred w c e r g imm => Sys2Proof.Machine.execQred w c e r g imm s
  | .pimm imm => Sys2Proof.Machine.execPimm imm s
  | .pmem o sel p l => Sys2Proof.Machine.execPmem o sel p l s
  | .prep c sel d a b => Sys2Proof.Machine.execPrep c sel d a b s
  | .splitterSteer sp r => Sys2Proof.Machine.execSplitterSteer sp r s
  | .timedLanding sp r => Sys2Proof.Machine.execTimedLanding sp r s
  | .lateDataArrival sp r k => Sys2Proof.Machine.execLateDataArrival sp r k s
  | .vResultLanding sp r => Sys2Proof.Machine.execVResultLanding sp r s
  | .wideFlagFull sp r n => Sys2Proof.Machine.execWideFlagFull sp r n s
  | .completionRowUpdate sp r e => Sys2Proof.Machine.execCompletionRowUpdate sp r e s
  | .postedStorePerform sp r k => Sys2Proof.Machine.execPostedStorePerform sp r k s
  | .atomicWriteBack sp r => Sys2Proof.Machine.execAtomicWriteBack sp r s
  | .walkComplete sp k => Sys2Proof.Machine.execWalkComplete sp k s
  | .bankRetain sp b => Sys2Proof.Machine.execBankRetain sp b s
  | .bankOff sp b => Sys2Proof.Machine.execBankOff sp b s
  | .bankWakeDone sp b => Sys2Proof.Machine.execBankWakeDone sp b s
  | .bandGate sp arr j => Sys2Proof.Machine.execBandGate sp arr j s
  | .bandWakeDone sp arr j => Sys2Proof.Machine.execBandWakeDone sp arr j s
  | .leaseGrant sp => Sys2Proof.Machine.execLeaseGrant sp s
  | .leaseRevoke sp => Sys2Proof.Machine.execLeaseRevoke sp s
  | .barrierComplete sp r => Sys2Proof.Machine.execBarrierComplete sp r s
  | .windowUpdateDelivery k => Sys2Proof.Machine.execWindowUpdateDelivery k s
  | .threadRetire sp r => Sys2Proof.Machine.execThreadRetire sp r s
  | .nodeJoin id => Sys2Proof.Machine.execNodeJoin id s
  | .doneIncrement id => Sys2Proof.Machine.execDoneIncrement id s
  | .nodeSubmit win v => Sys2Proof.Machine.execNodeSubmit win v s
  | .dkill v => Sys2Proof.Machine.execDkill v s
  | .nodeDispatch pick segs => Sys2Proof.Machine.execNodeDispatch pick segs s
  | .priorityAgeing id => Sys2Proof.Machine.execPriorityAgeing id s
  | .preemptionRequest => Sys2Proof.Machine.execPreemptionRequest s
  | .preemptEscalation sp => Sys2Proof.Machine.execPreemptEscalation sp s
  | .fullSwitchSave sp => Sys2Proof.Machine.execFullSwitchSave sp s
  | .contextRestore id => Sys2Proof.Machine.execContextRestore id s
  | .trapFreeze sp r => Sys2Proof.Machine.execTrapFreeze sp r s
  | .tenderHandlerStart sp => Sys2Proof.Machine.execTenderHandlerStart sp s
  | .trpop sp v => Sys2Proof.Machine.execTrpop sp v s
  | .xinvcGo v => Sys2Proof.Machine.execXinvcGo v s
  | .invalidationComplete => Sys2Proof.Machine.execInvalidationComplete s
  | .powerIntervalBoundary caps => Sys2Proof.Machine.execPowerIntervalBoundary caps s
  | .tpwrWrite sp v => Sys2Proof.Machine.execTpwrWrite sp v s
  | .ageingReading sp ceil repl => Sys2Proof.Machine.execAgeingReading sp ceil repl s
  | .debugStop sp r => Sys2Proof.Machine.execDebugStop sp r s
  | .dstopResume m rid a => Sys2Proof.Machine.execDstopResume m rid a s
  | .tprofClr sp v => Sys2Proof.Machine.execTprofClr sp v s
  | .hpnetWrite v => Sys2Proof.Machine.execHpnetWrite v s
  | .hpcfgWrite n v => Sys2Proof.Machine.execHpcfgWrite n v s
  | .portLinkTraining n up hdm bad => Sys2Proof.Machine.execPortLinkTraining n up hdm bad s
  | .getVersion m => Sys2Proof.Machine.execGetVersion m s
  | .getCapabilities m => Sys2Proof.Machine.execGetCapabilities m s
  | .negotiateAlgorithms m => Sys2Proof.Machine.execNegotiateAlgorithms m s
  | .getDigests m => Sys2Proof.Machine.execGetDigests m s
  | .getCertificate m => Sys2Proof.Machine.execGetCertificate m s
  | .challenge m => Sys2Proof.Machine.execChallenge m s
  | .getMeasurements m => Sys2Proof.Machine.execGetMeasurements m s
  | .keyExchange m => Sys2Proof.Machine.execKeyExchange m s
  | .finish m => Sys2Proof.Machine.execFinish m s
  | .makerToken dev mask nonce sig => Sys2Proof.Machine.execMakerToken dev mask nonce sig s
  | .powerOnReset => Sys2Proof.Machine.execPowerOnReset s
  | .hbmTraining failed => Sys2Proof.Machine.execHbmTraining failed s
  | .fabricEnumeration dev links => Sys2Proof.Machine.execFabricEnumeration dev links s
  | .flitReceive link f => Sys2Proof.Machine.execFlitReceive link f s
  | .laneShed link => Sys2Proof.Machine.execLaneShed link s
  | .backgroundScrub row => Sys2Proof.Machine.execBackgroundScrub row s
  | .registerWrite a size v => Sys2Proof.Machine.execRegisterWrite a size v s
  | .landingBufferFill sp r k => Sys2Proof.Machine.execLandingBufferFill sp r k s
  | .windowAtomicAccept sp r => Sys2Proof.Machine.execWindowAtomicAccept sp r s
  | .replayIntervalEnd link => Sys2Proof.Machine.execReplayIntervalEnd link s

end Sys2Proof.Machine
end

