-- ==== Sys2Proof/Machine/Schedule.lean ====
section
/-! DEFINITION. Which word acts at the head of a stream or at the tender, the default order of moves (log
3), and a word loaded where the next step fetches (log 2). -/

namespace Sys2Proof.Machine

/-- A word of the S or V stream may act on this clock: none has, and no late data holds both streams (R5, R123,
R127, R209). -/
def cycleFree (e : Stream) (k : Reckoner) : Bool :=
  (e != .S && e != .V) || (!(k.str e).acted && !k.lateHold && !late k)

/-- A stream of a thread that stands has a unit that began before: it completes (R340). -/
def completes (s : State) (sp : BitVec 7) (r : BitVec 2) (e : Stream) : Bool :=
  let k := s.reck sp r
  (k.run == .running || k.run == .draining) && standing k && !(s.span sp).tender.quar && begunUnit s sp r e &&
  (e != .S || k.wait == .none)

/-- The word of the unit that a stream of a standing thread completes, alone (R340). -/
def begunWord (k : Reckoner) (e : Stream) : Option Instr :=
  match (k.str e).active with
  | some c => some c.work.instr
  | none => (k.str e).queue.head?.map Work.now

/-- A stream of a Reckoner may act. -/
def mayAct (s : State) (sp : BitVec 7) (r : BitVec 2) (e : Stream) : Bool :=
  let k := s.reck sp r
  clocked k && !stopDue k && !(s.span sp).tender.quar && !k.faults.any (fun t => t.stream == e && !t.spl && !t.fetch) &&
  (e != .S || k.wait == .none) && cycleFree e k

/-- A unit just steered stands alone at the head of an idle stream. -/
def alone (sp : BitVec 7) (r : BitVec 2) (e : Stream) (s : State) : Bool :=
  let t := (s.reck sp r).str e
  t.queue.length == 1 && t.active.isNone && t.sig.isNone

/-- The word that acts next at the head of a stream, once the start of its schedule cycle has been
settled and owed signals given; none when the stream cannot act, or its word reads a result on its way (R123). Of a thread
that stands, a unit that has begun alone acts (R340). -/
def headOf (sp : BitVec 7) (r : BitVec 2) (e : Stream) (go : Option (Option Nat × Bool)) (s : State) : State × Option Instr :=
  match go with
  | none => (s, none)
  | some (units, stale) =>
    let s := { s with cur := ⟨sp, .reck r, units, stale⟩ }
    if completes s sp r e then ({ s with cur := ⟨sp, .reck r, some 1, stale⟩ }, begunWord (s.reck sp r) e)
    else if !mayAct s sp r e then (s, none)
    else
      let s := settle sp r s
      let k := s.reck sp r
      if !mayAct s sp r e then (s, none)
      else if e == .S && interlocked k (s.span sp).clock then (held .S s, none)
      else if (k.str e).sig.isSome then (s.setReck sp r (trySignal e k), none)
      else match (k.str e).active with
        | some c => (s, some c.work.instr)
        | none => (s, (k.str e).queue.head?.map Work.now)

/-- The tender's next word: the one that holds, or the next of its handler (R348); none while the device is held in reset
(R16 step 1). -/
def tenderMove (sp : BitVec 7) (s : State) : State × Option Instr :=
  let t := (s.span sp).tender
  let s := { s with cur := ⟨sp, .tender, none, false⟩ }
  if !t.running || t.quar || s.boot = 0 then (s, none)
  else match t.work with
    | some u => (s, some u.now)
    | none =>
      match tenderFetch sp s with
      | (s, .nothing) => (s, none)
      | (s, .pre i) => (s, some i)
      | (s, .placed _) => (s, (s.span sp).tender.work.map Work.now)

/-! ### The default order (log 3) -/

/-- The moves of one Reckoner in the default order: what is due first, then its streams. -/
def reckMoves (sp : BitVec 7) (r : BitVec 2) : List Move :=
  [.event (.trapFreeze sp r), .event (.vResultLanding sp r), .event (.landingBufferFill sp r 0),
   .event (.timedLanding sp r), .event (.lateDataArrival sp r 0), .event (.postedStorePerform sp r 0),
   .event (.atomicWriteBack sp r), .event (.windowAtomicAccept sp r), .event (.barrierComplete sp r),
   .event (.completionRowUpdate sp r 2#3), .event (.completionRowUpdate sp r 3#3),
   .event (.completionRowUpdate sp r 4#3), .event (.completionRowUpdate sp r 5#3), .event (.debugStop sp r),
   .event (.threadRetire sp r), .head sp r .S none false, .head sp r .V none false, .head sp r .M none false,
   .head sp r .K none false, .head sp r .C none false, .head sp r .Q none false, .steer sp r]

/-- The moves of one Span in the default order. -/
def spanMoves (sp : BitVec 7) : List Move :=
  (List.range 4).flatMap (fun r => reckMoves sp (BitVec.ofNat 2 r)) ++
  [.event (.leaseRevoke sp), .event (.leaseGrant sp), .event (.tenderHandlerStart sp), .tender sp,
   .event (.preemptEscalation sp), .event (.fullSwitchSave sp)] ++
  (List.range 8).map (fun j => .event (.bandWakeDone sp (BitVec.ofNat 1 (j / 4)) (BitVec.ofNat 2 j))) ++
  (List.range 8).map (fun j => .event (.bandGate sp (BitVec.ofNat 1 (j / 4)) (BitVec.ofNat 2 j))) ++
  allBanks.map (fun n => .event (.bankWakeDone sp n)) ++
  allBanks.map (fun n => .event (.bankRetain sp n)) ++
  allBanks.map (fun n => .event (.bankOff sp n)) ++ [.tick sp]

/-- The moves of the package in the default order. -/
def packageMoves (s : State) : List Move :=
  (s.nodes.flatMap (fun n => [.event (.nodeJoin n.id), .event (.doneIncrement n.id), .event (.contextRestore n.id)]))
  ++ [.event .preemptionRequest, .event .invalidationComplete, .event (.windowUpdateDelivery 0)]

/-- The default move of a turn: the Spans that hold a node or run their tender take turns, and the
package after them. -/
def defaultMove (s : State) : Move :=
  let spans := ((List.range 128).map (BitVec.ofNat 7)).filter (fun sp =>
    (s.span sp).node.isSome || (s.span sp).tender.running || !(s.span sp).rowsOrd.isEmpty || (s.span sp).rowFatal.isSome)
  let moves := spans.flatMap spanMoves ++ packageMoves s
  (moves[s.turn % moves.length]?).getD (.event .preemptionRequest)

/-! ### A word loaded at the fetch address (log 2) -/

/-- The leaf of the page that holds the word: deck SRAM, valid, writable, executable (R110). -/
def codeLeaf : W64 := 0x000001000000000F#64

/-- The record of the node that stands for the load: ENTRY at the fetch address, one Span, one Reckoner,
level span (R326). -/
def loadRecord (pc : BitVec 52) : List W64 :=
  [pc.zeroExtend 64, 0#64, 0x0000000001010100#64] ++ List.replicate 13 0#64

def loadStream (t : StreamSt) : StreamSt :=
  { t with queue := [], sig := none, active := none, held := false, waits := [], acted := false }

/-- Span 0 with its Reckoner 0 running and idle, its fetch page in the translation cache, and no line of its instruction
cache for the fetch address. -/
def loadSpan (x : Span) (id : Nat) : Span :=
  let k := x.reck 0#2
  let page := k.pc.toNat / 0x10000 * 0x10000
  let k := { k with run := .running, frozen := none, stop := none, halted := false, pend := [], steered := false, faults := [], wait := .none
                    streams := k.streams.map loadStream, buffer := [], ready := [], lateHold := false, stopMet := false }
  let x := x.setReck 0#2 k
  { x with node := some id, nreck := if x.nreck = 0 then 1 else x.nreck
           icache := x.icache.filter (fun l => l.line != k.pc.toNat / 128)
           tlb := ⟨x.xroot.extractLsb' 52 12, page, 0x10000, codeLeaf, 0#2⟩ :: x.tlb
           tender := { x.tender with quar := false } }

/-- A state in which the next step fetches and runs one word. -/
def loadWord (s : State) (nbits w : Nat) : State :=
  let x := s.span 0#7
  let pc := (x.reck 0#2).pc
  let pa := 0x10000000000 + pc.toNat % 0x10000
  let id := x.node.getD s.nextNode
  let node : Node :=
    { id := id, record := loadRecord pc, status := .running, order := s.nextOrder, dispatched := s.nextOrder
      since := s.interval, eff := 0#2, spans := [0#7], preempt := none, taken := [], saved := [], restoring := false, ready := true }
  { s.setSpan 0#7 (loadSpan x id) with
    nodes := if x.node.isSome then s.nodes else s.nodes ++ [node]
    nextNode := if x.node.isSome then s.nextNode else s.nextNode + 1
    mem := s.mem.putNat pa 0xF (w % 2 ^ nbits) 4
    errors := Table.del s.errors (pa / 128)
    agenda := [.steer 0#7 0#2] }

end Sys2Proof.Machine
end

