-- ==== Sys2Proof/Machine/Step.lean ====
section
/-! DEFINITION. The step: one move of one agent (log 3). -/

namespace Sys2Proof.Machine

/-- One move of one agent: a clock, a splitter, the head of a stream, the tender, or a step of the
table. A word that a splitter or the tender takes, and that may act at once, acts in the same step. -/
def doMove (m : Move) (s : State) : Host.Outcome State Fault Refusal :=
  match m with
  | .tick sp => .next (tickSpan sp s)
  | .steer sp r =>
    match steer sp r s with
    | (s, .nothing) => .next s
    | (s, .pre i) => exec i { s with cur := ⟨sp, .reck r, none, false⟩ }
    | (s, .placed e) =>
      match headOf sp r e (if alone sp r e s then some (none, false) else none) s with
      | (s, some i) => exec i s
      | (s, none) => .next s
  | .head sp r e units stale =>
    match headOf sp r e (some (units, stale)) s with
    | (s, some i) => exec i s
    | (s, none) => .next s
  | .tender sp =>
    match tenderMove sp s with
    | (s, some i) => exec i s
    | (s, none) => .next s
  | .faults d => .next { s with defer := d }
  | .unfetch sp i => .next (s.mapSpan sp (fun x => { x with icache := x.icache.eraseIdx i }))
  | .event i => if (streamOf i).isNone && !isPrefixWord i then exec i s else .next s

/-- The step: the next move of the agenda, or the default one. -/
def step (s : State) : Host.Outcome State Fault Refusal :=
  match s.agenda with
  | m :: rest => doMove m { s with agenda := rest }
  | [] => doMove (defaultMove s) { s with turn := s.turn + 1 }

/-- A state in which the very next step fetches and runs one word: a node resident on Span 0 with its
Reckoner 0 running and idle, its fetch page translated to deck SRAM, the word stored where the fetch
address lies (log 2). -/
def State.withFetchWord (s : State) (nbits w : Nat) : State := loadWord s nbits w

end Sys2Proof.Machine
end

