-- ==== Sys2Proof/Safety.lean ====
section
/-! DEFINITION. What a safe run is: every step answers a next state. -/

namespace Sys2Proof

/-- The machine runs `k` steps from a state without a fault or a refusal. -/
def SafeFor (k : Nat) (s : Machine.State) : Prop := ∃ t, core.run k s = .next t

/-- The machine runs from a state for ever without a fault or a refusal. -/
def Safe (s : Machine.State) : Prop := ∀ k, SafeFor k s

end Sys2Proof
end

