-- ==== Sys2Proof/WellFormed.lean ====
section
/-! DEFINITION. Well-formed instructions: those a splitter accepts from a Reckoner's text (R44). -/

namespace Sys2Proof

/-- Every operand within its range and every queue register in its direction (R44 checks 3 and 5). -/
def Instr.wellFormed (i : Instr) : Bool := Machine.operandsOk i && Machine.queueOk i

end Sys2Proof
end

