-- ==== Sys2Proof/Certificates/Slice0/Obligations.lean ====
section
/-! DEFINITION. The statements for the provers, after the words in which they are said. A statement about
a word of the S or V stream speaks of its unit as the head of the stream of the current core (State.cur);
the statement about a step says when that is the word that runs. -/

namespace Sys2Proof.Claims

open Sys2Proof.Machine

/-! ### When a word runs, and what it leaves its stream -/

/-- The PREP of a unit lets its word run: a repetition is left, and before the first the checks of R63
pass; at the tender the queue registers are plain ones (R348). -/
def PrepRuns (tender : Bool) (u : Work) : Prop :=
  ∀ p, u.prep = some p → u.rep < p.count.toNat ∧ (u.rep = 0 → repCheck tender u.instr p = none)

/-- A word of stream `e` with token bits `w` may run in `s`: at a Reckoner its waits are met, which leaves
`s0`; the tender takes no tokens. -/
def Starts (e : Stream) (w : Tok) (s s0 : State) : Prop :=
  (if s.atTender then e = .S ∧ s0 = s else waitTokens e w s = some s0) ∧ PrepRuns s.atTender (s0.unit e)

/-- The same at a Reckoner. -/
def Begins (e : Stream) (w : Tok) (s s0 : State) : Prop :=
  s.atTender = false ∧ waitTokens e w s = some s0 ∧ PrepRuns false (s0.unit e)

/-- Nothing that an access has asked of another device stands: its address has still to be translated (R112). -/
def Unsent (w : Access) (s : State) : Prop := ∀ q ∈ s.fabric.requests, q.who ≠ some w

/-- The thread of the current core stands neither frozen nor at a debug stop, and no full switch has frozen it. -/
def Awake (s : State) : Prop := s.me.frozen = none ∧ s.me.stop = none ∧ s.me.halted = false

/-- What a word begun in `s` leaves once its effect has made `t`: its clock, its place in the queue and its
signals, or at the tender its unit. -/
def finish (s : State) (e : Stream) (w : Tok) (t : State) : State := if s.atTender then tenderDone t else issued e w t

/-- A destination takes a value at once: a queue has room, and a push to q6 has no access of its stream still
before it (R53, R294). -/
def Room (d : BitVec 5) (s : State) : Prop :=
  s.atTender = true ∨ isQueueReg d = false ∨ (queueRoom d s = true ∧ (d = 30#5 → sPerformed s.me = true))

/-- Stream `e` holds in `t` at the head that it had in `u`, and memory, its timed loads and its posted stores stand. -/
def HoldsAt (e : Stream) (u t : State) : Prop :=
  (t.me.str e).held = true ∧ (t.me.str e).queue = (u.me.str e).queue ∧ t.mem = u.mem ∧ t.me.buffer = u.me.buffer ∧
  t.me.posted = u.me.posted ∧ t.me.g = u.me.g

/-! ### Scalar computation -/

/-- A scalar word that computes: its token bits, its sources, its destination, and its result from the
state after the pops. -/
structure Compute where
  tok : Tok
  srcs : List (BitVec 5)
  dst : BitVec 5
  val : State → W64

/-- The register forms, x = g[a] and y = g[b] (R131, R132). -/
def two (w : Tok) (d a b : BitVec 5) (f : W64 → W64 → W64) : Option Compute :=
  some ⟨w, [a, b], d, fun s => f (gVal a s) (gVal b s)⟩
/-- The forms of one source. -/
def one (w : Tok) (d a : BitVec 5) (f : W64 → W64) : Option Compute := some ⟨w, [a], d, fun s => f (gVal a s)⟩
/-- The immediate forms (R133). -/
def imm (w : Tok) (d a : BitVec 5) (i : BitVec 8) (f : W64 → W64 → W64) : Option Compute :=
  some ⟨w, [a], d, fun s => f (gVal a s) (immS i s)⟩
/-- A truth value as a scalar. -/
def truth (p : Prop) [Decidable p] : W64 := if p then 1#64 else 0#64

/-- A number as signed or unsigned. -/
def asInt (signed : Bool) (x : W64) : Int := if signed then x.toInt else (x.toNat : Int)

/-- The results of R131 to R134 and R136. -/
def computeOf : Instr → Option Compute
  | .add w d a b => two w d a b fun x y => x + y
  | .sub w d a b => two w d a b fun x y => x - y
  | .and w d a b => two w d a b fun x y => x &&& y
  | .or w d a b => two w d a b fun x y => x ||| y
  | .xor w d a b => two w d a b fun x y => x ^^^ y
  | .sll w d a b => two w d a b fun x y => x <<< (y.toNat % 64)
  | .srl w d a b => two w d a b fun x y => x >>> (y.toNat % 64)
  | .sra w d a b => two w d a b fun x y => x.sshiftRight (y.toNat % 64)
  | .mul w d a b => two w d a b fun x y => BitVec.ofNat 64 (x.toNat * y.toNat)
  | .mulh w d a b sg => two w d a b fun x y =>
      BitVec.ofInt 64 (asInt (sg != 1#3) x * asInt (sg == 0#3) y / 2 ^ 64)
  | .div w d a b => two w d a b fun x y =>
      if y = 0#64 then 0xFFFFFFFFFFFFFFFF#64 else BitVec.ofInt 64 (x.toInt.tdiv y.toInt)
  | .rem w d a b => two w d a b fun x y =>
      if y = 0#64 then x else BitVec.ofInt 64 (x.toInt - y.toInt * x.toInt.tdiv y.toInt)
  | .min w d a b => two w d a b fun x y => BitVec.ofInt 64 (min x.toInt y.toInt)
  | .max w d a b => two w d a b fun x y => BitVec.ofInt 64 (max x.toInt y.toInt)
  | .slt w d a b cc => two w d a b fun x y =>
      truth ((cc = 0#3 ∧ x.toInt < y.toInt) ∨ (cc = 1#3 ∧ x.toNat < y.toNat) ∨ (cc = 2#3 ∧ x = y) ∨
        (3 ≤ cc.toNat ∧ x ≠ y))
  | .sel w d a b => some ⟨w, [a, b], d, fun s => if gVal d s ≠ 0#64 then gVal a s else gVal b s⟩
  | .addsh w d a b n => two w d a b fun x y => x + y * BitVec.ofNat 64 (2 ^ n.toNat)
  | .clz w d a => one w d a fun x => BitVec.ofNat 64 (64 - (if x = 0#64 then 0 else Nat.log2 x.toNat + 1))
  | .popc w d a => one w d a fun x => BitVec.ofNat 64 ((List.range 64).filter (fun i => x.getLsbD i)).length
  | .bfx w d a b => two w d a b bfxOf
  | .bfi w d a b => some ⟨w, [a, b], d, fun s => bfiOf (gVal d s) (gVal a s) (gVal b s)⟩
  | .addi w d a i => imm w d a i fun x v => x + v
  | .andi w d a i => imm w d a i fun x v => x &&& v
  | .ori w d a i => imm w d a i fun x v => x ||| v
  | .xori w d a i => imm w d a i fun x v => x ^^^ v
  | .slli w d a n => one w d a fun x => x <<< n.toNat
  | .srli w d a n => one w d a fun x => x >>> n.toNat
  | .srai w d a n => one w d a fun x => x.sshiftRight n.toNat
  | .slti w d a i => imm w d a i fun x v => truth (x.toInt < v.toInt)
  | .li w d i => some ⟨w, [], d, fun s => immS i s⟩
  | .lsh w d i => some ⟨w, [], d, fun s => BitVec.ofNat 64 (8192 * (gVal d s).toNat + i.toNat)⟩
  | _ => none

/-! ### Memory -/

/-- Memory `m'` is `m` with the `n` low bytes of a number stored from address `a`, little-endian. -/
def Bytes (a n v : Nat) (m m' : Memory) : Prop :=
  ∀ x, m'.get x = if a ≤ x ∧ x < a + n then BitVec.ofNat 8 (v / 256 ^ (x - a)) else m.get x

/-- The current Span with a bank used on this clock. -/
def usedNow (n : BankName) (s : State) : State :=
  s.setMy (s.my.setBank n { s.my.dueBank n with used := s.my.clock })

/-- An access of stream `e` to the local row at `off` may be performed at once: no PMEM asserts another tier,
nothing earlier orders before it, its bank is FULL on this clock, the race watch of local rows is off, its row has no
error. -/
def LocalOpen (e : Stream) (off : BitVec 24) (wr : Bool) (s : State) : Prop :=
  (spaceAsk e s = none ∨ spaceAsk e s = some 0#3) ∧
  (s.atTender = true ∨ (mustWait e (orderOf e s) wr s.me = false ∧ s.me.rwatch.getLsbD 0 = false)) ∧
  (s.my.dueBank (spadBankOf off)).st = .full ∧ Table.find? s.errors (spadAddr s.cur.sp off / 128) = none

/-- A masked write of the local row at `off` takes `s` to `t`: the row becomes live, the bytes of the mask are
written, the others keep their values, or read zero where the row was dead; nothing else of memory and no
register changes (R102). -/
def LocalWritten (off : BitVec 24) (mask : BitVec 128) (v : Row) (s t : State) : Prop :=
  rowLive s.cur.sp off t = true ∧
  (∀ x, t.mem.get x =
    if x / 128 = spadAddr s.cur.sp off / 128 then
      if mask.getLsbD (x % 128) then v.extractLsb' (8 * (x % 128)) 8
      else if rowLive s.cur.sp off s then s.mem.get x else 0#8
    else s.mem.get x) ∧
  (∀ sp r, t.reck sp r = s.reck sp r) ∧
  t = { s with mem := t.mem, spans := t.spans }

/-- The offset of LDS and STS: (g[a] + v)[23:0] with [2:0] cleared (R137). -/
def offsetOf (a : BitVec 5) (i : BitVec 8) (s : State) : BitVec 24 :=
  (gVal a s + immS i s).extractLsb' 0 24 &&& ~~~7#24

/-! ### Timed requests -/

/-- The page of an address is not in the translation cache of the current Span. -/
def Missing (a : W64) (s : State) : Bool := misses a s

/-- The walks of the package once the current Span asks for the page of an address: it joins the first walk of this
page under this ASID in which a Span of its die stands, or starts one (R116). -/
def walksWith (a : W64) (policy : BitVec 2) (s : State) : List Walk :=
  let page := a.toNat % 2 ^ 52 / 2 ^ 16
  let mine (w : Walk) : Bool := w.page == page && w.root.extractLsb' 52 12 == s.my.xroot.extractLsb' 52 12 &&
    w.spans.any (fun n => n.toNat / 32 == s.cur.sp.toNat / 32)
  match s.walks.findIdx? mine with
  | some i => s.walks.modify i (fun w => { w with spans := s.cur.sp :: w.spans })
  | none => s.walks ++ [⟨s.my.xroot, page, policy, [s.cur.sp]⟩]

/-- The state once a timed request of the current Span is made. -/
def requested (a : W64) (policy : BitVec 2) (s : State) : State :=
  if Missing a s then { s with walks := walksWith a policy s } else s

/-! ### Branches -/

/-- A conditional branch of R140: its token bits, sources, offset, and when it is taken. -/
structure Conditional where
  tok : Tok
  a : BitVec 5
  b : BitVec 5
  off : BitVec 8
  taken : W64 → W64 → Prop

def conditionalOf : Instr → Option Conditional
  | .beq w a b o => some ⟨w, a, b, o, fun x y => x = y⟩
  | .bne w a b o => some ⟨w, a, b, o, fun x y => x ≠ y⟩
  | .blt w a b o => some ⟨w, a, b, o, fun x y => x.toInt < y.toInt⟩
  | .bge w a b o => some ⟨w, a, b, o, fun x y => y.toInt ≤ x.toInt⟩
  | .bltn w a b o => some ⟨w, a, b, o, fun x y => x.toNat < y.toNat⟩
  | .bgen w a b o => some ⟨w, a, b, o, fun x y => y.toNat ≤ x.toNat⟩
  | _ => none

/-- The target of a branch or jump: the address of the word plus four times its offset of `n` bits, widened by
PIMM (R61, R140). -/
def branchGoal {n : Nat} (o : BitVec n) (s : State) : Int :=
  ((s.unit .S).pc.toNat : Int) + 4 * (wideImm (s.unit .S).pimms n o).toInt
/-- A target at which fetch may go on: not negative, below 2^52 (R140). -/
def InSpace (t : Int) : Prop := 0 ≤ t ∧ t < 2 ^ 52

/-! ### Atomics -/

/-- An atomic on one unit: token bits, operands, the bytes of its unit, its operation code, and what it makes
of the old unit under x = g[b] and the old g[d] (R310, R311): the new unit, none when nothing is written, and
the result. -/
structure Atomic where
  tok : Tok
  d : BitVec 5
  a : BitVec 5
  b : BitVec 5
  bytes : Nat
  op : BitVec 7
  f : W64 → W64 → W64 → Option W64 × W64

/-- An operation that always writes and gives back the old unit. -/
def always (w : Tok) (d a b : BitVec 5) (op : BitVec 7) (f : W64 → W64 → W64) : Option Atomic :=
  some ⟨w, d, a, b, 8, op, fun old x _ => (some (f old x), old)⟩

def atomicOf : Instr → Option Atomic
  | .aadd w d a b => always w d a b 0x38#7 fun old x => old + x
  | .aand w d a b => always w d a b 0x39#7 fun old x => old &&& x
  | .aor w d a b => always w d a b 0x3A#7 fun old x => old ||| x
  | .axor w d a b => always w d a b 0x3B#7 fun old x => old ^^^ x
  | .amin w d a b => always w d a b 0x3C#7 fun old x => BitVec.ofInt 64 (min old.toInt x.toInt)
  | .amax w d a b => always w d a b 0x3D#7 fun old x => BitVec.ofInt 64 (max old.toInt x.toInt)
  | .aswp w d a b => always w d a b 0x3E#7 fun _ x => x
  | .acas w d a b => some ⟨w, d, a, b, 8, 0x3F#7, fun old x exp => (if old = exp then some x else none, old)⟩
  | .aincw w d a b => always w d a b 0x40#7 fun old x => if old.toNat < x.toNat then old + 1#64 else 0#64
  | .aaddb w d a b => some ⟨w, d, a, b, 4, 0x41#7, fun old x _ =>
      if old.toNat + x.toNat % 2 ^ 32 ≤ x.toNat / 2 ^ 32 then (some (BitVec.ofNat 64 (old.toNat + x.toNat % 2 ^ 32)), old)
      else (none, old ||| 0x8000000000000000#64)⟩
  | _ => none

/-- Where the row of a target lies in the memory of the package (R107). -/
def home (s : State) (t : Target) : Nat := homeAddr s t.addr

/-- The scratchpad row of this device that a target names, itself or over the fabric (R107, R158). -/
def homeSpad (s : State) : Target → Option (BitVec 7 × BitVec 24)
  | .spad sp off => some (sp, off)
  | .phys pa => ownSpad s pa

/-- The row of a target lies on this device, and the way to it is open: its CXL port is up (R107, R379). -/
def Reached (t : Target) (s : State) : Prop :=
  match t with
  | .spad _ _ => True
  | .phys pa => remote s pa = false ∧ unreachable s pa = false

/-- What a window update makes of its unit (R310, R313): AADD, AAND, AOR, AXOR, AMIN, AMAX. -/
def mergeBy (op : BitVec 7) (old x : W64) : W64 :=
  match op.toNat with
  | 0x38 => old + x
  | 0x39 => old &&& x
  | 0x3A => old ||| x
  | 0x3B => old ^^^ x
  | 0x3C => BitVec.ofInt 64 (min old.toInt x.toInt)
  | _ => BitVec.ofInt 64 (max old.toInt x.toInt)

/-- A row at its home is served at once: it lies on this device and can be reached, it has no error, and a row of a scratchpad is live in
a bank that is FULL on this clock. -/
def Served (t : Target) (s : State) : Prop :=
  Table.find? s.errors (home s t / 128) = none ∧ Reached t s ∧
  ∀ sp off, homeSpad s t = some (sp, off) → rowLive sp off s = true ∧ ((s.span sp).dueBank (spadBankOf off)).st = .full

/-- The unit of `n` bytes that a target names, at its home. -/
def unitAddr (s : State) (t : Target) (n : Nat) : Nat := home s t / n * n

/-! ### Control and status registers -/

/-- The bits of a Reckoner's CSR that a CSRW places (R147): the RW fields of the rules it names. TCFG0 to
TCFG15 stand apart. -/
def csrMask (c : BitVec 12) : W64 :=
  match c.toNat with
  | 0x020 => 0x7F#64
  | 0x021 => 0x3#64
  | 0x022 => 0xFFE000#64
  | 0x023 => 0xF#64
  | 0x024 => 0xFFFFFFFFFFFFFFFF#64
  | 0x040 => 0xFF#64
  | 0x041 => 0xFFFF#64
  | 0x042 => 0xFFFF#64
  | 0x043 => 0xFFFF#64
  | 0x048 => 0x7#64
  | 0x070 => 0x7#64
  | 0x071 => 0x3FF#64
  | 0x072 => 0x3FF#64
  | 0x073 => 0x3FF#64
  | 0x074 => 0x3FF#64
  | 0x078 => 0x3#64
  | 0x090 => 0xC000FFFFFFFFFFFF#64
  | n => if 0x050 ≤ n ∧ n ≤ 0x06F then (if n % 4 = 3 then 0xFFFFFFFF#64 else 0xFFFFFFFFFFFFFFFF#64) else 0#64

/-- A tile CSR: TCFG0 to TCFG15. -/
def IsTcfg (c : BitVec 12) : Prop := 0x030 ≤ c.toNat ∧ c.toNat ≤ 0x03F

/-- A CSRW of this value places a reserved value (R31, R62, R316): MDEF with ORDER above 4 or POLICY 3, a TCFG
that R31 refuses, a LEVEL above 4 or above the node's. -/
def Reserved (c : BitVec 12) (v : W64) (s : State) : Prop :=
  (c = 0x020#12 ∧ (4 < v.toNat / 16 % 8 ∨ v.toNat % 4 = 3)) ∨
  (IsTcfg c ∧ cfgOk (v.extractLsb' 0 32) = false) ∨
  (c = 0x070#12 ∧ (4 < v.toNat % 8 ∨ s.me.nlevel.toNat < v.toNat % 8))

/-! ### System words -/

/-- A window atomic of a thread is still on its way to its home (R313). -/
def OnTheWay (t : ThreadId) (s : State) : Prop := ∃ u ∈ s.fabric.updates, u.work.isSome = true ∧ u.thread = t

/-- The drain of SYNC, REGION and NODE has ended (R321). -/
def Drained (s : State) : Prop := stranded s.my s.cr s.me = false ∧ drained s.me = true

/-- The registers that a thread taken at NODE keeps (R335). -/
def keepsRegisters (k : Reckoner) (t : TakenThread) : Prop :=
  t.g = k.g ∧ t.mdef = k.mdef ∧ t.vrm = k.vrm ∧ t.cobase = k.cobase ∧ t.rrb = k.rrb ∧ t.lc = k.lc ∧
  t.bret = k.bret ∧ t.boff = k.boff ∧ t.vqcb = k.vqcb ∧ t.ag = k.ag ∧ t.level = k.level ∧ t.pace = k.pace ∧
  t.rwatch = k.rwatch ∧ t.dbgcmp = k.dbgcmp

/-! ### Vector words -/

/-- The vector registers of these names are live (R191). -/
def Live (ns : List (BitVec 5)) (s : State) : Prop := ∀ n ∈ ns, s.me.vlive.getLsbD (vName n s).toNat = true

/-- A V word of one result: its token bits, its sources, the vector registers whose banks it uses, its latency, its
destination, the lanes or bits it writes, their values, and the source that its kill mark ends (R187, R188). -/
structure VCompute where
  tok : Tok
  srcs : List (BitVec 5)
  banks : List (BitVec 5)
  lat : Nat
  dest : State → VDest
  mask : State → W32
  val : State → Row
  kill : Option (BitVec 5)

/-- A lane word: lane i of the destination under guard p takes f of the state and i (R185, R188). -/
def lanes (w : Tok) (p : BitVec 3) (k : BitVec 1) (d : BitVec 5) (srcs : List (BitVec 5)) (lat : Nat)
    (f : State → Nat → W32) : Option VCompute :=
  some ⟨w, srcs, srcs ++ [d], lat, fun s => .vreg (vName d s), pVal p, fun s => packRow (f s), if k = 1#1 then srcs.head? else none⟩

/-- Lane i of a source. -/
def ln (n : BitVec 5) (s : State) (i : Nat) : W32 := lane (vVal n s) i

/-- The words whose result is a vector register (R199, R201, R213, R214, R216, R217, R223, R224). -/
def vectorOf : Instr → Option VCompute
  | .vadd w p k d a b => lanes w p k d [a, b] 2 fun s i => ln a s i + ln b s i
  | .vsub w p k d a b => lanes w p k d [a, b] 2 fun s i => ln a s i - ln b s i
  | .vmul w p k d a b => lanes w p k d [a, b] 2 fun s i => ln a s i * ln b s i
  | .vmin w p k d a b => lanes w p k d [a, b] 2 fun s i => BitVec.ofInt 32 (min (ln a s i).toInt (ln b s i).toInt)
  | .vmax w p k d a b => lanes w p k d [a, b] 2 fun s i => BitVec.ofInt 32 (max (ln a s i).toInt (ln b s i).toInt)
  | .vand w p k d a b => lanes w p k d [a, b] 2 fun s i => ln a s i &&& ln b s i
  | .vor w p k d a b => lanes w p k d [a, b] 2 fun s i => ln a s i ||| ln b s i
  | .vxor w p k d a b => lanes w p k d [a, b] 2 fun s i => ln a s i ^^^ ln b s i
  | .vshl w p k d a b => lanes w p k d [a, b] 2 fun s i => ln a s i <<< ((ln b s i).toNat % 32)
  | .vshr w p k d a b => lanes w p k d [a, b] 2 fun s i => ln a s i >>> ((ln b s i).toNat % 32)
  | .vsra w p k d a b => lanes w p k d [a, b] 2 fun s i => (ln a s i).sshiftRight ((ln b s i).toNat % 32)
  | .fadd w p k d a b => lanes w p k d [a, b] 4 fun s i => fAdd (Rm.ofBits s.me.vrm) (ln a s i) (ln b s i)
  | .fsub w p k d a b => lanes w p k d [a, b] 4 fun s i => fSub (Rm.ofBits s.me.vrm) (ln a s i) (ln b s i)
  | .fmul w p k d a b => lanes w p k d [a, b] 4 fun s i => fMul (Rm.ofBits s.me.vrm) (ln a s i) (ln b s i)
  | .ffma w p k d a b => lanes w p k d [a, b, d] 4 fun s i => fFma (Rm.ofBits s.me.vrm) (ln a s i) (ln b s i) (ln d s i)
  | .fmin w p k d a b => lanes w p k d [a, b] 4 fun s i => Sys2Proof.Machine.fMin (ln a s i) (ln b s i)
  | .fmax w p k d a b => lanes w p k d [a, b] 4 fun s i => Sys2Proof.Machine.fMax (ln a s i) (ln b s i)
  | .vcvt w p k d a c => lanes w p k d [a] 4 fun s i => convert (Rm.ofBits s.me.vrm) c.toNat (ln a s i)
  | .vscan w p k d a e f => lanes w p k d [a] 8 fun s i =>
      (scanLanes (if f = 1#1 then fAdd (Rm.ofBits s.me.vrm) else fun x y => x + y) (e == 1#1) (pVal p s) (vVal a s)).getD i 0#32
  | .vperm w p k d a b => lanes w p k d [a, b] 4 fun s i =>
      if (ln b s i).toNat < 2 ^ 31 then ln a s ((ln b s i).toNat % 32) else 0#32
  | .vmov w p k d a => some ⟨w, [a], [a, d], 2, fun s => .vreg (vName d s), pVal p, vVal a, if k = 1#1 then some a else none⟩
  | .vsel w p k d a b => some ⟨w, [a, b], [a, b, d], 2, fun s => .vreg (vName d s), fun _ => BitVec.allOnes 32,
      fun s => packRow (fun i => if (pVal p s).getLsbD i then ln a s i else ln b s i), if k = 1#1 then some a else none⟩
  | .vrmg w p k d a b => some ⟨w, [a, b], [a, b, d], 4, fun s => .vreg (vName d s), pVal p,
      fun s => ((vVal b s ++ vVal a s : BitVec 2048) >>> (8 * s.me.rms.toNat)).extractLsb' 0 1024, if k = 1#1 then some a else none⟩
  | _ => none

/-- A compare of lanes into a predicate, under guard p (R215). -/
def compares (w : Tok) (p : BitVec 3) (k : BitVec 1) (q : BitVec 3) (a b : BitVec 5) (f : W32 → W32 → Bool) : Option VCompute :=
  some ⟨w, [a, b], [a, b], 2, fun s => .pred (pName q s), pVal p,
    fun s => (packMask (fun i => f (ln a s i) (ln b s i))).zeroExtend 1024, if k = 1#1 then some a else none⟩
/-- Predicate logic under guard p (R204). -/
def logic (w : Tok) (p d a b : BitVec 3) (f : W32 → W32 → W32) : Option VCompute :=
  some ⟨w, [], [], 2, fun s => .pred (pName d s), pVal p, fun s => (f (pVal a s) (pVal b s)).zeroExtend 1024, none⟩

/-- The words whose result is a predicate register. -/
def predicateOf : Instr → Option VCompute
  | .vceq w p k q a b => compares w p k q a b fun x y => x == y
  | .vclt w p k q a b => compares w p k q a b fun x y => decide (x.toInt < y.toInt)
  | .vcltn w p k q a b => compares w p k q a b fun x y => decide (x.toNat < y.toNat)
  | .fceq w p k q a b => compares w p k q a b fun x y => (f32 x).eq (f32 y)
  | .fclt w p k q a b => compares w p k q a b fun x y => (f32 x).lt (f32 y)
  | .fcle w p k q a b => compares w p k q a b fun x y => (f32 x).lt (f32 y) || (f32 x).eq (f32 y)
  | .pand w p d a b => logic w p d a b fun x y => x &&& y
  | .por w p d a b => logic w p d a b fun x y => x ||| y
  | .pxor w p d a b => logic w p d a b fun x y => x ^^^ y
  | _ => none

/-- Of the Reckoners only the supply banks of vector registers differ. -/
def BanksOnly (s t : State) : Prop := ∀ n r, t.reck n r = { s.reck n r with vbank := (t.reck n r).vbank }

/-- A V result scheduled, and the source of its kill mark dead (R187, R190). -/
def scheduled (c : VCompute) (s : State) : State :=
  schedule c.lat (c.dest s) (c.mask s) (c.val s) (match c.kill with | some n => vKill true n s | none => s)

/-- A reduction (R221): the value that every lane takes, and the lane that its record counts, if it counts one. -/
structure Reduction where
  tok : Tok
  p : BitVec 3
  k : BitVec 1
  d : BitVec 5
  a : BitVec 5
  f : BitVec 1
  n : BitVec 3
  val : State → W32 × Option Nat

def reductionOf : Instr → Option Reduction
  | .vreda w p k d a f n => some ⟨w, p, k, d, a, f, n, fun s =>
      (BitVec.ofInt 32 (((activeLanes (pVal p s)).map (fun i => (ln a s i).toInt)).sum), none)⟩
  | .vredm w p k d a f n => some ⟨w, p, k, d, a, f, n, fun s => maxI32 s (pVal p s) (vVal a s)⟩
  | .freda w p k d a f n => some ⟨w, p, k, d, a, f, n, fun s => sumF32 s (pVal p s) (vVal a s)⟩
  | .fredm w p k d a f n => some ⟨w, p, k, d, a, f, n, fun s => maxF32 s (pVal p s) (vVal a s)⟩
  | _ => none

/-- The record of a reduction or a VFLAG: COUNT, then ANY, ALL and NONE of the active lanes (R221, R225). -/
def wideRec (count : Nat) (any all none : Prop) [Decidable any] [Decidable all] [Decidable none] : WideRec :=
  ⟨BitVec.ofNat 16 count, decide any, decide all, decide none⟩

/-- How many lanes a mask holds. -/
def lanesIn (g : W32) : Nat := ((List.range 32).filter (fun i => g.getLsbD i)).length

/-! ### Commands -/

/-- The head word of a stream of commands may leave its queue: no command is in execution, the gap of the pacing
register has passed, the waits are met, which leaves `s0`; for M, no revocation or grant of the lease is due on this
clock and no LEASE is pending (R55, R235, R237, R337). -/
def Ready (e : Stream) (w : Tok) (s s0 : State) : Prop :=
  s.atTender = false ∧ (s.me.str e).active = none ∧ (e = .M → leaseNow s.cur.sp s = s ∧ s.me.pendLease = false) ∧
  paced e s.me s.my.clock = true ∧ waitTokens e w s = some s0

/-- A word that has no completion row leaves its queue in `t` and signals (R100). -/
def passed (e : Stream) (w : Tok) (s t : State) : State :=
  t.mapMe (fun k => trySignal e ((dequeue e (s.unit e).seq t.my.clock k).modStr e (fun x =>
    { x with sig := sigOf w, ahead := x.ahead - 1 })))

/-- A command: its engine, token bits, completion row and reply bit, how its engine lets it leave its head, how
many arguments it pops, its latches, what it takes when its checks are made, what its begin changes, its checks, how
many units it has, a unit, and its closing work (R152, R153, R234, R255, R281). -/
structure Command where
  eng : Stream
  tok : Tok
  row : BitVec 6
  rp : Bool
  enter : State → State → Prop
  args : State → Option (List W64 × Reckoner)
  latch : State → Cmd → Cmd
  copies : State → Cmd → Cmd
  start : State → State
  check : State → Cmd → Option Flt
  total : Cmd → Nat
  unit : Cmd → State → Out Cmd
  close : Cmd → State → Out Cmd

/-- No other engine stands before this one in the line for q2 (R275). -/
abbrev InTurn (e : Stream) (k : Reckoner) : Prop := k.q2turn.head?.getD e = e

/-- A Reckoner with `n` entries of the argument queue of a stream popped, no engine of which stands in line for q2. -/
def without (e : Stream) (n : Nat) (k : Reckoner) : Reckoner :=
  { k with
    q := k.q.set (argQueue e).val (k.q[(argQueue e).val].drop n)
    argSeq := Vector.ofFn (fun (i : Fin 4) => if i.val + 1 = (argQueue e).val then k.argSeq[i].drop n else k.argSeq[i])
    q2turn := k.q2turn.erase e }

/-- `n` arguments at the front of the argument queue of a stream, and the Reckoner without them; the S accesses
before the first push come first, and a K command takes its turn at q2 (R55, R159, R275, R294). -/
def front (e : Stream) (n : Nat) (s : State) : Option (List W64 × Reckoner) :=
  if n = 0 then some ([], s.me)
  else if n ≤ s.me.q[(argQueue e).val].length ∧ (e = .K → InTurn .K s.me) ∧
      pushPerformed (pushesOf e s.me).head? s.me = true then
    some (s.me.q[(argQueue e).val].take n, without e n s.me)
  else none

/-- The two arguments of q1 and the two of q2 that a MATTN pops together (R275). -/
def frontBoth (s : State) : Option (List W64 × Reckoner) :=
  if 2 ≤ s.me.q[1].length ∧ 2 ≤ s.me.q[2].length ∧ InTurn .M s.me ∧ pushPerformed (pushesOf .M s.me).head? s.me = true then
    some (s.me.q[1].take 2 ++ s.me.q[2].take 2, { without .K 2 (without .M 2 s.me) with q2turn := s.me.q2turn.erase .M })
  else none

/-- A command that stands at `place` in Girder order has its turn: no command of another Reckoner is at work, and none that
may go on stands before it (R228). -/
def Turn (place : Nat) (s : State) : Prop :=
  ∀ r, r ≠ s.cr → ∀ x, ((s.my.reck r).str .M).active = some x → (x.stage = .checking ∨ x.stage = .running) →
    x.engine = false ∧ (clocked (s.my.reck r) = true → place < x.place)

/-- A command that begins now finds no other of its Girder that may go on (R228). -/
def Alone (s : State) : Prop :=
  ∀ r, r ≠ s.cr → ∀ x, ((s.my.reck r).str .M).active = some x → (x.stage = .checking ∨ x.stage = .running) →
    x.engine = false ∧ clocked (s.my.reck r) = false

def ofC (w : Tok) (c : BitVec 6) (r : BitVec 1) (n : Nat) (latch : State → Cmd → Cmd) (check : Cmd → Option Flt)
    (total : Cmd → Nat) (unit close : Cmd → State → Out Cmd) : Option Command :=
  some ⟨.C, w, c, r == 1#1, fun s t => copyGate s = .ok () t, front .C n, latch, noLatch, id, fun _ => check, total, unit, close⟩
def ofM (w : Tok) (c : BitVec 6) (n : Nat) (latch : State → Cmd → Cmd) (check : State → Cmd → Option Flt)
    (total : Cmd → Nat) (unit close : Cmd → State → Out Cmd) : Option Command :=
  let latches (s : State) (x : Cmd) : Cmd := latch s (latchGirder c s x)
  some ⟨.M, w, c, false, fun s t => s.my.lease.holder = some s.cr ∧ t = s, front .M n, fun s x => latchPlace s (latches s x),
    relatch latches, countLease, check, total, unit, close⟩
def ofK (arr : BitVec 1) (w : Tok) (c : BitVec 6) (n : Nat) (latch copies : State → Cmd → Cmd) (check : State → Cmd → Option Flt)
    (total : Cmd → Nat) (unit close : Cmd → State → Out Cmd) : Option Command :=
  some ⟨.K, w, c, false, fun s t => ladderGate arr s = .ok () t, front .K n, latch, copies, id, check, total, unit, close⟩
def ofQ (w : Tok) (c : BitVec 6) (r : BitVec 1) (n : Nat) (check : Cmd → Option Flt)
    (total : Cmd → Nat) (unit close : Cmd → State → Out Cmd) : Option Command :=
  some ⟨.Q, w, c, r == 1#1, fun s t => pierGate s = .ok () t, front .Q n, noLatch, noLatch, id, fun _ => check, total, unit, close⟩

def commandOf : Instr → Option Command
  | .ccpy w c r => ofC w c r 3 noLatch (fun c => illArg (badCount (c.arg 2)) (c.arg 2)) (fun c => countOf (c.arg 2))
      (fun c s => copyRow c (rowAt (c.arg 0) c.cursor) (rowAt (c.arg 1) c.cursor) s) noClose
  | .c2d w c r => ofC w c r 5 noLatch (fun c => illArg (badShape (c.arg 4)) (c.arg 4)) (fun c => shapeUnits (c.arg 4))
      (fun c s => copyRow c (lineRow (c.arg 0) (c.arg 2) (c.cursor / shapeRows (c.arg 4)) (c.cursor % shapeRows (c.arg 4)))
        (lineRow (c.arg 1) (c.arg 3) (c.cursor / shapeRows (c.arg 4)) (c.cursor % shapeRows (c.arg 4))) s) noClose
  | .cgth w c r i => ofC w c r 5 noLatch (fun c => illArg (badShape (c.arg 4)) (c.arg 4)) (fun c => shapeUnits (c.arg 4))
      (indexUnit false i) noClose
  | .cgthArena w c r g => ofC w c r 4 (latchArena g) (fun c => illArg (badShape (c.arg 3)) (c.arg 3))
      (fun c => shapeUnits (c.arg 3)) (arenaUnit false) noClose
  | .csct w c r i => ofC w c r 5 noLatch (fun c => illArg (badShape (c.arg 4)) (c.arg 4)) (fun c => shapeUnits (c.arg 4))
      (indexUnit true i) noClose
  | .csctArena w c r g => ofC w c r 4 (latchArena g) (fun c => illArg (badShape (c.arg 3)) (c.arg 3))
      (fun c => shapeUnits (c.arg 3)) (arenaUnit true) noClose
  | .ctile w c t r d => ofC w c r 1 (latchTile t) noRows (fun c => imageRows c.tcfg) (tileUnit t d) noClose
  | .ccb w c r b z => ofC w c r 1 noLatch (fun _ => none) (fun _ => if z == 1#1 then 4 else 1) (ccbUnit z) (ccbClose b)
  | .cqld w c r q => ofC w c r 2 noLatch (fun c => illArg (badCount (c.arg 1)) (c.arg 1)) (fun c => countOf (c.arg 1))
      (cqldUnit q) noClose
  | .cfill w c r => ofC w c r 3 noLatch (fun c => illArg (badCount (c.arg 2)) (c.arg 2)) (fun c => countOf (c.arg 2))
      (fun c s => (cmdWrite .C c (rowAt (c.arg 0) c.cursor) wholeRow (fillRow (c.arg 1)) s).map fun _ => c) noClose
  | .cdec w c t r => ofC w c r 3 (latchTile t) cdecCheck cdecCount (cdecUnit t) noClose
  | .cenc w c r => ofC w c r 4 noLatch (fun c => illArg (badCount (c.arg 3)) (c.arg 3)) (fun c => countOf (c.arg 3))
      cencUnit cencClose
  | .mwld w r t c l => ofM w c 0 (latchTile t) (fun _ => mwldCheck r) (fun _ => 1) (mwldUnit r t) (killAtEnd l t)
  | .mma w r a t c z l => ofM w c 0 (latchTile t) (mmaCheck r) (fun c => blocksOf c.tcfg) (mmaUnit r a t z) (killAtEnd l t)
  | .mmaid w r a t c z l => ofM w c 1 (fun s c => if statsToCome s then latchTile t s c else latchGains s (latchTile t s c)) (fun _ => mmaidCheck r) (fun _ => 4) (mmaidUnit r a t z) (killAtEnd l t)
  | .mma32 w r a t c z l u => ofM w c 0 (latchMma32 t u) (fun _ => mma32Check r) (fun c => 6 * blocksOf c.tcfg)
      (mma32Unit r a t u z) (killAtEnd l t)
  | .mzero w r a c => ofM w c 0 noLatch (fun _ _ => none) (fun _ => 1) (mzeroUnit r a) noClose
  | .mexpsh w r a c => ofM w c 3 noLatch (fun _ c => illOf ((c.arg 2).extractLsb' 16 48 != 0#48) (c.arg 2))
      (fun c => (maskedRows c).length) (mexpshUnit r a) noClose
  | .mstat w r a c => ofM w c 2 noLatch mstatCheck (fun _ => 1) (mstatUnit r a) noClose
  | .mattn w a t c z l => (ofM w c 2 (mattnLatch t) mattnCheck (fun c => cfgRows c.tcfg) (mattnUnit a t z) (killAtEnd l t)).map
      (fun k => { k with args := frontBoth })
  | .kload w r k c => ofK r w c 2 noLatch noLatch kloadCheck kloadCount (kloadUnit r k) noClose
  | .kpatch w r k c => ofK r w c 2 noLatch noLatch kpatchCheck (fun _ => 1) (kpatchUnit r k) noClose
  | .kgain w r c => ofK r w c 1 noLatch noLatch (fun _ c => addrOf (c.arg 0)) (fun _ => 1) (kgainUnit r) noClose
  | .khist w r c => ofK r w c 2 noLatch noLatch khistCheck (fun _ => 1) (khistUnit r) noClose
  | .kout w r k a t c l y => let f : KoutForm := ⟨r, k, a, some t, y == 1#1⟩
      ofK r w c 1 (koutLatch f) (koutCopies f) (koutCheck f) f.rows (koutUnit f) (koutClose f l)
  | .koutD w r k a c l y => let f : KoutForm := ⟨r, k, a, none, y == 1#1⟩
      ofK r w c 2 (koutLatch f) (koutCopies f) (koutCheck f) f.rows (koutUnit f) (koutClose f l)
  | .smscfg w k c => ofK 0#1 w c 2 noLatch noLatch smscfgCheck (fun _ => 1) (smscfgUnit k) noClose
  | .smsrst w c => ofK 0#1 w c 2 noLatch noLatch (fun _ _ => none) (fun _ => 1) smsrstUnit noClose
  | .qscan w c e r m x => ofQ w c r 5 (qscanCheck m) (fun c => countOf (c.arg 1)) (qscanUnit e m) (qscanClose x)
  | .qtopk w c e r p a => ofQ w c r 4 (qtopkCheck e p) (fun c => countOf (c.arg 1)) (qtopkUnit e p a) qtopkClose
  | .qred w c e r g i => ofQ w c r (if g == 1#1 then 6 else 5) (qredCheck e g) (fun c => countOf (c.arg 3)) (qredUnit e g i)
      (qredClose e g)
  | _ => none

/-- A command behind a stride: past its unit, or at the same cursor when the unit has only prepared what it keeps. -/
def strode (cursor : Nat) (c : Cmd) : Cmd :=
  if c.again then { c with again := false, cursor := cursor } else { c with cursor := cursor + 1 }

/-- `n` strides of a command from its cursor, one after another (R48, R162). -/
def Runs (total : Cmd → Nat) (unit : Cmd → State → Out Cmd) : Nat → Cmd → State → Cmd → State → Prop
  | 0, c, s, c', s' => c' = c ∧ s' = s
  | n + 1, c, s, c', s' => c.cursor < total c ∧ ∃ c1 s1, unit c s = .ok c1 s1 ∧ Runs total unit n (strode c.cursor c1) s1 c' s'

/-- The first command of a stream once its engine has let it go in `s1`: it has popped `args`, left its head and made
its latches, before its checks; and the state in which it stands. -/
def begun (k : Command) (args : List W64) (t : Reckoner) (s s1 : State) : Cmd × State :=
  let s2 := s1.setMe t
  (k.latch s2 (newCmd s2.me (s.unit k.eng) args k.row k.rp), s2.mapMe (dequeue k.eng (s.unit k.eng).seq s2.my.clock))

/-- A bank of the Span is FULL on this clock. -/
def Full (n : BankName) (s : State) : Prop := (s.my.dueBank n).st = .full

/-- The enabled bands of an array are powered. -/
def Powered (c : Cmd) (arr : BitVec 1) (s : State) : Prop :=
  ∀ j : Fin 4, bandIn c arr j = true → (s.my.array arr).band[j].gated = false

/-- The operands of a unit that streams tile `t` into accumulator `a`: the rows of the tile live, its codebook
loaded, the rows of the accumulator live unless they are cleared, both banks FULL. -/
def Streams (arr : BitVec 1) (a : BitVec 3) (t : BitVec 4) (clear : Prop) (c : Cmd) (s : State) : Prop :=
  (∀ i < cfgRows c.tcfg, (s.my.tile t).isLive i = true) ∧
  (usesBook c.tcfg = true → (s.my.book (cfgCb c.tcfg)).isSome = true) ∧
  (clear ∨ ∀ i < cfgRows c.tcfg, (Table.find? (s.my.acc arr a).rows i).isSome = true) ∧
  Full (.tile t) s ∧ Full (.acc arr a) s

/-- A unit updates accumulator `a`: word n of streamed row i takes f of the word it held (0 when cleared) in the
selected columns and keeps it in the others; no other row, no memory and no Reckoner changes. -/
def Accumulates (arr : BitVec 1) (a : BitVec 3) (rows : Nat) (clear : Prop) [Decidable clear] (cols : Nat → Bool)
    (f : Nat → Nat → W32 → W32) (s s' : State) : Prop :=
  s'.mem = s.mem ∧ (∀ sp r, s'.reck sp r = s.reck sp r) ∧
  ∀ i, if i < rows then
      ∃ v, Table.find? (s'.my.acc arr a).rows i = some v ∧ ∀ n < 128,
        let old := if clear then 0#32 else accWord ((Table.find? (s.my.acc arr a).rows i).getD 0#4096) n
        accWord v n = if cols n then f i n old else old
    else Table.find? (s'.my.acc arr a).rows i = Table.find? (s.my.acc arr a).rows i

/-- `y` is the bf16 value that `x` truncates to (R38): of its sign, not above it in magnitude, and none of the bf16
values between them. -/
def Truncates (x y : Dy) : Prop :=
  (∃ b : BitVec 16, bf16 b = .fin y) ∧ (y.isZero = true ∨ y.isNeg = x.isNeg) ∧ x.abs.lt y.abs = false ∧
  ∀ (b : BitVec 16) (z : Dy), bf16 b = .fin z → x.abs.lt z.abs = false → y.abs.lt z.abs = false

/-! ### Rows of commands -/

/-- A row at a target may be written at once: it lies on this device and can be reached, it has no error, and a bank of a scratchpad is
FULL on this clock. -/
def Writable (t : Target) (s : State) : Prop :=
  Table.find? s.errors (home s t / 128) = none ∧ Reached t s ∧
  ∀ sp off, homeSpad s t = some (sp, off) → ((s.span sp).dueBank (spadBankOf off)).st = .full

/-- A target's row is a scratchpad row that is dead. -/
def isDead (t : Target) (s : State) : Bool :=
  match homeSpad s t with
  | some (sp, off) => !rowLive sp off s
  | none => false

/-- A masked row write at a target takes `s` to `s'`: the bytes of the mask take those of `v`, the others of the row
keep theirs or read zero where the row was dead, a scratchpad row is live; nothing else of memory, no Reckoner and
nothing outside the Spans changes (R102, R104). -/
def RowWritten (t : Target) (mask : BitVec 128) (v : Row) (s s' : State) : Prop :=
  (∀ x, s'.mem.get x =
    if x / 128 = home s t / 128 then
      if mask.getLsbD (x % 128) then v.extractLsb' (8 * (x % 128)) 8
      else if isDead t s then 0#8 else s.mem.get x
    else s.mem.get x) ∧
  isDead t s' = false ∧ (∀ sp r, s'.reck sp r = s.reck sp r) ∧ s' = { s with mem := s'.mem, spans := s'.spans }

/-- Where byte `j` of some bytes from address `base` lies at its home, when `tgt` gives the target of each memory row that
they touch, in order. -/
def spotOf (tgt : Nat → Target) (base : W64) (s : State) (j : Nat) : Nat :=
  home s (tgt ((base.toNat % 128 + j) / 128)) / 128 * 128 + (base.toNat % 128 + j) % 128

/-- Each of the memory rows that `n` bytes from `base` touch may be written at once, and they are rows apart. -/
def SpotsReady (tgt : Nat → Target) (base : W64) (n : Nat) (s : State) : Prop :=
  s.mem.wf = true ∧ ∀ k < (base.toNat % 128 + n + 127) / 128, Writable (tgt k) s ∧
    ∀ k' < (base.toNat % 128 + n + 127) / 128, home s (tgt k) / 128 = home s (tgt k') / 128 → k = k'

/-- The `n` low bytes of a number stand from `base` in `u`, little-endian; the other bytes of the rows that they touch
keep theirs, or read zero where the row was dead; nothing else of memory and no Reckoner changes. -/
def BytesStored (tgt : Nat → Target) (base : W64) (n v : Nat) (s u : State) : Prop :=
  (∀ j < n, u.mem.get (spotOf tgt base s j) = BitVec.ofNat 8 (v / 256 ^ j)) ∧
  (∀ x, (∀ j < n, x ≠ spotOf tgt base s j) →
    ((∃ j < n, x / 128 = spotOf tgt base s j / 128 ∧ isDead (tgt ((base.toNat % 128 + j) / 128)) s = true) → u.mem.get x = 0#8) ∧
    ((∀ j < n, x / 128 = spotOf tgt base s j / 128 → isDead (tgt ((base.toNat % 128 + j) / 128)) s = false) →
      u.mem.get x = s.mem.get x)) ∧
  ∀ sp r, u.reck sp r = s.reck sp r

/-- Words one after another as the number of their bytes. -/
def wordsNat (l : List W32) : Nat := l.foldr (fun w n => w.toNat + 2 ^ 32 * n) 0

/-- The bytes of a RESULT from byte `o` of its row are the `n` low bytes of a number (R58). -/
def ResultHolds (o n v : Nat) (c : Cmd) : Prop :=
  ∀ j < n, Table.find? c.result (o + j) = some (BitVec.ofNat 8 (v / 256 ^ j))

/-- The bead sum of window bits `w` (R173, R174). -/
def beadOf (w : Nat) : Int :=
  let h := (w * 2053 + 1237) % 4096
  ((h % 16 : Nat) : Int) + ((h / 16 % 16 : Nat) : Int) + ((h / 256 : Nat) : Int) - 22
/-- The window of weight `i` of a block: bits i to i + 11 of its 128 stream bits, wrapping (R174). -/
def windowOf (b i : Nat) : Nat :=
  ((List.range 12).map (fun j => if b.testBit ((i + j) % 128) then 2 ^ j else 0)).sum

/-- Where an element stands in the order of R288: minus infinity, negative, -0, +0, positive, plus infinity. -/
def rankOf (w : W32) : Nat :=
  match f32 w with
  | .nan => 6
  | .inf n => if n then 0 else 5
  | .fin d => if d.isZero then (if w.getLsbD 31 then 2 else 3) else if w.getLsbD 31 then 1 else 4

/-- The thresholds of a column that a word exceeds under a scope: its code (R251). A gain, offset or maximum that is
not finite, or a NaN word, gives 0 (R252). -/
def codeBy (col : LadderCol) (x : Scope) (w : W32) : Nat :=
  let a := ladderVal col.isF32 w
  if x.g.isFinite = false ∨ x.b.isFinite = false ∨ x.m.isFinite = false ∨ a.isNan = true then 0
  else (col.t.filter (fun t =>
    let l := a.mul x.f
    let q := x.m.mul ((x.g.mul (ladderVal col.isF32 t)).add x.b)
    if col.desc then l.lt q else q.lt l)).length

/-! ### Traps -/

/-- The record of a trap of thread `r` of a Span (R344, R345), frozen as `k`, in restart mode or not, fatal or not. -/
def RecordSays (k : Reckoner) (r : BitVec 2) (t : TrapInfo) (rm fatal : Bool) (x : Record) : Prop :=
  x[0].extractLsb' 0 8 = t.cause ∧ x[0].extractLsb' 8 2 = r ∧ x[0].extractLsb' 10 3 = t.code ∧ x[0].getLsbD 13 = t.spl ∧
  x[0].extractLsb' 14 2 = (if fatal then 2#2 else if t.cause = 5#8 then 1#2 else 0#2) ∧ x[0].getLsbD 16 = t.mig ∧
  x[0].getLsbD 17 = rm ∧ x[0].getLsbD 18 = t.wr ∧ x[0].extractLsb' 19 3 = t.level ∧
  (x[0].extractLsb' 22 8).toNat = t.rep % 256 ∧ x[0].extractLsb' 30 5 = t.lane ∧ x[0].extractLsb' 35 5 = t.word ∧
  x[0].extractLsb' 40 24 = 0#24 ∧
  x[1] = t.pc.zeroExtend 64 ∧ x[2] = t.addr ∧ x[3].extractLsb' 0 32 = t.seq ∧ x[3].extractLsb' 32 32 = t.cursor ∧
  x[4] = t.item ∧ x[5] = k.scyS ∧ x[6] = k.scyV ∧
  x[7] = (k.str .V).lastActed ++ (k.str .S).lastActed ∧ x[8] = (k.str .K).lastActed ++ (k.str .M).lastActed ∧
  x[9] = (k.str .Q).lastActed ++ (k.str .C).lastActed ∧ x[10] = k.pc.zeroExtend 64 ∧
  x[11] = 0#64 ∧ x[12] = 0#64 ∧ x[13] = 0#64 ∧ x[14] = 0#64 ∧ x[15] = 0#64

/-- A fault is fatal: ECC, or any trap of a thread in restart mode that is unsafe (R339, R353). -/
def fatalFor (s : State) (sp : BitVec 7) (r : BitVec 2) (t : TrapInfo) : Bool :=
  t.cause == 0x0B#8 || ((s.span sp).tender.rm && (s.reck sp r).restart.dirty)

/-- Thread `r` of Span `sp` has taken the trap of fault `t` alone: it is frozen with TPC at the next unit to steer, its
registers, queues and counters as they stood, the record queued; no other thread and no byte of memory has changed
(R340, R343, R347). -/
def Trapped (sp : BitVec 7) (r : BitVec 2) (t : TrapInfo) (s u : State) : Prop :=
  let k := s.reck sp r
  let k' := u.reck sp r
  u.mem = s.mem ∧ (∀ n, n ≠ sp → u.span n = s.span n) ∧ (∀ n, n ≠ r → u.reck sp n = s.reck sp n) ∧
  (∃ f, k'.frozen = some f ∧ f.tpc = k.pc ∧ f.fatal = fatalFor s sp r t) ∧ k'.faults = [] ∧ k'.run = k.run ∧
  k'.g = k.g ∧ k'.v = k.v ∧ k'.vlive = k.vlive ∧ k'.p = k.p ∧ k'.x = k.x ∧ k'.q = k.q ∧ k'.tok = k.tok ∧ k'.scyS = k.scyS ∧
  k'.scyV = k.scyV ∧ k'.pc = k.pc ∧
  ∃ x, RecordSays k r t (s.span sp).tender.rm (fatalFor s sp r t) x ∧
    (fatalFor s sp r t = true → (u.span sp).rowFatal = some x ∧ (u.span sp).rowsOrd = (s.span sp).rowsOrd) ∧
    (fatalFor s sp r t = false → (u.span sp).rowFatal = (s.span sp).rowFatal ∧ (u.span sp).rowsOrd = (s.span sp).rowsOrd ++ [x])

/-- The queue of records has room for a fault. -/
def RecordRoom (sp : BitVec 7) (r : BitVec 2) (t : TrapInfo) (s : State) : Prop :=
  (fatalFor s sp r t = true → (s.span sp).rowFatal = none) ∧ (fatalFor s sp r t = false → (s.span sp).rowsOrd.length < 15)

/-- The finished sessions whose grant covers a Span: its node carries their tag, and its record names the digest of
their certificate (R369, R373). How a record names a digest is Config's (log 10). -/
def Holds (s : State) (sp : BitVec 7) : List Session :=
  match nodeOn s sp with
  | some n => s.trust.sessions.filter (fun x =>
      x.done && x.tag == (n.record.getD 2 0#64).extractLsb' 48 16 && Config.recordNames n.record x.digest)
  | none => []

/-! ### Nodes -/

/-- Field `i` of a record of 16 words. -/
def field (rec' : List W64) (i : Nat) : W64 := rec'.getD i 0#64

/-- A record is well formed (R326): the fields marked zero are zero, ENTRY is word-aligned below 2^52, SPANS is 1 to
128, RECK 1 to 4, LEVEL 1 to 4, GROUP is nonzero at the fabric level alone, the regions and DONE lie below 2^52. -/
def WellFormedRecord (x : List W64) : Prop :=
  let w := field x 2
  w &&& 0x000000FF00F8F0CF#64 = 0#64 ∧ (field x 0).toNat % 4 = 0 ∧ (field x 0).toNat < 2 ^ 52 ∧
  1 ≤ w.toNat / 2 ^ 24 % 256 ∧ w.toNat / 2 ^ 24 % 256 ≤ 128 ∧ 1 ≤ w.toNat / 2 ^ 16 % 8 ∧ w.toNat / 2 ^ 16 % 8 ≤ 4 ∧
  1 ≤ w.toNat / 2 ^ 8 % 16 ∧ w.toNat / 2 ^ 8 % 16 ≤ 4 ∧ (w.toNat / 2 ^ 40 % 256 ≠ 0 ↔ w.toNat / 2 ^ 8 % 16 = 4) ∧
  (field x 4 = 0#64 ∨ (field x 3).toNat + (field x 4).toNat ≤ 2 ^ 52) ∧
  (field x 6 = 0#64 ∨ (field x 5).toNat + (field x 6).toNat ≤ 2 ^ 52) ∧ (field x 7).toNat < 2 ^ 52

/-- No node of a tag stands in the scoreboard. -/
def Gone (tag : BitVec 16) (s : State) : Prop := ∀ n ∈ s.nodes, (field n.record 2).extractLsb' 48 16 ≠ tag

/-- Every thread of a node on its Spans `near` has executed EXIT or waits at the barrier of a level (R317, R319). -/
def AllMet (s : State) (id : Nat) (near : BitVec 7 → Prop) (level : BitVec 3) : Prop :=
  ∀ c, (s.span c).node = some id → near c → ∀ m : BitVec 2, m.toNat < (s.span c).nreck →
    exited (s.reck c m) = true ∨ ((s.reck c m).wait = .arrived level ∧ (s.reck c m).run ≠ .taken)

/-- One of them has done neither. -/
def OneMissing (s : State) (id : Nat) (near : BitVec 7 → Prop) (level : BitVec 3) : Prop :=
  ∃ c, (s.span c).node = some id ∧ near c ∧ ∃ m : BitVec 2, m.toNat < (s.span c).nreck ∧
    exited (s.reck c m) = false ∧ (s.reck c m).wait ≠ .arrived level

/-- Those that waited have been let go, and the SYNC of thread `r` of Span `sp`, if it may move, has ended (R318, R321). -/
def LetGo (s t : State) (sp : BitVec 7) (r : BitVec 2) (id : Nat) (near : BitVec 7 → Prop) (level : BitVec 3) : Prop :=
  ∀ c, (s.span c).node = some id → near c → ∀ m : BitVec 2, m.toNat < (s.span c).nreck → (s.reck c m).wait = .arrived level →
    ((c ≠ sp ∨ m ≠ r) → (t.reck c m).wait = .released) ∧
    (c = sp → m = r → clocked (s.reck c m) = true → stopDue (s.reck c m) = false → (t.reck c m).wait = .none)

/-! ### Steps, frames, storing instructions -/

/-- Stream `e` of Reckoner `r` stands at the word `i` once its schedule cycle is settled, and may act on it: a
command in execution, or the unit at its queue head. -/
def StandsAt (sp : BitVec 7) (r : BitVec 2) (e : Stream) (i : Sys2Proof.Instr) (v : State) : Prop :=
  mayAct v sp r e = true ∧ (e = .S → interlocked (v.reck sp r) (v.span sp).clock = false) ∧ ((v.reck sp r).str e).sig = none ∧
  ((∃ c, ((v.reck sp r).str e).active = some c ∧ c.work.instr = i) ∨
   (((v.reck sp r).str e).active = none ∧ ((v.reck sp r).str e).queue.head?.map Work.now = some i))

/-- A flit that stores to, loads from or modifies a scratchpad row of this device, whose bank may wake and hold it. -/
def ReachesBank (s : State) (b : FlitBody) : Bool :=
  let spad (a : BitVec 43) : Bool := match placeOwn s a.toNat with | .spad _ => true | _ => false
  match b with
  | .store a _ _ => spad a
  | .load a => spad a
  | .atomic a _ _ _ => spad a
  | _ => false

/-- What a link has to carry, by destination: the flits of its replay buffer, then those that wait for room in it (R380). -/
def carried (l : Link) : List (BitVec 8 × FlitBody) := l.buffer.map (fun f => (f.dst, f.body)) ++ l.queue

/-- The lowest link of the device that is up, of those that `p` allows. -/
def Lowest (p : Fin 16 → Prop) (s : State) (i : Fin 16) : Prop :=
  p i ∧ s.fabric.link[i].state = 2#2 ∧ ∀ k : Fin 16, k < i → p k → s.fabric.link[k].state ≠ 2#2

/-- A flit has been put last on the lowest link that is up (assumption 11). -/
def Sent (dst : BitVec 8) (b : FlitBody) (s t : State) : Prop :=
  ∃ i, Lowest (fun _ => True) s i ∧ carried t.fabric.link[i] = carried s.fabric.link[i] ++ [(dst, b)]

/-- A replay buffer of which some flits are left, filled up to 2048 from those that wait. -/
def refilled (dev : BitVec 8) (left : List Flit) (l : Link) : List Flit :=
  left ++ (l.queue.take (2048 - left.length)).zipIdx.map (fun x => ⟨dev, x.1.1, l.send + BitVec.ofNat 12 x.2, true, x.1.2⟩)

/-- A request to device `d` that has not been answered. -/
def Open (d : BitVec 8) (b : FlitBody) (q : Request) : Prop := q.dev = d ∧ q.sent = b ∧ q.answer = none

/-- A stream's counter counts a clock on which late data holds neither stream and on which a word of it has acted, or
nothing holds it: no word that held when it last tried, no fault of it waiting for a record, and for S no SYNC and no
atomic under way (R5, R124, R209, R308, R321). -/
def Counts (e : Stream) (k : Reckoner) : Prop :=
  k.lateHold = false ∧ ((k.str e).acted = true ∨
    (((k.str e).held = false ∨ ((k.str e).queue = [] ∧ (k.str e).sig = none)) ∧
      (∀ t ∈ k.faults, t.stream = e → t.spl = true ∨ t.fetch = true) ∧ (e = .S → k.wait = .none)))

/-- Only the current thread differs between `s` and `t`, and of the other threads of its Span only the queue that
a read of q7 pops: memory, the other Spans, the rest of this Span and of the package stand. -/
def OnlyThread (s t : State) : Prop :=
  t = { s with spans := t.spans } ∧ (∀ n, n ≠ s.cur.sp → t.span n = s.span n) ∧ t.my = { s.my with recks := t.my.recks } ∧
  ∀ r, r ≠ s.cr → t.my.reck r = { s.my.reck r with q := (t.my.reck r).q }

/-- The instructions that may change memory: the stores and atomics, the commands that write rows, and the steps that
write rows or clear memory. Every other instruction leaves every byte as it stands. -/
def stores : Sys2Proof.Instr → Bool
  | .sts _ _ _ _ | .stx _ _ _ | .lbr _ _ => true
  | .aadd _ _ _ _ | .aand _ _ _ _ | .aor _ _ _ _ | .axor _ _ _ _ | .amin _ _ _ _ | .amax _ _ _ _ => true
  | .aswp _ _ _ _ | .acas _ _ _ _ | .aincw _ _ _ _ | .aaddb _ _ _ _ | .dcas _ _ _ _ | .amov2 _ _ _ _ => true
  | .vst _ _ _ _ _ _ | .vsct _ _ _ _ _ _ => true
  | .ccpy _ _ _ | .c2d _ _ _ | .cgth _ _ _ _ | .cgthArena _ _ _ _ | .csct _ _ _ _ | .csctArena _ _ _ _ => true
  | .ctile _ _ _ _ _ | .cfill _ _ _ | .cenc _ _ _ => true
  | .mstat _ _ _ _ | .kout _ _ _ _ _ _ _ _ | .koutD _ _ _ _ _ _ _ => true
  | .qscan _ _ _ _ _ _ | .qtopk _ _ _ _ _ _ | .qred _ _ _ _ _ _ => true
  | .completionRowUpdate _ _ _ | .postedStorePerform _ _ _ | .windowUpdateDelivery _ | .doneIncrement _ => true
  | .nodeDispatch _ _ | .fullSwitchSave _ | .contextRestore _ | .flitReceive _ _ => true
  | .powerIntervalBoundary _ | .ageingReading _ _ _ | .hbmTraining _ => true
  | _ => false

end Sys2Proof.Claims

open Sys2Proof Sys2Proof.Machine Sys2Proof.Claims

/-- R131 to R134: every word of ADD to LSH writes the result of the rule to its destination, whatever its
operands, at a Reckoner and at the tender. -/
def Obligations.ScalarWordsCompute : Prop :=
  ∀ (i : Sys2Proof.Instr) (c : Compute) (s s0 s1 : State), computeOf i = some c → Starts .S c.tok s s0 →
    popSrcs c.srcs s0 = .ok () s1 → Room c.dst s1 →
    exec i s = .next (finish s .S c.tok (gPut c.dst (c.val s1) s1))

/-- R137: LDS reads the 8 bytes at its offset of the issuing Span's scratchpad into its destination. R137: STS
writes g[d] to the 8 bytes at its offset; a dead row becomes live with its other 120 bytes zero. -/
def Obligations.LocalScalarAccess : Prop :=
  (∀ (w : Tok) (d a : BitVec 5) (i : BitVec 8) (s s0 s1 : State), Starts .S w s s0 → popSrcs [a] s0 = .ok () s1 →
     LocalOpen .S (offsetOf a i s1) false s1 → rowLive s1.cur.sp (offsetOf a i s1) s1 = true → Room d s1 →
     exec (.lds w d a i) s = .next (finish s .S w
       (gPut d (s1.mem.w64 (spadAddr s1.cur.sp (offsetOf a i s1))) (usedNow (spadBankOf (offsetOf a i s1)) s1)))) ∧
  (∀ (w : Tok) (d a : BitVec 5) (i : BitVec 8) (s s0 s1 : State), Starts .S w s s0 → popSrcs [d, a] s0 = .ok () s1 →
     LocalOpen .S (offsetOf a i s1) true s1 → s1.mem.wf = true →
     let o := (offsetOf a i s1).toNat % 128
     ∃ t, exec (.sts w d a i) s = .next (finish s .S w t) ∧
       LocalWritten (offsetOf a i s1) (byteMask o 8) (atByte o (gVal d s1).toNat) s1 t)

/-- R129: LDT at a Reckoner takes a landing-buffer entry for its destination, due `slot` schedule cycles on. R208:
VLDT takes a landing-buffer entry for its register under its guard, due `slot` cycles of V on. R116: one whose page
misses joins the walk of the page from its die, or starts one; the 4,097th outstanding translation of a die holds its
requester. R348: at the tender an LDT reads its 8 bytes at once.
That a miss of the cache stands as a walk of its own is assumption 5. -/
def Obligations.TimedLoadsIssue : Prop :=
  (∀ (w : Tok) (d a : BitVec 5) (slot : BitVec 8) (s s0 s1 : State), Begins .S w s s0 →
     popSrcs [a] s0 = .ok () s1 → (gVal a s1).toNat < 2 ^ 52 →
     s1.me.buffer.length < 16 → outstanding s1 s1.cur.sp < s1.my.cap.toNat →
     ((Missing (gVal a s1) s1 = true → dieOutstanding s1 s1.cur.sp < 4096) →
       exec (.ldt w d a slot) s = .next (issued .S w ((requested (gVal a s1) (policyOf .S s1) s1).mapMe (fun k =>
       { k with buffer := k.buffer ++ [{
           stream := .S, work := s1.unit .S, dest := d, mask := 0#32, issued := k.scyS
           due := k.scyS + BitVec.ofNat 64 slot.toNat, addr := gVal a s1, order := orderOf .S s1, scope := scopeOf .S s1
           space := spaceAsk .S s1, policy := policyOf .S s1, watch := k.rwatch.getLsbD 1, missed := Missing (gVal a s1) s1
           data := none, fault := none }] })))) ∧
     (Missing (gVal a s1) s1 = true → 4096 ≤ dieOutstanding s1 s1.cur.sp →
       ∃ t, exec (.ldt w d a slot) s = .next t ∧ HoldsAt .S s1 t ∧ t.walks = s1.walks)) ∧
  (∀ (w : Tok) (p : BitVec 3) (d : BitVec 5) (slot : BitVec 8) (a : W64) (rest : List W64) (s s0 s1 : State),
     Begins .V w s s0 → s0.me.q[0] = a :: rest → a.toNat < 2 ^ 52 → s0.me.buffer.length < 16 →
     outstanding s0 s0.cur.sp < s0.my.cap.toNat → vBanks [d] s0 = .ok () s1 →
     ((Missing a s1 = true → dieOutstanding s1 s1.cur.sp < 4096) →
       exec (.vldt w p d slot) s = .next (issued .V w ((requested a (policyOf .V s1) s1).mapMe (fun k =>
       { k with q := k.q.set 0 rest, buffer := k.buffer ++ [{
           stream := .V, work := s1.unit .V, dest := vName d s1, mask := pVal p s1, issued := k.scyV
           due := k.scyV + BitVec.ofNat 64 slot.toNat, addr := a, order := orderOf .V s1, scope := scopeOf .V s1
           space := spaceAsk .V s1, policy := policyOf .V s1, watch := k.rwatch.getLsbD 1, missed := Missing a s1
           data := none, fault := none }] })))) ∧
     (Missing a s1 = true → 4096 ≤ dieOutstanding s1 s1.cur.sp →
       ∃ t, exec (.vldt w p d slot) s = .next t ∧ HoldsAt .V s1 t ∧ t.walks = s1.walks)) ∧
  (∀ (w : Tok) (d a : BitVec 5) (slot : BitVec 8) (p : Phys) (row : Row) (s s1 s2 : State), s.atTender = true →
     PrepRuns true (s.unit .S) → Unsent (wordAccess s) s →
     translate s.cur.sp s.my.tender.troot (ownAsk .S false s) (gVal a s) s = .ok p s1 →
     (place s1 p.pa = .regs →
       exec (.ldt w d a slot) s = .next (tenderDone (gPut d (readDevice (p.pa / 8 * 8) s1) s1))) ∧
     (place s1 p.pa ≠ .regs → remote s1 p.pa = false → readRowAt p.pa s1 = .ok row s2 →
       exec (.ldt w d a slot) s = .next (tenderDone (gPut d (row.extractLsb' (8 * (p.pa / 8 * 8 % 128)) 64) s2))))

/-- R138: STX at a Reckoner translates and posts its store. R138, R17: a posted store with nothing before it puts its 8
bytes, and no other byte, into its row at its home on this device, and leaves the list. R305: a store to a watched row
with VIRT = 1 is not posted: it writes its 8 bytes at once.
That the store waits in a list until a step performs it is assumption 3. -/
def Obligations.PostedStores : Prop :=
  (∀ (w : Tok) (a b : BitVec 5) (p : Phys) (s s0 s1 s2 : State), Begins .S w s s0 → popSrcs [a, b] s0 = .ok () s1 →
     Unsent (wordAccess s1) s1 → translate s1.cur.sp s1.my.xroot (ownAsk .S true s1) (gVal a s1) s1 = .ok p s2 →
     mustWait .S 0#3 true s2.me = false →
     (watchedVirt s2 s2.me p = false →
       exec (.stx w a b) s = .next (issued .S w (setUnsafe (s2.mapMe (fun k =>
         { k with posted := k.posted ++ [⟨p.pa, s2.unit .S, gVal b s2, orderOf .S s2, scopeOf .S s2, p.page, false⟩] }))))) ∧
     (∀ s3, watchedVirt s2 s2.me p = true → mustWait .S (orderOf .S s2) true s2.me = false → rowOwed p.pa s2 = false →
       watchRow s2.cur.sp s2.cr p.pa true none true (gVal a s1 &&& ~~~0x7F#64) 0#5
         (BitVec.ofNat 5 ((gVal a s1).toNat / 8 % 16 * 2)) s2 = .ok () s3 →
       unreachable s3 p.pa = false → Table.find? s3.errors (p.pa / 128) = none → s3.mem.wf = true →
       ∃ t, exec (.stx w a b) s = .next (issued .S w t) ∧ t.me.posted = s3.me.posted ∧
         Bytes (p.pa / 8 * 8) 8 (gVal b s2).toNat s3.mem t.mem)) ∧
  (∀ (sp : BitVec 7) (r : BitVec 2) (k : Nat) (p : Posted) (s : State), (s.reck sp r).posted[k]? = some p →
     postedReady sp s (s.reck sp r) k p = true → remote s p.pa = false → unreachable s p.pa = false →
     Table.find? s.errors (homeAddr s p.pa / 128) = none → s.mem.wf = true →
     ∃ t, exec (.postedStorePerform sp r k) s = .next t ∧ (t.reck sp r).posted = (s.reck sp r).posted.eraseIdx k ∧
       Bytes (homeAddr s p.pa / 8 * 8) 8 p.data.toNat s.mem t.mem)

/-- R140: a taken branch goes on at its target, one that is not taken goes on in line. R141: J and JAL go to their
targets, JR to g[a] with [1:0] cleared; JAL leaves the address of the next word in g23. -/
def Obligations.BranchesAndJumps : Prop :=
  (∀ (i : Instr) (c : Conditional) (s s0 s1 : State), conditionalOf i = some c → Starts .S c.tok s s0 →
     popSrcs [c.a, c.b] s0 = .ok () s1 →
     (c.taken (gVal c.a s1) (gVal c.b s1) → InSpace (branchGoal c.off s1) →
       exec i s = .next (finish s .S c.tok (setPc (BitVec.ofInt 52 (branchGoal c.off s1)) s1))) ∧
     (¬ c.taken (gVal c.a s1) (gVal c.b s1) → exec i s = .next (finish s .S c.tok s1)) ∧
     (c.taken (gVal c.a s1) (gVal c.b s1) → ¬ InSpace (branchGoal c.off s1) → s.atTender = false → Awake s1 →
       exec i s = .next (raiseTrap s1.cur.sp s1.cr
         (trapInfo .S (s1.unit .S) 0 (fltAt cADDR (BitVec.ofInt 64 (branchGoal c.off s1)))) s1))) ∧
  (∀ (w : Tok) (o : BitVec 18) (a : BitVec 5) (s s0 s1 : State), Starts .S w s s0 →
     (InSpace (branchGoal o s0) →
       exec (.j w o) s = .next (finish s .S w (setPc (BitVec.ofInt 52 (branchGoal o s0)) s0)) ∧
       exec (.jal w o) s = .next (finish s .S w (gPut 23#5 (BitVec.ofNat 64 ((s0.unit .S).pc.toNat + 4))
         (setPc (BitVec.ofInt 52 (branchGoal o s0)) s0)))) ∧
     (popSrcs [a] s0 = .ok () s1 → (gVal a s1).toNat < 2 ^ 52 →
       exec (.jr w a) s = .next (finish s .S w (setPc (BitVec.ofNat 52 ((gVal a s1).toNat / 4 * 4)) s1))))

/-- R142, R143: BW and RDW take the record of a FULL wide-flag register, branch on it or write the part that is
selected, and empty the register. -/
def Obligations.WideFlagConsumers : Prop :=
  ∀ (w : Tok) (n c d : BitVec 5) (o : BitVec 8) (sel : BitVec 3) (r : WideRec) (s s0 : State), Begins .S w s s0 →
    s0.me.wide (n.extractLsb' 0 3) = .full r →
    let empty (t : State) : State := t.mapMe (fun k => k.setWide (n.extractLsb' 0 3) .empty)
    let holds : Prop := (c = 0#5 ∧ r.any = true) ∨ (c = 1#5 ∧ r.all = true) ∨ (c = 2#5 ∧ r.none = true) ∨
      (3 ≤ c.toNat ∧ r.all = false)
    (holds → InSpace (branchGoal o s0) →
      exec (.bw w n c o) s = .next (issued .S w (empty (setPc (BitVec.ofInt 52 (branchGoal o s0)) s0)))) ∧
    (¬ holds → exec (.bw w n c o) s = .next (issued .S w (empty s0))) ∧
    (Room d s0 → exec (.rdw w d n sel) s = .next (issued .S w (empty (gPut d
      (match sel.toNat with
        | 0 => BitVec.ofNat 64 r.count.toNat
        | 1 => truth (r.any = true)
        | 2 => truth (r.all = true)
        | 3 => truth (r.none = true)
        | _ => BitVec.ofNat 64 (r.count.toNat + 2 ^ 16 * r.any.toNat + 2 ^ 17 * r.all.toNat + 2 ^ 18 * r.none.toNat)) s0))))

/-- R146: LOOP sets LC, and leaves the loop when the count is 0; LBR lowers RRB and LC and goes back while LC is
above 1; where it leaves the loop and TPROF.EN is 1, its exit is noted with its cycle for a snapshot (R372).
That the snapshots of a clock are written at its end is assumption 14. -/
def Obligations.HardwareLoop : Prop :=
  ∀ (w : Tok) (a : BitVec 5) (o : BitVec 8) (o' : BitVec 18) (s s0 s1 : State), Begins .S w s s0 →
    (popSrcs [a] s0 = .ok () s1 → gVal a s1 ≠ 0#64 →
      exec (.loop w a o) s = .next (issued .S w (s1.mapMe (fun k => { k with lc := gVal a s1 })))) ∧
    (popSrcs [a] s0 = .ok () s1 → gVal a s1 = 0#64 → InSpace (branchGoal o s1) →
      exec (.loop w a o) s = .next (issued .S w
        ((setPc (BitVec.ofInt 52 (branchGoal o s1)) s1).mapMe (fun k => { k with lc := 0#64 })))) ∧
    (1 < s0.me.lc.toNat → InSpace (branchGoal o' s0) →
      exec (.lbr w o') s = .next (issued .S w ((setPc (BitVec.ofInt 52 (branchGoal o' s0)) s0).mapMe (fun k =>
        { k with rrb := k.rrb - 1#4, lc := k.lc - 1#64 })))) ∧
    (s0.me.lc.toNat ≤ 1 →
      let u := s0.mapMe (fun k => { k with rrb := k.rrb - 1#4, lc := 0#64 })
      exec (.lbr w o') s = .next (issued .S w (if s0.my.tender.profEn then
        u.setMy { u.my with snaps := u.my.snaps ++ [(s0.cr, s0.me.scyS)] } else u)))

/-- R308 to R311: an atomic outside the windows reads its unit, writes the new unit where the operation writes,
touches no other byte, and S waits for the write-back of its result; the tender takes it at once. R106: an atomic of
the tender in register space reads 0 and writes nothing. R312: DCAS and AMOV2 on two units of this
device read both, write both when their condition holds, and S waits for the write-back of the pair. R313,
R314: an atomic inside a registered window is posted with result 0 when it is AADD to AMAX, and counts as relaxed; any
other raises ATOMX at its address; one that no link can carry raises ECC (R385). A record names the first word of the
unit (R345).
The old value comes back by a step of its own (assumption 3). -/
def Obligations.AtomicsModifyTheirUnits : Prop :=
  ((∀ (i : Instr) (m : Atomic) (t : Target) (s s0 s1 s2 : State), atomicOf i = some m → Starts .S m.tok s s0 →
      popSrcs [m.a, m.b] s0 = .ok () s1 →
      Unsent (wordAccess s1) s1 → atomicForm (gVal m.a s1) s1 = .ok () s1 → atomicTarget (gVal m.a s1) s1 = .ok t s2 →
      ((gVal m.a s1).getLsbD 63 = true ∨ inWindow s2 t.addr = false) → atomicWaits t.addr s2 = false →
      let gives (v : W64) (u : State) : State :=
        if s.atTender then tenderDone (gPut m.d v u)
        else issued .S m.tok (setUnsafe (u.mapMe (fun k => { k with wait := .atomic m.d v })))
      (place s2 t.addr = .regs → exec i s = .next (gives 0#64 s2)) ∧
      (place s2 t.addr ≠ .regs → Served t s2 → s2.mem.wf = true →
        let old := BitVec.ofNat 64 (s2.mem.nat (unitAddr s2 t m.bytes) m.bytes)
        let out := m.f old (gVal m.b s1) (gVal m.d s1)
        ∃ u : State, exec i s = .next (gives out.2 u) ∧
          u = { s2 with mem := u.mem, spans := u.spans } ∧ (∀ n r, u.reck n r = s2.reck n r) ∧
          (match out.1 with
            | some v => Bytes (unitAddr s2 t m.bytes) m.bytes v.toNat s2.mem u.mem
            | none => u.mem = s2.mem))) ∧
   (∀ (w : Tok) (d a b : BitVec 5) (t0 t1 : Target) (s s0 s1 s2 : State), Begins .S w s s0 →
      let a0 := gVal a s0
      let a1 := gVal (a + 1#5) s0
      atomicForm a0 s0 = .ok () s0 → atomicForm a1 s0 = .ok () s0 →
      atomicTarget a0 s0 = .ok t0 s1 → atomicTarget a1 s1 = .ok t1 s2 →
      pairBad a0 a1 t0 t1 s2 = false → atomicWaits t0.addr s2 = false → atomicWaits t1.addr s2 = false →
      Served t0 s2 → Served t1 s2 → s2.mem.wf = true →
      let o0 := BitVec.ofNat 64 (s2.mem.nat (unitAddr s2 t0 8) 8)
      let o1 := BitVec.ofNat 64 (s2.mem.nat (unitAddr s2 t1 8) 8)
      let waits (u : State) : State := setUnsafe (u.mapMe (fun k => { k with wait := .atomic2 d o0 o1 }))
      let both (u : State) : Prop := ∃ m, Bytes (unitAddr s2 t0 8) 8 (gVal b s2).toNat s2.mem m ∧
        Bytes (unitAddr s2 t1 8) 8 (gVal (b + 1#5) s2).toNat m u.mem
      (∃ u : State, exec (.amov2 w d a b) s = .next (issued .S w (waits u)) ∧ both u ∧ ∀ n r, u.reck n r = s2.reck n r) ∧
      (o0 = gVal d s2 → o1 = gVal (d + 1#5) s2 →
        ∃ u : State, exec (.dcas w d a b) s = .next (issued .S w (waits u)) ∧ both u ∧ ∀ n r, u.reck n r = s2.reck n r) ∧
      (¬(o0 = gVal d s2 ∧ o1 = gVal (d + 1#5) s2) →
        ∃ u : State, exec (.dcas w d a b) s = .next (issued .S w (waits u)) ∧ u.mem = s2.mem ∧ ∀ n r, u.reck n r = s2.reck n r))) ∧
  (∀ (i : Instr) (m : Atomic) (t : Target) (s s0 s1 s2 : State), atomicOf i = some m → Begins .S m.tok s s0 →
     popSrcs [m.a, m.b] s0 = .ok () s1 →
     Unsent (wordAccess s1) s1 → (gVal m.a s1).toNat < 2 ^ 52 → atomicTarget (gVal m.a s1) s1 = .ok t s2 →
     inWindow s2 t.addr = true →
     let a := gVal m.a s1
     let word : BitVec 5 := BitVec.ofNat 5 (if m.bytes = 4 then a.toNat / 4 else a.toNat / 8 * 2)
     ((m.op.toNat ≤ 0x3D → unreachable s2 t.addr = true → Awake s2 → exec i s = .next (raiseTrap s2.cur.sp s2.cr
         (trapInfo .S (s2.unit .S) 0
           { fltAt cECC (BitVec.ofNat 64 (t.addr / 128 * 128)) with wr := true, word := word }) s2)) ∧
      (m.op.toNat ≤ 0x3D → unreachable s2 t.addr = false → mustWait .S 0#3 true s2.me = false → Room m.d s2 →
       exec i s = .next (issued .S m.tok (setUnsafe ((gPut m.d 0#64 s2).mapMe (fun k =>
         { k with windows := k.windows ++ [⟨t.addr / 8 * 8, m.op, gVal m.b s1, some (s2.unit .S),
             threadId s2 s2.cur.sp s2.cr, pageOf a s2, false⟩] }))))) ∧
     (0x3E ≤ m.op.toNat → Awake s2 →
       exec i s = .next (raiseTrap s2.cur.sp s2.cr
         (trapInfo .S (s2.unit .S) 0 { fltAt cATOMX a with wr := true, word := word }) s2))))

/-- R147: CSRR reads the CSR into its destination, CSRW pops once and writes it; a number from 0x100 up raises PROT
at a Reckoner, and a reserved value raises ILL and changes nothing. R147, R3: a CSR reads back what a CSRW
placed in its RW fields, and its other bits as they were; a TCFG keeps WGEN. No other CSR changes,
no register and no byte of memory. R31, R189: an accepted write of a TCFG, whatever its value, leaves every row of its tile
dead, and no row of another tile or item changes.
That a CSRW from 0x100 up pops nothing before its PROT is assumption 51. -/
def Obligations.CsrAccess : Prop :=
  (∀ (w : Tok) (d a : BitVec 5) (c : BitVec 12) (s s0 s1 : State), Begins .S w s s0 →
     (c.toNat < 0x100 → Room d s0 → exec (.csrr w d c) s = .next (issued .S w (gPut d (readCsr c s0) s0))) ∧
     (c.toNat < 0x100 → popSrcs [a] s0 = .ok () s1 → ¬ Reserved c (gVal a s1) s1 →
       ∃ t, writeCsr c (gVal a s1) s1 = .ok t ∧ exec (.csrw w a c) s = .next (issued .S w t)) ∧
     (c.toNat < 0x100 → popSrcs [a] s0 = .ok () s1 → Reserved c (gVal a s1) s1 → Awake s1 →
       exec (.csrw w a c) s = .next (raiseTrap s1.cur.sp s1.cr (trapInfo .S (s1.unit .S) 0 (flt cILL)) s1)) ∧
     (0x100 ≤ c.toNat → Awake s0 →
       exec (.csrr w d c) s = .next (raiseTrap s0.cur.sp s0.cr (trapInfo .S (s0.unit .S) 0 (flt cPROT)) s0) ∧
       exec (.csrw w a c) s = .next (raiseTrap s0.cur.sp s0.cr (trapInfo .S (s0.unit .S) 0 (flt cPROT)) s0))) ∧
  (∀ (c : BitVec 12) (v : W64) (s t : State), writeCsr c v s = .ok t →
     t.mem = s.mem ∧ (∀ c', c' ≠ c → readCsr c' t = readCsr c' s) ∧ t.me.g = s.me.g ∧ t.me.q = s.me.q ∧ t.me.v = s.me.v ∧
     t.me.vlive = s.me.vlive ∧ t.me.p = s.me.p ∧ t.me.x = s.me.x ∧ t.me.pc = s.me.pc ∧ t.me.tok = s.me.tok ∧
     (IsTcfg c → readCsr c t = (v &&& 0xFFFFFF00#64) ||| (readCsr c s &&& 0xF0#64) ∧
       (∀ i, (t.my.tile (BitVec.ofNat 4 c.toNat)).isLive i = false) ∧
       (∀ n : BitVec 4, n ≠ BitVec.ofNat 4 c.toNat → t.my.tile n = s.my.tile n) ∧
       (∀ arr a, t.my.acc arr a = s.my.acc arr a) ∧ t.my.live = s.my.live) ∧
     (¬ IsTcfg c → readCsr c t = (v &&& csrMask c) ||| (readCsr c s &&& ~~~csrMask c)))

/-- R348, R349: the tender reads and writes its CSRs. R349: what the CSRs of the tender hold after a write: TSEL,
TMODE, XROOT, TROOT, TVEC, TSAVE, and TPC and the registers of the frozen thread that TSEL selects. -/
def Obligations.TenderCsrs : Prop :=
  (∀ (w : Tok) (d a : BitVec 5) (c : BitVec 12) (s t : State), s.atTender = true →
     PrepRuns true (s.unit .S) → 0x100 ≤ c.toNat →
     exec (.csrr w d c) s = .next (tenderDone (gPut d (readTender s.cur.sp c.toNat s) s)) ∧
     (writeTenderCsr s.cur.sp c.toNat (gVal a s) s = .ok t → exec (.csrw w a c) s = .next (tenderDone t))) ∧
  (∀ (sp : BitVec 7) (n : Nat) (v : W64) (s t : State), writeTenderCsr sp n v s = .ok t → t.mem = s.mem ∧ (∀ m, m ≠ sp → t.span m = s.span m) ∧
     (n = 0x102 → readTender sp n t = v &&& 3#64) ∧
     (n = 0x104 → readTender sp n t = v &&& 1#64) ∧
     (n = 0x180 → readTender sp n t = v &&& ~~~0xFFF#64) ∧
     (n = 0x181 → readTender sp n t = v &&& ~~~0xFFF#64) ∧
     (n = 0x182 → readTender sp n t = v &&& 0xFFFFFFFFFFFFC#64) ∧
     (n = 0x190 → readTender sp n t = v &&& 0xFFFFFFFFFFF80#64) ∧
     ((s.reck sp (s.span sp).tender.tsel).frozen.isSome = true →
       (n = 0x120 → readTender sp n t = v &&& 0xFFFFFFFFFFFFC#64) ∧
       (n = 0x121 → readTender sp n t = v &&& 0xFFFF#64) ∧
       (0x141 ≤ n ∧ n ≤ 0x157 → readTender sp n t = v)))

/-- R301, R139: FENCE goes on when what it orders has been performed, and an acquire fence is noted, beside those
noted before it, while earlier reads are out; CWAIT goes on when the count of its completion row has reached g[a], and
holds below it. R321,
R353, R150: SYNC at level 0 is done once the thread has drained, and at a higher level arrives at its barrier;
REGION moves the restart point behind itself, and in restart mode saves what a restart brings back; EXIT stops
the fetch and lets the thread drain.
An arrived SYNC stays at its head (assumption 21); a CWAIT that holds uses no bank (assumption 48). -/
def Obligations.SynchronisingWords : Prop :=
  (∀ (w : Tok) (a : BitVec 5) (n : BitVec 8) (s s0 s1 : State), Begins .S w s s0 →
     ((hasRelease (orderOf .S s0) = true → sPerformed s0.me = true) →
       exec (.fence w) s = .next (issued .S w
         (if hasAcquire (orderOf .S s0) && s0.me.buffer.any (fun b => b.stream == .S && b.data.isNone) then
           s0.mapMe (fun k => { k with fence := k.fence ++ [(s0.unit .S).seq] }) else s0))) ∧
     (popSrcs [a] s0 = .ok () s1 →
       let off : BitVec 24 := BitVec.ofNat 24 (s1.me.cobase.toNat * 8192 + 128 * n.toNat)
       rowLive s1.cur.sp off s1 = true → (s1.my.dueBank (spadBankOf off)).st = .full → mustWait .S 0#3 false s1.me = false →
       Table.find? s1.errors (spadAddr s1.cur.sp off / 128) = none →
       ((gVal a s1).toNat ≤ (s1.mem.w64 (spadAddr s1.cur.sp off)).toNat →
         exec (.cwait w a n) s = .next (issued .S w (usedNow (spadBankOf off) s1))) ∧
       ((s1.mem.w64 (spadAddr s1.cur.sp off)).toNat < (gVal a s1).toNat →
         ∃ t, exec (.cwait w a n) s = .next t ∧ HoldsAt .S s1 t))) ∧
  (∀ (w : Tok) (s s0 : State), Begins .S w s s0 →
     (Drained s0 → s0.me.level = 0#3 → exec (.sync w) s = .next (issued .S w (setUnsafe s0))) ∧
     (Drained s0 → s0.me.level ≠ 0#3 →
       ∃ t, exec (.sync w) s = .next t ∧ HoldsAt .S s0 t ∧ t.me.wait = .arrived s0.me.level) ∧
     (restartMode s0 s0.cur.sp = false →
       exec (.region w) s = .next (issued .S w (s0.mapMe (fun k =>
         { k with restart := { k.restart with point := (s0.unit .S).pc + 4#52 } })))) ∧
     (restartMode s0 s0.cur.sp = true → Drained s0 →
       exec (.region w) s = .next (issued .S w (s0.mapMe (fun k =>
         { k with restart := ⟨(s0.unit .S).pc + 4#52, k.tok, k.rrb, k.lc, false⟩ })))) ∧
     exec (.exit w) s = .next (issued .S w (s0.mapMe (fun k =>
       { k with run := .draining, exitPc := (s0.unit .S).pc }))))

/-- R350, R371: TRAP raises SWTRAP, and BRK raises BRK, after taking effect, with the immediate in ADDR; a BRK of a
claimed thread stops it for the debugger. R367, R368: an armed stop is met where its counter
arrives at its cycle. R368 to R371: one that is met freezes the thread
for a session that holds the Span, once the landings due have taken place, with those that trap on the same edge in one
freeze, and is a BRK trap for one that none holds, as a claimed BRK is too; EN is cleared. R371, R373, R374: a session of the grant writes DSTOP, which claims the BRKs of a
thread and lets a stopped one go on, with the ERET that it was given meanwhile (R370), and reads it, the dump of a
stopped thread and the profile; any other is told UnexpectedRequest.
A BRK or TRAP signals after its ERET (assumption 21); sessions and the dump are those of assumption 9, the point of a stop is
assumption 29, a profile that cannot be read is assumption 62. -/
def Obligations.TrapsAndStopsOfPrograms : Prop :=
  (∀ (w : Tok) (v : BitVec 13) (s s0 : State), s.atTender = false → waitTokens .S w s = some s0 →
     let trap (c : BitVec 8) : TrapInfo :=
       { trapInfo .S (s0.unit .S) 0 (fltAt c (v.zeroExtend 64)) with after := true }
     exec (.trap w v) s = .next (raiseTrap s0.cur.sp s0.cr (trap cSWTRAP) (tookEffect w s0)) ∧
     (s.me.claim = false → exec (.brk w v) s = .next (raiseTrap s0.cur.sp s0.cr (trap cBRK) (tookEffect w s0))) ∧
     (s.me.claim = true → Holds s s.cur.sp ≠ [] → clocked s.me = true →
       (s.me.faults = [] →
         ∃ t, exec (.brk w v) s = .next t ∧ t.me.stop = some ⟨2#3, v⟩ ∧ t.me.frozen = none ∧ t.me.pend = [] ∧ t.mem = s.mem) ∧
       (∀ x, s.me.faults = [x] → RecordRoom s.cur.sp s.cr x s →
         ∃ t, exec (.brk w v) s = .next t ∧ t.me.stop = some ⟨2#3, v⟩ ∧ t.me.frozen.isSome = true ∧ t.me.faults = [] ∧
           t.mem = s.mem)) ∧
     (s.me.claim = true → Holds s s.cur.sp = [] →
       exec (.brk w v) s = .next (raiseTrap s0.cur.sp s0.cr
         { trapInfo .S (s0.unit .S) 0 (fltAt cBRK (BitVec.allOnes 64)) with after := true } (tookEffect w s0)))) ∧
  (∀ (k : Reckoner), clocked k = true → k.stopMet = false →
     ((tickReck k).stopMet = true ↔
       advances (if k.dbgcmp.getLsbD 62 then .V else .S) k = true ∧ k.dbgcmp.getLsbD 63 = true ∧
       (if k.dbgcmp.getLsbD 62 then (tickReck k).scyV else (tickReck k).scyS).extractLsb' 0 48 = k.dbgcmp.extractLsb' 0 48)) ∧
  (∀ (sp : BitVec 7) (r : BitVec 2) (x : TrapInfo) (s : State),
     let k := s.reck sp r
     let u := landTimed sp r Config.landingEntries s
     let due := landTraps (u.reck sp r)
     let off (k : Reckoner) : Reckoner := { k with dbgcmp := k.dbgcmp &&& 0x7FFFFFFFFFFFFFFF#64, stopMet := false }
     (k.stopMet = false → exec (.debugStop sp r) s = .next s) ∧
     (k.stopMet = true → clocked k = true → k.faults = [] → late { k with buffer := k.buffer.filter (fun b => b.fault.isNone) } = false →
       (due = [] → Holds s sp ≠ [] →
         ∃ t, exec (.debugStop sp r) s = .next t ∧ (t.reck sp r).g = (u.reck sp r).g ∧ (t.reck sp r).v = (u.reck sp r).v ∧
           (t.reck sp r).buffer = (u.reck sp r).buffer ∧ (t.reck sp r).stop = some ⟨1#3, 0#13⟩ ∧ (t.reck sp r).frozen = none ∧
           (t.reck sp r).dbgcmp.getLsbD 63 = false ∧ t.mem = s.mem ∧
           t.trust.out = s.trust.out ++ (Holds s sp).map (fun y => .stopped y.id (sp ++ r))) ∧
       (due = [x] → Holds s sp ≠ [] → RecordRoom sp r x s →
         ∃ t, exec (.debugStop sp r) s = .next t ∧ (t.reck sp r).stop = some ⟨1#3, 0#13⟩ ∧ (t.reck sp r).frozen.isSome = true ∧
           t.mem = s.mem) ∧
       (due = [] → Holds s sp = [] →
         ∃ y, y.cause = 0x0D#8 ∧ y.addr = BitVec.allOnes 64 ∧ exec (.debugStop sp r) s =
           .next (takeFaults sp r (u.mapReck sp r (fun k => { off k with faults := [y] })))))) ∧
  (∀ (m : SpdmRequest) (rid : BitVec 9) (v : W64) (a : DebugAccess) (s : State),
     let sp := rid.extractLsb' 2 7
     let r := rid.extractLsb' 0 2
     let k := s.reck sp r
     let told (x : SpdmReply) (u : State) : State := { u with trust := { u.trust with out := u.trust.out ++ [x] } }
     let comes : Prop := m.port = s.hpnet ∧ m.endpoint = 9#8 ∧ (s.port m.port).cxl = false ∧ (s.port m.port).state = 2#2
     let granted : Prop := ∃ y ∈ Holds s sp, m.session = some y.id ∧ y.port = m.port
     (¬ comes → exec (.dstopResume m rid a) s = .next s) ∧
     (comes → ¬ granted → exec (.dstopResume m rid a) s = .next (told .unexpectedRequest s)) ∧
     (comes → granted →
       ((∀ f, k.frozen = some f → f.eret = false) →
         exec (.dstopResume m rid (.writeDstop v)) s = .next (s.setReck sp r
           { k with claim := v.getLsbD 62, stop := if v.getLsbD 61 then none else k.stop })) ∧
       (∀ f, k.frozen = some f → f.eret = true → k.stop.isSome = true → v.getLsbD 61 = true →
         ∃ t, exec (.dstopResume m rid (.writeDstop v)) s = .next t ∧ t.mem = s.mem ∧ (t.reck sp r).stop = none ∧
           (t.reck sp r).frozen = none ∧ (t.reck sp r).pc =
             if (s.span sp).tender.rm then k.restart.point else if k.run = .draining then k.pc else f.tpc) ∧
       (∃ w : W64, exec (.dstopResume m rid .readDstop) s = .next (told (.dstop w) s) ∧ w.getLsbD 63 = k.stop.isSome ∧
         w.getLsbD 62 = k.claim ∧ w.extractLsb' 16 46 = 0#46 ∧
         ∀ d, k.stop = some d → w.extractLsb' 13 3 = d.why ∧ w.extractLsb' 0 13 = d.imm) ∧
       (∃ t, exec (.dstopResume m rid .dump) s = .next t ∧ t.mem = s.mem ∧ t.spans = s.spans ∧
         (k.stop = none → t.trust.out = s.trust.out ++ [.unexpectedRequest]) ∧
         (k.stop.isSome = true → ∃ l rows, t.trust.out = s.trust.out ++ [.dump l rows] ∧
           l.resume = (match k.frozen with | some f => f.tpc | none => k.pc) ∧
           (∀ i : Fin 32, 1 ≤ i.val → i.val < 24 → l.g[i.val - 1]? = some k.g[i]) ∧ l.p = k.p.toList ∧ l.w = k.w.toList ∧
           l.tok = k.tok.toList ∧ l.vq = k.vq.toList ∧
           l.flight.landings = k.landings.map (fun x => (x.dest, x.mask, x.value, x.due - k.scyV)) ∧
           l.flight.entries = k.buffer.map (fun b =>
             (b.stream, b.dest, b.mask, b.data, b.due - (if b.stream = .S then k.scyS else k.scyV))))) ∧
       (let off (i : Nat) : BitVec 24 := BitVec.ofNat 24 (128 * ((s.span sp).tender.profBase.toNat + i))
        ((∃ i < 7, rowLive sp (off i) s = false) → exec (.dstopResume m rid .profile) s = .next (told .unreadable s)) ∧
        ((∀ i < 7, rowLive sp (off i) s = true ∧ ((s.span sp).dueBank (spadBankOf (off i))).st = .full ∧
            Table.find? s.errors (spadAddr sp (off i) / 128) = none) →
          ∃ t rows, exec (.dstopResume m rid .profile) s = .next t ∧ t.mem = s.mem ∧ t.trust.out = s.trust.out ++ [.profile rows] ∧
            rows.length = 7 ∧ ∀ i < 7, rows[i]? = some (s.mem.row (spadAddr sp (off i) / 128))))))

/-- R351: ERET is the tender's alone; a Reckoner that meets it traps with PROT. R351 to R354: ERET of a thread that
is not frozen, or whose trap is fatal, sets ERR alone; else the thread goes on at TPC, the word that SKIPS
discards gone and counted, or in restart mode starts again from its last REGION. R370: one given to a thread that stands at
a debug stop is kept for its resume. R348, R349: the idle tender fetches from TVEC when a record or a notice is pending;
TRPOP retires the head record, the fatal one first, and sets ERR on an empty queue.
That TRPOP does nothing before the stacks have trained is assumption 24. -/
def Obligations.EretLetsTheThreadGoOn : Prop :=
  (∀ (w : Tok) (s s0 : State), Starts .S w s s0 →
     (s.atTender = true → exec (.eret w) s = .next (tenderDone (eret s0))) ∧
     (s.atTender = false → Awake s0 →
       exec (.eret w) s = .next (raiseTrap s0.cur.sp s0.cr (trapInfo .S (s0.unit .S) 0 (flt cPROT)) s0))) ∧
  (∀ (s : State), s.atTender = true →
     let sp := s.cur.sp
     let r := s.my.tender.tsel
     let k := s.reck sp r
     let k' := (eret s).reck sp r
     (k.frozen = none → eret s = s.mapTender sp (fun t => { t with err := true })) ∧
     ∀ f, k.frozen = some f →
       (f.fatal = true → eret s = s.mapTender sp (fun t => { t with err := true })) ∧
       (f.fatal = false → k.stop.isSome = true → eret s = s.mapReck sp r (fun k => { k with frozen := some { f with eret := true } })) ∧
       (f.fatal = false → k.stop = none → s.my.tender.rm = false →
         (eret s).mem = s.mem ∧ k'.frozen = none ∧ k'.pc = (if k.run = .draining then k.pc else f.tpc) ∧ k'.skips = false ∧ k'.skipv = false ∧ k'.g = k.g ∧ k'.v = k.v ∧
         (∀ n, n ≠ r → (eret s).reck sp n = s.reck sp n) ∧
         (k.skips = true → f.sTrap = true → (k'.str .S).queue = (k.str .S).queue.tail) ∧
         (k.skips = false → (k'.str .S).queue.length = (k.str .S).queue.length) ∧
         (f.retire = true → ∀ i : Fin 4, k'.q[i.val + 1] = [])) ∧
       (f.fatal = false → k.stop = none → s.my.tender.rm = true →
         (eret s).mem = s.mem ∧ k'.frozen = none ∧ k'.pc = k.restart.point ∧ k'.run = .running ∧ k'.tok = k.restart.tok ∧ k'.rrb = k.restart.rrb ∧
         k'.lc = k.restart.lc ∧ k'.g = k.g ∧ k'.v = k.v ∧ k'.landings = [] ∧ k'.buffer = [] ∧ k'.scyS = k.scyS ∧ k'.scyV = k.scyV ∧
         k'.restart = k.restart ∧ (∀ e, (k'.str e).queue = [] ∧ (k'.str e).active = none) ∧ (∀ n, k'.wide n = .empty) ∧
         (∀ i : Fin 5, k'.q[i.val] = []) ∧ (eret s).my.lease.holder ≠ some r)) ∧
  (∀ (sp : BitVec 7) (v : W64) (x : Record) (rest : List Record) (s : State),
     (let t := (s.span sp).tender
      t.running = false → t.quar = false → s.boot ≠ 0 → ((s.span sp).rowsOrd ≠ [] ∨ (s.span sp).rowFatal.isSome = true ∨ t.pendNotice = true) →
       exec (.tenderHandlerStart sp) s =
         .next (s.setSpan sp { s.span sp with tender := { t with running := true, pc := t.tvec, pend := [], work := none } })) ∧
     (s.boot = 0 → exec (.tenderHandlerStart sp) s = .next s) ∧
     (v.getLsbD 0 = false ∨ s.boot < 2 → exec (.trpop sp v) s = .next s) ∧
     (v.getLsbD 0 = true → 2 ≤ s.boot →
       ((s.span sp).rowFatal.isSome = true → exec (.trpop sp v) s = .next (s.setSpan sp { s.span sp with rowFatal := none })) ∧
       ((s.span sp).rowFatal = none → (s.span sp).rowsOrd = x :: rest →
         exec (.trpop sp v) s = .next (s.setSpan sp { s.span sp with rowsOrd := rest })) ∧
       ((s.span sp).rowFatal = none → (s.span sp).rowsOrd = [] →
         ∃ t, exec (.trpop sp v) s = .next t ∧ (t.span sp).tender.err = true ∧ t.mem = s.mem)))

/-- R335, R336: NODE goes on while no pre-emption is requested of its node, and is the boundary at which a
requested one takes the drained thread with its registers; LAUNCH reads the record it names once, puts it in its own
context, XROOT in word 1, and at no higher priority than its node, the larger PRIO number of the two in word 2, keeps it so
while the scoreboard is full, and submits it.
What is kept of a taken thread is assumption 21, the clock of its NODE is assumption 41. -/
def Obligations.NodeAndLaunch : Prop :=
  ∀ (w : Tok) (a : BitVec 5) (n : Node) (t : Target) (row : Row) (s s0 s1 s2 s3 : State), Begins .S w s s0 →
    (nodeOn s0 s0.cur.sp = none ∨ (nodeOn s0 s0.cur.sp = some n ∧ n.preempt = none) →
      exec (.node w) s = .next (issued .S w (setUnsafe s0))) ∧
    (nodeOn s0 s0.cur.sp = some n → n.preempt.isSome = true → Drained s0 →
      (giveTokens .S w s0.me.tok = none ∨ OnTheWay (threadId s0 s0.cur.sp s0.cr) s0) → exec (.node w) s = .next (held .S s0)) ∧
    (nodeOn s0 s0.cur.sp = some n → n.preempt.isSome = true → Drained s0 → (giveTokens .S w s0.me.tok).isSome = true →
      ¬ OnTheWay (threadId s0 s0.cur.sp s0.cr) s0 → ∃ u, exec (.node w) s = .next u ∧ u.mem = s.mem ∧ ∃ n' ∈ u.nodes, n'.id = n.id ∧
        ∃ k ∈ n'.taken, k.pc = (s0.unit .S).pc + 4#52 ∧ k.r = s0.cr ∧ k.scyS = s0.me.scyS + 1#64 ∧ k.scyV = s0.me.scyV + 1#64 ∧
          keepsRegisters s0.me k) ∧
    (popSrcs [a] s0 = .ok () s1 → sPerformed s1.me = true → WellFormedRecord (rowWords row) →
      ((s1.unit .S).kept = none →
        Unsent (wordAccess s1) s1 →
        resolve s1.cur.sp s1.my.xroot { ownAsk .S false s1 with space := none } (gVal a s1) s1 = .ok t s2 →
        remote s2 t.addr = false → readTarget t s2 = .ok row s3 →
        ∃ own, rowWords own = launchRecord (rowWords row) s3 ∧
          let u := s3.modUnit .S (fun x => { x with kept := some own })
          (s3.nodes.length < 4096 →
            exec (.launch w a) s = .next (issued .S w (setUnsafe (addNode (launchRecord (rowWords row) s3) u)))) ∧
          (4096 ≤ s3.nodes.length → (s3.me.str .S).queue ≠ [] →
            ∃ t, exec (.launch w a) s = .next t ∧ (t.unit .S).kept = some own ∧ (t.me.str .S).held = true ∧ t.nodes = s3.nodes)) ∧
      ((s1.unit .S).kept = some row → s1.nodes.length < 4096 →
        exec (.launch w a) s = .next (issued .S w (setUnsafe (addNode (rowWords row) s1))))) ∧
    (∀ x : List W64, x.length = 16 →
      let y := launchRecord x s
      let own : BitVec 2 := match nodeOn s s.cur.sp with
        | some m => (field m.record 2).extractLsb' 4 2
        | none => 0#2
      y.length = 16 ∧ field y 1 = s.my.xroot ∧ (∀ i, i ≠ 1 → i ≠ 2 → field y i = field x i) ∧
      ((field y 2).extractLsb' 4 2).toNat = max ((field x 2).extractLsb' 4 2).toNat own.toNat ∧
      (field y 2).extractLsb' 0 4 = (field x 2).extractLsb' 0 4 ∧ (field y 2).extractLsb' 6 58 = (field x 2).extractLsb' 6 58)

/-- R195, R197: SPHINT live starts the wake of a bank that is not FULL, and drop, ordered as a store of S, kills every
item of a tile, an accumulator or a scratchpad bank. R192 to R196, R231, R232: an idle bank with a live item goes to
RETAIN and one with none to OFF once its idle time has passed, or it is marked; a wake that has run its latency leaves
it FULL; an idle band outside ASHAPE that no command needs is gated and its weights die, and a use of it sets its idle
count to 0; the wake of a band ends with its weights dead.
That a bank past a newly lowered BRET or BOFF moves on the first clock of the new value is assumption 47, that SPHINT live
leaves an earlier mark in place is assumption 55. -/
def Obligations.SuppliesFollowUse : Prop :=
  (∀ (w : Tok) (x : BitVec 2) (y : BitVec 3) (v : BitVec 8) (s s0 : State), Begins .S w s s0 →
     let n := hintBank s0.cr y v
     let b := s0.my.dueBank n
     (2 ≤ x.toNat → mustWait .S (orderOf .S s0) true s0.me = false) →
     ∃ t, exec (.sphint w x y v) s = .next (issued .S w t) ∧ t.mem = s0.mem ∧
       (x = 0#2 → b.st ≠ .full → b.wake = none →
         t = s0.setMy (s0.my.setBank n { b with wake := some (s0.my.clock + wakeOf n) })) ∧
       (x = 0#2 → (b.st = .full ∨ b.wake.isSome = true) → t = s0) ∧
       (x = 1#2 → b.st = .full → t = s0.setMy (s0.my.setBank n { b with mark := some s0.my.clock })) ∧
       (x = 2#2 → (∀ r b, n ≠ .vbank r b) → t.my.bankLive n = false) ∧
       (x = 2#2 → (∃ r b, n = .vbank r b) → t = s0)) ∧
  (∀ (sp : BitVec 7) (n : BankName) (arr : BitVec 1) (j : BitVec 2) (t : Nat) (s : State),
     let x := s.span sp
     let b := x.bank n
     let marked : Prop := ∃ m, b.mark = some m ∧ m < x.clock ∧ b.used + 1 < x.clock
     (b.st = .full → b.wake = none → x.bankLive n = true → writeInFlight x n = false →
       (marked ∨ (0 < bankBret x n ∧ b.used + bankBret x n < x.clock)) →
       exec (.bankRetain sp n) s = .next (s.setSpan sp (x.setBank n { b with st := .retain, mark := none }))) ∧
     (b.st ≠ .off → b.wake = none → x.bankLive n = false → writeInFlight x n = false →
       (marked ∨ (0 < bankBoff x n ∧ b.used + bankBoff x n < x.clock ∧ b.died + bankBoff x n < x.clock)) →
       exec (.bankOff sp n) s = .next (s.setSpan sp (x.setBank n { b with st := .off, mark := none }))) ∧
     (b.wake = some t → t ≤ x.clock →
       exec (.bankWakeDone sp n) s = .next (s.setSpan sp
         (x.setBank n { b with st := .full, wake := none, used := max b.used (t - 1) }))) ∧
     (let d := x.band arr j
      (d.gated = false → x.ashape.getLsbD (4 * arr.toNat + j.toNat) = false → x.bgidleOn ≠ 0#16 → bandNeeded x arr j.toNat = false →
        d.busy + x.bgidleOn.toNat < x.clock →
        exec (.bandGate sp arr j) s = .next (s.setSpan sp (x.setBand arr j ⟨true, false, none, d.busy⟩))) ∧
      (d.gated = false → (x.ashape.getLsbD (4 * arr.toNat + j.toNat) = true ∨ bandNeeded x arr j.toNat = true) →
        exec (.bandGate sp arr j) s = .next s ∧ ((tickBands x).band arr j).gated = false ∧ ((tickBands x).band arr j).busy = x.clock) ∧
      (d.wake = some t → t ≤ x.clock →
        exec (.bandWakeDone sp arr j) s = .next (s.setSpan sp (x.setBand arr j ⟨false, false, none, x.clock⟩)))))

/-- R60: a prefix word has no effect of its own and joins the unit that is gathered, at the core that takes it. R44: it
is the word that the splitter takes on its clock. -/
def Obligations.PrefixWordsGather : Prop :=
  ∀ (i : Instr) (s : State), ((∃ v, i = .pimm v) ∨ (∃ o c p l, i = .pmem o c p l) ∨ (∃ c n d a b, i = .prep c n d a b)) →
    ∃ t, exec i s = .next t ∧ t.mem = s.mem ∧
      (s.atTender = false → t = s.mapMe (fun k => { k with pend := k.pend ++ [encode i], steered := true })) ∧
      (s.atTender = true → t = s.mapTender s.cur.sp (fun x => { x with pend := x.pend ++ [encode i] }))

/-- R187, R188: a lane word reads its sources at issue and schedules its result at its latency under its guard; a
kill mark ends its first source. -/
def Obligations.VectorWordsCompute : Prop :=
  ∀ (i : Instr) (c : VCompute) (s s0 s1 : State), (vectorOf i = some c ∨ predicateOf i = some c) → Begins .V c.tok s s0 →
    Live c.srcs s0 → vBanks c.banks s0 = .ok () s1 → exec i s = .next (issued .V c.tok (scheduled c s1))

/-- R221, R222, R225: a reduction schedules its value in every lane 8 cycles on, and with F deposits its record,
as VFLAG does, 6 cycles on in an EMPTY wide-flag register. -/
def Obligations.Reductions : Prop :=
  ∀ (i : Instr) (c : Reduction) (w : Tok) (p n q : BitVec 3) (s s0 s1 : State),
    (reductionOf i = some c → Begins .V c.tok s s0 → Live [c.a] s0 → vBanks [c.a, c.d] s0 = .ok () s1 →
      (c.f = 1#1 → s0.me.wide c.n = .empty) →
      let u := schedule 8 (.vreg (vName c.d s1)) (BitVec.allOnes 32) (packRow (fun _ => (c.val s1).1))
        (if c.k = 1#1 then vKill true c.a s1 else s1)
      let m := lanesIn (pVal c.p s1)
      exec i s = .next (issued .V c.tok (if c.f = 1#1 then
        u.mapMe (fun x => x.setWide c.n (.pending (x.scyV + 6#64)
          (wideRec ((c.val s1).2.getD m) (1 ≤ m) (m = 32) (m = 0)))) else u))) ∧
    (Begins .V w s s0 → s0.me.wide n = .empty →
      let m := lanesIn (pVal p s0 &&& pVal q s0)
      exec (.vflag w p n q) s = .next (issued .V w (s0.mapMe (fun x => x.setWide n (.pending (x.scyV + 6#64)
        (wideRec m (0 < m) (m = lanesIn (pVal p s0)) (m = 0)))))))

/-- R202, R203: VMOVT writes an image row of a tile from a vector register, or reads one, and VMOVA reads a quarter
of an accumulator row, as the descriptor at the head of q0 says; a descriptor with a bit above its fields raises
ILL. R203, R240: a row that a Girder command is writing is read as one of free values.
The free values are assumption 7. -/
def Obligations.TileAndAccumulatorMoves : Prop :=
  ∀ (w : Tok) (p : BitVec 3) (d : BitVec 5) (v : W64) (rest : List W64) (row : AccRow) (s s0 s1 s2 : State),
    Begins .V w s s0 → s0.me.q[0] = v :: rest →
    let t : BitVec 4 := BitVec.ofNat 4 v.toNat
    let u := v.toNat / 16 % 256
    let c := s0.my.cfg t
    let arr : BitVec 1 := BitVec.ofNat 1 (v.toNat / 8)
    let a : BitVec 3 := BitVec.ofNat 3 v.toNat
    let r := v.toNat / 16 % 128
    let popped (x : State) : State := x.mapMe (fun k => { k with q := k.q.set 0 rest })
    (v.toNat < 2 ^ 13 → cfgRows c ≠ 0 → 128 * u < imageBytes c → vBanks [d] s0 = .ok () s1 →
      useBank s1.cur.sp (.tile t) s1 = .ok () s2 →
      (2 ^ 12 ≤ v.toNat → Live [d] s0 →
        exec (.vmovt w p d) s = .next (issued .V w (schedule 6 (.tile t u c) (pVal p s2) (vVal d s2) (popped s2)))) ∧
      (v.toNat < 2 ^ 12 → (∀ i ∈ rowsIn c u, (s0.my.tile t).isLive i = true) →
        exec (.vmovt w p d) s = .next (issued .V w (schedule 6 (.vreg (vName d s2)) (pVal p s2)
          (imageRow c (s2.my.tile t) u) (popped s2))))) ∧
    (v.toNat < 2 ^ 13 → Table.find? (s0.my.acc arr a).rows r = some row → vBanks [d] s0 = .ok () s1 →
      useBank s1.cur.sp (.acc arr a) s1 = .ok () s2 →
      exec (.vmova w p d) s = .next (issued .V w (schedule 10
        (.accRead (vName d s2) arr a (BitVec.ofNat 7 r)
          (if beingWritten s0.my arr a r then none else some ((s2.my.acc arr a).count r))) (pVal p s2)
        (packRow (fun i => accWord row (32 * (v.toNat / 2 ^ 11 % 4) + i))) (popped s2)))) ∧
    (2 ^ 13 ≤ v.toNat → Awake s0 →
      exec (.vmovt w p d) s = .next (raiseTrap s0.cur.sp s0.cr (trapInfo .V (s0.unit .V) 0 (fltAt cILL v)) s0) ∧
      exec (.vmova w p d) s = .next (raiseTrap s0.cur.sp s0.cr (trapInfo .V (s0.unit .V) 0 (fltAt cILL v)) s0))

/-- R100, R199, R200: VNOP; VBCAST, VAMOV and VRMS take the head of q0; VPOP takes the head of its vector queue.
R219, R220: VQNT and VLUT through the codebook that VQCB names: the code of each lane under its scale, and the
entry of each code widened, NaN past the codebook. -/
def Obligations.VectorMovesAndCodes : Prop :=
  (∀ (w : Tok) (p n : BitVec 3) (m : BitVec 2) (d : BitVec 5) (v : W64) (rest : List W64) (row : Row) (rows : List Row)
     (s s0 s1 s2 : State), Begins .V w s s0 →
     exec (.vnop w) s = .next (issued .V w s0) ∧
     (s0.me.q[0] = v :: rest →
       exec (.vamov w n) s = .next (issued .V w (s0.mapMe (fun k =>
         { k with q := k.q.set 0 rest, x := k.x.set n.toNat (BitVec.ofNat 24 v.toNat) (n.isLt) }))) ∧
       exec (.vrms w) s = .next (issued .V w (s0.mapMe (fun k =>
         { k with q := k.q.set 0 rest, rms := BitVec.ofNat 7 v.toNat }))) ∧
       (vBanks [d] s0 = .ok () s1 →
         exec (.vbcast w p d) s = .next (issued .V w (schedule 2 (.vreg (vName d s1)) (pVal p s1)
           (packRow (fun _ => BitVec.ofNat 32 v.toNat)) (s1.mapMe (fun k => { k with q := k.q.set 0 rest })))))) ∧
     (s0.me.vqueue m = row :: rows → vBanks [d] s0 = .ok () s1 → s2 = setUnsafe (s1.mapMe (fun k => k.setVq m rows)) →
       exec (.vpop w p d m) s = .next (issued .V w (schedule 2 (.vreg (vName d s2)) (pVal p s2) row s2)))) ∧
  (∀ (w : Tok) (p : BitVec 3) (k : BitVec 1) (d a b : BitVec 5) (book : List (BitVec 16)) (s s0 s1 : State),
     Begins .V w s s0 → s0.my.book s0.me.vqcb = some book →
     let kill := if k = 1#1 then some a else none
     (Live [a, b] s0 → vBanks [a, b, d] s0 = .ok () s1 →
       exec (.vqnt w p k d a b) s = .next (issued .V w (scheduled
         ⟨w, [a, b], [a, b, d], 6, fun s => .vreg (vName d s), pVal p,
           fun s => packRow (fun i => BitVec.ofNat 32 (codeOf book (ln b s i) (ln a s i)).c), kill⟩ s1))) ∧
     (Live [a] s0 → vBanks [a, d] s0 = .ok () s1 →
       exec (.vlut w p k d a) s = .next (issued .V w (scheduled
         ⟨w, [a], [a, d], 4, fun s => .vreg (vName d s), pVal p,
           fun s => packRow (fun i => match book[(ln a s i).toNat % 256]? with
             | some e => if (bf16 e).isNan then 0x7FC00000#32 else BitVec.ofNat 32 (e.toNat * 65536)
             | none => 0x7FC00000#32), kill⟩ s1))))

/-- R205, R206: VLD schedules the row at its address under its guard, VST writes the lanes of its guard there; both
step their address register when PI says so; with no lane active neither touches a row. -/
def Obligations.VectorRows : Prop :=
  ∀ (w : Tok) (p : BitVec 3) (i : BitVec 1) (d : BitVec 5) (x : BitVec 3) (o : BitVec 7) (s s0 s1 : State),
    Begins .V w s s0 → vBanks [d] s0 = .ok () s1 →
    let step := s0.me.xreg x + BitVec.ofNat 24 (128 * (wideImm (s0.unit .V).pimms 7 o).toNat)
    let off := if i = 1#1 then s0.me.xreg x else step
    let stepped (t : State) : State :=
      if i = 1#1 then t.mapMe (fun k => { k with x := k.x.set x.toNat step (x.isLt) }) else t
    let g := pVal p s0
    (g = 0#32 →
      exec (.vld w p i d x o) s = .next (issued .V w (stepped (schedule 8 (.vreg (vName d s1)) 0#32 0#1024 s1))) ∧
      (Live [d] s0 → exec (.vst w p i d x o) s = .next (issued .V w (stepped s1)))) ∧
    (g ≠ 0#32 → LocalOpen .V off false s0 → rowLive s0.cur.sp off s0 = true →
      exec (.vld w p i d x o) s = .next (issued .V w (stepped (schedule 8 (.vreg (vName d s0)) g
        (s0.mem.row (spadAddr s0.cur.sp off / 128)) (usedNow (spadBankOf off) s1))))) ∧
    (g ≠ 0#32 → LocalOpen .V off true s0 → Live [d] s0 → s0.mem.wf = true →
      ∃ t, exec (.vst w p i d x o) s = .next (issued .V w (stepped t)) ∧
        LocalWritten off (laneBytes g) (vVal d s0) s1 t)

/-- R207: VGTH schedules, for each active lane, the 4 bytes at (base + offset lane) mod 2^24 with [1:0] cleared, from
rows that are live. R207: VSCT stores each active lane at its address, the higher lane where two name one word; a row
that it makes live reads zero in its other bytes, and no other byte of memory changes. Both step their address
register when PI says so, and with no lane active touch no row. Each row beyond the first in any one bank first holds V
for one clock, and R102, R372: that clock counts in the V row, at the entry of its bank group.
That the rows of a VSCT are written in one step is assumption 6, when the clocks of its conflicts are counted assumption 32,
and that they go by while late data holds V assumption 14. -/
def Obligations.GatherAndScatter : Prop :=
  ∀ (w : Tok) (p : BitVec 3) (i : BitVec 1) (d : BitVec 5) (x : BitVec 3) (o : BitVec 7) (s s0 : State), Begins .V w s s0 →
    let step := s0.me.xreg x + BitVec.ofNat 24 (128 * (wideImm (s0.unit .V).pimms 7 o).toNat)
    let base := if i = 1#1 then s0.me.xreg x else step
    let stepped (t : State) : State :=
      if i = 1#1 then t.mapMe (fun k => { k with x := k.x.set x.toNat step (x.isLt) }) else t
    let g := pVal p s0
    let addr (l : Nat) : BitVec 24 := (base + BitVec.ofNat 24 (ln (d + 1#5) s0 l).toNat) &&& ~~~3#24
    let byte (l : Nat) : Nat := spadAddr s0.cur.sp (addr l)
    let first (f : Nat → Nat) (l : Nat) : Bool :=
      g.getLsbD l && !(List.range l).any (fun m => g.getLsbD m && f m == f l)
    let conflicts : List Nat := ((List.range 32).filter (fun l =>
      first (fun m => (addr m).toNat / 128) l && !first (fun m => (addr m).toNat / 128 % 128) l)).map
        (fun l => (addr l).toNat / 1024 % 16)
    let served := (s0.unit .V).serve = some [] ∨ ((s0.unit .V).serve = none ∧ conflicts = [])
    let holds (i : Instr) : Prop :=
      ((s0.unit .V).serve = none → conflicts ≠ [] → ∀ u l, (s0.me.str .V).queue = u :: l →
        ∃ t, exec i s = .next t ∧ (t.me.str .V).held = true ∧ (t.me.str .V).queue = { u with serve := some conflicts } :: l ∧
          t.mem = s0.mem ∧ t.me.landings = s0.me.landings) ∧
      (∀ n l, (s0.unit .V).serve = some (n :: l) → ∃ t, exec i s = .next t ∧ HoldsAt .V s0 t ∧ t.me.landings = s0.me.landings)
    (∀ n ∈ [d, d + 1#5], (s0.my.dueBank (vBankOf s0.cr (vName n s0))).st = .full) →
    (g ≠ 0#32 → spaceAsk .V s0 = none ∨ spaceAsk .V s0 = some 0#3) → s0.me.rwatch.getLsbD 0 = false →
    (∀ l < 32, g.getLsbD l = true → (s0.my.dueBank (spadBankOf (addr l))).st = .full ∧
      Table.find? s0.errors (byte l / 128) = none) →
    (Live [d + 1#5] s0 → (∀ l < 32, g.getLsbD l = true → rowLive s0.cur.sp (addr l) s0 = true) →
      (g ≠ 0#32 → mustWait .V (orderOf .V s0) false s0.me = false) → holds (.vgth w p i d x o) ∧ (served →
      ∃ u, u = { s0 with spans := u.spans } ∧ BanksOnly s0 u ∧
        exec (.vgth w p i d x o) s = .next (issued .V w (stepped (schedule 14 (.vreg (vName d s0)) g
          (packRow (fun l => if g.getLsbD l then BitVec.ofNat 32 (s0.mem.nat (byte l) 4) else 0#32)) u))))) ∧
    (Live [d + 1#5, d] s0 → s0.mem.wf = true → (g ≠ 0#32 → mustWait .V (orderOf .V s0) true s0.me = false) →
      holds (.vsct w p i d x o) ∧ (served → ∃ u, u = { s0 with mem := u.mem, spans := u.spans } ∧ BanksOnly s0 u ∧
        exec (.vsct w p i d x o) s = .next (issued .V w (stepped u)) ∧
        (∀ l < 32, g.getLsbD l = true → rowLive s0.cur.sp (addr l) u = true) ∧
        ∀ a, let covers := (List.range 32).filter (fun l => g.getLsbD l && decide (byte l ≤ a) && decide (a < byte l + 4))
          u.mem.get a = match covers.getLast? with
            | some l => (ln d s0 l).extractLsb' (8 * (a - byte l)) 8
            | none =>
              if (List.range 32).any (fun l => g.getLsbD l && a / 128 == byte l / 128 && !rowLive s0.cur.sp (addr l) s0) then 0#8
              else s0.mem.get a)) ∧
    (∀ (k : Reckoner) (u : Work) (l : List Work) (n : Nat) (m : List Nat), (k.str .V).queue = u :: l → u.serve = some (n :: m) →
      ((tickStream .V k).str .V).queue = { u with serve := some m } :: l) ∧
    (∀ (y : Span) (r : BitVec 2) (u : Work) (l : List Work) (n : Nat) (m : List Nat), clocked (y.reck r) = true →
      (y.reck r).stopMet = false → ((y.reck r).str .V).queue = u :: l → u.serve = some (n :: m) →
      Table.find? (noteWait y r).tender.waited (64 + 16 * r.toNat + n) =
        some ((Table.find? y.tender.waited (64 + 16 * r.toNat + n)).getD 0 + 1))

/-- R187, R188: a result that is due lands: the lanes of its mask take its value, the others keep theirs or are
zero in a dead register, and the register is live. R203, R240: a VMOVA lands the words read, or free values where its row
has been written since its issue or is being written. R204, R210, R215: a predicate takes the bits of its guard. R34, R202:
a write of an image row advances WGEN where the tile has scales; data lanes are written, make their tile rows live and
stamp their blocks with WGEN, and a scale lane takes its S and stamps STAG. R142: a deposit whose cycle has come is FULL. R125 to R128,
R308, R313: the data of a timed load comes into its entry, and lands when its cycle has come; an atomic's old
value is written back and S goes on; the fabric port accepts the oldest window atomic, or none can carry it and it
raises ECC (R385); and the switches apply every waiting update of a unit and operation once, one after another, while
one for another device is gone once that device has acknowledged its flit.
The free values of a VMOVA are assumption 7; that one delivery applies every update of a unit and operation is assumption 26; the order of late landings is assumption 27. -/
def Obligations.ValuesLand : Prop :=
  ((∀ (sp : BitVec 7) (r : BitVec 2) (n : BitVec 5) (l : VLanding) (new : Row) (s : State), clocked (s.reck sp r) = true →
      (s.reck sp r).landings = [l] → landsNow (s.reck sp r) l = true →
      ((l.dest = .vreg n ∧ new = l.value) ∨ (∃ a i row gen, l.dest = .accRead n a i row gen ∧
        new = if gen = some (((s.span sp).acc a i).count row.toNat) ∧ beingWritten (s.span sp) a i row.toNat = false then l.value
          else packRow (fun j => Config.racyWord ((s.span sp).acc a i).rows s.free j))) →
      ∃ t, exec (.vResultLanding sp r) s = .next t ∧ t.mem = s.mem ∧ (t.reck sp r).landings = [] ∧
        (t.reck sp r).vlive.getLsbD n.toNat = true ∧ (t.reck sp r).g = (s.reck sp r).g ∧ (t.reck sp r).p = (s.reck sp r).p ∧
        (∀ m, m ≠ n → (t.reck sp r).vreg m = (s.reck sp r).vreg m ∧
          (t.reck sp r).vlive.getLsbD m.toNat = (s.reck sp r).vlive.getLsbD m.toNat) ∧
        ∀ i < 32, lane ((t.reck sp r).vreg n) i =
          if l.mask.getLsbD i then lane new i
          else if (s.reck sp r).vlive.getLsbD n.toNat then lane ((s.reck sp r).vreg n) i else 0#32) ∧
   (∀ (sp : BitVec 7) (r : BitVec 2) (n : BitVec 3) (l : VLanding) (s : State), clocked (s.reck sp r) = true →
      (s.reck sp r).landings = [l] → l.dest = .pred n → reached l.due (s.reck sp r).scyV = true →
      ∃ t, exec (.vResultLanding sp r) s = .next t ∧ t.mem = s.mem ∧ (t.reck sp r).landings = [] ∧
        (t.reck sp r).v = (s.reck sp r).v ∧ (t.reck sp r).vlive = (s.reck sp r).vlive ∧ (t.reck sp r).g = (s.reck sp r).g ∧
        (∀ m, m ≠ n → (t.reck sp r).preg m = (s.reck sp r).preg m) ∧
        ∀ i < 32, ((t.reck sp r).preg n).getLsbD i =
          if l.mask.getLsbD i then l.value.getLsbD i else ((s.reck sp r).preg n).getLsbD i) ∧
   (∀ (sp : BitVec 7) (r : BitVec 2) (tt : BitVec 4) (u : Nat) (c : W32) (l : VLanding) (s : State), clocked (s.reck sp r) = true →
      (s.reck sp r).landings = [l] → l.dest = .tile tt u c → reached l.due (s.reck sp r).scyV = true → cfgOk c = true →
      ∃ t, exec (.vResultLanding sp r) s = .next t ∧ t.mem = s.mem ∧ (t.reck sp r).landings = [] ∧
        let old := (s.span sp).tile tt
        let new := (t.span sp).tile tt
        let g := cfgWgen ((t.span sp).cfg tt)
        let offset (i : Nat) : Nat := 128 * u + 4 * i
        let touched (i : Nat) : Bool := l.mask.getLsbD i && decide (offset i < dataBytes c)
        (t.span sp).cfg tt = (if cfgSc c then cfgWithWgen ((s.span sp).cfg tt) (cfgWgen ((s.span sp).cfg tt) + 1#4)
          else (s.span sp).cfg tt) ∧
        (∀ m, m ≠ tt → (t.span sp).tile m = (s.span sp).tile m ∧ (t.span sp).cfg m = (s.span sp).cfg m) ∧
        (∀ i < 32, l.mask.getLsbD i = true → offset i < dataRegion c → lane (new.row u) i = lane l.value i) ∧
        (∀ i < 32, l.mask.getLsbD i = true → dataRegion c ≤ offset i → offset i < imageBytes c →
          lane (new.row u) i = scaleWord (dtagOf (lane (old.row u) i)) g (s20Of (lane l.value i))) ∧
        (∀ j, new.isLive j = true ↔ old.isLive j = true ∨ (j < cfgRows c ∧ ∃ i < 32, touched i = true ∧
          j * cfgCols c * elemBits c < 8 * offset i + 32 ∧ 8 * offset i < (j + 1) * cfgCols c * elemBits c)) ∧
        (cfgSc c = true → 128 * u < dataRegion c → ∀ i < cfgRows c, ∀ m < cfgCols c / 32,
          new.scale c i m =
            if (List.range 32).any (fun n => touched n && 8 * offset n / elemBits c / 32 == i * (cfgCols c / 32) + m)
            then scaleWord g (stagOf (old.scale c i m)) (s20Of (old.scale c i m)) else old.scale c i m)) ∧
   (∀ (sp : BitVec 7) (r : BitVec 2) (n : BitVec 3) (due : W64) (x : WideRec) (s : State), clocked (s.reck sp r) = true →
      (s.reck sp r).wide n = .pending due x → reached due (s.reck sp r).scyV = true →
      ∃ t, exec (.wideFlagFull sp r n) s = .next t ∧ t.mem = s.mem ∧ (t.reck sp r).wide n = .full x)) ∧
  (∀ (sp : BitVec 7) (r : BitVec 2) (b : LandEntry) (p : Phys) (row : Row) (d : BitVec 5) (v v0 v1 : W64) (u : WindowUpdate)
     (rest : List WindowUpdate) (n id : Nat) (o : Work) (s s1 : State),
     let k := s.reck sp r
     (k.buffer = [b] → b.data = none → b.fault = none → k.frozen = none → b.stream = .S →
       Unsent (workAccess (threadId s sp r) .S b.work) s →
       translateFree sp (s.span sp).xroot (entryAsk b) b.addr s = .ok p s1 → s1.reck sp r = k → k.posted = [] →
       (b.watch && p.watch) = false → remote s1 p.pa = false → unreachable s1 p.pa = false → Table.find? s1.errors (homeAddr s1 p.pa / 128) = none →
       let v' := s1.mem.w64 (homeAddr s1 p.pa / 128 * 128 + b.addr.toNat / 8 % 16 * 8)
       let b' := { b with missed := false, data := some (v'.zeroExtend 1024) }
       (draining k = false → ∃ t, exec (.landingBufferFill sp r 0) s = .next t ∧ (t.reck sp r).buffer = [b'] ∧ t.mem = s1.mem) ∧
       (clocked k = true → reached b.due k.scyS = true → k.landings = [] → b.dest ≠ 0#5 → b.dest.toNat < 24 →
         ∃ t, exec (.lateDataArrival sp r 0) s = .next t ∧ (t.reck sp r).buffer = [] ∧
           (t.reck sp r).g[b.dest.toNat]'(b.dest.isLt) = v' ∧ t.mem = s1.mem)) ∧
     (k.buffer = [b] → b.stream = .S → b.data = some (v.zeroExtend 1024) → clocked k = true → reached b.due k.scyS = true → k.landings = [] →
       b.dest ≠ 0#5 → b.dest.toNat < 24 → b.fault = none →
       ∃ t, exec (.timedLanding sp r) s = .next t ∧ (t.reck sp r).buffer = [] ∧ (t.reck sp r).g[b.dest.toNat]'(b.dest.isLt) = v ∧
         (∀ j : Fin 32, j.val ≠ b.dest.toNat → (t.reck sp r).g[j] = k.g[j]) ∧ (t.reck sp r).vlive = k.vlive ∧
         t.mem = s.mem) ∧
     (k.buffer = [b] → b.stream = .V → b.data = some row → clocked k = true → reached b.due k.scyV = true → k.landings = [] →
       b.fault = none →
       ∃ t, exec (.timedLanding sp r) s = .next t ∧ (t.reck sp r).buffer = [] ∧ (t.reck sp r).vlive.getLsbD b.dest.toNat = true ∧
         (∀ m, m ≠ b.dest → (t.reck sp r).vreg m = k.vreg m) ∧ (t.reck sp r).g = k.g ∧ t.mem = s.mem ∧
         ∀ i < 32, lane ((t.reck sp r).vreg b.dest) i = if b.mask.getLsbD i then lane row i
           else if k.vlive.getLsbD b.dest.toNat then lane (k.vreg b.dest) i else 0#32) ∧
     (k.wait = .atomic d v → d ≠ 0#5 → d.toNat < 24 →
       ∃ t, exec (.atomicWriteBack sp r) s = .next t ∧ (t.reck sp r).wait = .none ∧ (t.reck sp r).g[d.toNat]'(d.isLt) = v ∧
         (∀ j : Fin 32, j.val ≠ d.toNat → (t.reck sp r).g[j] = k.g[j]) ∧ t.mem = s.mem) ∧
     (k.wait = .atomic2 d v0 v1 → d ≠ 0#5 → d.toNat < 23 → d.toNat % 2 = 0 →
       ∃ t, exec (.atomicWriteBack sp r) s = .next t ∧ (t.reck sp r).wait = .none ∧ (t.reck sp r).g[d.toNat]'(d.isLt) = v0 ∧
         (t.reck sp r).g[(d + 1#5).toNat]'((d + 1#5).isLt) = v1 ∧ t.mem = s.mem) ∧
     (k.windows = u :: rest → unreachable s u.pa = true → u.work = some o → u.thread = (id, sp ++ r) → (s.span sp).node = some id →
       (k.run = .running ∨ k.run = .draining) → k.frozen = none → k.stop = none → k.faults = [] →
       exec (.windowAtomicAccept sp r) s = .next (raiseTrap sp r { trapInfo .S o 0
         { fltAt cECC (BitVec.ofNat 64 (128 * (u.pa / 128))) with wr := true, word := BitVec.ofNat 5 (u.pa / 8 % 16 * 2) }
         with after := true } s)) ∧
     (k.windows = u :: rest → unreachable s u.pa = false →
       ∃ t, exec (.windowAtomicAccept sp r) s = .next t ∧ (t.reck sp r).windows = rest ∧
         t.fabric.updates = s.fabric.updates ++ [u] ∧ t.mem = s.mem) ∧
     (let a := homeAddr s u.pa
      let same (y : WindowUpdate) : Bool := homeAddr s y.pa == a && y.op == u.op
      let out (y : WindowUpdate) : Prop :=
        ∃ k : Fin 16, (BitVec.ofNat 8 (y.pa / 2 ^ 43), FlitBody.window (BitVec.ofNat 43 y.pa) y.op y.x) ∈ carried s.fabric.link[k]
      s.fabric.updates[n]? = some u → (∀ y ∈ s.fabric.updates, same y = true → unreachable s y.pa = false) →
      (s.fabric.updates = [u] → remote s u.pa = true → out u → exec (.windowUpdateDelivery n) s = .next s) ∧
      ((∀ y ∈ s.fabric.updates, same y = true → remote s y.pa = true ∧ ¬ out y) →
        ∃ t, exec (.windowUpdateDelivery n) s = .next t ∧ t.mem = s.mem ∧ t.errors = s.errors ∧
          t.fabric.updates = s.fabric.updates.filter (fun y => !same y)) ∧
      ((∀ y ∈ s.fabric.updates, same y = true → remote s y.pa = false) → Table.find? s.errors (a / 128) = none →
       0x38 ≤ u.op.toNat → u.op.toNat ≤ 0x3D → s.mem.wf = true →
       ∃ t, exec (.windowUpdateDelivery n) s = .next t ∧ t.fabric.updates = s.fabric.updates.filter (fun y => !same y) ∧
         Bytes a 8 ((s.fabric.updates.filter same).foldl (fun old y => mergeBy u.op old y.x) (s.mem.w64 a)).toNat s.mem t.mem)))

/-- R100, R136, R244: NOP changes nothing but its stream; AGEN computes an arena address from its latched
generator; the NOPs of the engines pass their queue heads, and those of C and Q, which complete, leave a thread in restart
mode unsafe (R353); MREL ends the lease that its Reckoner holds. -/
def Obligations.NopsAndAddresses : Prop :=
  ∀ (w : Tok) (d a b : BitVec 5) (g : BitVec 3) (s s0 s1 : State),
    (Starts .S w s s0 → exec (.nop w) s = .next (finish s .S w s0)) ∧
    (Begins .S w s s0 → popSrcs [a, b] s0 = .ok () s1 → Room d s1 →
      let z := Arena.at s1.me g
      let j := if z.len = 0#32 then gVal b s1 else BitVec.ofNat 64 ((gVal b s1).toNat % z.len.toNat)
      exec (.agen w d a b g) s = .next (issued .S w (gPut d (z.base + gVal a s1 * z.slot + j * z.pos) s1))) ∧
    (∀ i e, (i = .mnop w ∧ e = .M ∨ i = .knop w ∧ e = .K ∨ i = .cnop w ∧ e = .C ∨ i = .qnop w ∧ e = .Q) →
      s.atTender = false → paced e s.me s.my.clock = true → waitTokens e w s = some s0 →
      exec i s = .next (passed e w s (if e = .C ∨ e = .Q then setUnsafe s0 else s0))) ∧
    (∀ t, (setUnsafe t).me = (if t.my.tender.rm then { t.me with restart := { t.me.restart with dirty := true } } else t.me)) ∧
    (s.atTender = false → leaseNow s.cur.sp s = s → paced .M s.me s.my.clock = true → waitTokens .M w s = some s0 →
      ∃ t, exec (.mrel w) s = .next (passed .M w s t) ∧
        (s0.my.lease.holder ≠ some s0.cr → t = s0) ∧
        (s0.my.lease.holder = some s0.cr →
          t = s0.setMy { s0.my with lease := { s0.my.lease with holder := none, count := 0, hold := 0 } }))

/-- R55, R153, R234, R255, R281: a command whose engine lets it go pops its arguments in order, leaves its queue head
with its latches made, passes its checks, applies its units one after another and its closing work, and then stands
finished, its reply and its completion row to come. R156, R241, R257, R282: a command whose check fails has left its
queue head, applies no unit, and traps with the fault of the check. R152, R180: a copy command leaves its head when one
of the 8 engines of its die is free, and a CENC one of its 2 encoders, the ready Reckoner next after the last served
first. R281, R360: a Pier command leaves its head in the same turn when MRCAP has room. R233: a Girder
command begins for the holder of the lease; R228: while commands of other Reckoners that began before it have units left it
stands begun, its checks to come. R255: a ladder command takes its turn in the ladder order.
The order of Girder commands when one of them is cut is assumption 28, and that the ladder's last served
is the one whose command last left its head is assumption 46.
How many units a step applies is assumption 6; that a cut copy command gives up its engine is assumption 33. -/
def Obligations.CommandsRun : Prop :=
  (∀ (i : Instr) (k : Command) (args : List W64) (t : Reckoner) (n : Nat) (s s0 s1 s2 s3 : State) (c1 c2 : Cmd),
     commandOf i = some k → Ready k.eng k.tok s s0 → k.enter s0 s1 → k.args s1 = some (args, t) →
     let u := (begun k args t s s1).2
     let c := k.copies u (begun k args t s s1).1
     (k.eng = .M → Alone s) → k.check u c = none → n ≤ s.cur.units.getD (2 * k.total c) →
     Runs k.total k.unit n { c with stage := .running } (k.start u) c1 s2 → k.total c1 ≤ c1.cursor →
     k.close c1 s2 = .ok c2 s3 → Awake s3 →
     exec i s = .next (s3.modStr k.eng (fun x => { x with active := some { c2 with stage := .finished }, held := false }))) ∧
  (∀ (i : Instr) (k : Command) (args : List W64) (t : Reckoner) (f : Flt) (s s0 s1 : State),
     commandOf i = some k → Ready k.eng k.tok s s0 → k.enter s0 s1 → k.args s1 = some (args, t) →
     let u := (begun k args t s s1).2
     let c := k.copies u (begun k args t s s1).1
     let c' := { c with failed := true, engine := k.eng != .M, deadAt := if f.cause = 0x04#8 then some c.cursor else c.deadAt }
     (k.eng = .M → Alone s) → k.check u c = some f → Awake u → Unsent (unitOfCmd (threadId u u.cur.sp u.cr) k.eng c) u →
     exec i s = .next (raiseTrap s.cur.sp s.cr (trapInfo k.eng c.work c.cursor f)
       (u.modStr k.eng (fun x => { x with active := some c', held := false })))) ∧
  (∀ (i : Instr) (k : Command) (args : List W64) (t : Reckoner) (s s0 s1 : State),
     commandOf i = some k → k.eng = .M → Ready k.eng k.tok s s0 → k.enter s0 s1 → k.args s1 = some (args, t) → ¬ Alone s →
     Awake s1 →
     let c := (begun k args t s s1).1
     c.engine = false ∧ c.stage = .checking ∧
     exec i s = .next ((begun k args t s s1).2.modStr .M (fun x => { x with active := some c, held := true }))) ∧
  (∀ (arr : BitVec 1) (p : BitVec 7 × BitVec 2) (s : State),
     let d : Fin 4 := ⟨s.cur.sp.toNat / 32, by have := s.cur.sp.isLt; omega⟩
     let me := (s.cur.sp, s.cr)
     let cenc : Prop := ∃ w c r, headInstr .C s.me = .cenc w c r
     let engines := countDie s s.cur.sp onEngine
     let encoders := countDie s s.cur.sp encoding
     let last := s.my.kserved[arr.toNat]'(arr.isLt)
     (8 ≤ engines ∨ (cenc ∧ 2 ≤ encoders) → copyGate s = .hold s) ∧
     (engines < 8 → (cenc → encoders < 2) → copyReady s me = true → (dieOrder d s.cserved[d]).find? (copyReady s) = some p →
       (p = me → copyGate s = .ok () { s with cserved := s.cserved.set d (some me) }) ∧ (p ≠ me → copyGate s = .hold s)) ∧
     (s.my.cap.toNat ≤ outstanding s s.cur.sp → pierGate s = .hold s) ∧
     (outstanding s s.cur.sp < s.my.cap.toNat → pierHeadReady s me = true → (dieOrder d s.qserved[d]).find? (pierHeadReady s) = some p →
       (p = me → pierGate s = .ok () { s with qserved := s.qserved.set d (some me) }) ∧ (p ≠ me → pierGate s = .hold s)) ∧
     (s.my.lease.holder = some s.cr → leaseGate s = .ok () s) ∧
     (∀ c, (s.me.str .M).active = some c → (Turn c.place s → girderBack s = .ok () s) ∧
       (¬ Turn c.place s → girderBack s = .hold s)) ∧
     (s.my.lease.holder ≠ some s.cr → leaseGate s =
       .hold (s.setMy { s.my with lease := { s.my.lease with req := s.my.lease.req ||| (1#4 <<< s.cr.toNat) } })) ∧
     (ladderReady s.my arr s.cr = true →
       ((∃ r, r ≠ s.cr ∧ ladderRuns (s.my.reck r) = true) → ladderGate arr s = .hold s) ∧
       ((∀ r, r ≠ s.cr → ladderRuns (s.my.reck r) = false) → ∀ r, (grantOrder last).find? (ladderReady s.my arr) = some r →
         (r = s.cr → ladderGate arr s =
           .ok () (s.setMy { s.my with kserved := s.my.kserved.set arr.toNat (some s.cr) (arr.isLt) })) ∧
         (r ≠ s.cr → ladderGate arr s = .hold s))))

/-- R235 to R237, R243: MLEASE ends the lease held and requests a new one, and waits at its head; a lease that was free as
the clock began goes, among the requests that stood then, to the first in ascending order after the last holder, which
completes an MLEASE at its head. The hold limit counts while another Reckoner requests and the holder has no command in
execution; where it is reached the holder loses the lease, with LEASE left pending, and the lease goes at once to the first
that requests it in that order.
That a frozen thread requests nothing is assumption 28. -/
def Obligations.LeaseIsGrantedInTurn : Prop :=
  ∀ (w : Tok) (n : BitVec 6) (sp : BitVec 7) (r h : BitVec 2) (s s0 : State),
    (Ready .M w s s0 →
      let l := s0.my.lease
      let l' := if l.holder = some s0.cr then { l with holder := none, count := 0, hold := 0 } else l
      exec (.mlease w n) s = .next (held .M (s0.setMy { s0.my with lease := { l' with req := l.req ||| (1#4 <<< s0.cr.toNat) } }))) ∧
    ((s.span sp).lease.holder = none →
      (grantOrder (s.span sp).lease.last).find? (fun r => (s.span sp).lease.due.getLsbD r.toNat && requesting (s.span sp) r) = some r →
      ∃ t, exec (.leaseGrant sp) s = .next t ∧ t.mem = s.mem ∧ (t.span sp).lease.holder = some r ∧ (t.span sp).lease.last = some r ∧
        (t.span sp).lease.req = (s.span sp).lease.req &&& ~~~(1#4 <<< r.toNat) ∧
        (∀ m u q, ((s.reck sp r).str .M).queue = u :: q → u.instr = .mlease w m →
          (t.span sp).lease.count = (if m = 0#6 then 64 else m.toNat) ∧ ((t.reck sp r).str .M).queue = q) ∧
        ((∀ u w' m, ((s.reck sp r).str .M).queue.head? = some u → u.instr ≠ .mlease w' m) → (t.span sp).lease.count = 1)) ∧
    ((s.span sp).lease.holder = some h → 16384 ≤ (s.span sp).lease.hold → girderBusy ((s.span sp).reck h) = false →
      ∃ t, exec (.leaseRevoke sp) s = .next t ∧ t.mem = s.mem ∧ (t.reck sp h).pendLease = true ∧
        (t.span sp).lease.holder = (grantOrder (s.span sp).lease.last).find? (requesting (s.span sp)) ∧
        (requesting (s.span sp) h = false → (t.span sp).lease.holder ≠ some h) ∧ (t.span sp).lease.hold = 0) ∧
    (let x := s.span sp
     ((dueLease x).lease.due.getLsbD r.toNat = (x.lease.holder.isNone && requesting x r)) ∧
     (x.lease.holder = some h → (girderBusy (x.reck h) = true ∨ ∀ r, r ≠ h → requesting x r = false) → (tickLease x).lease.hold = 0) ∧
     (x.lease.holder = some h → girderBusy (x.reck h) = false → (∃ r, r ≠ h ∧ requesting x r = true) →
       (x.reck h).frozen = none → (x.reck h).stop = none → (x.reck h).halted = false → (tickLease x).lease.hold = x.lease.hold + 1))

/-- R245, R246: MWLD loads the rows of its tile as the weight columns of the enabled bands; a unit of MMA adds the
block of products of each streamed row and each enabled column, float or integer, to its word. R239: the later units
stream the tile as the first has read it. R238: the weights are those that the command found at its begin, though it was
cut since. -/
def Obligations.WeightsAndProducts : Prop :=
  ∀ (r : BitVec 1) (a : BitVec 3) (t : BitVec 4) (z : BitVec 1) (c : Cmd) (s : State),
    let ws := (heldSet c r s).ws
    let b := c.cursor
    let book := (s.my.book (cfgCb c.tcfg)).getD []
    (Powered c r s → (∀ i < cfgRows c.tcfg, (s.my.tile t).isLive i = true) →
      (usesBook c.tcfg = true → (s.my.book (cfgCb c.tcfg)).isSome = true) → Full (.tile t) s →
      ∃ c' s', mwldUnit r t c s = .ok c' s' ∧ s'.mem = s.mem ∧
        (s'.my.array r).ws.k = cfgCols c.tcfg ∧ (s'.my.array r).ws.w = cfgRows c.tcfg ∧
        (∀ j : Fin 4, (s'.my.array r).band[j].live = bandIn c r j) ∧
        ∀ n < cfgRows c.tcfg, bandIn c r (n / 32) = true → ∀ k < cfgCols c.tcfg,
          ((s'.my.array r).ws.col n).w[k]? = some (tileElem (s.my.tile t) c.tcfg book n k)) ∧
    (let clear := b = 0 ∧ z = 1#1
     let tile := c.part.tile.getD (s.my.tile t)
     (∀ j : Fin 4, bandIn c r j = true → (heldSet c r s).live[j] = true) → Streams r a t clear c s →
      (cfgSc c.tcfg = true → ∀ i < cfgRows c.tcfg, inStep (tile.scale c.tcfg i b) = true) →
      (ws.scaled = true → ∀ n < 128, colIn c r ws.w n = true → inStep ((ws.col n).scales.getD b 0#32) = true) →
      ∃ c' s', mmaUnit r a t z c s = .ok c' s' ∧ c'.part.tile = some tile ∧
        Accumulates r a (cfgRows c.tcfg) clear (colIn c r ws.w)
          (fun i n acc =>
            let bs := blockSum (cfgCols c.tcfg) b (fun k => (tileElem tile c.tcfg book i k).mul ((ws.col n).w.getD k Ext.zero))
            if cfgType c.tcfg = tI8 ∧ cfgSc c.tcfg = false ∧ ws.int = true then (addInt acc (extInt bs)).1
            else (addBlock acc (contrib bs (tileScale tile c.tcfg i b) (colScale ws n b))).1) s s') ∧
    (heldSet c r s = match c.part.sets[r.toNat]? with
      | some h => h
      | none => ⟨(s.my.array r).ws, (s.my.array r).band.map (·.live)⟩)

/-- R38, R39, R247, R248: MMAID reads its 128 gains once, as its begin finds their rows where both are live; its unit q then
adds the diagonal of slab q under them. MMA32 goes, unit by unit, through its six passes in the order of R39, each on slices of its two tiles (R38), in which a zero
m or l slice adds nothing. R239: the later units stream the tiles as the first has read them. R38: the slices of a finite word are each the truncation of what the slices before it leave,
of any other word h is the word and m and l are zero. -/
def Obligations.DiagonalAndSlices : Prop :=
  (∀ (r : BitVec 1) (a : BitVec 3) (t u : BitVec 4) (z : BitVec 1) (c : Cmd) (s : State),
    let clear := c.cursor = 0 ∧ z = 1#1
    let book := (s.my.book (cfgCb c.tcfg)).getD []
    let tile := c.part.tile.getD (s.my.tile t)
    (let off : BitVec 24 := (c.arg 0).extractLsb' 0 24
     let row (k : BitVec 24) : Nat := spadAddr s.cur.sp k / 128
     ((c.arg 0).getLsbD 63 = true → rowLive s.cur.sp off s = true → rowLive s.cur.sp (off + 128#24) s = true →
       latchGains s c = { c with part := { c.part with
         rows := [(0, s.mem.row (row off)), (1, s.mem.row (row (off + 128#24)))] } }) ∧
     (Powered c r s → c.part.gains = [] →
      (∀ i < 2, let k := off + BitVec.ofNat 24 (128 * i)
        (rowLive s.cur.sp k s = true ∧ Full (spadBankOf k) s ∧ Table.find? s.errors (row k) = none) ∨
        (rowLive s.cur.sp k s = false ∧ (Table.find? c.part.rows i).isSome = true)) →
      ∃ g s', mmaidUnit r a t z c s = .ok { c with
          part := { c.part with gains := g, rows := [] }
          again := true } s' ∧ s'.mem = s.mem ∧ g.length = 128 ∧
        ∀ n < 128, g[n]? = some (((Table.find? c.part.rows (n / 64)).getD
          (s.mem.row (row (if n < 64 then off else off + 128#24)))).extractLsb' (16 * (n % 64)) 16))) ∧
    (Powered c r s → c.part.gains ≠ [] → Streams r a t clear c s →
      (cfgSc c.tcfg = true → 32 * c.cursor < cfgCols c.tcfg →
        ∀ i < cfgRows c.tcfg, inStep (tile.scale c.tcfg i c.cursor) = true) →
      ∃ c' s', mmaidUnit r a t z c s = .ok c' s' ∧ c'.part.tile = some tile ∧
        Accumulates r a (cfgRows c.tcfg) clear (fun n => n / 32 == c.cursor && colIn c r (cfgCols c.tcfg) n)
          (fun i n acc => (addBlock acc (contrib
            ((tileElem tile c.tcfg book i n).mul (bf16 (c.part.gains.getD n 0#16)))
            (tileScale tile c.tcfg i c.cursor) scaleOne)).1) s s') ∧
    (let order : List (Slice × Slice) := [(.l, .h), (.h, .l), (.m, .m), (.m, .h), (.h, .m), (.h, .h)]
     let blocks := (cfgCols c.tcfg + 31) / 32
     Powered c r s → Streams r a t clear c s → c.cursor < 6 * blocks → cfgCols c.tcfg2 = cfgCols c.tcfg →
      cfgType c.tcfg = tF32 → (∀ i < cfgRows c.tcfg2, (s.my.tile u).isLive i = true) → Full (.tile u) s →
      ∃ p, order[c.cursor / blocks]? = some p ∧
        let weights := c.part.tileW.getD (s.my.tile u)
        let x (i k : Nat) : Ext := sliceOf p.1 (BitVec.ofNat 32 (tile.elem c.tcfg i k))
        let y (n k : Nat) : Ext := sliceOf p.2 (BitVec.ofNat 32 (weights.elem c.tcfg2 n k))
        ∃ c' s', mma32Unit r a t u z c s = .ok c' s' ∧ c'.part.tile = some tile ∧ c'.part.tileW = some weights ∧
          Accumulates r a (cfgRows c.tcfg) clear (fun n => decide (n < cfgRows c.tcfg2) && bandIn c r (n / 32))
            (fun i n acc => (addBlock acc (contrib (blockSum (cfgCols c.tcfg) (c.cursor % blocks) (fun k =>
              if (p.1 ≠ .h ∧ (x i k).isZero = true) ∨ (p.2 ≠ .h ∧ (y n k).isZero = true) then Ext.zero
              else (x i k).mul (y n k))) scaleOne scaleOne)).1) s s')) ∧
  ∀ w : W32,
    ((f32 w).isFinite = false → sliceOf .h w = f32 w ∧ sliceOf .m w = Ext.zero ∧ sliceOf .l w = Ext.zero) ∧
    ∀ d, f32 w = .fin d → sliceOf .h w = bf16 (w.extractLsb' 16 16) ∧ ∃ h m l, sliceOf .h w = .fin h ∧ sliceOf .m w = .fin m ∧
      sliceOf .l w = .fin l ∧ Truncates d h ∧ Truncates (d.sub h) m ∧ Truncates ((d.sub h).sub m) l

/-- R249, R268, R277: MZERO writes 0 into all 128 x 128 words of its accumulator and makes every row live; a unit
of MEXPSH scales every word of its row by a power of two, and no other row changes. R264: the three statistics
that MSTAT takes of a row are its exact sum, sum of squares and largest magnitude, each rounded once to f32,
and NaN for a row that holds one; MSTAT writes them for each row r of its ROWS as 4-byte words at dst + 4r, dst + 512 + 4r
and dst + 1024 + 4r, and no other byte but those of rows that it makes live, which read zero. -/
def Obligations.ZeroShiftAndStatistics : Prop :=
  (∀ (r : BitVec 1) (a : BitVec 3) (c : Cmd) (v : AccRow) (s : State), Full (.acc r a) s →
     (∃ s', mzeroUnit r a c s = .ok c s' ∧ s'.mem = s.mem ∧
       (∀ i < 128, Table.find? (s'.my.acc r a).rows i = some 0#4096)) ∧
     (let i := (maskedRows c).getD c.cursor 0
      Table.find? (s.my.acc r a).rows i = some v →
       ∃ c' s', mexpshUnit r a c s = .ok c' s' ∧ s'.mem = s.mem ∧
         (∀ j ≠ i, Table.find? (s'.my.acc r a).rows j = Table.find? (s.my.acc r a).rows j) ∧
         ∃ v', Table.find? (s'.my.acc r a).rows i = some v' ∧ ∀ n < 128,
           accWord v' n = (shiftWord ((c.arg 2).extractLsb' 0 16).toInt (accWord v n)).1) ∧
     (let n := ((c.arg 1).extractLsb' 0 8).toNat
      let dst (k i : Nat) : BitVec 24 := ((c.arg 0).extractLsb' 0 24 &&& ~~~0x7F#24) + BitVec.ofNat 24 (512 * k + 4 * i)
      let spot (k i : Nat) : Nat := spadAddr s.cur.sp (dst k i)
      let stats (i : Nat) : W32 × W32 × W32 × BitVec 8 :=
        rowStats (statWords c ((Table.find? (s.my.acc r a).rows i).getD 0#4096))
      n ≤ 128 → s.mem.wf = true → (∀ i < n, (Table.find? (s.my.acc r a).rows i).isSome = true) →
      (∀ k < 3, ∀ i < n, Full (spadBankOf (dst k i)) s ∧ Table.find? s.errors (spot k i / 128) = none) →
      ∃ c' s', mstatUnit r a c s = .ok c' s' ∧ s'.my.arr.map (·.acc) = s.my.arr.map (·.acc) ∧
        (∀ i < n, s'.mem.nat (spot 0 i) 4 = (stats i).1.toNat ∧ s'.mem.nat (spot 1 i) 4 = (stats i).2.1.toNat ∧
          s'.mem.nat (spot 2 i) 4 = (stats i).2.2.1.toNat) ∧
        ∀ x, (∀ k < 3, ∀ i < n, x < spot k i ∨ spot k i + 4 ≤ x) →
          ((∃ k < 3, ∃ i < n, x / 128 = spot k i / 128 ∧ rowLive s.cur.sp (dst k i) s = false) → s'.mem.get x = 0#8) ∧
          ((∀ k < 3, ∀ i < n, x / 128 = spot k i / 128 → rowLive s.cur.sp (dst k i) s = true) → s'.mem.get x = s.mem.get x))) ∧
  (∀ (xs : List Ext),
     (xs.any Ext.isNan = true → rowStats xs = (nan32, nan32, nan32, fINV)) ∧
     (xs.any Ext.isNan = false →
       (rowStats xs).1 = BitVec.ofNat 32 (rneF32 (xs.foldl Ext.add Ext.zero)).bits ∧
       (rowStats xs).2.1 = BitVec.ofNat 32 (rneF32 (xs.foldl (fun t x => t.add (x.mul x)) Ext.zero)).bits ∧
       ∃ m, (rowStats xs).2.2.1 = BitVec.ofNat 32 (rneF32 m).bits ∧ (∀ x ∈ xs, m.lt x.abs = false) ∧
         (xs ≠ [] → ∃ x ∈ xs, x.abs.lt m = false)))

/-- R155, R157, R158, R165, R167, R171: a row that a copy command reads is the row at its address; a copy writes it whole at
its destination, and the overlap commands keep what stood there and read it again as it stood, with the DEAD or ECC that
it gave; a fill writes its value in every 8-byte unit; an index list and a generator give the far addresses, the
position of a generator an exact sum. R112: a row that has been asked of another device stands where it was asked.
What an overlap reads through a second mapping, and after a DEAD, is assumption 19. -/
def Obligations.RowsAreCopied : Prop :=
  ∀ (c : Cmd) (dst src : W64) (v old : Row) (ts td : Target) (iw : BitVec 1) (s s1 s2 : State),
    (∀ (wr : Bool) (q : Request) (left rest : List Request),
      let mine (x : Request) : Prop := x.who = some (unitOfCmd (threadId s s.cur.sp s.cr) .C c) ∧ x.va = src ∧ x.wr = wr
      s.fabric.requests = left ++ q :: rest → mine q → (∀ x ∈ left, ¬ mine x) → cmdTarget .C c wr src s = .ok (.phys q.pa) s) ∧
    (cmdTarget .C c false src s = .ok ts s1 → Served ts s1 →
      ∃ u, cmdRead .C c src s = .ok (s1.mem.row (home s1 ts / 128)) u ∧ u.mem = s1.mem ∧ (∀ sp r, u.reck sp r = s1.reck sp r)) ∧
    (cmdRead .C c src s = .ok v s1 → cmdTarget .C c true dst s1 = .ok td s2 → Writable td s2 → s2.mem.wf = true →
      (∃ u, moveRow c dst src s = .ok c u ∧ RowWritten td wholeRow v s2 u) ∧
      ((∀ t u, cmdTarget .C c false src s = .ok t u → Table.find? c.part.saved (home u t / 128) = none) →
        ∃ c' u, copyRow c dst src s = .ok c' u ∧ RowWritten td wholeRow v s2 u ∧ c'.cursor = c.cursor ∧
          (Table.find? c.part.saved (home s2 td / 128) = none →
            Table.find? c'.part.saved (home s2 td / 128) =
              some (if isDead td s2 then .dead else .row (s2.mem.row (home s2 td / 128)))))) ∧
    (cmdTarget .C c false src s = .ok ts s1 →
      (Table.find? c.part.saved (home s1 ts / 128) = some (.row old) → readBefore c src s = .ok old s1) ∧
      (Table.find? c.part.saved (home s1 ts / 128) = some .bad → ∃ f, readBefore c src s = .trap f s1 ∧ f.cause = 0x0B#8) ∧
      (Table.find? c.part.saved (home s1 ts / 128) = some .dead → c.deadAt ≠ some c.cursor →
        ∃ f, readBefore c src s = .trap f s1 ∧ f.cause = 0x04#8)) ∧
    (cmdTarget .C c true dst s = .ok td s1 → Writable td s1 → s1.mem.wf = true →
      ∃ u, cmdWrite .C c dst wholeRow (fillRow (c.arg 1)) s = .ok () u ∧ RowWritten td wholeRow (fillRow (c.arg 1)) s1 u ∧
        ∀ j < 16, (fillRow (c.arg 1)).extractLsb' (64 * j) 64 = c.arg 1) ∧
    (let n := if iw = 1#1 then 8 else 4
     let rows := ((c.arg 4).extractLsb' 32 16).toNat
     let a := c.arg 2 + BitVec.ofNat 64 (n * (c.cursor / rows))
     cmdRead .C c a s = .ok v s1 → c.cursor % rows = 0 → a.toNat % n = 0 →
      farIndex c iw s = .ok (c.arg 1 + BitVec.ofNat 64 (v.toNat / 256 ^ (a.toNat % 128) % 256 ^ n) * (c.arg 3 &&& ~~~0x7F#64)) s1) ∧
    farArena c =
      let j := (c.arg 2).toNat + c.cursor / ((c.arg 3).extractLsb' 32 16).toNat
      c.arena.base + c.arg 1 * c.arena.slot +
        BitVec.ofNat 64 (if c.arena.len = 0#32 then j else j % c.arena.len.toNat) * c.arena.pos

/-- R168 to R170: a unit of CTILE moves an image row between memory and its tile, scale words with [31:28] clear; CCB
loads its entries together at its end; CQLD appends a row to its vector queue while that has room. -/
def Obligations.TilesBooksAndQueues : Prop :=
  ∀ (c : Cmd) (t : BitVec 4) (b : BitVec 3) (q : BitVec 2) (z : BitVec 1) (v : Row) (td : Target) (s s1 : State),
    let u := c.cursor
    let a := c.arg 0 + 128#64 * BitVec.ofNat 64 u
    (cmdRead .C c a s = .ok v s1 → Full (.tile t) s1 →
      ∃ s2, tileUnit t 0#1 c s = .ok c s2 ∧ s2.mem = s1.mem ∧ (∀ i ∈ dataRowsIn c.tcfg u, (s2.my.tile t).isLive i = true) ∧
        ∀ j < 128,
          (128 * u + j < dataBytes c.tcfg → ((s2.my.tile t).row u).extractLsb' (8 * j) 8 = v.extractLsb' (8 * j) 8) ∧
          (cfgSc c.tcfg = true → dataRegion c.tcfg ≤ 128 * u + j → 128 * u + j < imageBytes c.tcfg →
            ((s2.my.tile t).row u).extractLsb' (8 * j) 8 =
              if j % 4 = 3 then v.extractLsb' (8 * j) 8 &&& 0x0F#8 else v.extractLsb' (8 * j) 8)) ∧
    ((∀ i ∈ rowsIn c.tcfg u, (s.my.tile t).isLive i = true) → Full (.tile t) s →
      (∀ x, useBank s.cur.sp (.tile t) s = .ok () x → cmdTarget .C c true a x = .ok td s1) → Writable td s1 → s1.mem.wf = true →
      ∃ s2, tileUnit t 1#1 c s = .ok c s2 ∧
        RowWritten td (imageMask c.tcfg u) (clearReserved c.tcfg u ((s.my.tile t).row u)) s1 s2) ∧
    (cmdRead .C c a s = .ok v s1 →
      let new := (List.range (if z = 1#1 then 64 else 16)).map (fun i => v.extractLsb' (16 * i) 16)
      ccbUnit z c s = .ok { c with part := { c.part with book := c.part.book ++ new } } s1) ∧
    (∃ s2, ccbClose b c s = .ok c s2 ∧ s2.my.book b = some c.part.book ∧ s2.mem = s.mem) ∧
    (cmdRead .C c a s = .ok v s1 → (s.me.vqueue q).length < 8 →
      cqldUnit q c s = .ok c (s1.mapMe (fun k => k.setVq q (k.vqueue q ++ [v])))) ∧
    (8 ≤ (s.me.vqueue q).length → cqldUnit q c s = .hold s)

/-- R33, R34, R172 to R176, R183: a unit of CDEC reads its 26 bytes at any byte address, the two rows of a straddling
block in two strides of either order; and decodes one block: the window of each weight through BEAD into its row of an
i8 tile of 128 scaled columns, the four scales beside it with both tags at the generation of the command.
That the two rows of a straddling block are read in two strides of either order is assumption 6, that its last byte, at
a + 25, names the address of the second row is assumption 43. -/
def Obligations.BlocksAreDecoded : Prop :=
  ∀ (c : Cmd) (t : BitVec 4) (b : Nat) (v v' : Row) (s s1 : State),
    let a := c.arg 0 + BitVec.ofNat 64 c.cursor * c.arg 1
    let o := a.toNat % 128
    let two : Prop := 128 < o + 26
    let bytes (lo hi : Row) : Nat := (hi.toNat * 2 ^ 1024 + lo.toNat) / 2 ^ (8 * o) % 2 ^ 208
    (¬ two → c.part.half = none → cmdRead .C c a s = .ok v s1 → readBlock c a s = .ok (bytes v 0#1024) s1) ∧
    (two → c.part.half = none → cmdRead .C c (if s.cur.stale then a + 25#64 else a) s = .ok v s1 →
      cdecUnit t c s = .ok { c with
        again := true
        part := { c.part with half := some (s.cur.stale, v) } } s1) ∧
    (c.part.half = some (false, v) → cmdRead .C c (a + 25#64) s = .ok v' s1 → readBlock c a s = .ok (bytes v v') s1) ∧
    (c.part.half = some (true, v) → cmdRead .C c a s = .ok v' s1 → readBlock c a s = .ok (bytes v' v) s1) ∧
    (readBlock c a s = .ok b s1 → (two → c.part.half.isSome = true) → Full (.tile t) s1 →
      cfgType c.tcfg = tI8 → cfgSc c.tcfg = true → cfgCols c.tcfg = 128 → cfgRows c.tcfg ≤ 128 →
      let i := ((c.arg 2).extractLsb' 0 8).toNat + c.cursor
      i < cfgRows c.tcfg →
      let g := match c.part.wgen with | some g => g | none => cfgWgen (s1.my.cfg t) + 1#4
      ∃ c' s2, cdecUnit t c s = .ok c' s2 ∧ s2.mem = s1.mem ∧ c'.part.wgen = some g ∧ c'.part.half = none ∧
        (s2.my.tile t).isLive i = true ∧
        (∀ k < 128, (BitVec.ofNat 8 ((s2.my.tile t).elem c.tcfg i k)).toInt = beadOf (windowOf b k)) ∧
        (∀ m < 4, (s2.my.tile t).scale c.tcfg i m = scaleWord g g (BitVec.ofNat 20 (b / 2 ^ (128 + 20 * m)))))

/-- R178: the encoder returns the stream of least error, and of equal ones the least in stream order: the one whose
first differing bit is 0. R172, R181: a unit of CENC reads its 128 targets and four scales and writes the 26 bytes of the
block, the stream then the scales, at dst + 26 j, and no other byte but those of rows that it makes live, which read zero;
its error is added, and the closing work leaves the rounded sum and n as RESULT.
That the last byte of a straddling block names the address of its second row is assumption 43; that a later block reads what
an earlier one has written is assumption 54. -/
def Obligations.EncoderIsBest : Prop :=
  (∀ (tgt : List (BitVec 16)) (scl : List (BitVec 20)) (b : Nat), b < 2 ^ 128 →
    let best := encodeBlock tgt scl
    best < 2 ^ 128 ∧ (blockErr tgt scl b).lt (blockErr tgt scl best) = false ∧
    ((blockErr tgt scl best).lt (blockErr tgt scl b) = false → b ≠ best →
      ∃ i < 128, best.testBit i = false ∧ b.testBit i = true ∧ ∀ j < i, best.testBit j = b.testBit j)) ∧
  (∀ (c : Cmd) (r0 r1 r2 : Row) (tg : Nat → Target) (s s1 s2 s3 : State),
    let j := c.cursor
    let a := c.arg 1 + BitVec.ofNat 64 (256 * j)
    let sa := c.arg 2 + BitVec.ofNat 64 (16 * j)
    let dst := c.arg 0 + BitVec.ofNat 64 (26 * j)
    let tgt := (List.range 128).map (fun i => (if i < 64 then r0 else r1).extractLsb' (16 * (i % 64)) 16)
    let scl := (List.range 4).map (fun m => (lane r2 (sa.toNat % 128 / 16 * 4 + m)).extractLsb' 0 20)
    let bits := encodeBlock tgt scl
    (cmdRead .C c a s = .ok r0 s1 → cmdRead .C c (a + 128#64) s1 = .ok r1 s2 → cmdRead .C c sa s2 = .ok r2 s3 →
      cmdTarget .C c true dst s3 = .ok (tg 0) s3 →
      (128 < dst.toNat % 128 + 26 → cmdTarget .C c true (dst + 25#64) s3 = .ok (tg 1) s3) → SpotsReady tg dst 26 s3 →
      ∃ c' u, cencUnit c s = .ok c' u ∧ c'.part.err = c.part.err.add (.fin (blockErr tgt scl bits)) ∧
        BytesStored tg dst 26 (bits + ((List.range 4).map (fun m => (scl.getD m 0#20).toNat * 2 ^ (128 + 20 * m))).sum) s3 u) ∧
    (∃ c' , cencClose c s = .ok c' s ∧ ResultHolds 24 4 (rneF32 c.part.err).bits c' ∧
      ResultHolds 28 4 ((c.arg 3).toNat % 2 ^ 32) c'))

/-- R250, R259 to R262, R273, R274: a unit of KLOAD loads a column, KPATCH replaces thresholds of one, KGAIN loads the
row affine, KHIST starts a history afresh, SMSCFG configures the soft-maximum stage, SMSRST clears the references
and bindings that its mask names. -/
def Obligations.LadderTablesLoad : Prop :=
  ∀ (r : BitVec 1) (slot : BitVec 2) (c : Cmd) (r0 : Row) (rows : List Row) (col : LadderCol) (new : List W32) (s s1 s2 : State),
    (let o := rowOff (c.arg 0) + BitVec.ofNat 24 c.part.off
     let h := lane r0 0
     let k := h.toNat % 16
     let t := (List.range (2 ^ k - 1)).map (fun i => lane (rows.getD ((i + 1) / 32) 0#1024) ((i + 1) % 32))
     let n := ((c.arg 1).extractLsb' 0 8).toNat + c.cursor
     readRows o 1 s = .ok [r0] s1 → h.toNat / 64 = 0 → 1 ≤ k → k ≤ 8 → readRows o ((4 * 2 ^ k + 127) / 128) s1 = .ok rows s2 →
      sortedOk (h.getLsbD 5) t = true →
      ∃ c' u, kloadUnit r slot c s = .ok c' u ∧ u.mem = s2.mem ∧ c'.part.off = c.part.off + (4 * 2 ^ k + 127) / 128 * 128 ∧
        Table.find? ((u.my.array r).slot slot) n = some ⟨k, h.getLsbD 4, h.getLsbD 5, t⟩ ∧
        ∀ m ≠ n, Table.find? ((u.my.array r).slot slot) m = Table.find? ((s2.my.array r).slot slot) m) ∧
    (let n := ((c.arg 1).extractLsb' 0 7).toNat
     let j := ((c.arg 1).extractLsb' 8 8).toNat
     let m := ((c.arg 1).extractLsb' 16 8).toNat
     Table.find? ((s.my.array r).slot slot) n = some col → j + m ≤ 2 ^ col.k - 1 → readWords (c.arg 0) m s = .ok new s1 → 0 < m →
      sortedOk col.isF32 (col.t.take j ++ new ++ col.t.drop (j + m)) = true →
      ∃ u, kpatchUnit r slot c s = .ok c u ∧ u.mem = s1.mem ∧ Table.find? ((u.my.array r).slot slot) n =
        some { col with t := col.t.take j ++ new ++ col.t.drop (j + m) }) ∧
    (readRows (rowOff (c.arg 0)) 8 s = .ok rows s1 →
      ∃ u, kgainUnit r c s = .ok c u ∧ u.mem = s1.mem ∧ ∃ l, (u.my.array r).affine = some l ∧ ∀ i < 128,
        l[i]? = some (lane (rows.getD (i / 32) 0#1024) (i % 32), lane (rows.getD (4 + i / 32) 0#1024) (i % 32))) ∧
    (∃ u, khistUnit r c s = .ok c u ∧ u.mem = s.mem ∧ (u.my.array r).history ((c.arg 0).extractLsb' 0 4) =
      ⟨((c.arg 0).extractLsb' 8 4).toNat, (c.arg 1).extractLsb' 0 32, (c.arg 1).extractLsb' 32 32, [], 0⟩) ∧
    (∃ u, smscfgUnit slot c s = .ok c u ∧ u.mem = s.mem ∧ u.my.sms.rho = s.my.sms.rho ∧ u.my.sms.cfg =
      ⟨true, (c.arg 0).extractLsb' 0 32, slot, (c.arg 1).extractLsb' 0 3, (c.arg 1).getLsbD 3⟩) ∧
    (∃ u, smsrstUnit c s = .ok c u ∧ u.mem = s.mem ∧ u.my.sms.cfg = s.my.sms.cfg ∧ ∀ i < 128,
      let hit := (c.arg 1 ++ c.arg 0 : BitVec 128).getLsbD i
      Table.find? u.my.sms.rho i = (if hit then none else Table.find? s.my.sms.rho i) ∧
      Table.find? u.my.sms.bind i = (if hit then none else Table.find? s.my.sms.bind i))

/-- R251, R252, R263: a unit of KOUT reads a live accumulator row and drives out the code of each of its words, into
its row of the tile; or one byte a code, or two codes a byte, into scratchpad. R240, R256: a row that a Girder command
is writing is read as free words.
The free words are assumption 7. -/
def Obligations.CodesAreDrivenOut : Prop :=
  ∀ (f : KoutForm) (g : BitVec 4) (c : Cmd) (v : AccRow) (s : State),
    (beingWritten s.my f.arr f.acc c.cursor = true → accRead f.arr f.acc c.cursor s =
      .ok (packAcc (Config.racyWord (s.my.acc f.arr f.acc).rows s.free)) { s with free := s.free + 1 }) ∧
    (beingWritten s.my f.arr f.acc c.cursor = false → Table.find? (s.my.acc f.arr f.acc).rows c.cursor = some v →
      koMode c = 0#2 → Full (.acc f.arr f.acc) s →
      let n := f.cols c
      let code (j : Nat) : Nat := match Table.find? c.part.cols j with
        | some col => codeBy col (koutScope f c v c.cursor) (accWord v j)
        | none => 0
      (f.tile = some g → Full (.tile g) s → usesBook c.tcfg = true → c.cursor < cfgRows c.tcfg → cfgRows c.tcfg ≤ 128 →
        cfgCols c.tcfg ≤ 128 → cfgSc c.tcfg = false →
        ∃ c' s', koutUnit f c s = .ok c' s' ∧ s'.mem = s.mem ∧ (s'.my.tile g).isLive c.cursor = true ∧
          ∀ j < n, (s'.my.tile g).elem c.tcfg c.cursor j = code j % 2 ^ elemBits c.tcfg) ∧
      (f.tile = none → n ≤ 128 → s.mem.wf = true →
        let o := rowOff (c.arg 1) + BitVec.ofNat 24 (128 * c.cursor)
        let a := spadAddr s.cur.sp o / 128 * 128
        let old (j : Nat) : BitVec 8 := if rowLive s.cur.sp o s then s.mem.get (a + j) else 0#8
        Full (spadBankOf o) s → Table.find? s.errors (a / 128) = none →
        (koW4 c = false → (∀ j < n, code j < 256) →
          ∃ c' s', koutUnit f c s = .ok c' s' ∧ rowLive s.cur.sp o s' = true ∧
            ∀ j < 128, s'.mem.get (a + j) = if j < n then BitVec.ofNat 8 (code j) else old j) ∧
        (koW4 c = true →
          ∃ c' s', koutUnit f c s = .ok c' s' ∧ rowLive s.cur.sp o s' = true ∧
            ∀ j < 128, s'.mem.get (a + j) =
              if 2 * j + 1 < n then BitVec.ofNat 8 (code (2 * j) % 16 + 16 * (code (2 * j + 1) % 16))
              else if 2 * j < n then BitVec.ofNat 8 (code (2 * j) % 16 + 16 * ((old j).toNat / 16))
              else old j)))

/-- R267, R269, R275: a MATTN does not touch a row outside its mask; for a row inside, the reference becomes the larger of
its own and the binade of the largest admitted score, bound to the accumulator, unless no key is admitted or a
score is NaN. Its accumulator row, zero at first with Z, is shifted down by the rise of a reference that it had; then each
column of OUT has added, block by block of keys, the codebook's value of each key's code times the key's value, or times 1
in the column of ones, a key of code 0 adding nothing. The row is live, and no other row, reference or binding changes. -/
def Obligations.AttentionRows : Prop :=
  ∀ (a : BitVec 3) (t : BitVec 4) (z : BitVec 1) (c : Cmd) (s : State), Powered c 0#1 s → Powered c 1#1 s →
    let i := c.cursor
    let s0 := touchArray c 1#1 (touchArray c 0#1 s)
    let act := activeKeys c s
    let score (n : Nat) : Ext := f32 (scoreOf (s.my.tile t) c.tcfg ((s.my.book (cfgCb c.tcfg)).getD []) (heldSet c 0#1 s).ws i n).1
    let scored : Bool := !act.isEmpty && !act.any (fun n => (score n).isNan)
    let rho := (Table.find? s.my.sms.rho i).getD (-32768)
    let new := max rho (binade (maxScore (act.map score)) c.part.sms.lam).1
    let code (n : Nat) : Nat := if scored && act.contains n then
      ((smsColumn c).t.filter (fun x => ((f32 x).add ((Ext.fin (Dy.ofInt new)).mul (f32 c.part.sms.lam))).lt (score n))).length else 0
    let ws1 := (heldSet c 1#1 s).ws
    let ones (j : Nat) : Bool := c.part.sms.ones && j == 127
    let before (j : Nat) : W32 :=
      let w := if z = 1#1 then 0#32 else accWord ((Table.find? (s.my.acc 1#1 a).rows i).getD 0#4096) j
      if scored && rho != -32768 && decide (rho < new) then (shiftWord (rho - new) w).1 else w
    let after (j : Nat) : W32 := (List.range ((ws1.k + 31) / 32)).foldl (fun acc b =>
      (addBlock acc (contrib (blockSum ws1.k b (fun n => if code n = 0 then Ext.zero
        else (bf16 (c.part.book.getD (code n) 0#16)).mul (if ones j then Ext.one else (ws1.col j).w.getD n Ext.zero)))
        scaleOne (if ones j then scaleOne else colScale ws1 j b))).1) (before j)
    ((c.arg 1 ++ c.arg 0 : BitVec 128).getLsbD i = false → mattnUnit a t z c s = .ok c s0) ∧
    ((c.arg 1 ++ c.arg 0 : BitVec 128).getLsbD i = true → mattnRowChecks a t z i c s0 = .ok () s0 → Full (.tile t) s →
      Full (.acc 1#1 a) s →
      ∃ c' s', mattnUnit a t z c s = .ok c' s' ∧ s'.mem = s.mem ∧
        (∃ v, Table.find? (s'.my.acc 1#1 a).rows i = some v ∧ ∀ j < 128,
          accWord v j = if colIn c 1#1 ws1.w j || ones j then after j else before j) ∧
        (∀ j ≠ i, Table.find? (s'.my.acc 1#1 a).rows j = Table.find? (s.my.acc 1#1 a).rows j ∧
          Table.find? s'.my.sms.rho j = Table.find? s.my.sms.rho j ∧ Table.find? s'.my.sms.bind j = Table.find? s.my.sms.bind j) ∧
        (scored = false → s'.my.sms = s.my.sms) ∧
        (scored = true → Table.find? s'.my.sms.bind i = some a ∧ Table.find? s'.my.sms.rho i = some new))

/-- R284, R287 to R290: a unit of QSCAN counts a qualifying element, and lists it while the list has room; a unit of
QTOPK keeps the list ranked and within K, an element or, with PAIRS, an entry of a list, where an empty slot is passed over;
a unit of QRED adds its weighted vector to the sums. After its last unit a command writes its result and nothing else but
zeros into rows that it makes live: QSCAN the values and indices, or the indices, that it lists; QTOPK its K entries, empty
slots last; QRED its sums, each rounded or saturated once; and leaves its RESULT bytes.
In `c1` and `c2` a command keeps the rows that it has read (R283). -/
def Obligations.PierUnits : Prop :=
  ∀ (c c1 c2 : Cmd) (e : BitVec 2) (m : BitVec 3) (asc p g ix : BitVec 1) (w j : W32) (idx v : Nat) (wt : Ext) (xs : List Nat)
    (tg : Nat → Target) (s s1 s2 s3 : State),
    let x := elemExt e w
    let a := elemExt e ((c.arg 2).extractLsb' 0 32)
    let b := elemExt e ((c.arg 2).extractLsb' 32 32)
    let number := BitVec.ofNat 32 (((c.arg 1).extractLsb' 32 32).toNat + c.cursor)
    let qual : Prop := (m = 0#3 ∧ a.lt x = true) ∨ (m = 1#3 ∧ (a.lt x || a.eq x) = true) ∨ (m = 2#3 ∧ x.lt a = true) ∨
      (m = 3#3 ∧ (x.lt a || x.eq a) = true) ∨ (m = 4#3 ∧ x.eq a = true) ∨ (m = 5#3 ∧ x.eq a = false) ∨
      (m = 6#3 ∧ (a.lt x || a.eq x) = true ∧ (x.lt b || x.eq b) = true)
    let sorted (l : List (W32 × W32)) : Prop := l.Pairwise (fun p q => ranksFirst e (asc == 1#1) q p = false)
    (readElem c e (c.arg 0) c.cursor s = .ok (c1, w) s1 → m ≠ 7#3 →
      ∃ c', qscanUnit e m c s = .ok c' s1 ∧
        (x.isNan = true ∨ a.isNan = true ∨ (m = 6#3 ∧ b.isNan = true) → c' = { c1 with flags := c.flags ||| 0x01#8 }) ∧
        (x.isNan = false → a.isNan = false → (m = 6#3 → b.isNan = false) →
          (¬ qual → c' = c1) ∧
          (qual → c'.part.total = c.part.total + 1 ∧
            c'.part.list = if c.part.list.length < (c.arg 4).toNat then c.part.list ++ [(w, number)] else c.part.list))) ∧
    ((p = 0#1 ∧ readElem c e (c.arg 0) c.cursor s = .ok (c1, w) s1 ∧ j = number) ∨
     (p = 1#1 ∧ pierElem c (alignDown (c.arg 0) 8 + BitVec.ofNat 64 (8 * c.cursor)) 8 s = .ok (c1, v) s1 ∧
       w = BitVec.ofNat 32 v ∧ j = BitVec.ofNat 32 (v / 2 ^ 32)) →
      (p = 1#1 → j = 0xFFFFFFFF#32 → qtopkUnit e p asc c s = .ok c1 s1) ∧
      ((p = 1#1 → j ≠ 0xFFFFFFFF#32) → x.isNan = true →
        qtopkUnit e p asc c s = .ok { c1 with flags := c.flags ||| 0x01#8 } s1) ∧
      ((p = 1#1 → j ≠ 0xFFFFFFFF#32) → x.isNan = false → (∀ q ∈ c.part.list, (elemExt e q.1).isNan = false) → sorted c.part.list →
        ∃ c', qtopkUnit e p asc c s = .ok c' s1 ∧ c'.part.list.length = min (c.arg 3).toNat (c.part.list.length + 1) ∧
          sorted c'.part.list ∧ ∃ rest, List.Perm (c'.part.list ++ rest) ((w, j) :: c.part.list) ∧
            ∀ q ∈ c'.part.list, ∀ r ∈ rest, ranksFirst e (asc == 1#1) r q = false)) ∧
    (let n := if ix = 1#1 then 8 else 4
     pierElem c (alignDown (c.arg 2) n + BitVec.ofNat 64 (n * c.cursor)) n s = .ok (c1, idx) s1 →
      ((g = 0#1 ∧ c2 = c1 ∧ s2 = s1 ∧ wt = Ext.one) ∨
       (g = 1#1 ∧ pierElem c1 (alignDown (c.arg 4) 4 + BitVec.ofNat 64 (4 * c.cursor)) 4 s1 = .ok (c2, v) s2 ∧
         wt = f32 (BitVec.ofNat 32 v))) →
      ∀ c3, pierVector c2 (alignDown (c.arg 0 + BitVec.ofNat 64 idx * c.arg 1) (elemSize e)) (elemSize e) (redCount c) s2 =
        .ok (c3, xs) s3 → (c.part.sums = [] ∨ c.part.sums.length = redCount c) →
      ∃ c', qredUnit e g ix c s = .ok c' s3 ∧ c'.part.sums.length = redCount c ∧ ∀ i < redCount c,
        c'.part.sums.getD i Ext.zero = (c.part.sums.getD i Ext.zero).add (wt.mul (elemExt e (elemWord e (xs.getD i 0))))) ∧
    (let l := c.part.list
     let k := (c.arg 3).toNat
     let full := l ++ List.replicate (k - l.length) (0#32, 0xFFFFFFFF#32)
     let sums := (List.range (redCount c)).map (fun i =>
       let t := c.part.sums.getD i Ext.zero
       if e = 2#2 then (satI32 (extInt t)).1 else BitVec.ofNat 32 (rneF32 t).bits)
     let open' (dst : W64) (n : Nat) : Prop := SpotsReady tg dst n s ∧ ∀ i < (dst.toNat % 128 + n + 127) / 128,
       pierTarget c true (dst - BitVec.ofNat 64 (dst.toNat % 128) + 128#64 * BitVec.ofNat 64 i) s = .ok (tg i) s
     let flat (l : List (W32 × W32)) : Nat := wordsNat (l.flatMap (fun q => [q.1, q.2]))
     (let dst := alignDown (c.arg 3) 8
      let n := (if ix = 1#1 then 4 else 8) * l.length
      open' dst n → ∃ c' u, qscanClose ix c s = .ok c' u ∧
        BytesStored tg dst n (if ix = 1#1 then wordsNat (l.map (·.2)) else flat l) s u ∧
        ResultHolds 24 8 c.part.total c' ∧ ResultHolds 32 4 l.length c') ∧
     (let dst := alignDown (c.arg 2) 8
      let last := l.getLast?.getD (0#32, 0xFFFFFFFF#32)
      l.length ≤ k → open' dst (8 * k) → ∃ c' u, qtopkClose c s = .ok c' u ∧ BytesStored tg dst (8 * k) (flat full) s u ∧
        ResultHolds 24 4 l.length c' ∧ ResultHolds 28 4 last.1.toNat c' ∧ ResultHolds 32 4 last.2.toNat c') ∧
     (let dst := alignDown (c.arg (if g = 1#1 then 5 else 4)) 4
      (c.part.sums = [] ∨ c.part.sums.length = redCount c) → open' dst (4 * redCount c) →
        ∃ c' u, qredClose e g c s = .ok c' u ∧ BytesStored tg dst (4 * redCount c) (wordsNat sums) s u ∧
          ResultHolds 24 4 ((c.arg 3).toNat % 2 ^ 32) c' ∧ ResultHolds 28 4 (redCount c) c'))

/-- R288, the order of candidates. -/
def Obligations.CandidatesAreRanked : Prop :=
  ∀ (e : BitVec 2) (x y i j : W32),
    (e ≠ 2#2 → (f32 x).isNan = false → (f32 y).isNan = false →
      (valueLt e x y = true ↔ rankOf x < rankOf y ∨ (rankOf x = rankOf y ∧ (f32 x).lt (f32 y) = true))) ∧
    (valueLt 2#2 x y = true ↔ x.toInt < y.toInt) ∧
    (ranksFirst e false (x, i) (y, j) = true ↔
      valueLt e y x = true ∨ (valueLt e x y = false ∧ valueLt e y x = false ∧ i.toNat < j.toNat)) ∧
    (ranksFirst e true (x, i) (y, j) = true ↔
      valueLt e x y = true ∨ (valueLt e x y = false ∧ valueLt e y x = false ∧ i.toNat < j.toNat)) ∧
    ∀ (asc : Bool) (l : List (W32 × W32)), (∀ p ∈ l, p = (x, i)) → insertRanked e asc (x, i) l = l ++ [(x, i)]

/-- R54, R57 to R59, R163: the row of a finished command takes its update: the count one higher, the flags gathered, the
stream's sequence number, its engine and Reckoner, the RESULT bytes, the others kept; its reply is pushed with it, and
it leaves its engine. A dead row raises DEAD with the reply already pushed, once.
That completion is a step of its own is assumption 6. -/
def Obligations.CompletionRowsCount : Prop :=
  ∀ (sp : BitVec 7) (r : BitVec 2) (e : Stream) (c : Cmd) (s : State), (e = .M ∨ e = .K ∨ e = .C ∨ e = .Q) →
    ((s.reck sp r).str e).active = some c → c.stage = .finished → (c.rp = true → (s.reck sp r).q[5].length < 16) →
    let off : BitVec 24 := BitVec.ofNat 24 c.row
    let a := spadAddr sp off / 128 * 128
    (∀ f ∈ (s.reck sp r).faults, ofCmd e c f = false) →
    (rowLive sp off s = false → (s.reck sp r).frozen = none → (s.reck sp r).stop = none →
      ∃ f u, f.cause = 0x04#8 ∧ f.stream = e ∧ exec (.completionRowUpdate sp r (streamCode e)) s = .next (raiseTrap sp r f u) ∧
        u.mem = s.mem ∧ (u.reck sp r).q[5] = (s.reck sp r).q[5] ++ (if c.rp then [replyOf e c] else []) ∧
        ((u.reck sp r).str e).active = some { c with rp := false }) ∧
    (rowLive sp off s = true → ((s.span sp).dueBank (spadBankOf off)).st = .full → Table.find? s.errors (a / 128) = none →
    s.mem.wf = true → (∀ x ∈ c.result, 24 ≤ x.1 ∧ x.1 < 128) → (c.result.map (·.1)).Nodup →
    ∃ t, exec (.completionRowUpdate sp r (streamCode e)) s = .next t ∧
      t.mem.w64 a = s.mem.w64 a + 1#64 ∧ t.mem.get (a + 8) = s.mem.get (a + 8) ||| c.flags ∧
      BitVec.ofNat 32 (t.mem.nat (a + 16) 4) = c.work.seq ∧ t.mem.get (a + 20) = (streamCode e).zeroExtend 8 ∧
      t.mem.get (a + 21) = r.zeroExtend 8 ∧
      (∀ j, 24 ≤ j → j < 128 → t.mem.get (a + j) = (Table.find? c.result j).getD (s.mem.get (a + j))) ∧
      (∀ x, x < a ∨ a + 128 ≤ x → t.mem.get x = s.mem.get x) ∧
      ((t.reck sp r).str e).active = none ∧
      (t.reck sp r).q[5] = (s.reck sp r).q[5] ++ (if c.rp then [replyOf e c] else []))

/-- R340, R343 to R347: a fault is taken as a trap when the record queue has room: the thread freezes and its record is
queued, at once, or at the end of its clock with the others of the thread, or at the edge of a debug stop that the thread
has met (R370); an ordinary fault that finds the queue full
stays pending, its stream stands and its counter with it; a second fatal one quarantines the Span.
Whether a fault waits for the end of its clock is a choice of the agenda (assumption 3). -/
def Obligations.TrapsFreezeTheThread : Prop :=
  ∀ (sp : BitVec 7) (r : BitVec 2) (t : TrapInfo) (s : State),
    ((s.reck sp r).faults = [] → (s.reck sp r).frozen = none → s.defer = false → (s.reck sp r).stopMet = false → RecordRoom sp r t s →
      Trapped sp r t s (raiseTrap sp r t s)) ∧
    ((s.defer = true ∨ (s.reck sp r).stopMet = true) → raiseTrap sp r t s = s.mapReck sp r (fun k => { k with faults := k.faults ++ [t] })) ∧
    ((s.reck sp r).faults = [t] → clocked (s.reck sp r) = true → (s.reck sp r).stopMet = false → RecordRoom sp r t s →
      ∃ u, exec (.trapFreeze sp r) s = .next u ∧ Trapped sp r t s u) ∧
    ((s.reck sp r).faults = [] → fatalFor s sp r t = false → 15 ≤ (s.span sp).rowsOrd.length →
      let u := raiseTrap sp r t s
      (u.reck sp r).frozen = (s.reck sp r).frozen ∧ (u.reck sp r).faults = [t] ∧ (u.span sp).rowsOrd = (s.span sp).rowsOrd ∧
      u.mem = s.mem ∧
      (t.spl = false → t.fetch = false → mayAct u sp r t.stream = false ∧ stalled t.stream (u.reck sp r) = true) ∧
      (t.spl = true ∨ t.fetch = true → maySteer u sp r = false)) ∧
    ((s.reck sp r).faults = [] → (s.reck sp r).frozen = none → s.defer = false → (s.reck sp r).stopMet = false → fatalFor s sp r t = true →
      (s.span sp).rowFatal.isSome = true → ((raiseTrap sp r t s).span sp).tender.quar = true)

/-- R44 to R47, R112, R145: the splitter appends a unit that passes its checks to its stream, with the next sequence number
and the rotation base, and fetch goes on behind it; a prefix word is gathered; either is the word of its clock, on which no
other is taken; a full queue, or signals the S stream owes, holds it; a unit that
fails a check traps at the splitter with the number it would have taken. -/
def Obligations.TheSplitterSteers : Prop :=
  ∀ (sp : BitVec 7) (r : BitVec 2) (w : W32) (i : Instr) (c : BitVec 8) (s s1 : State),
    let k := s.reck sp r
    let a := k.pc + BitVec.ofNat 52 (4 * k.pend.length)
    let e := streamOfCode (BitVec.ofNat 3 (w.toNat / 2 ^ 29))
    (k.steered = true → exec (.splitterSteer sp r) s = .next s) ∧ ((tickReck k).steered = false) ∧
    (maySteer s sp r = true → fetchWord sp (s.span sp).xroot a s = .ok w s1 →
    (w.toNat / 2 ^ 29 = 7 → k.pend.length < 2 → decode w = .ok i → s1.reck sp r = k →
      ∃ t, exec (.splitterSteer sp r) s = .next t ∧ t.mem = s1.mem ∧ (t.reck sp r).pend = k.pend ++ [encode i] ∧ (t.reck sp r).pc = k.pc ∧
        (t.reck sp r).steered = true) ∧
    (¬ (w.toNat / 2 ^ 29 = 7 ∧ k.pend.length < 2) → unitCheck false k.pend w = .ok i →
      (Config.queueDepth (sidx e).val ≤ ((s1.reck sp r).str e).queue.length ∨ (e = .S ∧ ((s1.reck sp r).str .S).sig.isSome = true) →
        exec (.splitterSteer sp r) s = .next s1) ∧
      (((s1.reck sp r).str e).queue.length < Config.queueDepth (sidx e).val → (e = .S → ((s1.reck sp r).str .S).sig = none) →
        s1.reck sp r = k →
        ∃ t, exec (.splitterSteer sp r) s = .next t ∧ t.mem = s1.mem ∧ (t.reck sp r).pend = [] ∧ (t.reck sp r).pc = a + 4#52 ∧
          (t.reck sp r).steered = true ∧ ∃ u, ((t.reck sp r).str e).queue = (k.str e).queue ++ [u] ∧ u.instr = i ∧ u.seq = (k.str e).seq + 1#32 ∧ u.pc = a ∧
            u.first = k.pc ∧ u.base = k.rrb ∧ ((t.reck sp r).str e).seq = u.seq)) ∧
    (¬ (w.toNat / 2 ^ 29 = 7 ∧ k.pend.length < 2) → unitCheck false k.pend w = .error c → s1.reck sp r = k → w.toNat / 2 ^ 29 < 6 →
      exec (.splitterSteer sp r) s = .next (raiseTrap sp r
        { trapInfo e (bareUnit k) 0 (flt c) with
          code := BitVec.ofNat 3 (w.toNat / 2 ^ 29), pc := k.pc, seq := (k.str e).seq + 1#32, spl := true } s1)))

/-- R114 to R116: a walk that resolves to a leaf that some access may use fills the cache of every Span that joined it
with its leaf; a walk that does not, or finds a leaf on which every access of a thread faults, records nothing; either
resolves the requests that waited for it. R118, R119: XINVC.GO,
once the device has started, takes the affected entries out of every translation cache, and with IC = 1 the affected lines
out of every instruction cache, puts a marker behind every copy and Pier queue, and waits for every store, window atomic and
access to another device that is on its way under an affected translation; when no command stands ahead of a marker and
those have been performed, of the saved contexts too, BUSY clears.
Markers as counts, what an ignored GO writes, and that N counts in MODE 0 alone, are assumption 25, walks as steps are assumption 5, the instruction cache is assumption 44. -/
def Obligations.TranslationsAreCached : Prop :=
  (∀ (sp : BitVec 7) (w : Walk) (lvl : Nat) (e : W64) (s : State), s.walks = [w] → s.errors = [] →
     w.spans.any (fun n => n.toNat / 32 == sp.toNat / 32) = true →
     let va : BitVec 52 := BitVec.ofNat 52 (w.page * 0x10000)
     let bad := leafCheck s ⟨false, false, true, true, false, none, 0#2, false⟩ e (frameAddr e (pageSize lvl) va)
     let resolved (t : State) : Prop := ∀ n ∈ w.spans, (s.span n).xroot.extractLsb' 52 12 = w.root.extractLsb' 52 12 →
       ∀ r, ∀ b ∈ (t.reck n r).buffer, b.addr.toNat % 2 ^ 52 / 2 ^ 16 = w.page → b.missed = false
     ((∃ n f x, walk s w.root va = .bad n f x) ∨ (walk s w.root va = .leaf lvl e ∧ bad.isSome = true) →
       ∃ t, exec (.walkComplete sp 0) s = .next t ∧ t.walks = [] ∧ t.mem = s.mem ∧ (∀ n, (t.span n).tlb = (s.span n).tlb) ∧
         (∀ n, n ∉ w.spans → t.span n = s.span n) ∧ resolved t) ∧
     (walk s w.root va = .leaf lvl e → bad = none →
       ∃ t, exec (.walkComplete sp 0) s = .next t ∧ t.walks = [] ∧ t.mem = s.mem ∧
         (∀ n, n ∉ w.spans → t.span n = s.span n) ∧ resolved t ∧ ∀ n ∈ w.spans,
         ∃ x ∈ (t.span n).tlb, x.asid = w.root.extractLsb' 52 12 ∧ x.leaf = e ∧ x.base ≤ va.toNat ∧ va.toNat < x.base + x.size)) ∧
  (∀ (v : W64) (s : State), 2 ≤ s.boot →
     let ctl := v &&& 0x0000FFFEFFFFFFFF#64
     let hit (p : Page) : Bool := affects s.inval.va ctl p
     let sent (k : Reckoner) : Reckoner :=
       { k with posted := k.posted.map (fun p => { p with stale := p.stale || hit p.page })
                windows := k.windows.map (fun u => { u with stale := u.stale || u.page.any hit }) }
     (∀ p : Page, hit p = true ↔
       (v.extractLsb' 34 2 = 0#2 ∧ p.asid = v.extractLsb' 36 12 ∧ p.base < s.inval.va.toNat + (v.extractLsb' 0 32).toNat * 0x10000 ∧
         s.inval.va.toNat < p.base + p.size) ∨
       (v.extractLsb' 34 2 = 1#2 ∧ p.asid = v.extractLsb' 36 12) ∨ 2 ≤ (v.extractLsb' 34 2).toNat) ∧
     (v.getLsbD 63 = false → exec (.xinvcGo v) s = .next { s with inval := { s.inval with ctl := ctl } }) ∧
     (v.getLsbD 63 = true → (s.inval.busy = true ∨ v.extractLsb' 34 2 = 3#2) →
       exec (.xinvcGo v) s = .next { s with inval := { s.inval with ctl := ctl, err := true } }) ∧
     (v.getLsbD 63 = true → s.inval.busy = false → v.extractLsb' 34 2 ≠ 3#2 →
       (v.extractLsb' 34 2 = 0#2 → v.extractLsb' 0 32 = 0#32 →
         exec (.xinvcGo v) s = .next { s with inval := { s.inval with ctl := ctl } }) ∧
       ((v.extractLsb' 34 2 = 0#2 → v.extractLsb' 0 32 ≠ 0#32) →
       ∃ t, exec (.xinvcGo v) s = .next t ∧ t.mem = s.mem ∧ t.inval.busy = true ∧ t.inval.ctl = ctl ∧
         (∀ sp, (t.span sp).tlb = (s.span sp).tlb.filter (fun e => !hit e.page) ∧
           (t.span sp).icache = (if v.getLsbD 33 then (s.span sp).icache.filter (fun l => !hit l.page) else (s.span sp).icache) ∧
           ∀ r, (∀ e : Stream, e = .C ∨ e = .Q → ((t.reck sp r).str e).ahead =
               ((s.reck sp r).str e).queue.length + (if ((s.reck sp r).str e).active.isSome then 1 else 0)) ∧
             (t.reck sp r).posted = (sent (s.reck sp r)).posted ∧ (t.reck sp r).windows = (sent (s.reck sp r)).windows) ∧
         t.nodes = s.nodes.map (fun n => { n with saved := n.saved.map (fun e => (e.1, { e.2 with recks := e.2.recks.map sent })) }) ∧
         t.fabric.updates = s.fabric.updates.map (fun u => { u with stale := u.stale || u.page.any hit }) ∧
         t.fabric.requests = s.fabric.requests.map (fun q => { q with stale := q.stale || q.page.any hit })))) ∧
  ∀ s : State,
     (s.inval.busy = true →
       (∀ sp r, let k := s.reck sp r
         (k.str .C).ahead = 0 ∧ (k.str .Q).ahead = 0 ∧ (∀ p ∈ k.posted, p.stale = false) ∧ ∀ u ∈ k.windows, u.stale = false) →
       (∀ n ∈ s.nodes, ∀ x ∈ n.saved, ∀ r, (∀ p ∈ (x.2.reck r).posted, p.stale = false) ∧ ∀ u ∈ (x.2.reck r).windows, u.stale = false) →
       (∀ u ∈ s.fabric.updates, u.stale = false) → (∀ q ∈ s.fabric.requests, q.stale = true → q.answer.isSome = true) →
       ∃ t, exec .invalidationComplete s = .next t ∧ t.mem = s.mem ∧ t.inval.busy = false ∧ ∀ sp, (t.span sp).staleTlb = [] ∧
         (t.span sp).tlb = (s.span sp).tlb) ∧
     (s.inval.busy = true → (∃ sp r, 0 < ((s.reck sp r).str .C).ahead ∨ 0 < ((s.reck sp r).str .Q).ahead ∨
         ∃ p ∈ (s.reck sp r).posted, p.stale = true) → exec .invalidationComplete s = .next s) ∧
     (s.inval.busy = true → (∃ k : Fin 16, s.fabric.link[k].state = 2#2) → (∃ q ∈ s.fabric.requests, q.stale = true ∧ q.answer = none) →
       exec .invalidationComplete s = .next s)

/-- R193, CAPW and the wakes of its latencies, the same from RETAIN and from OFF. R195: an access finds a bank whose
idle time has been reached in RETAIN, or OFF, already, and starts its wake.
That a bank past a newly lowered BRET or BOFF has moved on the first clock of the new value is assumption 47. -/
def Obligations.WakeLatencies : Prop :=
  ∀ (sp : BitVec 7) (n : BankName) (s : State),
    (readCsr 0x001#12 s).extractLsb' 48 16 = 96#16 ∧ (readCsr 0x001#12 s).extractLsb' 32 16 = 200#16 ∧
    (readCsr 0x001#12 s).extractLsb' 16 16 = 40#16 ∧ (readCsr 0x001#12 s).extractLsb' 0 16 = 12#16 ∧
    (let lat : Nat := match n with
      | .spad _ => 200
      | .tile _ => 40
      | .acc _ _ => 40
      | .vbank _ _ => 12
     let x := s.span sp
     let b := x.dueBank n
     (b.st = .retain ∨ b.st = .off → b.wake = none →
      useBank sp n s = .hold (s.setSpan sp (x.setBank n { b with wake := some (x.clock + lat) }))) ∧
     ((x.bank n).st = .full → (x.bank n).wake = none → x.bankLive n = true → bankIdle x n = true → 0 < bankBret x n →
      (x.bank n).used + bankBret x n < x.clock → b.st = .retain) ∧
     ((x.bank n).st ≠ .off → (x.bank n).wake = none → x.bankLive n = false → bankIdle x n = true → 0 < bankBoff x n →
      (x.bank n).used + bankBoff x n < x.clock → (x.bank n).died + bankBoff x n < x.clock → b.st = .off)) ∧
    ∀ (b : Band) (clock : Nat), b.gated = true → b.wake = none → wakeBand clock b = { b with wake := some (clock + 96) }

/-- R56, R151, R317 to R321: a drained thread with no argument left retires and leaves its lease, its node still
resident; arguments left raise QPROTO, at the address of its EXIT. R315, R317 to R319, R382: the barrier of a Span, of the
node's part of a die, of a node, or of a fabric group, whose members here have all arrived, lets their SYNCs complete, and
those of no other node; from the package level up the window atomics sent before are at their homes first; at the fabric
level this device then arrives, and the barrier completes once every other device of the group's mask has, with the masks
and registrations as then written in force. With a member missing nobody is let go.
That the barrier completes in steps of its members is assumption 21, that a retire waits for posted stores, window
atomics and owed signals too is assumption 53. -/
def Obligations.ThreadsRetireAndMeet : Prop :=
  ∀ (sp : BitVec 7) (r : BitVec 2) (n : Node) (s : State),
    let k := s.reck sp r
    (OnTheWay (threadId s sp r) s → exec (.threadRetire sp r) s = .next s) ∧
    (k.run = .draining → clocked k = true → stopDue k = false → spent k = true → ¬ OnTheWay (threadId s sp r) s → leftover k = false →
      (nodeOn s sp = none ∨ (nodeOn s sp = some n ∧ (n.preempt = none ∨ (n.taken = [] ∧ n.saved = [])))) →
      ∃ t, exec (.threadRetire sp r) s = .next t ∧ (t.reck sp r).run = .retired ∧ t.mem = s.mem ∧ (t.reck sp r).q[6] = k.q[6] ∧
        (t.reck sp r).vlive = 0#32 ∧ (t.reck sp r).g = k.g ∧ (t.span sp).lease.holder ≠ some r ∧ t.nodes = s.nodes ∧
        (∀ m, m ≠ r → ∃ b, t.reck sp m = { s.reck sp m with vbank := b }) ∧
        ∀ b : BankName, (∀ i, b ≠ .vbank r i) → (t.span sp).bank b = (s.span sp).dueBank b) ∧
    (k.run = .draining → clocked k = true → stopDue k = false → spent k = true → ¬ OnTheWay (threadId s sp r) s → leftover k = true →
      ∃ x, x.cause = 0x0F#8 ∧ x.stream = .S ∧ x.pc = k.exitPc ∧ exec (.threadRetire sp r) s = .next (raiseTrap sp r x s)) ∧
    (∀ c, k.wait = .arrived 1#3 → nodeOn s sp = some n → (∀ m, m.toNat < (s.span sp).nreck → exited (s.reck sp m) = true ∨
        ((s.reck sp m).wait = .arrived 1#3 ∧ (s.reck sp m).run ≠ .taken)) → r.toNat < (s.span sp).nreck → (s.span sp).nreck ≤ 4 →
      ∃ t, exec (.barrierComplete sp r) s = .next t ∧ t.mem = s.mem ∧
        (∀ m, m.toNat < (s.span sp).nreck → (s.reck sp m).wait = .arrived 1#3 → clocked (s.reck sp m) = true → stopDue (s.reck sp m) = false →
          (t.reck sp m).wait = .none) ∧
        ((s.span c).node ≠ some n.id → t.span c = s.span c)) ∧
    (k.wait = .arrived 1#3 → nodeOn s sp = some n → (∃ m, m.toNat < (s.span sp).nreck ∧ exited (s.reck sp m) = false ∧
        (s.reck sp m).wait ≠ .arrived 1#3) → (s.span sp).nreck ≤ 4 →
      ∃ t, exec (.barrierComplete sp r) s = .next t ∧ t.spans = s.spans ∧ t.nodes = s.nodes ∧ t.mem = s.mem) ∧
    (k.wait = .released → clocked k = true → stopDue k = false →
      ∃ t, exec (.barrierComplete sp r) s = .next t ∧ (t.reck sp r).wait = .none ∧ t.mem = s.mem) ∧
    (∀ level : BitVec 3, level = 2#3 ∨ level = 3#3 → k.wait = .arrived level → nodeOn s sp = some n → n.saved = [] → n.taken = [] →
      let near (c : BitVec 7) : Prop := level = 2#3 → c.toNat / 32 = sp.toNat / 32
      ((level = 3#3 → s.fabric.updates = []) → AllMet s n.id near level → (s.span sp).node = some n.id → r.toNat < (s.span sp).nreck →
        ∃ t, exec (.barrierComplete sp r) s = .next t ∧ t.mem = s.mem ∧ LetGo s t sp r n.id near level ∧
          ∀ c, (s.span c).node ≠ some n.id → t.span c = s.span c) ∧
      (((level = 3#3 ∧ s.fabric.updates ≠ []) ∨ OneMissing s n.id near level) →
        ∃ t, exec (.barrierComplete sp r) s = .next t ∧ t.spans = s.spans ∧ t.nodes = s.nodes ∧ t.mem = s.mem)) ∧
    (let g := k.group
     let mine (x : Node) : Prop := x ∈ s.nodes ∧ (field x.record 2).extractLsb' 40 8 = g ∧ x.status ≠ .joining
     let mask := (Table.find? s.fabric.vgrpOn g.toNat).getD 0#256
     let others := ((List.range 256).map (BitVec.ofNat 8)).filter (fun d => mask.getLsbD d.toNat && d != s.fabric.dev)
     let arrived := if (s.fabric.dev, g) ∈ s.fabric.arrived then s.fabric.arrived else s.fabric.arrived ++ [(s.fabric.dev, g)]
     k.wait = .arrived 4#3 → k.run = .running → nodeOn s sp = some n → mine n → (s.span sp).node = some n.id →
      r.toNat < (s.span sp).nreck → (∀ p ∈ s.fabric.arrived, p.2 = g) → (∀ x, mine x → x.saved = [] ∧ x.taken = []) →
      (((∃ x, mine x ∧ x.status = .pending) ∨ (∃ x, mine x ∧ OneMissing s x.id (fun _ => True) 4#3)) →
        ∃ t, exec (.barrierComplete sp r) s = .next t ∧ t.spans = s.spans ∧ t.nodes = s.nodes ∧ t.mem = s.mem ∧
          t.fabric = s.fabric) ∧
      ((∀ x, mine x → x.status ≠ .pending ∧ AllMet s x.id (fun _ => True) 4#3) →
        (s.fabric.updates ≠ [] → ∃ t, exec (.barrierComplete sp r) s = .next t ∧ t.spans = s.spans ∧ t.mem = s.mem ∧
          t.fabric = s.fabric) ∧
        (s.fabric.updates = [] → (∃ d ∈ others, (d, g) ∉ s.fabric.arrived) →
          ∃ t, exec (.barrierComplete sp r) s = .next t ∧ t.spans = s.spans ∧ t.mem = s.mem ∧ t.fabric.arrived = arrived) ∧
        (s.fabric.updates = [] → (∀ d ∈ others, (d, g) ∈ s.fabric.arrived) →
          ∃ t, exec (.barrierComplete sp r) s = .next t ∧ t.mem = s.mem ∧ (∀ x, mine x → LetGo s t sp r x.id (fun _ => True) 4#3) ∧
            (∀ c, (∀ x, mine x → (s.span c).node ≠ some x.id) → t.span c = s.span c) ∧
            t.fabric.arrived = (s.fabric.dev :: others).foldl (fun l d => l.erase (d, g)) arrived ∧
            t.fabric.vwinOn = s.fabric.vwin ∧
            (Table.find? t.fabric.vgrpOn g.toNat).getD 0#256 = (Table.find? s.fabric.vgrp g.toNat).getD 0#256)))

/-- R326, R328, R329, R333: a submission puts a well-formed record into the scoreboard, pending at its PRIO, and has every
node examined for its pages; it answers CAUSE 2 for a record that is not well formed, CAUSE 1 for a full board; DKILL ends every node of its tag and frees its Spans, with memory as
it stands.
That a window opens after the training is assumption 24. -/
def Obligations.NodesAreSubmittedAndKilled : Prop :=
  ∀ (win : BitVec 5) (v : W64) (s : State),
    let x := (s.windows[win.toNat]'(win.isLt)).drec.toList
    let tag := v.extractLsb' 48 16
    (v.getLsbD 0 = true → 2 ≤ s.boot →
      ∃ t, exec (.nodeSubmit win v) s = .next t ∧ t.mem = s.mem ∧ t.spans = s.spans ∧
        (t.windows[win.toNat]'(win.isLt)).tag = (field x 2).extractLsb' 48 16 ∧
        (¬ WellFormedRecord x → t.nodes = s.nodes ∧ (t.windows[win.toNat]'(win.isLt)).cause = 2#4) ∧
        (WellFormedRecord x → 4096 ≤ s.nodes.length → t.nodes = s.nodes ∧ (t.windows[win.toNat]'(win.isLt)).cause = 1#4) ∧
        (WellFormedRecord x → s.nodes.length < 4096 → (t.windows[win.toNat]'(win.isLt)).cause = 0#4 ∧
          ∃ n : Node, t.nodes = (s.nodes ++ [n]).map (fun (m : Node) => { m with ready := m.status == .joining || nodeReady s m }) ∧ n.record = x ∧ n.status = .pending ∧ n.id = s.nextNode ∧ n.order = s.nextOrder ∧
            n.eff = (field x 2).extractLsb' 4 2)) ∧
    (v.getLsbD 0 = true → 2 ≤ s.boot →
      ∃ t, exec (.dkill v) s = .next t ∧ t.mem = s.mem ∧ Gone tag t ∧
        (∀ n ∈ s.nodes, (field n.record 2).extractLsb' 48 16 ≠ tag →
          (∀ m ∈ s.nodes, m.id = n.id → (field m.record 2).extractLsb' 48 16 ≠ tag) → n ∈ t.nodes) ∧
        (∀ n ∈ s.nodes, (field n.record 2).extractLsb' 48 16 = tag → ∀ sp, (s.span sp).node = some n.id →
          (t.span sp).node = none ∧ ∀ r, (t.reck sp r).run = .idle) ∧
        ((∃ n ∈ s.nodes, (field n.record 2).extractLsb' 48 16 = tag) → t.windows[0].tag = tag ∧ t.windows[0].cause = 3#4)) ∧
    (v.getLsbD 0 = false ∨ s.boot < 2 → exec (.nodeSubmit win v) s = .next s ∧ exec (.dkill v) s = .next s)

/-- R329 to R332: the first ready node that fits is dispatched to the Spans picked, and its threads start at ENTRY with
g1 to g8 and every other register as at reset; a node whose threads have all retired joins, its Spans free, and its
DONE unit counts one more before its entry goes, when it is tried at a join, a submission or the end of an
invalidation; a pending node ages by one number in 4 ms, not below 1.
That dispatch waits for the training is assumption 24, the counting of 4 ms in intervals is assumption 12. -/
def Obligations.NodesRunAndJoin : Prop :=
  ∀ (pick : List (BitVec 7)) (id : Nat) (n : Node) (s : State),
    (firstReady s = some n → 2 ≤ s.boot → fits s n = true → placementOk s n pick = true → n.status = .pending → n.taken = [] →
      n.saved = [] →
      ∃ t, exec (.nodeDispatch pick []) s = .next t ∧ t.mem = s.mem ∧ (∀ m ∈ t.nodes, m.id = n.id → m.status = .running ∧ m.spans = pick) ∧
        (∀ sp, sp ∉ pick → t.span sp = s.span sp) ∧
        ∀ sp ∈ pick, (s.span sp).node = none ∧ (t.span sp).node = some n.id ∧ (t.span sp).live = [] ∧ (t.span sp).xroot = field n.record 1 &&& ~~~0xFFF#64 ∧
          ∀ r : BitVec 2, let k := t.reck sp r
            if r.toNat < ((field n.record 2).extractLsb' 16 3).toNat then
              k.run = .running ∧ k.pc = (field n.record 0).extractLsb' 0 52 ∧ k.level = (field n.record 2).extractLsb' 8 3 ∧
              (∀ i : Fin 32, k.g[i] = if 1 ≤ i.val ∧ i.val ≤ 8 then field n.record (i.val + 7) else 0#64) ∧
              k.vlive = 0#32 ∧ k.buffer = [] ∧ k.tok = Reckoner.reset.tok ∧ k.q = Reckoner.reset.q
            else k.run = .idle) ∧
    (s.nodes.find? (fun m => m.id == id) = some n → n.status = .running → n.taken = [] → n.saved = [] →
      allRetired s n = true →
      ∃ t, exec (.nodeJoin id) s = .next t ∧ t.mem = s.mem ∧ (∀ sp, (t.span sp).node ≠ some id) ∧
        (field n.record 7 = 0#64 → ∀ m ∈ t.nodes, m.id ≠ id) ∧
        (field n.record 7 ≠ 0#64 → ∀ m ∈ t.nodes, m.id = id → m.status = .joining)) ∧
    (s.nodes.find? (fun m => m.id == id && m.status == .joining) = some n → n.ready = false →
      exec (.doneIncrement id) s = .next s) ∧
    (s.nodes.find? (fun m => m.id == id && m.status == .joining) = some n → n.ready = true → field n.record 7 ≠ 0#64 →
      doneReady s n.record = true →
      let a := doneAddr s n.record
      (∀ row, Table.find? s.errors row ≠ some .single) → Table.find? s.errors (a / 128) = none → s.mem.wf = true →
      ∃ t, exec (.doneIncrement id) s = .next t ∧ Bytes (a / 8 * 8) 8 (s.mem.w64 (a / 8 * 8) + 1#64).toNat s.mem t.mem ∧
        ∀ m ∈ t.nodes, m.id ≠ id) ∧
    (∃ t, exec (.priorityAgeing id) s = .next t ∧ t = { s with nodes := t.nodes } ∧ t.nodes = s.nodes.map (fun m =>
      if m.id = id ∧ (m.status = .pending ∨ m.status = .preempted) ∧ m.since + 400 ≤ s.interval then
        { m with since := m.since + 400, eff := if 1#2 < m.eff then m.eff - 1#2 else m.eff }
      else m))

/-- R334, R356: the running node of the numerically highest PRIO is asked to give way to a priority 0 node that
does not fit; past DPMAX the tender of a Span that still holds a thread is signalled. R198, R356: a full switch
freezes every thread that runs, and once what they had begun is done writes the image at TSAVE, keeps the context with its
node and frees the Span; on redispatch, with room for its records, the context stands again from the sections of the image:
registers, queues, commands and configuration, and its vector registers, tiles, accumulators and scratchpad rows; a bad
header ends the node, and with it the restore on every Span. R358: coded rows read back as they were.
DPMAX in intervals is assumption 12; the image and what a restore takes of it are assumption 10. -/
def Obligations.NodesGiveWay : Prop :=
  (∀ (sp : BitVec 7) (n v : Node) (t0 : Nat) (s : State),
     (firstReady s = some n → s.victim = none → n.eff = 0#2 → fits s n = false → victimOf (victims s) = some v →
       (∀ m ∈ victims s, (recPrio m.record).toNat ≤ (recPrio v.record).toNat) ∧ recPrio v.record ≠ 0#2 ∧
       exec .preemptionRequest s = .next { s with
         victim := some v.id
         nodes := s.nodes.map (fun m => if m.id = v.id then { m with preempt := some s.interval } else m) }) ∧
     (nodeOn s sp = some n → n.preempt = some t0 → (∃ r, r.toNat < (s.span sp).nreck ∧
         (s.reck sp r).run ≠ .taken ∧ (s.reck sp r).run ≠ .retired) → s.pmax.toNat ≤ 10 * (s.interval - t0) →
       exec (.preemptEscalation sp) s = .next (s.setSpan sp { s.span sp with switching := true }))) ∧
  (∀ (sp : BitVec 7) (n : Node) (s s1 s2 : State),
     let h := haltSpan sp s
     let x := savedSpan n (n.spans.findIdx (· == sp)) (h.span sp)
     nodeOn s sp = some n → (s.span sp).switching = true → (s.span sp).tender.running = false → (s.span sp).tender.quar = false →
     (∀ e ∈ n.saved, e.1 ≠ sp) →
     (∀ r ∈ nodeRecks (s.span sp), ((s.reck sp r).run = .running ∨ (s.reck sp r).run = .draining) →
       standing (h.reck sp r) = true ∧ (h.reck sp r).g = (s.reck sp r).g) ∧ h.mem = s.mem ∧
     ((∃ r ∈ nodeRecks (s.span sp), atRest h sp r = false) → exec (.fullSwitchSave sp) s = .next h) ∧
     ((∀ r ∈ nodeRecks (s.span sp), atRest h sp r = true) →
     readLive sp (s.span sp).live { h with free := h.free + 1 } = .ok () s1 →
     writeImage (s.span sp).tender.tsave.toNat (imageOf s1.mem sp x ((field n.record 2).extractLsb' 48 16) h.free) s1 =
       .ok () s2 →
     ∃ t, exec (.fullSwitchSave sp) s = .next t ∧ t.mem = s2.mem ∧ (t.span sp).node = none ∧ (t.span sp).tender.swcBusy = false ∧
       ∃ n' ∈ t.nodes, n'.id = n.id ∧ (sp, x) ∈ n'.saved)) ∧
  (∀ (id : Nat) (sp : BitVec 7) (x : Span) (f : Nat) (s : State), ∀ i ∈ [1, 3, 7],
     sectionItems id sp i (opaqueRows sp.toNat i f) (keepSections id sp x f s) = x) ∧
  (∀ (sp : BitVec 7) (id : Nat) (n : Node) (x : Span) (h : Row) (l1 l2 l3 l4 l5 l6 l7 : List Row)
     (s s0 s1 s2 s3 s4 s5 s6 s7 : State),
     let a := (s.span sp).tender.tsave.toNat
     let bit (l : List Row) (i : Nat) : Bool := (l.getD (i / 1024) 0#1024).getLsbD (i % 1024)
     let x1 := sectionItems id sp 1 l1 s
     let x3 := sectionItems id sp 3 l3 s
     let x7 := sectionItems id sp 7 l7 s
     let room : Prop := (s.span sp).rowsOrd.length + x1.rowsOrd.length ≤ 15 ∧ ((s.span sp).rowFatal = none ∨ x1.rowFatal = none)
     s.nodes.find? (fun m => m.id == id && m.restoring) = some n → n.saved = [(sp, x)] → (s.span sp).node = some id →
     (imageGood s sp = false →
       ∃ t, exec (.contextRestore id) s = .next t ∧ Gone ((field n.record 2).extractLsb' 48 16) t ∧ t.mem = s.mem ∧
         (t.span sp).tender.swcErr = true ∧ (t.span sp).tender.swcBusy = false) ∧
     (imageGood s sp = true → s.mem.wf = true → (∀ m ∈ s.nodes, m.id = id → m = n) → readImage a 1 s = .ok [h] s0 →
       readSection a h 1 s0 = .ok l1 s1 → readSection a h 2 s1 = .ok l2 s2 → readSection a h 3 s2 = .ok l3 s3 →
       readSection a h 4 s3 = .ok l4 s4 → readSection a h 5 s4 = .ok l5 s5 → readSection a h 6 s5 = .ok l6 s6 →
       readSection a h 7 s6 = .ok l7 s7 →
       let regs := (List.range 128).filter (bit l2)
       let units := (List.range 256).filter (bit l6)
       let masks := (units.length * 64 + 127) / 128
       let rows := ((List.range (512 * units.length)).filter (bit (l6.drop 1))).map (fun i => 512 * units.getD (i / 512) 0 + i % 512)
       (¬ room → ∃ t, exec (.contextRestore id) s = .next t ∧ t.mem = s.mem ∧ t.spans = s.spans ∧
         ∀ m ∈ t.nodes, m.id = id → m.saved = [(sp, x)] ∧ m.restoring = true) ∧
       (room → ∃ t, exec (.contextRestore id) s = .next t ∧
         (∀ r, let k := t.reck sp r
           let k0 := x1.reck r
           k.g = k0.g ∧ k.pc = k0.pc ∧ k.run = k0.run ∧ k.q = k0.q ∧ k.tok = k0.tok ∧ k.cobase = (x3.reck r).cobase ∧
           (∀ e, (k.str e).queue = (k0.str e).queue ∧ (k.str e).seq = (k0.str e).seq ∧
             (k.str e).active = ((x7.reck r).str e).active) ∧
           (∀ i < 32, k.vlive.getLsbD i = bit l2 (32 * r.toNat + i))) ∧
         (∀ j i, regs[j]? = some i → (t.reck sp (BitVec.ofNat 2 (i / 32))).vreg (BitVec.ofNat 5 i) =
           (decodeRows regs.length (l2.drop 1)).getD j 0#1024) ∧
         (t.span sp).tcfg = x3.tcfg ∧ (t.span sp).books = x3.books ∧ (t.span sp).sms = x3.sms ∧ (t.span sp).lease = x3.lease ∧
         (∀ (g : BitVec 4) (i : Nat), i < 128 → ((t.span sp).tile g).isLive i = bit (l4.take 2) (128 * g.toNat + i)) ∧
         (∀ (arr : BitVec 1) (c : BitVec 3) (i : Nat), i < 128 →
           (Table.find? ((t.span sp).acc arr c).rows i).isSome = bit (l5.take 2) (128 * (8 * arr.toNat + c.toNat) + i)) ∧
         (t.span sp).live = rows ∧
         (∀ j k, rows[j]? = some k → t.mem.row (spadAddr sp 0#24 / 128 + k) =
           (decodeRows rows.length (l6.drop (1 + masks))).getD j 0#1024) ∧
         (∀ b, b < spadAddr sp 0#24 ∨ spadAddr sp 0#24 + 2 ^ 24 ≤ b → t.mem.get b = s.mem.get b) ∧
         (t.span sp).xroot = x.xroot ∧ (t.span sp).node = some id ∧
         (∀ m ∈ t.nodes, m.id = id → m.saved = [] ∧ m.restoring = false)))) ∧
  ∀ rows : List Row, decodeRows rows.length (codeRows rows) = rows

/-- R3, R16, R106, R121, R362, R372, R374, R378: what the writes of registers with a step of their own do, and when they change
nothing: before the stacks have trained none of them does anything; the scrub corrects a single-bit error and counts it.
That a refused write from outside changes nothing is assumption 31, that none of them does anything before the stacks have
trained is assumption 24. -/
def Obligations.RegisterWrites : Prop :=
  ∀ (sp : BitVec 7) (n : BitVec 3) (a : BitVec 52) (size row : Nat) (v : W64) (s : State),
    (s.boot < 2 → ∀ i ∈ [Sys2Proof.Instr.tpwrWrite sp v, .tprofClr sp v, .hpnetWrite v, .hpcfgWrite n v, .registerWrite a size v,
      .xinvcGo v, .backgroundScrub row], exec i s = .next s) ∧
    (2 ≤ s.boot →
      (v.extractLsb' 28 2 = 3#2 → exec (.tpwrWrite sp v) s = .next s) ∧
      (v.extractLsb' 28 2 ≠ 3#2 → ∃ t, exec (.tpwrWrite sp v) s = .next t ∧ t.mem = s.mem ∧ let x := (t.span sp).tender
        x.ceil = v.extractLsb' 28 2 ∧ x.evrow = v.extractLsb' 7 17 ∧ x.even = v.getLsbD 0 ∧
        x.pendNotice = ((s.span sp).tender.pendNotice && !v.getLsbD 31)) ∧
      (131065 < (v.extractLsb' 0 17).toNat → exec (.tprofClr sp v) s = .next s) ∧
      ((v.extractLsb' 0 17).toNat ≤ 131065 → ∃ t, exec (.tprofClr sp v) s = .next t ∧ t.mem = s.mem ∧ let x := (t.span sp).tender
        x.profEn = v.getLsbD 63 ∧ x.profBase = v.extractLsb' 0 17 ∧
        x.prof = if v.getLsbD 17 then [] else (s.span sp).tender.prof) ∧
      (s.hplock = true → exec (.hpnetWrite v) s = .next s) ∧
      (s.hplock = false → exec (.hpnetWrite v) s = .next { s with hpnet := v.extractLsb' 0 3, hplock := true }) ∧
      ((s.port n).state ≠ 0#2 → (s.port n).state ≠ 3#2 → exec (.hpcfgWrite n v) s = .next s) ∧
      ((s.port n).state = 0#2 ∨ (s.port n).state = 3#2 →
        exec (.hpcfgWrite n v) s = .next (s.setPort n { s.port n with cxl := v.getLsbD 0 })) ∧
      (size ≠ 8 ∨ a.toNat % 8 ≠ 0 ∨ a.toNat < 0x18000000000 ∨ 0x18010000000 ≤ a.toNat →
        exec (.registerWrite a size v) s = .next s) ∧
      (0x18000000000 ≤ a.toNat → a.toNat < 0x18010000000 → a.toNat % 8 = 0 →
        exec (.registerWrite a 8 v) s = .next (writeDevice a.toNat v s) ∧
        (a.toNat = 0x18000000000 →
          exec (.registerWrite a 8 v) s = .next { s with inval := { s.inval with va := v.extractLsb' 0 52 &&& ~~~0xFFFF#52 } }) ∧
        (a.toNat = 0x18008000040 → exec (.registerWrite a 8 v) s = exec (.hpnetWrite v) s) ∧
        (a.toNat = 0x18000000008 → exec (.registerWrite a 8 v) s = exec (.xinvcGo v) s) ∧
        (a.toNat / 0x1000000 = 0x18004 → exec (.registerWrite a 8 v) s = .next s)) ∧
      (128 * row < 0x8000000000 → s.excluded = 0#8 → Table.find? s.errors row = some .single →
        ∃ t, exec (.backgroundScrub row) s = .next t ∧ t.mem = s.mem ∧ Table.find? t.errors row = none ∧
          t.errCount = s.errCount.set (dieOf (128 * row) % 4) (s.errCount[dieOf (128 * row) % 4]'(Nat.mod_lt _ (by decide)) + 1#64)
            (Nat.mod_lt _ (by decide))) ∧
      (Table.find? s.errors row ≠ some .single → exec (.backgroundScrub row) s = .next s))

/-- R360 to R366: a boundary of 10 us counts, from reset on; unless the device is held in reset (R16) it sets the caps, puts a planned change of margins into force where the Span runs
at 2.7 GHz, and gives each Span its clock: its ceiling to one that claims and comes, in the order of the search, within
the pool of its die; else one step down, and 2.55 GHz under REPLACE; the pool gets one back after four quiet intervals. A
reading of an idle Span plans a ceiling one step lower, or one more step of voltage, or raises REPLACE with a notice.
Caps and readings are operands, what claims is assumption 12, the steps of the voltage are assumption 34, and that a reading
waits for the training is assumption 24. -/
def Obligations.ClocksAreSettled : Prop :=
  ∀ (sp : BitVec 7) (c : BitVec 2) (caps : List (BitVec 7 × BitVec 16)) (s : State),
    (s.boot < 2 → ∀ b, exec (.ageingReading sp c b) s = .next s) ∧
      (s.boot = 0 → exec (.powerIntervalBoundary caps) s = .next { s with interval := s.interval + 1 }) ∧
      (s.boot ≠ 0 → ∃ t, exec (.powerIntervalBoundary caps) s = .next t ∧ t.interval = s.interval + 1 ∧ t.nodes = s.nodes ∧
        ((∀ n, (s.span n).tender.even = false) → t.mem = s.mem) ∧
        (∀ n, let x := s.span n
          let y := t.span n
          ((x.margin = none ∨ x.step ≠ 0#2) → y.ceil = x.ceil ∧ y.volt = x.volt ∧ y.margin = x.margin) ∧
          (∀ m, x.margin = some m → x.step = 0#2 → y.ceil = m.1 ∧ y.volt = m.2 ∧ y.margin = none)) ∧
        ∀ d : Fin 4,
          let top (n : BitVec 7) : BitVec 2 := if (t.span n).tender.ceil < (t.span n).ceil then (t.span n).tender.ceil else (t.span n).ceil
          let want (n : BitVec 7) : Bool := nodeAwake s (s.span n) && decide (0 < (top n).toNat) && !(s.span n).repl
          let first := match s.permits[d].last with | some l => l.toNat + 1 | none => 0
          let granted := (((List.range 32).map (fun i => BitVec.ofNat 7 (32 * d.val + (first + i) % 32))).filter want).take s.permits[d].pool.toNat
          let left := s.permits[d].pool.toNat - granted.length
          let quiet : Prop := ∀ n : BitVec 7, n.toNat / 32 = d.val → (s.span n).step = 0#2
          (t.permits[d].last = match granted.getLast? with | some n => some (n.extractLsb' 0 5) | none => s.permits[d].last) ∧
          (¬ quiet → t.permits[d].pool.toNat = left ∧ t.permits[d].calm = 0) ∧
          (quiet → s.permits[d].calm < 3 → t.permits[d].pool.toNat = left ∧ t.permits[d].calm = s.permits[d].calm + 1) ∧
          (quiet → 3 ≤ s.permits[d].calm → t.permits[d].pool.toNat = (if left < 64 then left + 1 else left) ∧ t.permits[d].calm = 0) ∧
          ∀ n : BitVec 7, n.toNat / 32 = d.val → let x := s.span n
            let y := t.span n
            (n ∈ granted → y.step = top n ∧ y.fall = false) ∧
            (n ∉ granted → y.step = (if x.step = 2#2 then 1#2 else if x.step = 1#2 then 0#2 else if x.repl then 3#2 else x.step) ∧
              (y.fall = true ↔ x.step = 2#2) ∧ (x.step = 2#2 → y.tender.pendNotice = true))) ∧
      (s.boot ≠ 0 → ∀ cap : BitVec 16,
        ∃ t, exec (.powerIntervalBoundary [(sp, cap)]) s = .next t ∧
          (8 ≤ cap.toNat → cap.toNat ≤ 512 → (t.span sp).cap = cap ∧ (cap ≠ (s.span sp).cap → (t.span sp).tender.pendNotice = true)) ∧
          (cap.toNat < 8 ∨ 512 < cap.toNat → (t.span sp).cap = (s.span sp).cap)) ∧
    (2 ≤ s.boot →
      ((s.span sp).node.isSome = true ∨ s.interval < (s.span sp).idleSince + 10 → ∀ b, exec (.ageingReading sp c b) s = .next s) ∧
      ((s.span sp).node = none → (s.span sp).idleSince + 10 ≤ s.interval →
        let x := s.span sp
        let p := match x.margin with | some m => m | none => (x.ceil, x.volt)
        (exec (.ageingReading sp c 0#1) s =
          .next (if c.toNat + 1 = p.1.toNat then s.setSpan sp { x with margin := some (c, p.2) } else s)) ∧
        (p.1 ≠ 0#2 → exec (.ageingReading sp c 1#1) s = .next s) ∧
        (p.1 = 0#2 → p.2 < Config.voltMax → exec (.ageingReading sp c 1#1) s = .next (s.setSpan sp { x with margin := some (p.1, p.2 + 1) })) ∧
        (p.1 = 0#2 → Config.voltMax ≤ p.2 → x.repl = true → exec (.ageingReading sp c 1#1) s = .next s) ∧
        (p.1 = 0#2 → Config.voltMax ≤ p.2 → x.repl = false →
          ∃ t, exec (.ageingReading sp c 1#1) s = .next t ∧ (t.span sp).repl = true ∧ (t.span sp).tender.pendNotice = true ∧
            (t.span sp).margin = x.margin)))

/-- R379: a port trains, comes up, fails or loses its link; a port in CXL mode has the decoders that it was last given, in
every state of the link. R382: enumeration gives the device its number and the links that trained. R380: a flit with the number
expected is accepted and acknowledged; a flit accepted before is discarded; a gap or a bad check asks for a replay from the
first missing number, each time; an acknowledgement empties the replay buffer up to its number, which fills from the flits
that wait. R381: a store, a load or an atomic of another device is served at this home and answered; a response answers the
oldest access that waits for it; an access to another device is sent once, as its address and page stood then, holds until it
is answered, and takes what the home gives, or ECC when no link is left. R384, R385: a link counts its replays by interval, and one past its threshold loses
half its lanes, or goes down, when its flits go on by another link in their order.
What comes from outside is an operand, the link that carries a flit, the depth of the replay buffer, what answers a request
and the mark of a link to be shed are assumption 11, the link of a port is assumption 45, and that enumeration (R16) waits for
the training is assumption 24. -/
def Obligations.LinksCarryFlits : Prop :=
  ∀ (n : BitVec 3) (up bad : BitVec 1) (hdm : List (Nat × Nat)) (dev : BitVec 8) (links : BitVec 16) (i : BitVec 4) (f : Flit) (s : State),
    let p := s.port n
    let given := if p.cxl && decodersOk s n hdm then hdm else p.hdm
    let j : Fin 16 := ⟨i.toNat, i.isLt⟩
    let l := s.fabric.link[j]
    (p.state = 0#2 ∨ p.state = 3#2 → exec (.portLinkTraining n up hdm bad) s = .next (s.setPort n { p with state := 1#2, hdm := given })) ∧
    (p.state = 1#2 ∨ p.state = 2#2 → (up = 0#1 ∨ (p.cxl = true ∧ bad = 1#1)) →
      exec (.portLinkTraining n up hdm bad) s = .next (s.setPort n { p with state := 3#2 })) ∧
    (p.state = 1#2 ∨ p.state = 2#2 → up = 1#1 → ¬(p.cxl = true ∧ bad = 1#1) →
      exec (.portLinkTraining n up hdm bad) s = .next (s.setPort n { p with state := 2#2, hdm := given })) ∧
    (s.fabric.enumerated = false → 2 ≤ s.boot →
      ∃ t, exec (.fabricEnumeration dev links) s = .next t ∧ t.fabric.dev = dev ∧ t.fabric.enumerated = true ∧ t.mem = s.mem ∧
        ∀ k : Fin 16, t.fabric.link[k].state = (if links.getLsbD k.val then 2#2 else 0#2)) ∧
    (s.fabric.enumerated = true ∨ s.boot < 2 → exec (.fabricEnumeration dev links) s = .next s) ∧
    (l.state ≠ 2#2 → exec (.flitReceive i f) s = .next s) ∧
    (l.state = 2#2 → f.good = true → f.seq = l.next → (f.dst = s.fabric.dev → ReachesBank s f.body = false) →
      ∃ t, exec (.flitReceive i f) s = .next t ∧ t.fabric.link[j].next = l.next + 1#12 ∧ t.fabric.link[j].told = l.told ++ [.ack f.seq] ∧
        (f.dst ≠ s.fabric.dev → t.mem = s.mem) ∧
        (∀ m left x rest, l.buffer = left ++ x :: rest → x.seq = m → (∀ y ∈ left, y.seq ≠ m) →
          (f.body = .ack m → t.fabric.link[j].buffer = refilled s.fabric.dev rest l) ∧
          (f.body = .replay m → t.fabric.link[j].buffer = refilled s.fabric.dev (x :: rest) l)) ∧
        (∀ m, (∀ y ∈ l.buffer, y.seq ≠ m) →
          (f.body = .ack m → t.fabric.link[j].buffer = refilled s.fabric.dev l.buffer l) ∧
          (f.body = .replay m → t.fabric.link[j].buffer = refilled s.fabric.dev (if m = l.send then [] else l.buffer) l)) ∧
        (∀ m, f.body = .replay m → t.fabric.link[j].replays = l.replays + 1) ∧
        (f.dst = s.fabric.dev → f.src ≠ s.fabric.dev → s.excluded = 0#8 → s.mem.wf = true →
          (∀ a : BitVec 43, a.toNat < 0x8000000000 → Table.find? s.errors (a.toNat / 128) = none →
            (∀ mask d, f.body = .store a mask d → Sent f.src (.stored a) s t ∧
              ∀ x, t.mem.get x = if x / 128 = a.toNat / 128 ∧ mask.getLsbD (x % 128) = true then d.extractLsb' (8 * (x % 128)) 8
                else s.mem.get x) ∧
            (f.body = .load a → t.mem = s.mem ∧ Sent f.src (.data a (s.mem.row (a.toNat / 128))) s t) ∧
            (∀ op x e, 0x38 ≤ op.toNat → op.toNat ≤ 0x3D → f.body = .atomic a op x e →
              let old := s.mem.w64 (a.toNat / 8 * 8)
              Bytes (a.toNat / 8 * 8) 8 (mergeBy op old x).toNat s.mem t.mem ∧ Sent f.src (.old a old) s t)) ∧
          (∀ a : BitVec 43, placeOwn s a.toNat = .hole → f.body = .load a ∨ (∃ mask d, f.body = .store a mask d) ∨
            (∃ op x e, f.body = .atomic a op x e) → t.mem = s.mem ∧ Sent f.src (.failed a 0x06#8) s t)) ∧
        (f.dst = s.fabric.dev → ∀ left q rest a, s.fabric.requests = left ++ q :: rest → q.who.isSome = true →
          (∀ v, f.body = .data a v → Open f.src (.load a) q → (∀ y ∈ left, ¬ Open f.src (.load a) y) →
            t.fabric.requests = left ++ { q with answer := some (.data a v) } :: rest) ∧
          (∀ mask d, f.body = .stored a → Open f.src (.store a mask d) q →
            (∀ y ∈ left, ∀ mask' d', ¬ Open f.src (.store a mask' d') y) →
            t.fabric.requests = left ++ { q with answer := some (.stored a) } :: rest))) ∧
    (∀ (pa : Nat) (w : Via), remote s pa = true → s.access = some w →
      let b := FlitBody.load (BitVec.ofNat 43 pa)
      let dest : BitVec 8 := BitVec.ofNat 8 (pa / 2 ^ 43)
      let some' : Prop := ∃ k : Fin 16, s.fabric.link[k].state = 2#2
      let lost : Prop := ∃ e, readRowAt pa s = .trap e s ∧ e.cause = 0x0B#8 ∧ e.addr = BitVec.ofNat 64 (128 * (pa / 128))
      let mine (q : Request) : Prop := q.who = some w.who ∧ q.va = w.va ∧ q.wr = false
      ((∀ q ∈ s.fabric.requests, ¬ mine q) →
        (some' → ∃ t, readRowAt pa s = .hold t ∧ Sent dest b s t ∧ t.mem = s.mem ∧ t.spans = s.spans ∧
          t.fabric.requests.getLast? = some ⟨some w.who, dest, b, none, w.va, false, pa, w.page, w.stale⟩) ∧
        (¬ some' → lost)) ∧
      (∀ left q rest, s.fabric.requests = left ++ q :: rest → mine q → (∀ y ∈ left, ¬ mine y) →
        (∀ a v, q.answer = some (.data a v) → readRowAt pa s = .ok v s) ∧
        (∀ a c, q.answer = some (.failed a c) → ∃ e, readRowAt pa s = .trap e s ∧ e.cause = c) ∧
        (q.answer = none → some' → readRowAt pa s = .hold s) ∧
        (q.answer = none → ¬ some' → lost))) ∧
    (l.state = 2#2 → f.good = true → 2048 ≤ (f.seq - l.next).toNat → exec (.flitReceive i f) s = .next s) ∧
    (l.state = 2#2 → (f.good = false ∨ (f.seq ≠ l.next ∧ (f.seq - l.next).toNat < 2048)) →
      ∃ t, exec (.flitReceive i f) s = .next t ∧ t.mem = s.mem ∧ t.fabric.link[j].told = l.told ++ [.replay l.next] ∧
        t.fabric.link[j].next = l.next ∧ t.fabric.link[j].replays = l.replays + 1) ∧
    (∃ t, exec (.replayIntervalEnd i) s = .next t ∧ t.mem = s.mem ∧ t.fabric.link[j].replays = 0 ∧
      t.fabric.link[j].repl = BitVec.ofNat 16 (min l.replays 0xFFFF) ∧
      (l.state = 2#2 → (t.fabric.link[j].shed = true ↔ l.shed = true ∨ (s.fabric.thresh ≠ 0#16 ∧ s.fabric.thresh.toNat < l.replays)))) ∧
    (l.state = 2#2 → l.shed = true →
      ∃ t, exec (.laneShed i) s = .next t ∧ t.mem = s.mem ∧
        (l.lanes = 8#4 → t.fabric.link[j].lanes = 4#4 ∧ t.fabric.link[j].state = 2#2) ∧
        (l.lanes = 4#4 → t.fabric.link[j].lanes = 2#4 ∧ t.fabric.link[j].state = 2#2) ∧
        (l.lanes = 2#4 → t.fabric.link[j].lanes = 0#4 ∧ t.fabric.link[j].state = 0#2 ∧
          ((∀ k, k ≠ j → s.fabric.link[k].state ≠ 2#2) → carried t.fabric.link[j] = carried l) ∧
          ∀ i', Lowest (fun k => k ≠ j) s i' → (∀ e ∈ carried l, e.1 ≠ s.fabric.dev) → carried t.fabric.link[j] = [] ∧
            carried t.fabric.link[i'] = carried s.fabric.link[i'] ++ carried l))

/-- R373 to R376: a message that does not come through the network port, up as a root port, to endpoint 9 is discarded; the
root of trust answers the others in the order of the connection, and with UnexpectedRequest out of it, or where
no node of the tag that has not joined names the requester (assumption 9), or the session is not of that port; a maker token
opens the features that the production state closes when it is for this device and the nonce issued, well signed. -/
def Obligations.TheRootOfTrustAnswers : Prop :=
  ∀ (m : SpdmRequest) (dev nonce : BitVec 256) (mask : W32) (sig : List Byte) (s : State),
    let t := s.trust
    let messages := [Instr.getVersion m, .getCapabilities m, .negotiateAlgorithms m, .getDigests m, .getCertificate m, .challenge m,
      .getMeasurements m, .keyExchange m, .finish m]
    let told (f : Trust) (r : SpdmReply) : Host.Outcome State Fault Refusal := .next { s with trust := { f with out := f.out ++ [r] } }
    (¬(m.port = s.hpnet ∧ m.endpoint = 9#8 ∧ (s.port m.port).cxl = false ∧ (s.port m.port).state = 2#2) →
      ∀ i ∈ messages, exec i s = .next s) ∧
    (m.port = s.hpnet → m.endpoint = 9#8 → (s.port m.port).cxl = false → (s.port m.port).state = 2#2 →
      exec (.getVersion m) s = told { t with versioned := true, negotiated := false } (.version 0x13#8) ∧
      (t.versioned = true → exec (.getCapabilities m) s = told t .capabilities ∧
        (m.mldsa44 = true → m.sha3 = true → exec (.negotiateAlgorithms m) s = told { t with negotiated := true } .algorithms) ∧
        (m.mldsa44 = false ∨ m.sha3 = false → exec (.negotiateAlgorithms m) s = told t .refusedAlgorithm)) ∧
      (t.versioned = false → exec (.getCapabilities m) s = told t .unexpectedRequest ∧
        exec (.negotiateAlgorithms m) s = told t .unexpectedRequest) ∧
      (t.negotiated = true →
        exec (.getDigests m) s = told t (.digests (Config.sha3 Config.certificate)) ∧
        exec (.getCertificate m) s = told t (.certificate Config.certificate) ∧
        exec (.challenge m) s = told t (.challengeAuth (Config.sign m.payload)) ∧
        exec (.getMeasurements m) s = told t (.measurements t.measured
          (Config.sign (m.payload ++ t.measured.flatMap (fun r => wordBytes r.toNat 32)))) ∧
        exec (.keyExchange m) s =
          (if s.nodes.any (fun n => n.status != .joining && (field n.record 2).extractLsb' 48 16 == m.tag &&
              Config.recordNames n.record m.digest) then
            told { t with sessions := t.sessions ++ [⟨t.opened, m.tag, m.digest, false, m.port⟩], opened := t.opened + 1 }
              (.keyExchange t.opened (Config.sign m.payload))
          else told t .unexpectedRequest)) ∧
      (t.negotiated = false → ∀ i ∈ [Instr.getDigests m, .getCertificate m, .challenge m, .getMeasurements m, .keyExchange m],
        exec i s = told t .unexpectedRequest) ∧
      (∀ x ∈ t.sessions, m.session = some x.id → m.port = x.port → x.done = false →
        exec (.finish m) s = told
          { t with sessions := t.sessions.map (fun y => if y.id = x.id ∧ y.port = m.port then { y with done := true } else y) }
          (.finished x.id)) ∧
      ((∀ x ∈ t.sessions, m.session = some x.id → m.port = x.port → x.done = true) → exec (.finish m) s = told t .unexpectedRequest)) ∧
    ∃ good, exec (.makerToken dev mask nonce sig) s = told
        { t with issued := t.issued + 1, maker := if good && t.production then t.maker ||| mask else t.maker } (.token good) ∧
      (good = true ↔ dev = Config.deviceIdentity ∧ nonce = Config.nonce t.issued ∧
        Config.makerSigOk (tokenText dev mask nonce) sig = true)

/-- R15, R16: a reset leaves every part as State.reset has it but memory with its row errors, the retired nonces and the fuses,
the result and the measurements of the verification, and the model's own fields, and the device held in reset when the
verification fails; the training of the stacks clears deck SRAM and HBM4E, and no other byte, and leaves out the stacks
that failed.
That memory stands until the training is assumption 24, the result of the verification is assumption 9. -/
def Obligations.StartUp : Prop :=
  ∀ (failed : BitVec 8) (s : State),
    exec .powerOnReset s = .next { State.reset with
      mem := s.mem, errors := s.errors, boot := (if Config.bootOk s.free then 1 else 0)
      trust := { State.reset.trust with
        verified := Config.bootOk s.free, issued := s.trust.issued, production := s.trust.production
        measured := (Config.bootImages s.free).map (fun i => Config.extend 0#256 (Config.sha3 i)) }
      free := s.free + 1, cur := s.cur, agenda := s.agenda, turn := s.turn } ∧
    (s.boot = 1 →
      ∃ t, exec (.hbmTraining failed) s = .next t ∧ t.boot = 2 ∧ t.excluded = failed ∧ t.spans = s.spans ∧
        ∀ a, t.mem.get a = if a < 0x8000000000 ∨ (0x10000000000 ≤ a ∧ a < 0x10200000000) then Memory.default else s.mem.get a) ∧
    (s.boot ≠ 1 → exec (.hbmTraining failed) s = .next s)

/-- R15. -/
def Obligations.ResetState : Prop :=
  let s := State.reset
  s.nodes = [] ∧ s.fabric.dev = 0#8 ∧ (∀ die : Fin 4, s.permits[die].pool = 64#7) ∧
  ∀ sp, let x := s.span sp
    let u (r : BitVec 2) : State := { s with cur := ⟨sp, .reck r, none, false⟩ }
    x.node = none ∧ x.step = 0#2 ∧ (∀ arr j, (x.band arr j).gated = true) ∧ (∀ n, (x.bank n).st = .off ∧ x.bankLive n = false) ∧
    (∀ off, ∃ f, readSpad sp off s = .trap f s ∧ f.cause = 0x04#8) ∧
    ∀ r, let k := s.reck sp r
      k.run = .idle ∧ k.buffer = [] ∧ (∀ e, (k.str e).queue = [] ∧ (k.str e).active = none) ∧ (∀ i : Fin 7, k.q[i] = []) ∧
      (∀ m, k.vqueue m = []) ∧ (∀ i : Fin 12, k.tok[i] = 0#4) ∧ (readCsr 0x012#12 (u r)).extractLsb' 9 8 = 0#8 ∧
      (∀ n, ∃ f, vLiveCheck [n] (u r) = .trap f (u r) ∧ f.cause = 0x04#8) ∧
      (∀ t i, ∃ f, tileLiveCheck t [i] (u r) = .trap f (u r) ∧ f.cause = 0x04#8) ∧
      (∀ arr a i, ∃ f, accRowsLive arr a [i] (u r) = .trap f (u r) ∧ f.cause = 0x04#8)

/-- R17: memory right after reset is in its canonical form: nothing is listed.
The form, and the 0 that an unlisted address reads as, are the model's choice (assumption 4). -/
def Obligations.ResetMemoryIsCanonical : Prop := State.reset.mem.wf = true ∧ ∀ a, State.reset.mem.get a = Memory.default

/-- R17: every step answers a next state, and keeps the canonical form of memory: equal memories are equal data.
The form is the model's own (assumption 4). -/
def Obligations.MemoryStaysCanonical : Prop :=
  ∀ s : State, s.mem.wf = true → ∃ t, Sys2Proof.Machine.step s = .next t ∧ t.mem.wf = true

/-- R17, R44: every instruction answers a next state in every state, whatever its operands, and one that stores nothing
leaves every byte of memory as it stands.
The instructions that may store are those that the list `stores` names; the form of memory is assumption 4. -/
def Obligations.EveryInstructionRuns : Prop :=
  ∀ (i : Sys2Proof.Instr) (s : State), ∃ t, exec i s = .next t ∧
    (stores i = false → t.mem = s.mem) ∧ (s.mem.wf = true → t.mem.wf = true)

/-- R53, R64, R122, R187: what the operations leave that the words of the S and V streams are made of, and with them a
scalar word as a whole: g0 reads zero, a write changes the register it names and no other, a queue register pushes,
a pop takes queue heads alone, an issue moves its own stream and tokens alone, has acted on its clock, and puts the
result of a slow word off (R123), a scheduled result waits to land.
That the result of a slow word is put off for g0 too is assumption 50. -/
def Obligations.RegisterFrames : Prop :=
  (∀ (d j : BitVec 5) (v : W64) (u : State), let t := gPut d v u
     gVal 0#5 t = 0#64 ∧ (j ≠ d → gVal j t = gVal j u) ∧ t.mem = u.mem ∧ (∀ n, n ≠ u.cur.sp → t.span n = u.span n) ∧
     (d ≠ 0#5 → u.atTender = true ∨ isQueueReg d = false → gVal d t = v) ∧ (d = 0#5 → t = u) ∧
     (u.atTender = true → t.my = { u.my with tender := { u.my.tender with g := t.my.tender.g } }) ∧
     (u.atTender = false → OnlyThread u t ∧ t.me = { u.me with g := t.me.g, q := t.me.q, argSeq := t.me.argSeq, restart := t.me.restart } ∧
       (isQueueReg d = true → t.me.g = u.me.g ∧ (d ≠ 29#5 → d ≠ 31#5 → ∀ i : Fin 7, t.me.q[i] =
         if i.val + 24 = d.toNat then u.me.q[i] ++ [v] else u.me.q[i])) ∧
       (isQueueReg d = false → t.me.q = u.me.q ∧ t.me.argSeq = u.me.argSeq ∧ t.me.restart = u.me.restart))) ∧
  (∀ (ns : List (BitVec 5)) (u t : State), popSrcs ns u = .ok () t →
     (u.atTender = true → t = u) ∧
     (u.atTender = false → OnlyThread u t ∧ t.me = { u.me with q := t.me.q, streams := t.me.streams, restart := t.me.restart } ∧
       (ns.contains 29#5 = false → ns.contains 31#5 = false → t = u) ∧ ∀ i : Fin 5, t.me.q[i.val] = u.me.q[i.val])) ∧
  (∀ (e : Stream) (w : Tok) (u t : State), u.atTender = false → waitTokens e w u = some t →
     OnlyThread u t ∧ t.me = { u.me with tok := t.me.tok, streams := t.me.streams }) ∧
  (∀ (e : Stream) (w : Tok) (u : State), u.atTender = false →
     let t := issued e w u
     OnlyThread u t ∧ t.me = { u.me with streams := t.me.streams, tok := t.me.tok, ready := t.me.ready } ∧
     (∀ e', e' ≠ e → t.me.str e' = u.me.str e') ∧ (t.me.str e).acted = true ∧
     (slowResult (u.unit e).now = none → t.me.ready = u.me.ready) ∧
     ∀ d n, slowResult (u.unit e).now = some (d, n) → ∃ c, Table.find? t.me.ready d.toNat = some c ∧ u.my.clock + n ≤ c) ∧
  (∀ u : State, u.atTender = true →
     (tenderDone u).my = { u.my with tender := { u.my.tender with work := (tenderDone u).my.tender.work } } ∧
     (tenderDone u).mem = u.mem ∧ ∀ n, n ≠ u.cur.sp → (tenderDone u).span n = u.span n) ∧
  (∀ (c : VCompute) (u : State), u.atTender = false →
     let t := scheduled c u
     OnlyThread u t ∧ t.me = { u.me with landings := t.me.landings, vlive := t.me.vlive, vbank := t.me.vbank } ∧
     t.me.landings = u.me.landings ++ [⟨u.me.scyV, u.me.scyV + BitVec.ofNat 64 c.lat, c.dest u, c.mask u, c.val u⟩] ∧
     ∀ n < 32, t.me.vlive.getLsbD n = (u.me.vlive.getLsbD n && !(c.kill.any fun m => (vName m u).toNat == n))) ∧
  (∀ (i : Sys2Proof.Instr) (c : Compute) (s s0 s1 : State), computeOf i = some c → Begins .S c.tok s s0 →
     popSrcs c.srcs s0 = .ok () s1 → Room c.dst s1 →
     ∃ t, exec i s = .next t ∧ OnlyThread s t ∧
       t.me = { s.me with g := t.me.g, q := t.me.q, argSeq := t.me.argSeq, streams := t.me.streams, tok := t.me.tok
                          ready := t.me.ready, restart := t.me.restart } ∧
       (c.dst ≠ 0#5 → isQueueReg c.dst = false → t.me.g[c.dst.toNat]'(c.dst.isLt) = c.val s1) ∧
       ∀ j : Fin 32, j.val = 0 ∨ j.val ≠ c.dst.toNat ∨ isQueueReg c.dst = true → t.me.g[j] = s.me.g[j])

/-- R43, R60, R91 to R98: decoding the word of a well-formed instruction gives it back, whatever its operands, and the
word that gives an instruction is its word: every bit of a word is an operand or fixed. -/
def Obligations.DecodeInvertsEncode : Prop :=
  (∀ i : Sys2Proof.Instr, ((streamOf i).isSome || isPrefixWord i) = true → i.wellFormed = true → decode (encode i) = .ok i) ∧
  ∀ (w : W32) (i : Sys2Proof.Instr), decode w = .ok i → encode i = w ∧ ((streamOf i).isSome || isPrefixWord i) = true

/-- R43, R60 to R63, R91 to R99: words written out field by field, one of each family, and what they stand for; and
words that stand for no instruction. -/
def Obligations.WrittenWordsDecode : Prop :=
  decode (0b000#3 ++ 0b0000#4 ++ 0x01#7 ++ 5#5 ++ 6#5 ++ 7#5 ++ 0b000#3) = .ok (.add 0#4 5#5 6#5 7#5) ∧
  decode (0b000#3 ++ 0b1001#4 ++ 0x28#7 ++ 3#5 ++ 0x1FFF#13) = .ok (.li 9#4 3#5 0x1FFF#13) ∧
  decode (0b000#3 ++ 0b0000#4 ++ 0x31#7 ++ 9#5 ++ 10#5 ++ 0xF8#8) = .ok (.sts 0#4 9#5 10#5 0xF8#8) ∧
  decode (0b000#3 ++ 0b0000#4 ++ 0x51#7 ++ 1#5 ++ 2#5 ++ 0xFE#8) = .ok (.bne 0#4 1#5 2#5 0xFE#8) ∧
  decode (0b000#3 ++ 0b0000#4 ++ 0x61#7 ++ 4#5 ++ 0#1 ++ 0x020#12) = .ok (.csrw 0#4 4#5 0x020#12) ∧
  decode (0b000#3 ++ 0b0000#4 ++ 0x41#7 ++ 1#5 ++ 2#5 ++ 3#5 ++ 0#3) = .ok (.aaddb 0#4 1#5 2#5 3#5) ∧
  decode (0b001#3 ++ 0b0000#4 ++ 0x13#6 ++ 3#3 ++ 1#1 ++ 8#5 ++ 9#5 ++ 10#5) = .ok (.ffma 0#4 3#3 1#1 8#5 9#5 10#5) ∧
  decode (0b001#3 ++ 0b0000#4 ++ 0x30#6 ++ 0#3 ++ 1#1 ++ 17#5 ++ 2#3 ++ 5#7) = .ok (.vld 0#4 0#3 1#1 17#5 2#3 5#7) ∧
  decode (0b010#3 ++ 0b0000#4 ++ 0x04#5 ++ 1#1 ++ 5#3 ++ 12#4 ++ 33#6 ++ 1#1 ++ 0#1 ++ 0#4) = .ok (.mma 0#4 1#1 5#3 12#4 33#6 1#1 0#1) ∧
  decode (0b011#3 ++ 0b0000#4 ++ 0x06#5 ++ 0#1 ++ 2#2 ++ 3#3 ++ 0#4 ++ 7#6 ++ 1#1 ++ 0#1 ++ 1#1 ++ 0#1) =
    .ok (.koutD 0#4 0#1 2#2 3#3 7#6 0#1 1#1) ∧
  decode (0b100#3 ++ 0b0000#4 ++ 0x01#5 ++ 21#6 ++ 0#4 ++ 1#1 ++ 0#9) = .ok (.ccpy 0#4 21#6 1#1) ∧
  decode (0b101#3 ++ 0b0000#4 ++ 0x02#5 ++ 4#6 ++ 1#2 ++ 0#1 ++ 1#1 ++ 0#1 ++ 0#9) = .ok (.qtopk 0#4 4#6 1#2 0#1 1#1 0#1) ∧
  decode (0b111#3 ++ 0b0000#4 ++ 0x1234567#25) = .ok (.pimm 0x1234567#25) ∧
  decode (0b111#3 ++ 0b0011#4 ++ 0#25) = .error .illPrefix ∧
  decode (0b110#3 ++ 0#29) = .error .ill ∧
  decode (0b000#3 ++ 0b0000#4 ++ 0x70#7 ++ 0#18) = .error .ill ∧
  decode (0b000#3 ++ 0b0000#4 ++ 0x01#7 ++ 5#5 ++ 6#5 ++ 7#5 ++ 0b001#3) = .error .ill ∧
  decode (0b000#3 ++ 0b0000#4 ++ 0x42#7 ++ 2#5 ++ 3#5 ++ 4#5 ++ 0b000#3) = .error .ill

/-- R44, R45, R60, R118, R348: one step takes the next move of the agenda (assumption 3). A fetch takes its word from the
line that the instruction cache holds; else it reads the four bytes at its address, little-endian, and their row enters the
cache, which may drop a line at any time (assumption 44). A word that the splitter takes is steered and, standing alone at the head of its
stream, runs in the same step, as exec gives it; a prefix word runs at once; the word at the head of a stream
runs, and the tender's; and an event is its instruction. A clock of a Span counts on each stream that acted, or that nothing held (R5, R124, R209).
With no move given the default one is taken. -/
def Obligations.StepRunsTheWord : Prop :=
  (∀ (sp : BitVec 7) (root : W64) (pc : BitVec 52) (p : Phys) (s s1 : State), translateVa sp root fetchAsk pc s = .ok p s1 →
     let line := fetchLine (s1.span sp).icache (root.extractLsb' 52 12) pc
     (∀ l, line = some l → fetchWord sp root pc s = .ok (l.row.extractLsb' (8 * (pc.toNat / 4 * 4 % 128)) 32) s1) ∧
     (line = none → isFabric p.pa = false → p.pa % 128 = pc.toNat % 128 → unreachable s1 p.pa = false →
       Table.find? s1.errors (p.pa / 128) = none →
       let x := s1.span sp
       fetchWord sp root pc s = .ok (BitVec.ofNat 32 (s1.mem.nat (p.pa / 4 * 4) 4))
         (s1.setSpan sp { x with icache := ⟨p.page, pc.toNat / 128, s1.mem.row (p.pa / 128)⟩ :: x.icache }))) ∧
  (∀ (sp : BitVec 7) (r : BitVec 2) (e : Stream) (n : Option Nat) (st : Bool) (w : W32) (i : Sys2Proof.Instr) (rest : List Move)
     (s s1 : State),
     let u : State := { s with agenda := rest }
     let k := s.reck sp r
     let a := k.pc + BitVec.ofNat 52 (4 * k.pend.length)
     let pre : Prop := w.toNat / 2 ^ 29 = 7 ∧ k.pend.length < 2
     (s.agenda = .steer sp r :: rest → maySteer u sp r = true → fetchWord sp (s.span sp).xroot a u = .ok w s1 → s1.reck sp r = k →
       (pre → decode w = .ok i → Sys2Proof.Machine.step s = exec i { s1 with cur := ⟨sp, .reck r, none, false⟩ }) ∧
       (¬ pre → e = streamOfCode (BitVec.ofNat 3 (w.toNat / 2 ^ 29)) → unitCheck false k.pend w = .ok i →
         (k.str e).queue = [] → (k.str e).active = none → (k.str e).sig = none →
         let x := { placeUnit sp r e (unitOf k.pend i k.pc ((k.str e).seq + 1#32) k.rrb) (a + 4#52) s1 with
           cur := ⟨sp, .reck r, none, false⟩ }
         mayAct x sp r e = true → StandsAt sp r e i (settle sp r x) → Sys2Proof.Machine.step s = exec i (settle sp r x))) ∧
     (s.agenda = .head sp r e n st :: rest →
       let x : State := { u with cur := ⟨sp, .reck r, n, st⟩ }
       mayAct x sp r e = true → StandsAt sp r e i (settle sp r x) → Sys2Proof.Machine.step s = exec i (settle sp r x))) ∧
  (∀ (sp : BitVec 7) (w : W32) (i : Sys2Proof.Instr) (c : Work) (rest : List Move) (s s1 : State), s.agenda = .tender sp :: rest →
     let x : State := { s with agenda := rest, cur := ⟨sp, .tender, none, false⟩ }
     let t := (s.span sp).tender
     let a := t.pc + BitVec.ofNat 52 (4 * t.pend.length)
     t.running = true → t.quar = false → s.boot ≠ 0 →
     (t.work = some c → Sys2Proof.Machine.step s = exec c.now x) ∧
     (t.work = none → fetchWord sp t.troot a x = .ok w s1 → (s1.span sp).tender = t → unitCheck true t.pend w = .ok i →
       ¬(w.toNat / 2 ^ 29 = 7 ∧ t.pend.length < 2) →
       Sys2Proof.Machine.step s = exec i (s1.mapTender sp (fun t =>
         { t with pend := [], pc := a + 4#52, work := some (unitOf t.pend i t.pc 0#32 0#4) })))) ∧
  (∀ (i : Sys2Proof.Instr) (rest : List Move) (s : State), s.agenda = .event i :: rest → streamOf i = none → isPrefixWord i = false →
     Sys2Proof.Machine.step s = exec i { s with agenda := rest }) ∧
  (∀ (sp : BitVec 7) (i : Nat) (rest : List Move) (s : State), s.agenda = .unfetch sp i :: rest →
     let x := s.span sp
     Sys2Proof.Machine.step s = .next ({ s with agenda := rest }.setSpan sp { x with icache := x.icache.eraseIdx i })) ∧
  (∀ (d : Bool) (rest : List Move) (s : State), s.agenda = .faults d :: rest →
     Sys2Proof.Machine.step s = .next { s with agenda := rest, defer := d }) ∧
  (∀ (sp : BitVec 7) (rest : List Move) (s : State), s.agenda = .tick sp :: rest → (s.span sp).snaps = [] →
     ∃ t, Sys2Proof.Machine.step s = .next t ∧ t.mem = s.mem ∧ (t.span sp).clock = (s.span sp).clock + 1 ∧
       ((∀ r, (s.reck sp r).faults = [] ∧ ∀ b ∈ (s.reck sp r).buffer, b.fault = none) →
       (∀ n, n ≠ sp → t.span n = s.span n) ∧
       ∀ r, let k := s.reck sp r
         let k' := t.reck sp r
         k.stopMet = false → clocked k = true →
         k'.steered = false ∧
         (Counts .S k → k'.scyS = k.scyS + 1#64) ∧ (¬ Counts .S k → k'.scyS = k.scyS) ∧
         (Counts .V k → k'.scyV = k.scyV + 1#64) ∧ (¬ Counts .V k → k'.scyV = k.scyV) ∧
         ∀ e, (e = .S ∨ e = .V) → (k'.str e).acted = false)) ∧
  ∀ s : State, s.agenda = [] →
     Sys2Proof.Machine.step s = Sys2Proof.Machine.step { s with agenda := [defaultMove s], turn := s.turn + 1 }
end

