-- ==== Sys2Proof/Laws/Answers.lean ====
section
/-! SUPPORT. All that an access of another device, the bank conflicts of a VGTH or VSCT, a freeze that meets a command and a
clock of the lease can come to (R112, R207, R235, R237, R340, R381). -/

namespace Sys2Proof.Machine

/-- An access of another device changes nothing, or is sent and holds (R381). -/
theorem askHome_cases (pa : Nat) (wr : Bool) (b : FlitBody) (s : State) :
    (∃ f, askHome pa wr b s = .trap f s) ∨ (∃ r, askHome pa wr b s = .ok r s) ∨ askHome pa wr b s = .hold s ∨
    ∃ v, s.access = some v ∧ askHome pa wr b s =
      .hold (mapRequests (fun l => pastUnits v.who l ++ [⟨some v.who, fabricDev pa, b, none, v.va, wr, pa, v.page, v.stale⟩])
        (sendFlit (fabricDev pa) b s)) := by
  unfold askHome
  split
  · exact .inl ⟨_, rfl⟩
  · rename_i w hw
    dsimp only
    split
    · split
      · exact .inl ⟨_, rfl⟩
      · exact .inr (.inl ⟨_, rfl⟩)
      · split
        · exact .inr (.inr (.inl rfl))
        · exact .inl ⟨_, rfl⟩
    · split
      · exact .inr (.inr (.inr ⟨w, hw, rfl⟩))
      · exact .inl ⟨_, rfl⟩

/-- Where nothing of an access stands with another device, none of its requests is found. -/
theorem sentFor_none {w : Access} {s : State} (h : ∀ q ∈ s.fabric.requests, q.who ≠ some w) (a : W64) (wr : Bool) :
    sentFor w a wr s = none := by
  unfold sentFor
  rw [List.find?_eq_none]
  intro q hq
  simp [h q hq]

/-- An access is translated until it has been sent, and stands from then on (R112). -/
theorem onceSent_cases (w : Access) (a : W64) (wr : Bool) (k : State → Out Phys) (s : State) :
    (sentFor w a wr s = none ∧ onceSent w a wr k s = k s) ∨
    ∃ q, sentFor w a wr s = some q ∧ onceSent w a wr k s = .ok ⟨q.pa, false, q.page.getD ⟨0#12, 0, 0⟩⟩ s := by
  unfold onceSent; cases sentFor w a wr s <;> simp

/-- The same for the target of an operand. -/
theorem sentTarget_cases (w : Access) (a : W64) (wr : Bool) (k : State → Out Target) (s : State) :
    (sentFor w a wr s = none ∧ sentTarget w a wr k s = k s) ∨
    ∃ q, sentFor w a wr s = some q ∧ sentTarget w a wr k s = .ok (.phys q.pa) s := by
  unfold sentTarget; cases sentFor w a wr s <;> simp

/-- A row on this device is read and written at its home. -/
theorem readTargetAs_near {t : Target} {s : State} (h : t.remote s = false) (v : Via) : readTargetAs v t s = readTarget t s := by
  simp [readTargetAs, h]
theorem writeTargetAs_near {t : Target} {s : State} (h : t.remote s = false) (v : Via) (m : BitVec 128) (x : Row) :
    writeTargetAs v t m x s = writeTarget t m x s := by
  simp [writeTargetAs, h]

/-- Giving up requests that nobody has made changes nothing. -/
theorem orphan_none {gone : Access → Bool} {s : State} (h : ∀ q ∈ s.fabric.requests, q.who.any gone = false) :
    orphan gone s = s := by
  have hf : s.fabric.requests.filter (fun q => !(q.who.any gone && q.answer.isSome)) = s.fabric.requests := by
    rw [List.filter_eq_self]; intro q hq; simp [h q hq]
  have hm : s.fabric.requests.map (fun q => if q.who.any gone then { q with who := none } else q) = s.fabric.requests := by
    conv => rhs; rw [← List.map_id s.fabric.requests]
    exact List.map_congr_left fun q hq => by simp [h q hq]
  simp only [orphan, mapRequests, hf]
  rw [hm]

/-- A command of a thread that does not stand is not cut (R340). -/
theorem cutStanding_awake {e : Stream} {s : State} (h : standing s.me = false) : cutStanding e s = s := by
  simp [cutStanding, h]

/-- The conflicts of a V word have gone by, or hold it, noted at its first try (R207). -/
theorem serveConflicts_cases (rows : List (Nat × BitVec 24)) (s : State) :
    serveConflicts rows s = .ok () s ∨ serveConflicts rows s = .hold s ∨
    ((s.unit .V).serve = none ∧ bankConflicts [] rows ≠ [] ∧
      serveConflicts rows s = .hold (s.modUnit .V (fun u => { u with serve := some (bankConflicts [] rows) }))) := by
  unfold serveConflicts
  split
  · dsimp only
    split
    · exact .inl rfl
    · rename_i h hl; exact .inr (.inr ⟨h, by simpa using hl, rfl⟩)
  · split
    · exact .inl rfl
    · exact .inr (.inl rfl)

/-- With no limit reached and no grant due the lease stands (R235, R237). -/
theorem leaseNow_still {sp : BitVec 7} {s : State} (h : limitReached (s.span sp) = false) (h' : (s.span sp).lease.due = 0#4) :
    leaseNow sp s = s := by
  have hr : revokeDue sp s = s := by unfold revokeDue; split <;> simp_all
  have hf : ∀ l : List (BitVec 2), l.find? (fun _ => false) = none := by simp
  unfold leaseNow; rw [hr]; unfold grantNext grantAmong
  simp [h', hf]

end Sys2Proof.Machine
end

