-- ==== Sys2Proof/Laws/State.lean ====
section
/-! SUPPORT. What each update of the state leaves as it was, field by field, and what it reads back. -/

namespace Sys2Proof.Machine

/-! ### A Span written -/

@[simp] theorem span_setSpan (s : State) (sp : BitVec 7) (x : Span) : (s.setSpan sp x).span sp = x := by
  simp [State.span, State.setSpan]
theorem span_setSpan_ne (s : State) (sp n : BitVec 7) (x : Span) (h : n ≠ sp) : (s.setSpan sp x).span n = s.span n := by
  have : sp.toNat ≠ n.toNat := fun e => h (BitVec.eq_of_toNat_eq e.symm)
  simp [State.span, State.setSpan, this]
@[simp] theorem setSpan_setSpan (s : State) (sp : BitVec 7) (x y : Span) : (s.setSpan sp x).setSpan sp y = s.setSpan sp y := by
  simp [State.setSpan]
@[simp] theorem setSpan_span (s : State) (sp : BitVec 7) : s.setSpan sp (s.span sp) = s := by
  simp [State.span, State.setSpan]
@[simp] theorem setSpan_mem (s : State) (sp : BitVec 7) (x : Span) : (s.setSpan sp x).mem = s.mem := rfl
@[simp] theorem setSpan_marks (s : State) (sp : BitVec 7) (x : Span) : (s.setSpan sp x).marks = s.marks := rfl
@[simp] theorem setSpan_walks (s : State) (sp : BitVec 7) (x : Span) : (s.setSpan sp x).walks = s.walks := rfl
@[simp] theorem setSpan_errors (s : State) (sp : BitVec 7) (x : Span) : (s.setSpan sp x).errors = s.errors := rfl
@[simp] theorem setSpan_errCount (s : State) (sp : BitVec 7) (x : Span) : (s.setSpan sp x).errCount = s.errCount := rfl
@[simp] theorem setSpan_boot (s : State) (sp : BitVec 7) (x : Span) : (s.setSpan sp x).boot = s.boot := rfl
@[simp] theorem setSpan_excluded (s : State) (sp : BitVec 7) (x : Span) : (s.setSpan sp x).excluded = s.excluded := rfl
@[simp] theorem setSpan_nodes (s : State) (sp : BitVec 7) (x : Span) : (s.setSpan sp x).nodes = s.nodes := rfl
@[simp] theorem setSpan_nextNode (s : State) (sp : BitVec 7) (x : Span) : (s.setSpan sp x).nextNode = s.nextNode := rfl
@[simp] theorem setSpan_nextOrder (s : State) (sp : BitVec 7) (x : Span) : (s.setSpan sp x).nextOrder = s.nextOrder := rfl
@[simp] theorem setSpan_windows (s : State) (sp : BitVec 7) (x : Span) : (s.setSpan sp x).windows = s.windows := rfl
@[simp] theorem setSpan_pmax (s : State) (sp : BitVec 7) (x : Span) : (s.setSpan sp x).pmax = s.pmax := rfl
@[simp] theorem setSpan_victim (s : State) (sp : BitVec 7) (x : Span) : (s.setSpan sp x).victim = s.victim := rfl
@[simp] theorem setSpan_inval (s : State) (sp : BitVec 7) (x : Span) : (s.setSpan sp x).inval = s.inval := rfl
@[simp] theorem setSpan_fabric (s : State) (sp : BitVec 7) (x : Span) : (s.setSpan sp x).fabric = s.fabric := rfl
@[simp] theorem setSpan_ports (s : State) (sp : BitVec 7) (x : Span) : (s.setSpan sp x).ports = s.ports := rfl
@[simp] theorem setSpan_hpnet (s : State) (sp : BitVec 7) (x : Span) : (s.setSpan sp x).hpnet = s.hpnet := rfl
@[simp] theorem setSpan_hplock (s : State) (sp : BitVec 7) (x : Span) : (s.setSpan sp x).hplock = s.hplock := rfl
@[simp] theorem setSpan_interval (s : State) (sp : BitVec 7) (x : Span) : (s.setSpan sp x).interval = s.interval := rfl
@[simp] theorem setSpan_permits (s : State) (sp : BitVec 7) (x : Span) : (s.setSpan sp x).permits = s.permits := rfl
@[simp] theorem setSpan_trust (s : State) (sp : BitVec 7) (x : Span) : (s.setSpan sp x).trust = s.trust := rfl
@[simp] theorem setSpan_free (s : State) (sp : BitVec 7) (x : Span) : (s.setSpan sp x).free = s.free := rfl
@[simp] theorem setSpan_cur (s : State) (sp : BitVec 7) (x : Span) : (s.setSpan sp x).cur = s.cur := rfl
@[simp] theorem setSpan_agenda (s : State) (sp : BitVec 7) (x : Span) : (s.setSpan sp x).agenda = s.agenda := rfl
@[simp] theorem setSpan_turn (s : State) (sp : BitVec 7) (x : Span) : (s.setSpan sp x).turn = s.turn := rfl
@[simp] theorem setSpan_cserved (s : State) (sp : BitVec 7) (x : Span) : (s.setSpan sp x).cserved = s.cserved := rfl
@[simp] theorem setSpan_qserved (s : State) (sp : BitVec 7) (x : Span) : (s.setSpan sp x).qserved = s.qserved := rfl
@[simp] theorem setSpan_defer (s : State) (sp : BitVec 7) (x : Span) : (s.setSpan sp x).defer = s.defer := rfl
@[simp] theorem setSpan_access (s : State) (sp : BitVec 7) (x : Span) : (s.setSpan sp x).access = s.access := rfl
@[simp] theorem setSpan_images (s : State) (sp : BitVec 7) (x : Span) : (s.setSpan sp x).images = s.images := rfl

/-! ### A Reckoner of a Span written -/

@[simp] theorem Span.reck_setReck (x : Span) (r : BitVec 2) (k : Reckoner) : (x.setReck r k).reck r = k := by
  simp [Span.reck, Span.setReck]
theorem Span.reck_setReck_ne (x : Span) (r n : BitVec 2) (k : Reckoner) (h : n ≠ r) : (x.setReck r k).reck n = x.reck n := by
  have : r.toNat ≠ n.toNat := fun e => h (BitVec.eq_of_toNat_eq e.symm)
  simp [Span.reck, Span.setReck, this]
@[simp] theorem Span.setReck_setReck (x : Span) (r : BitVec 2) (k l : Reckoner) : (x.setReck r k).setReck r l = x.setReck r l := by
  simp [Span.setReck]
@[simp] theorem Span.setReck_node (x : Span) (r : BitVec 2) (k : Reckoner) : (x.setReck r k).node = x.node := rfl
@[simp] theorem Span.setReck_nreck (x : Span) (r : BitVec 2) (k : Reckoner) : (x.setReck r k).nreck = x.nreck := rfl
@[simp] theorem Span.setReck_xroot (x : Span) (r : BitVec 2) (k : Reckoner) : (x.setReck r k).xroot = x.xroot := rfl
@[simp] theorem Span.setReck_tcfg (x : Span) (r : BitVec 2) (k : Reckoner) : (x.setReck r k).tcfg = x.tcfg := rfl
@[simp] theorem Span.setReck_tiles (x : Span) (r : BitVec 2) (k : Reckoner) : (x.setReck r k).tiles = x.tiles := rfl
@[simp] theorem Span.setReck_tileBank (x : Span) (r : BitVec 2) (k : Reckoner) : (x.setReck r k).tileBank = x.tileBank := rfl
@[simp] theorem Span.setReck_books (x : Span) (r : BitVec 2) (k : Reckoner) : (x.setReck r k).books = x.books := rfl
@[simp] theorem Span.setReck_arr (x : Span) (r : BitVec 2) (k : Reckoner) : (x.setReck r k).arr = x.arr := rfl
@[simp] theorem Span.setReck_sms (x : Span) (r : BitVec 2) (k : Reckoner) : (x.setReck r k).sms = x.sms := rfl
@[simp] theorem Span.setReck_ashape (x : Span) (r : BitVec 2) (k : Reckoner) : (x.setReck r k).ashape = x.ashape := rfl
@[simp] theorem Span.setReck_bgidle (x : Span) (r : BitVec 2) (k : Reckoner) : (x.setReck r k).bgidle = x.bgidle := rfl
@[simp] theorem Span.setReck_lease (x : Span) (r : BitVec 2) (k : Reckoner) : (x.setReck r k).lease = x.lease := rfl
@[simp] theorem Span.setReck_kserved (x : Span) (r : BitVec 2) (k : Reckoner) : (x.setReck r k).kserved = x.kserved := rfl
@[simp] theorem Span.setReck_live (x : Span) (r : BitVec 2) (k : Reckoner) : (x.setReck r k).live = x.live := rfl
@[simp] theorem Span.setReck_spadBank (x : Span) (r : BitVec 2) (k : Reckoner) : (x.setReck r k).spadBank = x.spadBank := rfl
@[simp] theorem Span.setReck_touched (x : Span) (r : BitVec 2) (k : Reckoner) : (x.setReck r k).touched = x.touched := rfl
@[simp] theorem Span.setReck_tlb (x : Span) (r : BitVec 2) (k : Reckoner) : (x.setReck r k).tlb = x.tlb := rfl
@[simp] theorem Span.setReck_staleTlb (x : Span) (r : BitVec 2) (k : Reckoner) : (x.setReck r k).staleTlb = x.staleTlb := rfl
@[simp] theorem Span.setReck_clock (x : Span) (r : BitVec 2) (k : Reckoner) : (x.setReck r k).clock = x.clock := rfl
@[simp] theorem Span.setReck_cap (x : Span) (r : BitVec 2) (k : Reckoner) : (x.setReck r k).cap = x.cap := rfl
@[simp] theorem Span.setReck_step (x : Span) (r : BitVec 2) (k : Reckoner) : (x.setReck r k).step = x.step := rfl
@[simp] theorem Span.setReck_fall (x : Span) (r : BitVec 2) (k : Reckoner) : (x.setReck r k).fall = x.fall := rfl
@[simp] theorem Span.setReck_ceil (x : Span) (r : BitVec 2) (k : Reckoner) : (x.setReck r k).ceil = x.ceil := rfl
@[simp] theorem Span.setReck_repl (x : Span) (r : BitVec 2) (k : Reckoner) : (x.setReck r k).repl = x.repl := rfl
@[simp] theorem Span.setReck_idleSince (x : Span) (r : BitVec 2) (k : Reckoner) : (x.setReck r k).idleSince = x.idleSince := rfl
@[simp] theorem Span.setReck_rowsOrd (x : Span) (r : BitVec 2) (k : Reckoner) : (x.setReck r k).rowsOrd = x.rowsOrd := rfl
@[simp] theorem Span.setReck_rowFatal (x : Span) (r : BitVec 2) (k : Reckoner) : (x.setReck r k).rowFatal = x.rowFatal := rfl
@[simp] theorem Span.setReck_switching (x : Span) (r : BitVec 2) (k : Reckoner) : (x.setReck r k).switching = x.switching := rfl
@[simp] theorem Span.setReck_tender (x : Span) (r : BitVec 2) (k : Reckoner) : (x.setReck r k).tender = x.tender := rfl
@[simp] theorem Span.setReck_bgidleOn (x : Span) (r : BitVec 2) (k : Reckoner) : (x.setReck r k).bgidleOn = x.bgidleOn := rfl
@[simp] theorem Span.setReck_volt (x : Span) (r : BitVec 2) (k : Reckoner) : (x.setReck r k).volt = x.volt := rfl
@[simp] theorem Span.setReck_margin (x : Span) (r : BitVec 2) (k : Reckoner) : (x.setReck r k).margin = x.margin := rfl
@[simp] theorem Span.setReck_snaps (x : Span) (r : BitVec 2) (k : Reckoner) : (x.setReck r k).snaps = x.snaps := rfl
@[simp] theorem Span.setReck_icache (x : Span) (r : BitVec 2) (k : Reckoner) : (x.setReck r k).icache = x.icache := rfl

/-! ### A Reckoner of the state written -/

@[simp] theorem reck_setReck (s : State) (sp : BitVec 7) (r : BitVec 2) (k : Reckoner) : (s.setReck sp r k).reck sp r = k := by
  simp [State.reck, State.setReck]
@[simp] theorem setReck_setReck (s : State) (sp : BitVec 7) (r : BitVec 2) (k l : Reckoner) :
    (s.setReck sp r k).setReck sp r l = s.setReck sp r l := by
  simp [State.setReck]
theorem reck_setReck_ne (s : State) (sp : BitVec 7) (r n : BitVec 2) (k : Reckoner) (h : n ≠ r) :
    (s.setReck sp r k).reck sp n = s.reck sp n := by
  simp [State.reck, State.setReck, Span.reck_setReck_ne _ _ _ _ h]
@[simp] theorem span_setReck (s : State) (sp : BitVec 7) (r : BitVec 2) (k : Reckoner) :
    (s.setReck sp r k).span sp = (s.span sp).setReck r k := by
  simp [State.setReck]
theorem span_setReck_ne (s : State) (sp n : BitVec 7) (r : BitVec 2) (k : Reckoner) (h : n ≠ sp) :
    (s.setReck sp r k).span n = s.span n := span_setSpan_ne _ _ _ _ h
@[simp] theorem setReck_mem (s : State) (sp : BitVec 7) (r : BitVec 2) (k : Reckoner) : (s.setReck sp r k).mem = s.mem := rfl
@[simp] theorem setReck_marks (s : State) (sp : BitVec 7) (r : BitVec 2) (k : Reckoner) : (s.setReck sp r k).marks = s.marks := rfl
@[simp] theorem setReck_walks (s : State) (sp : BitVec 7) (r : BitVec 2) (k : Reckoner) : (s.setReck sp r k).walks = s.walks := rfl
@[simp] theorem setReck_errors (s : State) (sp : BitVec 7) (r : BitVec 2) (k : Reckoner) : (s.setReck sp r k).errors = s.errors := rfl
@[simp] theorem setReck_errCount (s : State) (sp : BitVec 7) (r : BitVec 2) (k : Reckoner) : (s.setReck sp r k).errCount = s.errCount := rfl
@[simp] theorem setReck_boot (s : State) (sp : BitVec 7) (r : BitVec 2) (k : Reckoner) : (s.setReck sp r k).boot = s.boot := rfl
@[simp] theorem setReck_excluded (s : State) (sp : BitVec 7) (r : BitVec 2) (k : Reckoner) : (s.setReck sp r k).excluded = s.excluded := rfl
@[simp] theorem setReck_nodes (s : State) (sp : BitVec 7) (r : BitVec 2) (k : Reckoner) : (s.setReck sp r k).nodes = s.nodes := rfl
@[simp] theorem setReck_nextNode (s : State) (sp : BitVec 7) (r : BitVec 2) (k : Reckoner) : (s.setReck sp r k).nextNode = s.nextNode := rfl
@[simp] theorem setReck_nextOrder (s : State) (sp : BitVec 7) (r : BitVec 2) (k : Reckoner) : (s.setReck sp r k).nextOrder = s.nextOrder := rfl
@[simp] theorem setReck_windows (s : State) (sp : BitVec 7) (r : BitVec 2) (k : Reckoner) : (s.setReck sp r k).windows = s.windows := rfl
@[simp] theorem setReck_pmax (s : State) (sp : BitVec 7) (r : BitVec 2) (k : Reckoner) : (s.setReck sp r k).pmax = s.pmax := rfl
@[simp] theorem setReck_victim (s : State) (sp : BitVec 7) (r : BitVec 2) (k : Reckoner) : (s.setReck sp r k).victim = s.victim := rfl
@[simp] theorem setReck_inval (s : State) (sp : BitVec 7) (r : BitVec 2) (k : Reckoner) : (s.setReck sp r k).inval = s.inval := rfl
@[simp] theorem setReck_fabric (s : State) (sp : BitVec 7) (r : BitVec 2) (k : Reckoner) : (s.setReck sp r k).fabric = s.fabric := rfl
@[simp] theorem setReck_ports (s : State) (sp : BitVec 7) (r : BitVec 2) (k : Reckoner) : (s.setReck sp r k).ports = s.ports := rfl
@[simp] theorem setReck_hpnet (s : State) (sp : BitVec 7) (r : BitVec 2) (k : Reckoner) : (s.setReck sp r k).hpnet = s.hpnet := rfl
@[simp] theorem setReck_hplock (s : State) (sp : BitVec 7) (r : BitVec 2) (k : Reckoner) : (s.setReck sp r k).hplock = s.hplock := rfl
@[simp] theorem setReck_interval (s : State) (sp : BitVec 7) (r : BitVec 2) (k : Reckoner) : (s.setReck sp r k).interval = s.interval := rfl
@[simp] theorem setReck_permits (s : State) (sp : BitVec 7) (r : BitVec 2) (k : Reckoner) : (s.setReck sp r k).permits = s.permits := rfl
@[simp] theorem setReck_trust (s : State) (sp : BitVec 7) (r : BitVec 2) (k : Reckoner) : (s.setReck sp r k).trust = s.trust := rfl
@[simp] theorem setReck_free (s : State) (sp : BitVec 7) (r : BitVec 2) (k : Reckoner) : (s.setReck sp r k).free = s.free := rfl
@[simp] theorem setReck_cur (s : State) (sp : BitVec 7) (r : BitVec 2) (k : Reckoner) : (s.setReck sp r k).cur = s.cur := rfl
@[simp] theorem setReck_agenda (s : State) (sp : BitVec 7) (r : BitVec 2) (k : Reckoner) : (s.setReck sp r k).agenda = s.agenda := rfl
@[simp] theorem setReck_turn (s : State) (sp : BitVec 7) (r : BitVec 2) (k : Reckoner) : (s.setReck sp r k).turn = s.turn := rfl
@[simp] theorem setReck_cserved (s : State) (sp : BitVec 7) (r : BitVec 2) (k : Reckoner) : (s.setReck sp r k).cserved = s.cserved := rfl
@[simp] theorem setReck_qserved (s : State) (sp : BitVec 7) (r : BitVec 2) (k : Reckoner) : (s.setReck sp r k).qserved = s.qserved := rfl
@[simp] theorem setReck_defer (s : State) (sp : BitVec 7) (r : BitVec 2) (k : Reckoner) : (s.setReck sp r k).defer = s.defer := rfl
@[simp] theorem setReck_access (s : State) (sp : BitVec 7) (r : BitVec 2) (k : Reckoner) : (s.setReck sp r k).access = s.access := rfl
@[simp] theorem setReck_images (s : State) (sp : BitVec 7) (r : BitVec 2) (k : Reckoner) : (s.setReck sp r k).images = s.images := rfl

/-! ### A stream of a Reckoner written -/

@[simp] theorem Reckoner.str_setStr (k : Reckoner) (e : Stream) (t : StreamSt) : (k.setStr e t).str e = t := by
  simp [Reckoner.str, Reckoner.setStr]
theorem sidx_inj {e f : Stream} (h : (sidx e).val = (sidx f).val) : e = f := by
  cases e <;> cases f <;> first | rfl | exact absurd h (by decide)
theorem Reckoner.str_setStr_ne (k : Reckoner) (e f : Stream) (t : StreamSt) (h : f ≠ e) : (k.setStr e t).str f = k.str f := by
  have : (sidx e).val ≠ (sidx f).val := fun x => h (sidx_inj x).symm
  simp [Reckoner.str, Reckoner.setStr, this]
@[simp] theorem Reckoner.str_modStr (k : Reckoner) (e : Stream) (f : StreamSt → StreamSt) : (k.modStr e f).str e = f (k.str e) := by
  simp [Reckoner.modStr]
theorem Reckoner.str_modStr_ne (k : Reckoner) (e g : Stream) (f : StreamSt → StreamSt) (h : g ≠ e) : (k.modStr e f).str g = k.str g :=
  Reckoner.str_setStr_ne _ _ _ _ h
@[simp] theorem Reckoner.modStr_run (k : Reckoner) (e : Stream) (f : StreamSt → StreamSt) : (k.modStr e f).run = k.run := rfl
@[simp] theorem Reckoner.modStr_frozen (k : Reckoner) (e : Stream) (f : StreamSt → StreamSt) : (k.modStr e f).frozen = k.frozen := rfl
@[simp] theorem Reckoner.modStr_stop (k : Reckoner) (e : Stream) (f : StreamSt → StreamSt) : (k.modStr e f).stop = k.stop := rfl
@[simp] theorem Reckoner.modStr_halted (k : Reckoner) (e : Stream) (f : StreamSt → StreamSt) : (k.modStr e f).halted = k.halted := rfl
@[simp] theorem Reckoner.modStr_claim (k : Reckoner) (e : Stream) (f : StreamSt → StreamSt) : (k.modStr e f).claim = k.claim := rfl
@[simp] theorem Reckoner.modStr_skips (k : Reckoner) (e : Stream) (f : StreamSt → StreamSt) : (k.modStr e f).skips = k.skips := rfl
@[simp] theorem Reckoner.modStr_skipv (k : Reckoner) (e : Stream) (f : StreamSt → StreamSt) : (k.modStr e f).skipv = k.skipv := rfl
@[simp] theorem Reckoner.modStr_pc (k : Reckoner) (e : Stream) (f : StreamSt → StreamSt) : (k.modStr e f).pc = k.pc := rfl
@[simp] theorem Reckoner.modStr_pend (k : Reckoner) (e : Stream) (f : StreamSt → StreamSt) : (k.modStr e f).pend = k.pend := rfl
@[simp] theorem Reckoner.modStr_g (k : Reckoner) (e : Stream) (f : StreamSt → StreamSt) : (k.modStr e f).g = k.g := rfl
@[simp] theorem Reckoner.modStr_q (k : Reckoner) (e : Stream) (f : StreamSt → StreamSt) : (k.modStr e f).q = k.q := rfl
@[simp] theorem Reckoner.modStr_faults (k : Reckoner) (e : Stream) (f : StreamSt → StreamSt) : (k.modStr e f).faults = k.faults := rfl
@[simp] theorem Reckoner.modStr_tok (k : Reckoner) (e : Stream) (f : StreamSt → StreamSt) : (k.modStr e f).tok = k.tok := rfl
@[simp] theorem Reckoner.modStr_v (k : Reckoner) (e : Stream) (f : StreamSt → StreamSt) : (k.modStr e f).v = k.v := rfl
@[simp] theorem Reckoner.modStr_vlive (k : Reckoner) (e : Stream) (f : StreamSt → StreamSt) : (k.modStr e f).vlive = k.vlive := rfl
@[simp] theorem Reckoner.modStr_p (k : Reckoner) (e : Stream) (f : StreamSt → StreamSt) : (k.modStr e f).p = k.p := rfl
@[simp] theorem Reckoner.modStr_x (k : Reckoner) (e : Stream) (f : StreamSt → StreamSt) : (k.modStr e f).x = k.x := rfl
@[simp] theorem Reckoner.modStr_rms (k : Reckoner) (e : Stream) (f : StreamSt → StreamSt) : (k.modStr e f).rms = k.rms := rfl
@[simp] theorem Reckoner.modStr_w (k : Reckoner) (e : Stream) (f : StreamSt → StreamSt) : (k.modStr e f).w = k.w := rfl
@[simp] theorem Reckoner.modStr_vq (k : Reckoner) (e : Stream) (f : StreamSt → StreamSt) : (k.modStr e f).vq = k.vq := rfl
@[simp] theorem Reckoner.modStr_landings (k : Reckoner) (e : Stream) (f : StreamSt → StreamSt) : (k.modStr e f).landings = k.landings := rfl
@[simp] theorem Reckoner.modStr_buffer (k : Reckoner) (e : Stream) (f : StreamSt → StreamSt) : (k.modStr e f).buffer = k.buffer := rfl
@[simp] theorem Reckoner.modStr_posted (k : Reckoner) (e : Stream) (f : StreamSt → StreamSt) : (k.modStr e f).posted = k.posted := rfl
@[simp] theorem Reckoner.modStr_windows (k : Reckoner) (e : Stream) (f : StreamSt → StreamSt) : (k.modStr e f).windows = k.windows := rfl
@[simp] theorem Reckoner.modStr_scyS (k : Reckoner) (e : Stream) (f : StreamSt → StreamSt) : (k.modStr e f).scyS = k.scyS := rfl
@[simp] theorem Reckoner.modStr_scyV (k : Reckoner) (e : Stream) (f : StreamSt → StreamSt) : (k.modStr e f).scyV = k.scyV := rfl
@[simp] theorem Reckoner.modStr_mdef (k : Reckoner) (e : Stream) (f : StreamSt → StreamSt) : (k.modStr e f).mdef = k.mdef := rfl
@[simp] theorem Reckoner.modStr_vrm (k : Reckoner) (e : Stream) (f : StreamSt → StreamSt) : (k.modStr e f).vrm = k.vrm := rfl
@[simp] theorem Reckoner.modStr_cobase (k : Reckoner) (e : Stream) (f : StreamSt → StreamSt) : (k.modStr e f).cobase = k.cobase := rfl
@[simp] theorem Reckoner.modStr_rrb (k : Reckoner) (e : Stream) (f : StreamSt → StreamSt) : (k.modStr e f).rrb = k.rrb := rfl
@[simp] theorem Reckoner.modStr_lc (k : Reckoner) (e : Stream) (f : StreamSt → StreamSt) : (k.modStr e f).lc = k.lc := rfl
@[simp] theorem Reckoner.modStr_bret (k : Reckoner) (e : Stream) (f : StreamSt → StreamSt) : (k.modStr e f).bret = k.bret := rfl
@[simp] theorem Reckoner.modStr_boff (k : Reckoner) (e : Stream) (f : StreamSt → StreamSt) : (k.modStr e f).boff = k.boff := rfl
@[simp] theorem Reckoner.modStr_vqcb (k : Reckoner) (e : Stream) (f : StreamSt → StreamSt) : (k.modStr e f).vqcb = k.vqcb := rfl
@[simp] theorem Reckoner.modStr_ag (k : Reckoner) (e : Stream) (f : StreamSt → StreamSt) : (k.modStr e f).ag = k.ag := rfl
@[simp] theorem Reckoner.modStr_level (k : Reckoner) (e : Stream) (f : StreamSt → StreamSt) : (k.modStr e f).level = k.level := rfl
@[simp] theorem Reckoner.modStr_nlevel (k : Reckoner) (e : Stream) (f : StreamSt → StreamSt) : (k.modStr e f).nlevel = k.nlevel := rfl
@[simp] theorem Reckoner.modStr_group (k : Reckoner) (e : Stream) (f : StreamSt → StreamSt) : (k.modStr e f).group = k.group := rfl
@[simp] theorem Reckoner.modStr_pace (k : Reckoner) (e : Stream) (f : StreamSt → StreamSt) : (k.modStr e f).pace = k.pace := rfl
@[simp] theorem Reckoner.modStr_rwatch (k : Reckoner) (e : Stream) (f : StreamSt → StreamSt) : (k.modStr e f).rwatch = k.rwatch := rfl
@[simp] theorem Reckoner.modStr_dbgcmp (k : Reckoner) (e : Stream) (f : StreamSt → StreamSt) : (k.modStr e f).dbgcmp = k.dbgcmp := rfl
@[simp] theorem Reckoner.modStr_wait (k : Reckoner) (e : Stream) (f : StreamSt → StreamSt) : (k.modStr e f).wait = k.wait := rfl
@[simp] theorem Reckoner.modStr_fence (k : Reckoner) (e : Stream) (f : StreamSt → StreamSt) : (k.modStr e f).fence = k.fence := rfl
@[simp] theorem Reckoner.modStr_restart (k : Reckoner) (e : Stream) (f : StreamSt → StreamSt) : (k.modStr e f).restart = k.restart := rfl
@[simp] theorem Reckoner.modStr_pendLease (k : Reckoner) (e : Stream) (f : StreamSt → StreamSt) : (k.modStr e f).pendLease = k.pendLease := rfl
@[simp] theorem Reckoner.modStr_epoch (k : Reckoner) (e : Stream) (f : StreamSt → StreamSt) : (k.modStr e f).epoch = k.epoch := rfl
@[simp] theorem Reckoner.modStr_vbank (k : Reckoner) (e : Stream) (f : StreamSt → StreamSt) : (k.modStr e f).vbank = k.vbank := rfl
@[simp] theorem Reckoner.modStr_ready (k : Reckoner) (e : Stream) (f : StreamSt → StreamSt) : (k.modStr e f).ready = k.ready := rfl
@[simp] theorem Reckoner.modStr_lateHold (k : Reckoner) (e : Stream) (f : StreamSt → StreamSt) : (k.modStr e f).lateHold = k.lateHold := rfl
@[simp] theorem Reckoner.modStr_stopMet (k : Reckoner) (e : Stream) (f : StreamSt → StreamSt) : (k.modStr e f).stopMet = k.stopMet := rfl
@[simp] theorem Reckoner.modStr_bretOn (k : Reckoner) (e : Stream) (f : StreamSt → StreamSt) : (k.modStr e f).bretOn = k.bretOn := rfl
@[simp] theorem Reckoner.modStr_boffOn (k : Reckoner) (e : Stream) (f : StreamSt → StreamSt) : (k.modStr e f).boffOn = k.boffOn := rfl
@[simp] theorem Reckoner.modStr_exitPc (k : Reckoner) (e : Stream) (f : StreamSt → StreamSt) : (k.modStr e f).exitPc = k.exitPc := rfl
@[simp] theorem Reckoner.modStr_steered (k : Reckoner) (e : Stream) (f : StreamSt → StreamSt) : (k.modStr e f).steered = k.steered := rfl
@[simp] theorem Reckoner.modStr_argSeq (k : Reckoner) (e : Stream) (f : StreamSt → StreamSt) : (k.modStr e f).argSeq = k.argSeq := rfl
@[simp] theorem Reckoner.modStr_q2turn (k : Reckoner) (e : Stream) (f : StreamSt → StreamSt) : (k.modStr e f).q2turn = k.q2turn := rfl

/-! ### The current core -/

@[simp] theorem me_mapMe (s : State) (f : Reckoner → Reckoner) : (s.mapMe f).me = f s.me := by
  simp [State.mapMe, State.setMe, State.me, State.cr]
@[simp] theorem mapMe_mapMe (s : State) (f g : Reckoner → Reckoner) : (s.mapMe f).mapMe g = s.mapMe (fun k => g (f k)) := by
  simp [State.mapMe, State.setMe, State.me, State.cr]
@[simp] theorem mapMe_cr (s : State) (f : Reckoner → Reckoner) : (s.mapMe f).cr = s.cr := rfl
@[simp] theorem mapMe_atTender (s : State) (f : Reckoner → Reckoner) : (s.mapMe f).atTender = s.atTender := rfl
@[simp] theorem my_mapMe (s : State) (f : Reckoner → Reckoner) : (s.mapMe f).my = s.my.setReck s.cr (f s.me) := by
  simp [State.mapMe, State.setMe, State.my]
@[simp] theorem reck_mapMe (s : State) (f : Reckoner → Reckoner) : (s.mapMe f).reck s.cur.sp s.cr = f s.me := by
  simp [State.mapMe, State.setMe]
theorem span_mapMe_ne (s : State) (n : BitVec 7) (f : Reckoner → Reckoner) (h : n ≠ s.cur.sp) : (s.mapMe f).span n = s.span n :=
  span_setReck_ne _ _ _ _ _ h
theorem reck_mapMe_ne (s : State) (n : BitVec 2) (f : Reckoner → Reckoner) (h : n ≠ s.cr) :
    (s.mapMe f).reck s.cur.sp n = s.reck s.cur.sp n := reck_setReck_ne _ _ _ _ _ h
@[simp] theorem mapMe_mem (s : State) (f : Reckoner → Reckoner) : (s.mapMe f).mem = s.mem := rfl
@[simp] theorem mapMe_marks (s : State) (f : Reckoner → Reckoner) : (s.mapMe f).marks = s.marks := rfl
@[simp] theorem mapMe_walks (s : State) (f : Reckoner → Reckoner) : (s.mapMe f).walks = s.walks := rfl
@[simp] theorem mapMe_errors (s : State) (f : Reckoner → Reckoner) : (s.mapMe f).errors = s.errors := rfl
@[simp] theorem mapMe_errCount (s : State) (f : Reckoner → Reckoner) : (s.mapMe f).errCount = s.errCount := rfl
@[simp] theorem mapMe_boot (s : State) (f : Reckoner → Reckoner) : (s.mapMe f).boot = s.boot := rfl
@[simp] theorem mapMe_excluded (s : State) (f : Reckoner → Reckoner) : (s.mapMe f).excluded = s.excluded := rfl
@[simp] theorem mapMe_nodes (s : State) (f : Reckoner → Reckoner) : (s.mapMe f).nodes = s.nodes := rfl
@[simp] theorem mapMe_nextNode (s : State) (f : Reckoner → Reckoner) : (s.mapMe f).nextNode = s.nextNode := rfl
@[simp] theorem mapMe_nextOrder (s : State) (f : Reckoner → Reckoner) : (s.mapMe f).nextOrder = s.nextOrder := rfl
@[simp] theorem mapMe_windows (s : State) (f : Reckoner → Reckoner) : (s.mapMe f).windows = s.windows := rfl
@[simp] theorem mapMe_pmax (s : State) (f : Reckoner → Reckoner) : (s.mapMe f).pmax = s.pmax := rfl
@[simp] theorem mapMe_victim (s : State) (f : Reckoner → Reckoner) : (s.mapMe f).victim = s.victim := rfl
@[simp] theorem mapMe_inval (s : State) (f : Reckoner → Reckoner) : (s.mapMe f).inval = s.inval := rfl
@[simp] theorem mapMe_fabric (s : State) (f : Reckoner → Reckoner) : (s.mapMe f).fabric = s.fabric := rfl
@[simp] theorem mapMe_ports (s : State) (f : Reckoner → Reckoner) : (s.mapMe f).ports = s.ports := rfl
@[simp] theorem mapMe_hpnet (s : State) (f : Reckoner → Reckoner) : (s.mapMe f).hpnet = s.hpnet := rfl
@[simp] theorem mapMe_hplock (s : State) (f : Reckoner → Reckoner) : (s.mapMe f).hplock = s.hplock := rfl
@[simp] theorem mapMe_interval (s : State) (f : Reckoner → Reckoner) : (s.mapMe f).interval = s.interval := rfl
@[simp] theorem mapMe_permits (s : State) (f : Reckoner → Reckoner) : (s.mapMe f).permits = s.permits := rfl
@[simp] theorem mapMe_trust (s : State) (f : Reckoner → Reckoner) : (s.mapMe f).trust = s.trust := rfl
@[simp] theorem mapMe_free (s : State) (f : Reckoner → Reckoner) : (s.mapMe f).free = s.free := rfl
@[simp] theorem mapMe_cur (s : State) (f : Reckoner → Reckoner) : (s.mapMe f).cur = s.cur := rfl
@[simp] theorem mapMe_agenda (s : State) (f : Reckoner → Reckoner) : (s.mapMe f).agenda = s.agenda := rfl
@[simp] theorem mapMe_turn (s : State) (f : Reckoner → Reckoner) : (s.mapMe f).turn = s.turn := rfl
@[simp] theorem mapMe_cserved (s : State) (f : Reckoner → Reckoner) : (s.mapMe f).cserved = s.cserved := rfl
@[simp] theorem mapMe_qserved (s : State) (f : Reckoner → Reckoner) : (s.mapMe f).qserved = s.qserved := rfl
@[simp] theorem mapMe_defer (s : State) (f : Reckoner → Reckoner) : (s.mapMe f).defer = s.defer := rfl
@[simp] theorem mapMe_access (s : State) (f : Reckoner → Reckoner) : (s.mapMe f).access = s.access := rfl
@[simp] theorem mapMe_images (s : State) (f : Reckoner → Reckoner) : (s.mapMe f).images = s.images := rfl

end Sys2Proof.Machine
end

