-- ==== Sys2Proof/Laws/Memory.lean ====
section
/-! SUPPORT. Memory as data: reads after writes, and the canonical form kept by every operation. -/

namespace Sys2Proof.Machine

/-! ### One byte -/

@[simp] theorem Memory.get_nil (a : Nat) : Memory.get [] a = Memory.default := rfl
@[simp] theorem Memory.wf_nil : Memory.wf [] = true := rfl

theorem Memory.get_put (m : Memory) (a c : Nat) (b : Byte) (h : Memory.wf m = true) :
    (m.put a b).get c = if a = c then b else m.get c := by
  induction m with
  | nil => unfold Memory.put; split <;> simp_all [Memory.get]
  | cons e m ih =>
    obtain ⟨k, v⟩ := e
    have hm : Memory.wf m = true := by cases m <;> simp_all [Memory.wf]
    have low : ∀ (m : Memory) (k : Nat) (v : Byte), Memory.wf ((k, v) :: m) = true → ∀ c, c ≤ k → m.get c = Memory.default := by
      intro m
      induction m with
      | nil => intros; rfl
      | cons e m ih =>
        obtain ⟨k', v'⟩ := e
        intro k v h c hc
        simp only [Memory.wf, Bool.and_eq_true, decide_eq_true_eq] at h
        rw [Memory.get, if_neg (by omega)]
        exact ih k' v' h.2 c (by omega)
    unfold Memory.put
    split
    · split
      · by_cases hc : a = c
        · subst hc; simp_all [Memory.get]; rw [if_neg (by omega)]; exact low m k v h a (by omega)
        · simp [hc]
      · simp [Memory.get]
    · split
      · subst_vars; split
        · by_cases hc : k = c
          · subst hc; simp [low m k v h k le_rfl, *]
          · simp [Memory.get, hc]
        · by_cases hc : k = c <;> simp [Memory.get, hc]
      · simp only [Memory.get, ih hm]
        by_cases hk : k = c
        · subst hk; simp; omega
        · simp [hk]

/-- The first listed address is above a bound. -/
def Memory.above (m : Memory) (a : Nat) : Prop := ∀ e ∈ m.head?, a < e.1

theorem Memory.wf_cons (k : Nat) (v : Byte) (m : Memory) :
    Memory.wf ((k, v) :: m) = true ↔ v ≠ Memory.default ∧ Memory.above m k ∧ Memory.wf m = true := by
  cases m with
  | nil => simp [Memory.wf, Memory.above]
  | cons e m => obtain ⟨k', v'⟩ := e; simp [Memory.wf, Memory.above, and_assoc]

theorem Memory.above_put (m : Memory) (a k : Nat) (b : Byte) (h : Memory.above m k) (ha : k < a) (hw : Memory.wf m = true) :
    Memory.above (m.put a b) k := by
  cases m with
  | nil => unfold Memory.put; split <;> simp [Memory.above, ha]
  | cons e m =>
    obtain ⟨c, v⟩ := e
    rw [Memory.wf_cons] at hw
    unfold Memory.put
    have hc : k < c := h (c, v) (by simp)
    have hm : Memory.above m k := fun e he => lt_trans hc (hw.2.1 e he)
    split
    · split <;> simp [Memory.above, ha, hc]
    · split
      · split
        · exact hm
        · simp [Memory.above, ha]
      · simp [Memory.above, hc]

/-- A byte written keeps the canonical form. -/
theorem Memory.wf_put (m : Memory) (a : Nat) (b : Byte) (h : Memory.wf m = true) : Memory.wf (m.put a b) = true := by
  induction m with
  | nil => unfold Memory.put; split <;> simp_all [Memory.wf]
  | cons e m ih =>
    obtain ⟨k, v⟩ := e
    have h0 := h
    rw [Memory.wf_cons] at h
    unfold Memory.put
    split
    · split
      · exact h0
      · rw [Memory.wf_cons]; exact ⟨by assumption, by simp [Memory.above]; assumption, h0⟩
    · split
      · split
        · exact h.2.2
        · rw [Memory.wf_cons]; subst_vars; exact ⟨by assumption, h.2.1, h.2.2⟩
      · rw [Memory.wf_cons]
        exact ⟨h.1, Memory.above_put m a k b h.2.1 (by omega) h.2.2, ih h.2.2⟩

/-- Entries left out keep the canonical form. -/
theorem Memory.wf_filter (m : Memory) (p : Nat × Byte → Bool) (h : Memory.wf m = true) :
    Memory.wf (m.filter p) = true := by
  have up : ∀ (m : Memory) (k : Nat), Memory.above m k → Memory.wf m = true → Memory.above (m.filter p) k := by
    intro m
    induction m with
    | nil => intro k hk _; exact hk
    | cons e m ih =>
      obtain ⟨c, v⟩ := e
      intro k hk hw
      rw [Memory.wf_cons] at hw
      have hc : k < c := hk (c, v) (by simp)
      rw [List.filter_cons]
      split
      · simp [Memory.above, hc]
      · exact ih k (fun e he => lt_trans hc (hw.2.1 e he)) hw.2.2
  induction m with
  | nil => rfl
  | cons e m ih =>
    obtain ⟨k, v⟩ := e
    rw [Memory.wf_cons] at h
    rw [List.filter_cons]
    split
    · rw [Memory.wf_cons]; exact ⟨h.1, up m k h.2.1 h.2.2, ih h.2.2⟩
    · exact ih h.2.2

/-! ### Several bytes -/

theorem Memory.wf_putNat (n : Nat) : ∀ (m : Memory) (a mask v : Nat), Memory.wf m = true → Memory.wf (m.putNat a mask v n) = true := by
  induction n with
  | zero => intro m a mask v h; exact h
  | succ n ih =>
    intro m a mask v h
    unfold Memory.putNat
    apply ih
    split
    · exact Memory.wf_put m a _ h
    · exact h

theorem Memory.wf_putRow (m : Memory) (r : Nat) (mask : BitVec 128) (v : Row) (h : Memory.wf m = true) :
    Memory.wf (m.putRow r mask v) = true := Memory.wf_putNat _ _ _ _ _ h

/-- A byte outside a stored number keeps its value. -/
theorem Memory.get_putNat_out (n : Nat) : ∀ (m : Memory) (a mask v c : Nat), Memory.wf m = true → (c < a ∨ a + n ≤ c) →
    (m.putNat a mask v n).get c = m.get c := by
  induction n with
  | zero => intros; rfl
  | succ n ih =>
    intro m a mask v c h hc
    unfold Memory.putNat
    rw [ih _ _ _ _ _ (by split; exacts [Memory.wf_put m a _ h, h]) (by omega)]
    split
    · rw [Memory.get_put m a c _ h, if_neg (by omega)]
    · rfl

/-- A byte of a stored number reads back, if its mask bit is set; else it keeps its value. -/
theorem Memory.get_putNat_in (n : Nat) : ∀ (m : Memory) (a mask v j : Nat), Memory.wf m = true → j < n →
    (m.putNat a mask v n).get (a + j) =
      if mask.testBit j then BitVec.ofNat 8 (v / 256 ^ j) else m.get (a + j) := by
  induction n with
  | zero => intros; omega
  | succ n ih =>
    intro m a mask v j h hj
    unfold Memory.putNat
    have hw : Memory.wf (if mask % 2 = 1 then m.put a (BitVec.ofNat 8 v) else m) = true := by
      split; exacts [Memory.wf_put m a _ h, h]
    rcases j with _ | j
    · rw [Memory.get_putNat_out n _ _ _ _ _ hw (by omega)]
      simp only [Nat.add_zero, Nat.testBit_zero, pow_zero, Nat.div_one, decide_eq_true_eq]
      split
      · rw [Memory.get_put m a a _ h, if_pos rfl]
      · rfl
    · have := ih _ (a + 1) (mask / 2) (v / 256) j hw (by omega)
      rw [show a + (j + 1) = a + 1 + j by omega, this, Nat.testBit_succ, Nat.div_div_eq_div_mul, ← Nat.pow_succ']
      congr 1
      split
      · rw [Memory.get_put m a _ _ h, if_neg (by omega)]
      · rfl

/-- A byte outside a stored row keeps its value. -/
theorem Memory.get_putRow_out (m : Memory) (r : Nat) (mask : BitVec 128) (v : Row) (c : Nat) (h : Memory.wf m = true)
    (hc : c / 128 ≠ r) : (m.putRow r mask v).get c = m.get c :=
  Memory.get_putNat_out _ _ _ _ _ _ h (by omega)

/-! ### The state that an access answers -/

@[simp] theorem Out.also_ok (u : Unit) (s : State) (k : State → Out Unit) : (Out.ok u s).also k = k s := rfl
@[simp] theorem Out.also_mem (x : Out Unit) (k : State → Out Unit) (hk : ∀ t, (k t).st.mem = t.mem) :
    (x.also k).st.mem = x.st.mem := by
  cases x <;> first | exact hk _ | rfl
/-- Two banks are ready together where the first is, and the second after it (R196). -/
theorem Out.also_eq_ok {x : Out Unit} {k : State → Out Unit} {t : State} :
    x.also k = .ok () t ↔ ∃ s, x = .ok () s ∧ k s = .ok () t := by
  cases x <;> simp [Out.also]

@[simp] theorem Out.st_ok {α : Type} (a : α) (s : State) : (Out.ok a s).st = s := rfl
@[simp] theorem Out.st_hold {α : Type} (s : State) : (Out.hold s : Out α).st = s := rfl
@[simp] theorem Out.st_trap {α : Type} (f : Flt) (s : State) : (Out.trap f s : Out α).st = s := rfl

theorem Out.bind_ok {α β : Type} (a : α) (s : State) (k : α → State → Out β) : (Out.ok a s).bind k = k a s := rfl

/-- A property of the answered state that both parts of a sequence keep. -/
theorem Out.bind_keeps {α β : Type} (P : State → Prop) (x : Out α) (k : α → State → Out β) (hx : P x.st)
    (hk : ∀ a t, P t → P (k a t).st) : P (x.bind k).st := by
  cases x <;> simp_all [Out.bind, Out.st]

@[simp] theorem Out.st_map {α β : Type} (x : Out α) (f : α → β) : (x.map f).st = x.st := by
  cases x <;> rfl

theorem Out.mem_bind {α β : Type} (m : Memory) (x : Out α) (k : α → State → Out β) (hx : x.st.mem = m)
    (hk : ∀ a t, t.mem = m → (k a t).st.mem = m) : (x.bind k).st.mem = m :=
  Out.bind_keeps (fun s => s.mem = m) x k hx hk

theorem Out.wf_bind {α β : Type} (x : Out α) (k : α → State → Out β) (hx : x.st.mem.wf = true)
    (hk : ∀ a t, t.mem.wf = true → (k a t).st.mem.wf = true) : (x.bind k).st.mem.wf = true :=
  Out.bind_keeps (fun s => s.mem.wf = true) x k hx hk

/-- A property that rests on memory alone. -/
def OfMem (P : State → Prop) : Prop := ∀ s t : State, t.mem = s.mem → P s → P t

theorem ofMem_mem (m : Memory) : OfMem (fun s => s.mem = m) := fun _ _ h hs => h.trans hs
theorem ofMem_wf : OfMem (fun s => s.mem.wf = true) := fun _ _ h hs => by
  have hs : _ = true := hs
  show _ = true
  rw [h]; exact hs

theorem Out.mem_of_eq {α : Type} {x y : Out α} (h : x = y) : x.st.mem = y.st.mem := by rw [h]

/-- A fold of updates keeps what each of them keeps. -/
theorem foldl_keeps {α σ : Type} (P : σ → Prop) (f : σ → α → σ) (h : ∀ s a, P s → P (f s a)) (l : List α) (s : σ) (hs : P s) :
    P (l.foldl f s) := by
  induction l generalizing s with
  | nil => exact hs
  | cons a l ih => exact ih _ (h s a hs)

@[simp] theorem foldl_mem {α : Type} (f : State → α → State) (h : ∀ s a, (f s a).mem = s.mem) (l : List α) (s : State) :
    (l.foldl f s).mem = s.mem :=
  foldl_keeps (fun t => t.mem = s.mem) f (fun t a ht => (h t a).trans ht) l s rfl

theorem foldl_wf {α : Type} (f : State → α → State) (h : ∀ s a, s.mem.wf = true → (f s a).mem.wf = true) (l : List α) (s : State)
    (hs : s.mem.wf = true) : (l.foldl f s).mem.wf = true :=
  foldl_keeps (fun t => t.mem.wf = true) f h l s hs

end Sys2Proof.Machine
end

