-- ==== Sys2Proof/Laws/KeepFlits.lean ====
section
/-! SUPPORT. What the definitions of Machine/Flits.lean keep of memory: its bytes, or its canonical form
(R17). -/

set_option maxRecDepth 2000
set_option linter.all false

namespace Sys2Proof.Machine

@[simp] theorem mapLink_mem (i : Fin 16) (f : Link → Link) (s : State) :
    (mapLink i f s).mem = s.mem := by
  unfold mapLink; simp [*]

@[simp] theorem sendFlit_mem (dst : BitVec 8) (b : FlitBody) (s : State) :
    (sendFlit dst b s).mem = s.mem := by
  unfold sendFlit; (repeat' first | with_reducible rfl | with_reducible assumption | (simp [*]; done) | (split <;> try (rename_i h; first | replace h := waitTokens_mem _ _ _ _ h | (replace h := congrArg (fun o => o.st.mem) h; simp [*] at h) | (replace h := congrArg (fun o => o.2.st.mem) h; simp [*] at h) | (replace h := congrArg (fun o => o.1.mem) h; simp [*] at h) | (replace h := congrArg (fun o => o.2.mem) h; simp [*] at h))) | split | split | with_reducible apply Out.mem_bind | intro _ | dsimp only)

@[simp] theorem mapRequests_mem (f : List Request → List Request) (s : State) :
    (mapRequests f s).mem = s.mem := by
  unfold mapRequests; simp [*]

@[simp] theorem forget_mem (w : Access) (s : State) :
    (forget w s).mem = s.mem := by
  unfold forget; simp [*]

@[simp] theorem orphan_mem (gone : Access → Bool) (s : State) :
    (orphan gone s).mem = s.mem := by
  unfold orphan; simp [*]

end Sys2Proof.Machine
end

