-- ==== Sys2Proof/Laws/KeepMem.lean ====
section
/-! SUPPORT. What the definitions of Machine/Mem.lean keep of memory: its bytes, or its canonical form
(R17). -/

set_option maxRecDepth 2000
set_option linter.all false

namespace Sys2Proof.Machine

@[simp] theorem wholeOr_mem (s : State) (x : Out Unit) (h : x.st.mem = s.mem) : (wholeOr s x).st.mem = s.mem := by
  cases x <;> simp_all [wholeOr]

@[simp] theorem useBank_mem (sp : BitVec 7) (n : BankName) (s : State) :
    (useBank sp n s).st.mem = s.mem := by
  unfold useBank; (repeat' first | with_reducible rfl | with_reducible assumption | (simp [*]; done) | (split <;> try (rename_i h; replace h := congrArg (fun o => o.st.mem) h; simp [*] at h)) | split | split | with_reducible apply Out.mem_bind | intro _ | dsimp only)

@[simp] theorem bankDied_mem (sp : BitVec 7) (n : BankName) (kill : Span → Span) (s : State) :
    (bankDied sp n kill s).mem = s.mem := by
  unfold bankDied; simp [*]

@[simp] theorem sparing_mem {α : Type} (s : State) (x : Out α) : (sparing s x).st.mem = x.st.mem := by
  cases x <;> rfl

@[simp] theorem correctRow_mem (r : Nat) (s : State) :
    (correctRow r s).mem = s.mem := by
  unfold correctRow; (repeat' first | with_reducible rfl | with_reducible assumption | (simp [*]; done) | (split <;> try (rename_i h; replace h := congrArg (fun o => o.st.mem) h; simp [*] at h)) | split | split | with_reducible apply Out.mem_bind | intro _ | dsimp only)

@[simp] theorem meetRow_mem (pa : Nat) (wr : Bool) (s : State) :
    (meetRow pa wr s).st.mem = s.mem := by
  unfold meetRow; (repeat' first | with_reducible rfl | with_reducible assumption | (simp [*]; done) | (split <;> try (rename_i h; replace h := congrArg (fun o => o.st.mem) h; simp [*] at h)) | split | split | with_reducible apply Out.mem_bind | intro _ | dsimp only)

@[simp] theorem askHome_mem (pa : Nat) (wr : Bool) (b : FlitBody) (s : State) :
    (askHome pa wr b s).st.mem = s.mem := by
  unfold askHome; (repeat' first | with_reducible rfl | with_reducible assumption | (simp [*]; done) | (split <;> try (rename_i h; replace h := congrArg (fun o => o.st.mem) h; simp [*] at h)) | split | split | with_reducible apply Out.mem_bind | intro _ | dsimp only)

@[simp] theorem readRowAt_mem (pa : Nat) (s : State) :
    (readRowAt pa s).st.mem = s.mem := by
  unfold readRowAt; (repeat' first | with_reducible rfl | with_reducible assumption | (simp [*]; done) | (split <;> try (rename_i h; replace h := congrArg (fun o => o.st.mem) h; simp [*] at h)) | split | split | with_reducible apply Out.mem_bind | intro _ | dsimp only)

@[simp] theorem writeRowAt_wf (pa : Nat) (mask : BitVec 128) (v : Row) (s : State) (hw : s.mem.wf = true) :
    (writeRowAt pa mask v s).st.mem.wf = true := by
  unfold writeRowAt; (repeat' first | (simp [*, Memory.wf_putRow, Memory.wf_putNat, Memory.wf_put, Memory.wf_filter]; done) | (split <;> try (rename_i h; replace h := congrArg (fun o => o.st.mem.wf) h; simp [*] at h)) | split | split | with_reducible apply Out.wf_bind | intro _ | dsimp only)

@[simp] theorem readSpad_mem (sp : BitVec 7) (off : BitVec 24) (s : State) :
    (readSpad sp off s).st.mem = s.mem := by
  unfold readSpad; (repeat' first | with_reducible rfl | with_reducible assumption | (simp [*]; done) | (split <;> try (rename_i h; replace h := congrArg (fun o => o.st.mem) h; simp [*] at h)) | split | split | with_reducible apply Out.mem_bind | intro _ | dsimp only)

@[simp] theorem reviveRow_wf (sp : BitVec 7) (off : BitVec 24) (s : State) (hw : s.mem.wf = true) :
    (reviveRow sp off s).mem.wf = true := by
  unfold reviveRow; (repeat' first | (simp [*, Memory.wf_putRow, Memory.wf_putNat, Memory.wf_put, Memory.wf_filter]; done) | (split <;> try (rename_i h; replace h := congrArg (fun o => o.st.mem.wf) h; simp [*] at h)) | split | split | with_reducible apply Out.wf_bind | intro _ | dsimp only)

@[simp] theorem writeSpad_wf (sp : BitVec 7) (off : BitVec 24) (mask : BitVec 128) (v : Row) (s : State) (hw : s.mem.wf = true) :
    (writeSpad sp off mask v s).st.mem.wf = true := by
  unfold writeSpad; (repeat' first | (simp [*, Memory.wf_putRow, Memory.wf_putNat, Memory.wf_put, Memory.wf_filter]; done) | (split <;> try (rename_i h; replace h := congrArg (fun o => o.st.mem.wf) h; simp [*] at h)) | split | split | with_reducible apply Out.wf_bind | intro _ | dsimp only)

@[simp] theorem killSpadBank_mem (sp : BitVec 7) (i : BitVec 7) (s : State) :
    (killSpadBank sp i s).mem = s.mem := by
  unfold killSpadBank; simp [*]

end Sys2Proof.Machine
end

