-- ==== Sys2Proof/Laws/KeepUnits.lean ====
section
/-! SUPPORT. What the definitions of Machine/Units.lean keep of memory: its bytes, or its canonical form
(R17). -/

set_option maxRecDepth 2000
set_option linter.all false

namespace Sys2Proof.Machine

@[simp] theorem State_setMy_mem (s : State) (x : Span) :
    (State.setMy s x).mem = s.mem := by
  unfold State.setMy; simp [*]

@[simp] theorem State_setMe_mem (s : State) (k : Reckoner) :
    (State.setMe s k).mem = s.mem := by
  unfold State.setMe; simp [*]

@[simp] theorem State_modStr_mem (s : State) (e : Stream) (f : StreamSt → StreamSt) :
    (State.modStr s e f).mem = s.mem := by
  unfold State.modStr; simp [*]

@[simp] theorem State_modUnit_mem (s : State) (e : Stream) (f : Work → Work) :
    (State.modUnit s e f).mem = s.mem := by
  unfold State.modUnit; (repeat' first | with_reducible rfl | with_reducible assumption | (simp [*]; done) | (split <;> try (rename_i h; replace h := congrArg (fun o => o.st.mem) h; simp [*] at h)) | split | split | with_reducible apply Out.mem_bind | intro _ | dsimp only)

end Sys2Proof.Machine
end

