-- ==== Sys2Proof/Laws/KeepTranslate.lean ====
section
/-! SUPPORT. What the definitions of Machine/Translate.lean keep of memory: its bytes, or its canonical form
(R17). -/

set_option maxRecDepth 2000
set_option linter.all false

namespace Sys2Proof.Machine

@[simp] theorem walkFix_mem (va : BitVec 52) (lvl table : Nat) (s : State) : (walkFix va lvl table s).mem = s.mem := by
  induction lvl generalizing table s with
  | zero => unfold walkFix; dsimp only; repeat' (first | rfl | (simp; done) | split)
  | succ k ih => unfold walkFix; dsimp only; repeat' (first | rfl | (rw [ih, correctRow_mem]; done) | (simp only [correctRow_mem]; done) | split)

theorem foldl_setSpan_mem (l : List (BitVec 7)) (f : State → BitVec 7 → Span) (s : State) :
    (l.foldl (fun s n => s.setSpan n (f s n)) s).mem = s.mem := by
  induction l generalizing s with
  | nil => rfl
  | cons n l ih => simp [ih]

@[simp] theorem finishWalk_mem (i : Nat) (w : Walk) (s : State) :
    (finishWalk i w s).mem = s.mem := by
  unfold finishWalk; dsimp only; repeat' split
  all_goals simp [foldl_setSpan_mem]

@[simp] theorem joinWalk_mem (sp : BitVec 7) (root : W64) (va : BitVec 52) (s : State) :
    (joinWalk sp root va s).mem = s.mem := by
  unfold joinWalk; repeat' split
  all_goals simp

@[simp] theorem translateIn_mem (room : Bool) (sp : BitVec 7) (root : W64) (q : Ask) (va : BitVec 52) (s : State) :
    (translateIn room sp root q va s).st.mem = s.mem := by
  unfold translateIn; (repeat' first | with_reducible rfl | with_reducible assumption | (simp [*]; done) | (split <;> try (rename_i h; replace h := congrArg (fun o => o.st.mem) h; simp [*] at h)) | split | split | with_reducible apply Out.mem_bind | intro _ | dsimp only)

@[simp] theorem translateVa_mem (sp : BitVec 7) (root : W64) (q : Ask) (va : BitVec 52) (s : State) :
    (translateVa sp root q va s).st.mem = s.mem := by
  unfold translateVa; simp [*]

@[simp] theorem translate_mem (sp : BitVec 7) (root : W64) (q : Ask) (a : W64) (s : State) :
    (translate sp root q a s).st.mem = s.mem := by
  unfold translate; (repeat' first | with_reducible rfl | with_reducible assumption | (simp [*]; done) | (split <;> try (rename_i h; replace h := congrArg (fun o => o.st.mem) h; simp [*] at h)) | split | split | with_reducible apply Out.mem_bind | intro _ | dsimp only)

@[simp] theorem translateFree_mem (sp : BitVec 7) (root : W64) (q : Ask) (a : W64) (s : State) :
    (translateFree sp root q a s).st.mem = s.mem := by
  unfold translateFree; (repeat' first | with_reducible rfl | with_reducible assumption | (simp [*]; done) | (split <;> try (rename_i h; replace h := congrArg (fun o => o.st.mem) h; simp [*] at h)) | split | split | with_reducible apply Out.mem_bind | intro _ | dsimp only)

@[simp] theorem leaveWalk_mem (sp : BitVec 7) (b : LandEntry) (s : State) :
    (leaveWalk sp b s).mem = s.mem := by
  unfold leaveWalk; (repeat' first | with_reducible rfl | with_reducible assumption | (simp [*]; done) | (split <;> try (rename_i h; replace h := congrArg (fun o => o.st.mem) h; simp [*] at h)) | split | split | with_reducible apply Out.mem_bind | intro _ | dsimp only)

@[simp] theorem resolve_mem (sp : BitVec 7) (root : W64) (q : Ask) (a : W64) (s : State) :
    (resolve sp root q a s).st.mem = s.mem := by
  unfold resolve; (repeat' first | with_reducible rfl | with_reducible assumption | (simp [*]; done) | (split <;> try (rename_i h; replace h := congrArg (fun o => o.st.mem) h; simp [*] at h)) | split | split | with_reducible apply Out.mem_bind | intro _ | dsimp only)

@[simp] theorem readTarget_mem (t : Target) (s : State) :
    (readTarget t s).st.mem = s.mem := by
  unfold readTarget; (repeat' first | with_reducible rfl | with_reducible assumption | (simp [*]; done) | (split <;> try (rename_i h; replace h := congrArg (fun o => o.st.mem) h; simp [*] at h)) | split | split | with_reducible apply Out.mem_bind | intro _ | dsimp only)

@[simp] theorem writeTarget_wf (t : Target) (mask : BitVec 128) (v : Row) (s : State) (hw : s.mem.wf = true) :
    (writeTarget t mask v s).st.mem.wf = true := by
  unfold writeTarget; (repeat' first | (simp [*, Memory.wf_putRow, Memory.wf_putNat, Memory.wf_put, Memory.wf_filter]; done) | (split <;> try (rename_i h; replace h := congrArg (fun o => o.st.mem.wf) h; simp [*] at h)) | split | split | with_reducible apply Out.wf_bind | intro _ | dsimp only)

@[simp] theorem onceSent_mem (w : Access) (a : W64) (wr : Bool) (k : State → Out Phys) (s : State) (hk : ∀ (v0 : State), (k v0).st.mem = v0.mem) :
    (onceSent w a wr k s).st.mem = s.mem := by
  unfold onceSent; (repeat' first | with_reducible rfl | with_reducible assumption | (simp [*]; done) | (split <;> try (rename_i h; replace h := congrArg (fun o => o.st.mem) h; simp [*] at h)) | split | split | with_reducible apply Out.mem_bind | intro _ | dsimp only)

@[simp] theorem sentTarget_mem (w : Access) (a : W64) (wr : Bool) (k : State → Out Target) (s : State) (hk : ∀ (v0 : State), (k v0).st.mem = v0.mem) :
    (sentTarget w a wr k s).st.mem = s.mem := by
  unfold sentTarget; (repeat' first | with_reducible rfl | with_reducible assumption | (simp [*]; done) | (split <;> try (rename_i h; replace h := congrArg (fun o => o.st.mem) h; simp [*] at h)) | split | split | with_reducible apply Out.mem_bind | intro _ | dsimp only)

@[simp] theorem remotely_mem {α : Type} (v : Via) (body : State → Out α) (s : State) (hbody : ∀ (v0 : State), (body v0).st.mem = v0.mem) :
    (remotely v body s).st.mem = s.mem := by
  unfold remotely; (repeat' first | with_reducible rfl | with_reducible assumption | (simp [*]; done) | (split <;> try (rename_i h; replace h := congrArg (fun o => o.st.mem) h; simp [*] at h)) | split | split | with_reducible apply Out.mem_bind | intro _ | dsimp only)

@[simp] theorem remotely_wf {α : Type} (v : Via) (body : State → Out α) (s : State) (hbody : ∀ (v0 : State), v0.mem.wf = true → (body v0).st.mem.wf = true) (hw : s.mem.wf = true) :
    (remotely v body s).st.mem.wf = true := by
  unfold remotely; (repeat' first | (simp [*, Memory.wf_putRow, Memory.wf_putNat, Memory.wf_put, Memory.wf_filter]; done) | (split <;> try (rename_i h; replace h := congrArg (fun o => o.st.mem.wf) h; simp [*] at h)) | split | split | with_reducible apply Out.wf_bind | intro _ | dsimp only)

@[simp] theorem soleAccess_mem {α : Type} (w : Access) (x : Out α) : (soleAccess w x).st.mem = x.st.mem := by
  cases x <;> simp [soleAccess]

@[simp] theorem readRowAs_mem (v : Via) (pa : Nat) (s : State) :
    (readRowAs v pa s).st.mem = s.mem := by
  unfold readRowAs; (repeat' first | with_reducible rfl | with_reducible assumption | (simp [*]; done) | (split <;> try (rename_i h; replace h := congrArg (fun o => o.st.mem) h; simp [*] at h)) | split | split | with_reducible apply Out.mem_bind | intro _ | dsimp only)

@[simp] theorem writeRowAs_wf (v : Via) (pa : Nat) (mask : BitVec 128) (x : Row) (s : State) (hw : s.mem.wf = true) :
    (writeRowAs v pa mask x s).st.mem.wf = true := by
  unfold writeRowAs; split
  · rw [soleAccess_mem]; exact remotely_wf _ _ _ (fun t ht => writeRowAt_wf _ _ _ t ht) hw
  · exact writeRowAt_wf _ _ _ _ hw

@[simp] theorem readTargetAs_mem (v : Via) (t : Target) (s : State) :
    (readTargetAs v t s).st.mem = s.mem := by
  unfold readTargetAs; (repeat' first | with_reducible rfl | with_reducible assumption | (simp [*]; done) | (split <;> try (rename_i h; replace h := congrArg (fun o => o.st.mem) h; simp [*] at h)) | split | split | with_reducible apply Out.mem_bind | intro _ | dsimp only)

@[simp] theorem writeTargetAs_wf (v : Via) (t : Target) (mask : BitVec 128) (x : Row) (s : State) (hw : s.mem.wf = true) :
    (writeTargetAs v t mask x s).st.mem.wf = true := by
  unfold writeTargetAs; split
  · exact remotely_wf _ _ _ (fun u hu => writeTarget_wf _ _ _ u hu) hw
  · exact writeTarget_wf _ _ _ _ hw

@[simp] theorem readTargetAlone_mem (v : Via) (t : Target) (s : State) :
    (readTargetAlone v t s).st.mem = s.mem := by
  unfold readTargetAlone; (repeat' first | with_reducible rfl | with_reducible assumption | (simp [*]; done) | (split <;> try (rename_i h; replace h := congrArg (fun o => o.st.mem) h; simp [*] at h)) | split | split | with_reducible apply Out.mem_bind | intro _ | dsimp only)

@[simp] theorem markRow_mem (s : State) (t : ThreadId) (row : Nat) (wr localRow : Bool) :
    (markRow s t row wr localRow).mem = s.mem := by
  unfold markRow; (repeat' first | with_reducible rfl | with_reducible assumption | (simp [*]; done) | (split <;> try (rename_i h; replace h := congrArg (fun o => o.st.mem) h; simp [*] at h)) | split | split | with_reducible apply Out.mem_bind | intro _ | dsimp only)

@[simp] theorem watchRow_mem (sp : BitVec 7) (r : BitVec 2) (pa : Nat) (wr : Bool) (localOff : Option (BitVec 24)) (virt : Bool) (addr : W64) (lane word : BitVec 5) (s : State) :
    (watchRow sp r pa wr localOff virt addr lane word s).st.mem = s.mem := by
  unfold watchRow; (repeat' first | with_reducible rfl | with_reducible assumption | (simp [*]; done) | (split <;> try (rename_i h; replace h := congrArg (fun o => o.st.mem) h; simp [*] at h)) | split | split | with_reducible apply Out.mem_bind | intro _ | dsimp only)

end Sys2Proof.Machine
end

