-- ==== Sys2Proof/Laws/KeepOps.lean ====
section
/-! SUPPORT. What the definitions of Machine/Ops.lean keep of memory: its bytes, or its canonical form
(R17). -/

set_option maxRecDepth 2000
set_option linter.all false

namespace Sys2Proof.Machine

theorem recordFault_yes (sp : BitVec 7) (r : BitVec 2) (s t : State) (i : TrapInfo) (h : recordFault sp r s i = .yes t) :
    t.mem = s.mem := by
  unfold recordFault at h
  dsimp only at h
  split at h <;> split at h <;> first | (cases h; rfl) | cases h

theorem recordAll_mem (sp : BitVec 7) (r : BitVec 2) (ts acc : List TrapInfo) (s t : State) (l : List TrapInfo)
    (h : recordAll sp r ts acc s = some (t, l)) : t.mem = s.mem := by
  induction ts generalizing acc s with
  | nil => simp [recordAll] at h; rw [← h.1]
  | cons i ts ih =>
    unfold recordAll at h
    split at h
    · rename_i s' hr; rw [ih _ _ h, recordFault_yes sp r s s' i hr]
    · exact ih _ _ h
    · cases h

@[simp] theorem freezeThread_mem' (sp : BitVec 7) (r : BitVec 2) (l : List TrapInfo) (a b : Bool) (s : State) :
    (freezeThread sp r l a b s).mem = s.mem := rfl

@[simp] theorem State_mapSpan_mem (s : State) (sp : BitVec 7) (f : Span → Span) :
    (State.mapSpan s sp f).mem = s.mem := by
  unfold State.mapSpan; simp [*]

@[simp] theorem State_mapReck_mem (s : State) (sp : BitVec 7) (r : BitVec 2) (f : Reckoner → Reckoner) :
    (State.mapReck s sp r f).mem = s.mem := by
  unfold State.mapReck; simp [*]

@[simp] theorem State_mapTender_mem (s : State) (sp : BitVec 7) (f : Tender → Tender) :
    (State.mapTender s sp f).mem = s.mem := by
  unfold State.mapTender; simp [*]

@[simp] theorem setUnsafe_mem (s : State) :
    (setUnsafe s).mem = s.mem := by
  unfold setUnsafe; (repeat' first | with_reducible rfl | with_reducible assumption | (simp [*]; done) | (split <;> try (rename_i h; first | replace h := waitTokens_mem _ _ _ _ h | (replace h := congrArg (fun o => o.st.mem) h; simp [*] at h) | (replace h := congrArg (fun o => o.2.st.mem) h; simp [*] at h) | (replace h := congrArg (fun o => o.1.mem) h; simp [*] at h) | (replace h := congrArg (fun o => o.2.mem) h; simp [*] at h))) | split | split | with_reducible apply Out.mem_bind | intro _ | dsimp only)

@[simp] theorem dropLease_mem (sp : BitVec 7) (r : BitVec 2) (s : State) :
    (dropLease sp r s).mem = s.mem := by
  unfold dropLease; simp [*]

@[simp] theorem freeSpan_mem (s : State) (sp : BitVec 7) :
    (freeSpan s sp).mem = s.mem := by
  unfold freeSpan; simp [*]

@[simp] theorem dropGrants_mem (tag : BitVec 16) (s : State) :
    (dropGrants tag s).mem = s.mem := by
  unfold dropGrants; simp [*]

@[simp] theorem endNode_mem (s : State) (id : Nat) :
    (endNode s id).mem = s.mem := by
  unfold endNode; simp [*]

@[simp] theorem killTag_mem (tag : BitVec 16) (s : State) :
    (killTag tag s).mem = s.mem := by
  unfold killTag; (repeat' first | with_reducible rfl | with_reducible assumption | (simp [*]; done) | (split <;> try (rename_i h; first | replace h := waitTokens_mem _ _ _ _ h | (replace h := congrArg (fun o => o.st.mem) h; simp [*] at h) | (replace h := congrArg (fun o => o.2.st.mem) h; simp [*] at h) | (replace h := congrArg (fun o => o.1.mem) h; simp [*] at h) | (replace h := congrArg (fun o => o.2.mem) h; simp [*] at h))) | split | split | with_reducible apply Out.mem_bind | intro _ | dsimp only)

@[simp] theorem quarantine_mem (sp : BitVec 7) (s : State) :
    (quarantine sp s).mem = s.mem := by
  unfold quarantine; (repeat' first | with_reducible rfl | with_reducible assumption | (simp [*]; done) | (split <;> try (rename_i h; first | replace h := waitTokens_mem _ _ _ _ h | (replace h := congrArg (fun o => o.st.mem) h; simp [*] at h) | (replace h := congrArg (fun o => o.2.st.mem) h; simp [*] at h) | (replace h := congrArg (fun o => o.1.mem) h; simp [*] at h) | (replace h := congrArg (fun o => o.2.mem) h; simp [*] at h))) | split | split | with_reducible apply Out.mem_bind | intro _ | dsimp only)

@[simp] theorem freezeThread_mem (sp : BitVec 7) (r : BitVec 2) (rec' : List TrapInfo) (fatal retire : Bool) (s : State) :
    (freezeThread sp r rec' fatal retire s).mem = s.mem := by
  unfold freezeThread; simp [*]

@[simp] theorem takeFaults_mem (sp : BitVec 7) (r : BitVec 2) (s : State) : (takeFaults sp r s).mem = s.mem := by
  unfold takeFaults
  dsimp only
  split
  · rfl
  · split
    · simp
    · rfl
    · rename_i s' recd h; simp [recordAll_mem _ _ _ _ _ _ _ h]

@[simp] theorem takeOrWait_mem (sp : BitVec 7) (r : BitVec 2) (s : State) :
    (takeOrWait sp r s).mem = s.mem := by
  unfold takeOrWait; (repeat' first | with_reducible rfl | with_reducible assumption | (simp [*]; done) | (split <;> try (rename_i h; first | replace h := waitTokens_mem _ _ _ _ h | (replace h := congrArg (fun o => o.st.mem) h; simp [*] at h) | (replace h := congrArg (fun o => o.2.st.mem) h; simp [*] at h) | (replace h := congrArg (fun o => o.1.mem) h; simp [*] at h) | (replace h := congrArg (fun o => o.2.mem) h; simp [*] at h))) | split | split | with_reducible apply Out.mem_bind | intro _ | dsimp only)

@[simp] theorem raiseTrap_mem (sp : BitVec 7) (r : BitVec 2) (t : TrapInfo) (s : State) :
    (raiseTrap sp r t s).mem = s.mem := by
  unfold raiseTrap; (repeat' first | with_reducible rfl | with_reducible assumption | (simp [*]; done) | (split <;> try (rename_i h; first | replace h := waitTokens_mem _ _ _ _ h | (replace h := congrArg (fun o => o.st.mem) h; simp [*] at h) | (replace h := congrArg (fun o => o.2.st.mem) h; simp [*] at h) | (replace h := congrArg (fun o => o.1.mem) h; simp [*] at h) | (replace h := congrArg (fun o => o.2.mem) h; simp [*] at h))) | split | split | with_reducible apply Out.mem_bind | intro _ | dsimp only)

@[simp] theorem issued_mem (e : Stream) (w : Tok) (s : State) :
    (issued e w s).mem = s.mem := by
  unfold issued; simp [*]

@[simp] theorem skipped_mem (e : Stream) (w : Tok) (s : State) :
    (skipped e w s).mem = s.mem := by
  unfold skipped; simp [*]

@[simp] theorem markWaits_mem (e : Stream) (p : LandEntry → Bool) (s : State) :
    (markWaits e p s).mem = s.mem := by
  unfold markWaits; simp [*]

@[simp] theorem held_mem (e : Stream) (s : State) :
    (held e s).mem = s.mem := by
  unfold held; simp [*]

theorem finishWord_mem' (e : Stream) (w : Tok) (x : Out Unit) : (finishWord e w x).mem = x.st.mem := by
  cases x <;> simp [finishWord]
  split <;> simp

@[simp] theorem finishWord_mem (e : Stream) (w : Tok) (x : Out Unit) : (finishWord e w x).mem = x.st.mem := finishWord_mem' e w x

theorem waitTokens_mem (e : Stream) (w : Tok) (s : State) :
    ∀ u₁, (waitTokens e w s) = some u₁ → u₁.mem = s.mem := by
  unfold waitTokens; (repeat' first | with_reducible rfl | with_reducible assumption | (simp [*]; done) | (split <;> try (rename_i h; first | replace h := waitTokens_mem _ _ _ _ h | (replace h := congrArg (fun o => o.st.mem) h; simp [*] at h) | (replace h := congrArg (fun o => o.2.st.mem) h; simp [*] at h) | (replace h := congrArg (fun o => o.1.mem) h; simp [*] at h) | (replace h := congrArg (fun o => o.2.mem) h; simp [*] at h))) | split | split | with_reducible apply Out.mem_bind | intro _ | dsimp only)

theorem runWord_keeps (P : State → Prop) (hP : OfMem P) (e : Stream) (w : Tok) (body : State → Out Unit) (s : State)
    (hb : ∀ t, P t → P (body t).st) (hs : P s) : P (runWord e w body s) := by
  unfold runWord
  split
  · exact hP s _ (by simp) hs
  · rename_i t ht
    have ht : P t := hP s t (by simpa using waitTokens_mem e w s t ht) hs
    split
    · exact hP _ _ (by simp) (hb t ht)
    · split
      · exact hP t _ (by simp) ht
      · split
        · split
          · exact hP t _ (by simp) ht
          · exact hP _ _ (by simp) (hb t ht)
        · exact hP _ _ (by simp) (hb t ht)

@[simp] theorem runWord_mem (e : Stream) (w : Tok) (body : State → Out Unit) (s : State)
    (hb : ∀ t, (body t).st.mem = t.mem) : (runWord e w body s).mem = s.mem :=
  runWord_keeps (fun t => t.mem = s.mem) (ofMem_mem _) e w body s (fun t ht => (hb t).trans ht) rfl

@[simp] theorem runWord_wf (e : Stream) (w : Tok) (body : State → Out Unit) (s : State)
    (hb : ∀ t, t.mem.wf = true → (body t).st.mem.wf = true) (hs : s.mem.wf = true) : (runWord e w body s).mem.wf = true :=
  runWord_keeps _ ofMem_wf e w body s hb hs

@[simp] theorem tenderDone_mem (s : State) :
    (tenderDone s).mem = s.mem := by
  unfold tenderDone; simp [*]

theorem runTender_keeps (P : State → Prop) (hP : OfMem P) (body : State → Out Unit) (s : State)
    (hb : ∀ t, P t → P (body t).st) (hs : P s) : P (runTender body s) := by
  have go : P (match body s with | .ok _ s => tenderDone s | .hold s => s | .trap _ s => quarantine s.cur.sp s) := by
    have := hb s hs
    cases h : body s <;> rw [h] at this
    · exact hP _ _ (by simp) this
    · exact this
    · exact hP _ _ (by simp) this
  unfold runTender
  dsimp only
  split
  · exact go
  · split
    · exact hP s _ (by simp) hs
    · split
      · exact hP s _ (by simp) hs
      · exact go

@[simp] theorem runTender_mem (body : State → Out Unit) (s : State) (hb : ∀ t, (body t).st.mem = t.mem) :
    (runTender body s).mem = s.mem :=
  runTender_keeps (fun t => t.mem = s.mem) (ofMem_mem _) body s (fun t ht => (hb t).trans ht) rfl

@[simp] theorem runTender_wf (body : State → Out Unit) (s : State)
    (hb : ∀ t, t.mem.wf = true → (body t).st.mem.wf = true) (hs : s.mem.wf = true) : (runTender body s).mem.wf = true :=
  runTender_keeps _ ofMem_wf body s hb hs

theorem sWord_keeps (P : State → Prop) (hP : OfMem P) (w : Tok) (body : State → Out Unit) (s : State)
    (hb : ∀ t, P t → P (body t).st) (hs : P s) : ∃ t, sWord w body s = .next t ∧ P t := by
  refine ⟨_, rfl, ?_⟩
  split
  · exact runTender_keeps P hP body s hb hs
  · exact runWord_keeps P hP _ w body s hb hs

@[simp] theorem sWord_mem (w : Tok) (body : State → Out Unit) (s : State) (hb : ∀ t, (body t).st.mem = t.mem) :
    ∃ t, sWord w body s = .next t ∧ t.mem = s.mem :=
  sWord_keeps (fun t => t.mem = s.mem) (ofMem_mem _) w body s (fun t ht => (hb t).trans ht) rfl

@[simp] theorem sWord_wf (w : Tok) (body : State → Out Unit) (s : State)
    (hb : ∀ t, t.mem.wf = true → (body t).st.mem.wf = true) (hs : s.mem.wf = true) :
    ∃ t, sWord w body s = .next t ∧ t.mem.wf = true := sWord_keeps _ ofMem_wf w body s hb hs

theorem sOnly_keeps (P : State → Prop) (hP : OfMem P) (w : Tok) (body : State → Out Unit) (s : State)
    (hb : ∀ t, P t → P (body t).st) (hs : P s) : ∃ t, sOnly w body s = .next t ∧ P t := by
  refine ⟨_, rfl, ?_⟩
  split
  · exact hP s _ (by simp) hs
  · exact runWord_keeps P hP _ w body s hb hs

@[simp] theorem sOnly_mem (w : Tok) (body : State → Out Unit) (s : State) (hb : ∀ t, (body t).st.mem = t.mem) :
    ∃ t, sOnly w body s = .next t ∧ t.mem = s.mem :=
  sOnly_keeps (fun t => t.mem = s.mem) (ofMem_mem _) w body s (fun t ht => (hb t).trans ht) rfl

@[simp] theorem sOnly_wf (w : Tok) (body : State → Out Unit) (s : State)
    (hb : ∀ t, t.mem.wf = true → (body t).st.mem.wf = true) (hs : s.mem.wf = true) :
    ∃ t, sOnly w body s = .next t ∧ t.mem.wf = true := sOnly_keeps _ ofMem_wf w body s hb hs

theorem vWord_keeps (P : State → Prop) (hP : OfMem P) (w : Tok) (body : State → Out Unit) (s : State)
    (hb : ∀ t, P t → P (body t).st) (hs : P s) : ∃ t, vWord w body s = .next t ∧ P t := by
  refine ⟨_, rfl, ?_⟩
  split
  · exact hP s _ (by simp) hs
  · exact runWord_keeps P hP _ w body s hb hs

@[simp] theorem vWord_mem (w : Tok) (body : State → Out Unit) (s : State) (hb : ∀ t, (body t).st.mem = t.mem) :
    ∃ t, vWord w body s = .next t ∧ t.mem = s.mem :=
  vWord_keeps (fun t => t.mem = s.mem) (ofMem_mem _) w body s (fun t ht => (hb t).trans ht) rfl

@[simp] theorem vWord_wf (w : Tok) (body : State → Out Unit) (s : State)
    (hb : ∀ t, t.mem.wf = true → (body t).st.mem.wf = true) (hs : s.mem.wf = true) :
    ∃ t, vWord w body s = .next t ∧ t.mem.wf = true := vWord_keeps _ ofMem_wf w body s hb hs

@[simp] theorem fetchWord_mem (sp : BitVec 7) (root : W64) (pc : BitVec 52) (s : State) :
    (fetchWord sp root pc s).st.mem = s.mem := by
  unfold fetchWord; (repeat' first | with_reducible rfl | with_reducible assumption | (simp [*]; done) | (split <;> try (rename_i h; first | replace h := waitTokens_mem _ _ _ _ h | (replace h := congrArg (fun o => o.st.mem) h; simp [*] at h) | (replace h := congrArg (fun o => o.2.st.mem) h; simp [*] at h) | (replace h := congrArg (fun o => o.1.mem) h; simp [*] at h) | (replace h := congrArg (fun o => o.2.mem) h; simp [*] at h))) | split | split | with_reducible apply Out.mem_bind | intro _ | dsimp only)

@[simp] theorem splitTrap_mem (sp : BitVec 7) (r : BitVec 2) (e : Stream) (code : BitVec 3) (seq : W32) (spl : Bool) (f : Flt) (s : State) :
    (splitTrap sp r e code seq spl f s).mem = s.mem := by
  unfold splitTrap; simp [*]

@[simp] theorem placeUnit_mem (sp : BitVec 7) (r : BitVec 2) (e : Stream) (u : Work) (next : BitVec 52) (s : State) :
    (placeUnit sp r e u next s).mem = s.mem := by
  unfold placeUnit; simp [*]

@[simp] theorem steer_mem (sp : BitVec 7) (r : BitVec 2) (s : State) : (steer sp r s).1.mem = s.mem := by
  unfold steer
  dsimp only
  split
  · rfl
  · have hf := fetchWord_mem sp (s.span sp).xroot ((s.reck sp r).pc + BitVec.ofNat 52 (4 * (s.reck sp r).pend.length)) s
    split
    · rename_i h; rw [h] at hf; exact hf
    · rename_i h; rw [h] at hf; simpa using hf
    · rename_i w t h
      rw [h] at hf
      split
      · split
        · exact hf
        · simpa using hf
      · split
        · simpa using hf
        · split
          · exact hf
          · simpa using hf

@[simp] theorem gather_mem (w : W32) (s : State) :
    (gather w s).mem = s.mem := by
  unfold gather; (repeat' first | with_reducible rfl | with_reducible assumption | (simp [*]; done) | (split <;> try (rename_i h; first | replace h := waitTokens_mem _ _ _ _ h | (replace h := congrArg (fun o => o.st.mem) h; simp [*] at h) | (replace h := congrArg (fun o => o.2.st.mem) h; simp [*] at h) | (replace h := congrArg (fun o => o.1.mem) h; simp [*] at h) | (replace h := congrArg (fun o => o.2.mem) h; simp [*] at h))) | split | split | with_reducible apply Out.mem_bind | intro _ | dsimp only)

@[simp] theorem tenderFetch_mem (sp : BitVec 7) (s : State) : (tenderFetch sp s).1.mem = s.mem := by
  unfold tenderFetch
  dsimp only
  have hf := fetchWord_mem sp (s.span sp).tender.troot
    ((s.span sp).tender.pc + BitVec.ofNat 52 (4 * (s.span sp).tender.pend.length)) s
  split
  · rename_i h; rw [h] at hf; exact hf
  · rename_i h; rw [h] at hf; simpa using hf
  · rename_i w t h
    rw [h] at hf
    split
    · split
      · exact hf
      · simpa using hf
    · split <;> simpa using hf

@[simp] theorem setPc_mem (t : BitVec 52) (s : State) :
    (setPc t s).mem = s.mem := by
  unfold setPc; (repeat' first | with_reducible rfl | with_reducible assumption | (simp [*]; done) | (split <;> try (rename_i h; first | replace h := waitTokens_mem _ _ _ _ h | (replace h := congrArg (fun o => o.st.mem) h; simp [*] at h) | (replace h := congrArg (fun o => o.2.st.mem) h; simp [*] at h) | (replace h := congrArg (fun o => o.1.mem) h; simp [*] at h) | (replace h := congrArg (fun o => o.2.mem) h; simp [*] at h))) | split | split | with_reducible apply Out.mem_bind | intro _ | dsimp only)

@[simp] theorem restartThread_mem (sp : BitVec 7) (r : BitVec 2) (s : State) :
    (restartThread sp r s).mem = s.mem := by
  unfold restartThread; simp [*]

@[simp] theorem resumeThread_mem (sp : BitVec 7) (r : BitVec 2) (f : Freeze) (skips skipv : Bool) (s : State) :
    (resumeThread sp r f skips skipv s).mem = s.mem := by
  unfold resumeThread; simp [*]

@[simp] theorem thaw_mem (sp : BitVec 7) (r : BitVec 2) (f : Freeze) (s : State) :
    (thaw sp r f s).mem = s.mem := by
  unfold thaw; (repeat' first | with_reducible rfl | with_reducible assumption | (simp [*]; done) | (split <;> try (rename_i h; first | replace h := waitTokens_mem _ _ _ _ h | (replace h := congrArg (fun o => o.st.mem) h; simp [*] at h) | (replace h := congrArg (fun o => o.2.st.mem) h; simp [*] at h) | (replace h := congrArg (fun o => o.1.mem) h; simp [*] at h) | (replace h := congrArg (fun o => o.2.mem) h; simp [*] at h))) | split | split | with_reducible apply Out.mem_bind | intro _ | dsimp only)

@[simp] theorem eret_mem (s : State) :
    (eret s).mem = s.mem := by
  unfold eret; (repeat' first | with_reducible rfl | with_reducible assumption | (simp [*]; done) | (split <;> try (rename_i h; first | replace h := waitTokens_mem _ _ _ _ h | (replace h := congrArg (fun o => o.st.mem) h; simp [*] at h) | (replace h := congrArg (fun o => o.2.st.mem) h; simp [*] at h) | (replace h := congrArg (fun o => o.1.mem) h; simp [*] at h) | (replace h := congrArg (fun o => o.2.mem) h; simp [*] at h))) | split | split | with_reducible apply Out.mem_bind | intro _ | dsimp only)

@[simp] theorem endStop_mem (sp : BitVec 7) (r : BitVec 2) (s : State) :
    (endStop sp r s).mem = s.mem := by
  unfold endStop; (repeat' first | with_reducible rfl | with_reducible assumption | (simp [*]; done) | (split <;> try (rename_i h; first | replace h := waitTokens_mem _ _ _ _ h | (replace h := congrArg (fun o => o.st.mem) h; simp [*] at h) | (replace h := congrArg (fun o => o.2.st.mem) h; simp [*] at h) | (replace h := congrArg (fun o => o.1.mem) h; simp [*] at h) | (replace h := congrArg (fun o => o.2.mem) h; simp [*] at h))) | split | split | with_reducible apply Out.mem_bind | intro _ | dsimp only)

@[simp] theorem cutStanding_mem (e : Stream) (s : State) :
    (cutStanding e s).mem = s.mem := by
  unfold cutStanding; (repeat' first | with_reducible rfl | with_reducible assumption | (simp [*]; done) | (split <;> try (rename_i h; first | replace h := waitTokens_mem _ _ _ _ h | (replace h := congrArg (fun o => o.st.mem) h; simp [*] at h) | (replace h := congrArg (fun o => o.2.st.mem) h; simp [*] at h) | (replace h := congrArg (fun o => o.1.mem) h; simp [*] at h) | (replace h := congrArg (fun o => o.2.mem) h; simp [*] at h))) | split | split | with_reducible apply Out.mem_bind | intro _ | dsimp only)

@[simp] theorem keepCmd_mem (e : Stream) (c : Cmd) (x : Out Unit) : (keepCmd e c x).mem = x.st.mem := by
  cases x <;> simp [keepCmd]
  split <;> simp

theorem runUnits_keeps (P : State → Prop) (hP : OfMem P) (total : Cmd → Nat) (unit : Cmd → State → Out Cmd)
    (hu : ∀ c t, P t → P (unit c t).st) (n : Nat) (c : Cmd) (s : State) (hs : P s) : P (runUnits total unit n c s).2.st := by
  induction n generalizing c s with
  | zero => exact hs
  | succ n ih =>
    unfold runUnits
    split
    · exact hs
    · have := hP _ _ (sparing_mem s (unit c s)) (hu c s hs)
      split <;> rename_i h <;> rw [h] at this
      · exact ih _ _ this
      · exact this
      · exact this

theorem runCmd_keeps (P : State → Prop) (hP : OfMem P) (e : Stream) (total : Cmd → Nat) (unit close : Cmd → State → Out Cmd)
    (hu : ∀ c t, P t → P (unit c t).st) (hc : ∀ c t, P t → P (close c t).st) (c : Cmd) (s : State) (hs : P s) :
    P (runCmd e total unit close c s) := by
  unfold runCmd
  dsimp only
  have hr := fun n => runUnits_keeps P hP total unit hu n c s hs
  split
  · rename_i c' a t h
    have hr : P (c', Out.ok a t).2.st := h ▸ hr _
    split
    · exact hP t _ (by simp) hr
    · have hk := hP _ _ (sparing_mem t (close c' t)) (hc c' t hr)
      split <;> rename_i h' <;> rw [h'] at hk <;> exact hP _ _ (by simp) hk
  · rename_i c' x _ h
    have hr : P (c', x).2.st := h ▸ hr _
    exact hP x.st _ (by simp) hr

@[simp] theorem offTurn_mem (e : Stream) {α : Type} (a0 : Out α) :
    (offTurn e a0).st.mem = a0.st.mem := by
  unfold offTurn; (repeat' first | with_reducible rfl | with_reducible assumption | (simp [*]; done) | (split <;> try (rename_i h; first | replace h := waitTokens_mem _ _ _ _ h | (replace h := congrArg (fun o => o.st.mem) h; simp [*] at h) | (replace h := congrArg (fun o => o.2.st.mem) h; simp [*] at h) | (replace h := congrArg (fun o => o.1.mem) h; simp [*] at h) | (replace h := congrArg (fun o => o.2.mem) h; simp [*] at h))) | split | split | with_reducible apply Out.mem_bind | intro _ | dsimp only)

@[simp] theorem atGate_mem (e : Stream) {α : Type} (a0 : Out α) :
    (atGate e a0).st.mem = a0.st.mem := by
  unfold atGate; (repeat' first | with_reducible rfl | with_reducible assumption | (simp [*]; done) | (split <;> try (rename_i h; first | replace h := waitTokens_mem _ _ _ _ h | (replace h := congrArg (fun o => o.st.mem) h; simp [*] at h) | (replace h := congrArg (fun o => o.2.st.mem) h; simp [*] at h) | (replace h := congrArg (fun o => o.1.mem) h; simp [*] at h) | (replace h := congrArg (fun o => o.2.mem) h; simp [*] at h))) | split | split | with_reducible apply Out.mem_bind | intro _ | dsimp only)

@[simp] theorem popArgs_mem (e : Stream) (need : Nat) (s : State) :
    (popArgs e need s).st.mem = s.mem := by
  unfold popArgs; (repeat' first | with_reducible rfl | with_reducible assumption | (simp [*]; done) | (split <;> try (rename_i h; first | replace h := waitTokens_mem _ _ _ _ h | (replace h := congrArg (fun o => o.st.mem) h; simp [*] at h) | (replace h := congrArg (fun o => o.2.st.mem) h; simp [*] at h) | (replace h := congrArg (fun o => o.1.mem) h; simp [*] at h) | (replace h := congrArg (fun o => o.2.mem) h; simp [*] at h))) | split | split | with_reducible apply Out.mem_bind | intro _ | dsimp only)

@[simp] theorem beginCmd_mem (e : Stream) (w : Tok) (pops : State → Out (List W64)) (c : BitVec 6) (rp : Bool) (gate : State → Out Unit) (latch : State → Cmd → Cmd) (s : State) (hpops : ∀ (v0 : State), (pops v0).st.mem = v0.mem) (hgate : ∀ (v0 : State), (gate v0).st.mem = v0.mem) :
    (beginCmd e w pops c rp gate latch s).st.mem = s.mem := by
  unfold beginCmd; (repeat' first | with_reducible rfl | with_reducible assumption | (simp [*]; done) | (split <;> try (rename_i h; first | replace h := waitTokens_mem _ _ _ _ h | (replace h := congrArg (fun o => o.st.mem) h; simp [*] at h) | (replace h := congrArg (fun o => o.2.st.mem) h; simp [*] at h) | (replace h := congrArg (fun o => o.1.mem) h; simp [*] at h) | (replace h := congrArg (fun o => o.2.mem) h; simp [*] at h))) | split | split | with_reducible apply Out.mem_bind | intro _ | dsimp only)

theorem goOn_keeps (P : State → Prop) (hP : OfMem P) (e : Stream) (relatch : State → Cmd → Cmd) (start : State → State)
    (check : State → Cmd → Option Flt) (total : Cmd → Nat) (unit close : Cmd → State → Out Cmd)
    (hst : ∀ t, P t → P (start t)) (hu : ∀ c t, P t → P (unit c t).st) (hc : ∀ c t, P t → P (close c t).st)
    (c : Cmd) (s : State) (hs : P s) : P (goOn e relatch start check total unit close c s) := by
  unfold goOn
  split
  · dsimp only
    split
    · exact hP s _ (by simp) hs
    · exact runCmd_keeps P hP e total unit close hu hc _ _ (hst s hs)
  · exact runCmd_keeps P hP e total unit close hu hc _ _ hs
  · exact hs

theorem cmdWord_keeps (P : State → Prop) (hP : OfMem P) (e : Stream) (w : Tok) (pops : State → Out (List W64)) (c : BitVec 6)
    (rp : Bool) (gate back : State → Out Unit) (latch relatch : State → Cmd → Cmd) (start : State → State)
    (check : State → Cmd → Option Flt) (total : Cmd → Nat) (unit close : Cmd → State → Out Cmd)
    (hp : ∀ t, (pops t).st.mem = t.mem) (hg : ∀ t, (gate t).st.mem = t.mem) (hk : ∀ t, (back t).st.mem = t.mem) (hst : ∀ t, P t → P (start t))
    (hu : ∀ c t, P t → P (unit c t).st) (hc : ∀ c t, P t → P (close c t).st) (s : State) (hs : P s) :
    ∃ t, cmdWord e w pops c rp gate back latch relatch start check total unit close s = .next t ∧ P t := by
  refine ⟨_, rfl, ?_⟩
  split
  · exact hP s _ (by simp) hs
  · split
    · split
      · exact goOn_keeps P hP e relatch start check total unit close hst hu hc _ _ hs
      · have hb := hk s
        split <;> rename_i h <;> rw [h] at hb
        · exact goOn_keeps P hP e relatch start check total unit close hst hu hc _ _ (hP s _ hb hs)
        · exact hP s _ (by simpa using hb) hs
        · exact hP s _ (by simpa using hb) hs
    · have hb := beginCmd_mem e w pops c rp gate latch s hp hg
      split
      · rename_i c' t h
        rw [h] at hb
        split
        · exact goOn_keeps P hP e relatch start check total unit close hst hu hc _ _ (hP s t hb hs)
        · exact hP s _ (by simpa using hb) hs
      · rename_i t h; rw [h] at hb; exact hP s _ (by simpa using hb) hs
      · rename_i f t h; rw [h] at hb; exact hP s _ (by simpa using hb) hs

@[simp] theorem cmdWord_mem (e : Stream) (w : Tok) (pops : State → Out (List W64)) (c : BitVec 6)
    (rp : Bool) (gate back : State → Out Unit) (latch relatch : State → Cmd → Cmd) (start : State → State)
    (check : State → Cmd → Option Flt) (total : Cmd → Nat) (unit close : Cmd → State → Out Cmd) (s : State)
    (hp : ∀ t, (pops t).st.mem = t.mem) (hg : ∀ t, (gate t).st.mem = t.mem) (hk : ∀ t, (back t).st.mem = t.mem) (hst : ∀ t, (start t).mem = t.mem)
    (hu : ∀ c t, (unit c t).st.mem = t.mem) (hc : ∀ c t, (close c t).st.mem = t.mem) :
    ∃ t, cmdWord e w pops c rp gate back latch relatch start check total unit close s = .next t ∧ t.mem = s.mem :=
  cmdWord_keeps (fun t => t.mem = s.mem) (ofMem_mem _) e w pops c rp gate back latch relatch start check total unit close hp hg hk
    (fun t ht => (hst t).trans ht) (fun c t ht => (hu c t).trans ht) (fun c t ht => (hc c t).trans ht) s rfl

@[simp] theorem cmdWord_wf (e : Stream) (w : Tok) (pops : State → Out (List W64)) (c : BitVec 6)
    (rp : Bool) (gate back : State → Out Unit) (latch relatch : State → Cmd → Cmd) (start : State → State)
    (check : State → Cmd → Option Flt) (total : Cmd → Nat) (unit close : Cmd → State → Out Cmd) (s : State)
    (hp : ∀ t, (pops t).st.mem = t.mem) (hg : ∀ t, (gate t).st.mem = t.mem) (hk : ∀ t, (back t).st.mem = t.mem) (hst : ∀ t, (start t).mem = t.mem)
    (hu : ∀ c t, t.mem.wf = true → (unit c t).st.mem.wf = true) (hc : ∀ c t, t.mem.wf = true → (close c t).st.mem.wf = true)
    (hs : s.mem.wf = true) :
    ∃ t, cmdWord e w pops c rp gate back latch relatch start check total unit close s = .next t ∧ t.mem.wf = true :=
  cmdWord_keeps _ ofMem_wf e w pops c rp gate back latch relatch start check total unit close hp hg hk
    (fun t ht => by rw [hst t]; exact ht) hu hc s hs

@[simp] theorem plainWord_mem (e : Stream) (w : Tok) (body : State → Out Unit) (s : State) (hbody : ∀ (v0 : State), (body v0).st.mem = v0.mem) :
    ∃ u₁, (plainWord e w body s) = .next u₁ ∧ u₁.mem = s.mem := by
  unfold plainWord; refine ⟨_, rfl, ?_⟩; (repeat' first | with_reducible rfl | with_reducible assumption | (simp [*]; done) | (split <;> try (rename_i h; first | replace h := waitTokens_mem _ _ _ _ h | (replace h := congrArg (fun o => o.st.mem) h; simp [*] at h) | (replace h := congrArg (fun o => o.2.st.mem) h; simp [*] at h) | (replace h := congrArg (fun o => o.1.mem) h; simp [*] at h) | (replace h := congrArg (fun o => o.2.mem) h; simp [*] at h))) | split | split | with_reducible apply Out.mem_bind | intro _ | dsimp only)

@[simp] theorem replied_mem (sp : BitVec 7) (r : BitVec 2) (e : Stream) (c : Cmd) (s : State) :
    (replied sp r e c s).mem = s.mem := by
  unfold replied; simp [*]

@[simp] theorem countRow_wf (sp : BitVec 7) (r : BitVec 2) (e : Stream) (c : Cmd) (s : State) (hw : s.mem.wf = true) :
    (countRow sp r e c s).mem.wf = true := by
  unfold countRow
  dsimp only
  split
  · exact hw
  · split
    · simpa using hw
    · split
      all_goals
        rename_i h
        have h := congrArg (fun o => o.st.mem.wf) h
        simp only [Out.st_hold, Out.st_trap, Out.st_ok] at h
        rw [Out.wf_bind _ _ (by simpa using hw) (fun _ _ ht => writeSpad_wf _ _ _ _ _ ht)] at h
        first | simpa using h.symm | (split <;> first | exact hw | simpa using h.symm)

@[simp] theorem completeCmd_wf (sp : BitVec 7) (r : BitVec 2) (e : Stream) (s : State) (hw : s.mem.wf = true) :
    (completeCmd sp r e s).mem.wf = true := by
  unfold completeCmd; (repeat' first | (simp [*, Memory.wf_putRow, Memory.wf_putNat, Memory.wf_put, Memory.wf_filter]; done) | (split <;> try (rename_i h; first | replace h := waitTokens_mem _ _ _ _ h | (replace h := congrArg (fun o => o.st.mem.wf) h; simp [*] at h) | (replace h := congrArg (fun o => o.2.st.mem.wf) h; simp [*] at h) | (replace h := congrArg (fun o => o.1.mem.wf) h; simp [*] at h) | (replace h := congrArg (fun o => o.2.mem.wf) h; simp [*] at h))) | split | split | with_reducible apply Out.wf_bind | intro _ | dsimp only)

@[simp] theorem fresh_mem (s : State) :
    (fresh s).2.mem = s.mem := by
  unfold fresh; simp [*]

end Sys2Proof.Machine
end

