-- ==== Sys2Proof/Laws/KeepOperands.lean ====
section
/-! SUPPORT. What the definitions of Machine/Operands.lean keep of memory: its bytes, or its canonical form
(R17). -/

set_option maxRecDepth 2000
set_option linter.all false

namespace Sys2Proof.Machine

@[simp] theorem popFor_mem (n : BitVec 5) (s : State) :
    (popFor n s).mem = s.mem := by
  unfold popFor; (repeat' first | with_reducible rfl | with_reducible assumption | (simp [*]; done) | (split <;> try (rename_i h; first | replace h := waitTokens_mem _ _ _ _ h | (replace h := congrArg (fun o => o.st.mem) h; simp [*] at h) | (replace h := congrArg (fun o => o.2.st.mem) h; simp [*] at h) | (replace h := congrArg (fun o => o.1.mem) h; simp [*] at h) | (replace h := congrArg (fun o => o.2.mem) h; simp [*] at h))) | split | split | with_reducible apply Out.mem_bind | intro _ | dsimp only)

@[simp] theorem popSrcs_mem (ns : List (BitVec 5)) (s : State) :
    (popSrcs ns s).st.mem = s.mem := by
  unfold popSrcs; (repeat' first | with_reducible rfl | with_reducible assumption | (simp [*]; done) | (split <;> try (rename_i h; first | replace h := waitTokens_mem _ _ _ _ h | (replace h := congrArg (fun o => o.st.mem) h; simp [*] at h) | (replace h := congrArg (fun o => o.2.st.mem) h; simp [*] at h) | (replace h := congrArg (fun o => o.1.mem) h; simp [*] at h) | (replace h := congrArg (fun o => o.2.mem) h; simp [*] at h))) | split | split | with_reducible apply Out.mem_bind | intro _ | dsimp only)

@[simp] theorem gPut_mem (n : BitVec 5) (v : W64) (s : State) :
    (gPut n v s).mem = s.mem := by
  unfold gPut; (repeat' first | with_reducible rfl | with_reducible assumption | (simp [*]; done) | (split <;> try (rename_i h; first | replace h := waitTokens_mem _ _ _ _ h | (replace h := congrArg (fun o => o.st.mem) h; simp [*] at h) | (replace h := congrArg (fun o => o.2.st.mem) h; simp [*] at h) | (replace h := congrArg (fun o => o.1.mem) h; simp [*] at h) | (replace h := congrArg (fun o => o.2.mem) h; simp [*] at h))) | split | split | with_reducible apply Out.mem_bind | intro _ | dsimp only)

@[simp] theorem writeDst_mem (n : BitVec 5) (v : W64) (s : State) :
    (writeDst n v s).st.mem = s.mem := by
  unfold writeDst; (repeat' first | with_reducible rfl | with_reducible assumption | (simp [*]; done) | (split <;> try (rename_i h; first | replace h := waitTokens_mem _ _ _ _ h | (replace h := congrArg (fun o => o.st.mem) h; simp [*] at h) | (replace h := congrArg (fun o => o.2.st.mem) h; simp [*] at h) | (replace h := congrArg (fun o => o.1.mem) h; simp [*] at h) | (replace h := congrArg (fun o => o.2.mem) h; simp [*] at h))) | split | split | with_reducible apply Out.mem_bind | intro _ | dsimp only)

@[simp] theorem aluBody_mem (ns : List (BitVec 5)) (d : BitVec 5) (f : State → W64) (s : State) :
    (aluBody ns d f s).st.mem = s.mem := by
  unfold aluBody; (repeat' first | with_reducible rfl | with_reducible assumption | (simp [*]; done) | (split <;> try (rename_i h; first | replace h := waitTokens_mem _ _ _ _ h | (replace h := congrArg (fun o => o.st.mem) h; simp [*] at h) | (replace h := congrArg (fun o => o.2.st.mem) h; simp [*] at h) | (replace h := congrArg (fun o => o.1.mem) h; simp [*] at h) | (replace h := congrArg (fun o => o.2.mem) h; simp [*] at h))) | split | split | with_reducible apply Out.mem_bind | intro _ | dsimp only)

@[simp] theorem orderGate_mem (e : Stream) (writes : Bool) (s : State) :
    (orderGate e writes s).st.mem = s.mem := by
  unfold orderGate; (repeat' first | with_reducible rfl | with_reducible assumption | (simp [*]; done) | (split <;> try (rename_i h; first | replace h := waitTokens_mem _ _ _ _ h | (replace h := congrArg (fun o => o.st.mem) h; simp [*] at h) | (replace h := congrArg (fun o => o.2.st.mem) h; simp [*] at h) | (replace h := congrArg (fun o => o.1.mem) h; simp [*] at h) | (replace h := congrArg (fun o => o.2.mem) h; simp [*] at h))) | split | split | with_reducible apply Out.mem_bind | intro _ | dsimp only)

@[simp] theorem vLiveCheck_mem (ns : List (BitVec 5)) (s : State) :
    (vLiveCheck ns s).st.mem = s.mem := by
  unfold vLiveCheck; (repeat' first | with_reducible rfl | with_reducible assumption | (simp [*]; done) | (split <;> try (rename_i h; first | replace h := waitTokens_mem _ _ _ _ h | (replace h := congrArg (fun o => o.st.mem) h; simp [*] at h) | (replace h := congrArg (fun o => o.2.st.mem) h; simp [*] at h) | (replace h := congrArg (fun o => o.1.mem) h; simp [*] at h) | (replace h := congrArg (fun o => o.2.mem) h; simp [*] at h))) | split | split | with_reducible apply Out.mem_bind | intro _ | dsimp only)

@[simp] theorem vBanks_mem (a0 : List (BitVec 5)) (a1 : State) :
    (vBanks a0 a1).st.mem = a1.mem := by
  induction a0 generalizing a1 <;> (unfold vBanks; (repeat' first | with_reducible rfl | with_reducible assumption | (simp [*]; done) | (split <;> try (rename_i h; first | replace h := waitTokens_mem _ _ _ _ h | (replace h := congrArg (fun o => o.st.mem) h; simp [*] at h) | (replace h := congrArg (fun o => o.2.st.mem) h; simp [*] at h) | (replace h := congrArg (fun o => o.1.mem) h; simp [*] at h) | (replace h := congrArg (fun o => o.2.mem) h; simp [*] at h))) | split | split | with_reducible apply Out.mem_bind | intro _ | dsimp only))

@[simp] theorem vKill_mem (on : Bool) (n : BitVec 5) (s : State) :
    (vKill on n s).mem = s.mem := by
  unfold vKill; (repeat' first | with_reducible rfl | with_reducible assumption | (simp [*]; done) | (split <;> try (rename_i h; first | replace h := waitTokens_mem _ _ _ _ h | (replace h := congrArg (fun o => o.st.mem) h; simp [*] at h) | (replace h := congrArg (fun o => o.2.st.mem) h; simp [*] at h) | (replace h := congrArg (fun o => o.1.mem) h; simp [*] at h) | (replace h := congrArg (fun o => o.2.mem) h; simp [*] at h))) | split | split | with_reducible apply Out.mem_bind | intro _ | dsimp only)

@[simp] theorem schedule_mem (lat : Nat) (dest : VDest) (mask : W32) (v : Row) (s : State) :
    (schedule lat dest mask v s).mem = s.mem := by
  unfold schedule; simp [*]

@[simp] theorem vBody_mem (srcs : List (BitVec 5)) (lat : Nat) (d : BitVec 5) (mask : State → W32) (f : State → Row) (kill : Bool) (ka : BitVec 5) (s : State) :
    (vBody srcs lat d mask f kill ka s).st.mem = s.mem := by
  unfold vBody; (repeat' first | with_reducible rfl | with_reducible assumption | (simp [*]; done) | (split <;> try (rename_i h; first | replace h := waitTokens_mem _ _ _ _ h | (replace h := congrArg (fun o => o.st.mem) h; simp [*] at h) | (replace h := congrArg (fun o => o.2.st.mem) h; simp [*] at h) | (replace h := congrArg (fun o => o.1.mem) h; simp [*] at h) | (replace h := congrArg (fun o => o.2.mem) h; simp [*] at h))) | split | split | with_reducible apply Out.mem_bind | intro _ | dsimp only)

@[simp] theorem pBody_mem (srcs : List (BitVec 5)) (lat : Nat) (d : BitVec 3) (mask : State → W32) (f : State → W32) (kill : Bool) (ka : BitVec 5) (s : State) :
    (pBody srcs lat d mask f kill ka s).st.mem = s.mem := by
  unfold pBody; (repeat' first | with_reducible rfl | with_reducible assumption | (simp [*]; done) | (split <;> try (rename_i h; first | replace h := waitTokens_mem _ _ _ _ h | (replace h := congrArg (fun o => o.st.mem) h; simp [*] at h) | (replace h := congrArg (fun o => o.2.st.mem) h; simp [*] at h) | (replace h := congrArg (fun o => o.1.mem) h; simp [*] at h) | (replace h := congrArg (fun o => o.2.mem) h; simp [*] at h))) | split | split | with_reducible apply Out.mem_bind | intro _ | dsimp only)

@[simp] theorem qHead_mem (s : State) :
    (qHead s).st.mem = s.mem := by
  unfold qHead; (repeat' first | with_reducible rfl | with_reducible assumption | (simp [*]; done) | (split <;> try (rename_i h; first | replace h := waitTokens_mem _ _ _ _ h | (replace h := congrArg (fun o => o.st.mem) h; simp [*] at h) | (replace h := congrArg (fun o => o.2.st.mem) h; simp [*] at h) | (replace h := congrArg (fun o => o.1.mem) h; simp [*] at h) | (replace h := congrArg (fun o => o.2.mem) h; simp [*] at h))) | split | split | with_reducible apply Out.mem_bind | intro _ | dsimp only)

@[simp] theorem qPop_mem (s : State) :
    (qPop s).mem = s.mem := by
  unfold qPop; simp [*]

@[simp] theorem deposit_mem (n : BitVec 3) (r : WideRec) (s : State) :
    (deposit n r s).mem = s.mem := by
  unfold deposit; simp [*]

@[simp] theorem depositGate_mem (on : Bool) (n : BitVec 3) (s : State) :
    (depositGate on n s).st.mem = s.mem := by
  unfold depositGate; (repeat' first | with_reducible rfl | with_reducible assumption | (simp [*]; done) | (split <;> try (rename_i h; first | replace h := waitTokens_mem _ _ _ _ h | (replace h := congrArg (fun o => o.st.mem) h; simp [*] at h) | (replace h := congrArg (fun o => o.2.st.mem) h; simp [*] at h) | (replace h := congrArg (fun o => o.1.mem) h; simp [*] at h) | (replace h := congrArg (fun o => o.2.mem) h; simp [*] at h))) | split | split | with_reducible apply Out.mem_bind | intro _ | dsimp only)

@[simp] theorem wideRead_mem (n : BitVec 3) (s : State) :
    (wideRead n s).st.mem = s.mem := by
  unfold wideRead; (repeat' first | with_reducible rfl | with_reducible assumption | (simp [*]; done) | (split <;> try (rename_i h; first | replace h := waitTokens_mem _ _ _ _ h | (replace h := congrArg (fun o => o.st.mem) h; simp [*] at h) | (replace h := congrArg (fun o => o.2.st.mem) h; simp [*] at h) | (replace h := congrArg (fun o => o.1.mem) h; simp [*] at h) | (replace h := congrArg (fun o => o.2.mem) h; simp [*] at h))) | split | split | with_reducible apply Out.mem_bind | intro _ | dsimp only)

@[simp] theorem wideClear_mem (n : BitVec 3) (s : State) :
    (wideClear n s).mem = s.mem := by
  unfold wideClear; simp [*]

end Sys2Proof.Machine
end

