-- ==== Sys2Proof/Laws/KeepTiles.lean ====
section
/-! SUPPORT. What the definitions of Machine/Tiles.lean keep of memory: its bytes, or its canonical form
(R17). -/

set_option maxRecDepth 2000
set_option linter.all false

namespace Sys2Proof.Machine

@[simp] theorem killTile_mem (sp : BitVec 7) (t : BitVec 4) (s : State) :
    (killTile sp t s).mem = s.mem := by
  unfold killTile; simp [*]

@[simp] theorem tileLiveCheck_mem (t : BitVec 4) (rows : List Nat) (s : State) :
    (tileLiveCheck t rows s).st.mem = s.mem := by
  unfold tileLiveCheck; (repeat' first | with_reducible rfl | with_reducible assumption | (simp [*]; done) | (split <;> try (rename_i h; first | replace h := waitTokens_mem _ _ _ _ h | (replace h := congrArg (fun o => o.st.mem) h; simp [*] at h) | (replace h := congrArg (fun o => o.2.st.mem) h; simp [*] at h) | (replace h := congrArg (fun o => o.1.mem) h; simp [*] at h) | (replace h := congrArg (fun o => o.2.mem) h; simp [*] at h))) | split | split | with_reducible apply Out.mem_bind | intro _ | dsimp only)

@[simp] theorem landTile_mem (sp : BitVec 7) (t : BitVec 4) (u : Nat) (c : W32) (mask : W32) (v : Row) (s : State) :
    (landTile sp t u c mask v s).mem = s.mem := by
  unfold landTile; simp [*]

@[simp] theorem killAcc_mem (sp : BitVec 7) (r : BitVec 1) (a : BitVec 3) (s : State) :
    (killAcc sp r a s).mem = s.mem := by
  unfold killAcc; simp [*]

end Sys2Proof.Machine
end

