-- ==== Sys2Proof/Laws/KeepLanding.lean ====
section
/-! SUPPORT. What the definitions of Machine/Landing.lean keep of memory: its bytes, or its canonical form
(R17). -/

set_option maxRecDepth 2000
set_option linter.all false

namespace Sys2Proof.Machine

@[simp] theorem landVreg_mem (sp : BitVec 7) (r : BitVec 2) (n : BitVec 5) (mask : W32) (v : Row) (s : State) :
    (landVreg sp r n mask v s).mem = s.mem := by
  unfold landVreg; simp [*]

@[simp] theorem landOne_mem (sp : BitVec 7) (r : BitVec 2) (l : VLanding) (s : State) :
    (landOne sp r l s).mem = s.mem := by
  unfold landOne; (repeat' first | with_reducible rfl | with_reducible assumption | (simp [*]; done) | (split <;> try (rename_i h; first | replace h := waitTokens_mem _ _ _ _ h | (replace h := congrArg (fun o => o.st.mem) h; simp [*] at h) | (replace h := congrArg (fun o => o.2.st.mem) h; simp [*] at h) | (replace h := congrArg (fun o => o.1.mem) h; simp [*] at h) | (replace h := congrArg (fun o => o.2.mem) h; simp [*] at h))) | split | split | with_reducible apply Out.mem_bind | intro _ | dsimp only)

@[simp] theorem landResults_mem (sp : BitVec 7) (r : BitVec 2) (s : State) :
    (landResults sp r s).mem = s.mem := by
  unfold landResults; simp [*]

@[simp] theorem settleWide_mem (sp : BitVec 7) (r : BitVec 2) (s : State) :
    (settleWide sp r s).mem = s.mem := by
  unfold settleWide; simp [*]

@[simp] theorem landEntry_mem (sp : BitVec 7) (r : BitVec 2) (b : LandEntry) (d : Row) (s : State) :
    (landEntry sp r b d s).mem = s.mem := by
  unfold landEntry; (repeat' first | with_reducible rfl | with_reducible assumption | (simp [*]; done) | (split <;> try (rename_i h; first | replace h := waitTokens_mem _ _ _ _ h | (replace h := congrArg (fun o => o.st.mem) h; simp [*] at h) | (replace h := congrArg (fun o => o.2.st.mem) h; simp [*] at h) | (replace h := congrArg (fun o => o.1.mem) h; simp [*] at h) | (replace h := congrArg (fun o => o.2.mem) h; simp [*] at h))) | split | split | with_reducible apply Out.mem_bind | intro _ | dsimp only)

@[simp] theorem landTimed_mem (sp : BitVec 7) (r : BitVec 2) (fuel : Nat) (s : State) : (landTimed sp r fuel s).mem = s.mem := by
  induction fuel generalizing s with
  | zero => simp [landTimed]
  | succ n ih =>
    unfold landTimed
    dsimp only
    split
    · simp
    · split <;> simp [ih]

@[simp] theorem landFaults_mem (sp : BitVec 7) (r : BitVec 2) (s : State) :
    (landFaults sp r s).mem = s.mem := by
  unfold landFaults; (repeat' first | with_reducible rfl | with_reducible assumption | (simp [*]; done) | (split <;> try (rename_i h; first | replace h := waitTokens_mem _ _ _ _ h | (replace h := congrArg (fun o => o.st.mem) h; simp [*] at h) | (replace h := congrArg (fun o => o.2.st.mem) h; simp [*] at h) | (replace h := congrArg (fun o => o.1.mem) h; simp [*] at h) | (replace h := congrArg (fun o => o.2.mem) h; simp [*] at h))) | split | split | with_reducible apply Out.mem_bind | intro _ | dsimp only)

@[simp] theorem dropFence_mem (sp : BitVec 7) (r : BitVec 2) (s : State) :
    (dropFence sp r s).mem = s.mem := by
  unfold dropFence; simp [*]

@[simp] theorem settle_mem (sp : BitVec 7) (r : BitVec 2) (s : State) :
    (settle sp r s).mem = s.mem := by
  unfold settle; simp [*]

@[simp] theorem atLane_mem {α : Type} (ln word : BitVec 5) (a0 : Out α) :
    (atLane ln word a0).st.mem = a0.st.mem := by
  unfold atLane; (repeat' first | with_reducible rfl | with_reducible assumption | (simp [*]; done) | (split <;> try (rename_i h; first | replace h := waitTokens_mem _ _ _ _ h | (replace h := congrArg (fun o => o.st.mem) h; simp [*] at h) | (replace h := congrArg (fun o => o.2.st.mem) h; simp [*] at h) | (replace h := congrArg (fun o => o.1.mem) h; simp [*] at h) | (replace h := congrArg (fun o => o.2.mem) h; simp [*] at h))) | split | split | with_reducible apply Out.mem_bind | intro _ | dsimp only)

@[simp] theorem atUnit_mem {α : Type} (a : W64) (a0 : Out α) :
    (atUnit a a0).st.mem = a0.st.mem := by
  unfold atUnit; simp [*]

@[simp] theorem readEntry_mem (sp : BitVec 7) (r : BitVec 2) (i : Nat) (s : State) : (readEntry sp r i s).mem = s.mem := by
  unfold readEntry
  dsimp only
  split
  · rfl
  · rename_i b hb
    split
    · rfl
    · have ht : (onceSent (workAccess (threadId s sp r) b.stream b.work) b.addr false
          (translateFree sp (s.span sp).xroot (entryAsk b) b.addr) s).st.mem = s.mem := onceSent_mem _ _ _ _ _ (by simp)
      split <;> rename_i h <;> rw [h] at ht
      · exact ht
      · simpa using ht
      · rename_i p t
        split
        · simpa using ht
        · generalize hx : Out.bind _ _ = x
          have hm : x.st.mem = t.mem := by
            rw [← hx]
            apply Out.mem_bind
            · split <;> simp
            · intro _ u hu; simpa using hu
          cases x <;> simp at hm <;> simp [hm] <;> exact ht

end Sys2Proof.Machine
end

