-- ==== Sys2Proof/Laws/KeepBranch.lean ====
section
/-! SUPPORT. What the definitions of Machine/Branch.lean keep of memory: its bytes, or its canonical form
(R17). -/

set_option maxRecDepth 2000
set_option linter.all false

namespace Sys2Proof.Machine

@[simp] theorem branchTo_mem (t : Int) (s : State) :
    (branchTo t s).st.mem = s.mem := by
  unfold branchTo; (repeat' first | with_reducible rfl | with_reducible assumption | (simp [*]; done) | (split <;> try (rename_i h; first | replace h := waitTokens_mem _ _ _ _ h | (replace h := congrArg (fun o => o.st.mem) h; simp [*] at h) | (replace h := congrArg (fun o => o.2.st.mem) h; simp [*] at h) | (replace h := congrArg (fun o => o.1.mem) h; simp [*] at h) | (replace h := congrArg (fun o => o.2.mem) h; simp [*] at h))) | split | split | with_reducible apply Out.mem_bind | intro _ | dsimp only)

@[simp] theorem branchBody_mem (a b : BitVec 5) (o : BitVec 8) (taken : W64 → W64 → Bool) (s : State) :
    (branchBody a b o taken s).st.mem = s.mem := by
  unfold branchBody; (repeat' first | with_reducible rfl | with_reducible assumption | (simp [*]; done) | (split <;> try (rename_i h; first | replace h := waitTokens_mem _ _ _ _ h | (replace h := congrArg (fun o => o.st.mem) h; simp [*] at h) | (replace h := congrArg (fun o => o.2.st.mem) h; simp [*] at h) | (replace h := congrArg (fun o => o.1.mem) h; simp [*] at h) | (replace h := congrArg (fun o => o.2.mem) h; simp [*] at h))) | split | split | with_reducible apply Out.mem_bind | intro _ | dsimp only)

theorem execBeq_mem (w : Tok) (a b : BitVec 5) (o : BitVec 8) (s : State) :
    ∃ u₁, (execBeq w a b o s) = .next u₁ ∧ u₁.mem = s.mem := by
  unfold execBeq; (first | with_reducible apply sWord_mem | with_reducible apply sOnly_mem | with_reducible apply vWord_mem | with_reducible apply cmdWord_mem | with_reducible apply plainWord_mem); all_goals (intros; simp [*]; done)

theorem execBne_mem (w : Tok) (a b : BitVec 5) (o : BitVec 8) (s : State) :
    ∃ u₁, (execBne w a b o s) = .next u₁ ∧ u₁.mem = s.mem := by
  unfold execBne; (first | with_reducible apply sWord_mem | with_reducible apply sOnly_mem | with_reducible apply vWord_mem | with_reducible apply cmdWord_mem | with_reducible apply plainWord_mem); all_goals (intros; simp [*]; done)

theorem execBlt_mem (w : Tok) (a b : BitVec 5) (o : BitVec 8) (s : State) :
    ∃ u₁, (execBlt w a b o s) = .next u₁ ∧ u₁.mem = s.mem := by
  unfold execBlt; (first | with_reducible apply sWord_mem | with_reducible apply sOnly_mem | with_reducible apply vWord_mem | with_reducible apply cmdWord_mem | with_reducible apply plainWord_mem); all_goals (intros; simp [*]; done)

theorem execBge_mem (w : Tok) (a b : BitVec 5) (o : BitVec 8) (s : State) :
    ∃ u₁, (execBge w a b o s) = .next u₁ ∧ u₁.mem = s.mem := by
  unfold execBge; (first | with_reducible apply sWord_mem | with_reducible apply sOnly_mem | with_reducible apply vWord_mem | with_reducible apply cmdWord_mem | with_reducible apply plainWord_mem); all_goals (intros; simp [*]; done)

theorem execBltn_mem (w : Tok) (a b : BitVec 5) (o : BitVec 8) (s : State) :
    ∃ u₁, (execBltn w a b o s) = .next u₁ ∧ u₁.mem = s.mem := by
  unfold execBltn; (first | with_reducible apply sWord_mem | with_reducible apply sOnly_mem | with_reducible apply vWord_mem | with_reducible apply cmdWord_mem | with_reducible apply plainWord_mem); all_goals (intros; simp [*]; done)

theorem execBgen_mem (w : Tok) (a b : BitVec 5) (o : BitVec 8) (s : State) :
    ∃ u₁, (execBgen w a b o s) = .next u₁ ∧ u₁.mem = s.mem := by
  unfold execBgen; (first | with_reducible apply sWord_mem | with_reducible apply sOnly_mem | with_reducible apply vWord_mem | with_reducible apply cmdWord_mem | with_reducible apply plainWord_mem); all_goals (intros; simp [*]; done)

@[simp] theorem jBody_mem (o : BitVec 18) (s : State) :
    (jBody o s).st.mem = s.mem := by
  unfold jBody; simp [*]

@[simp] theorem jalBody_mem (o : BitVec 18) (s : State) :
    (jalBody o s).st.mem = s.mem := by
  unfold jalBody; (repeat' first | with_reducible rfl | with_reducible assumption | (simp [*]; done) | (split <;> try (rename_i h; first | replace h := waitTokens_mem _ _ _ _ h | (replace h := congrArg (fun o => o.st.mem) h; simp [*] at h) | (replace h := congrArg (fun o => o.2.st.mem) h; simp [*] at h) | (replace h := congrArg (fun o => o.1.mem) h; simp [*] at h) | (replace h := congrArg (fun o => o.2.mem) h; simp [*] at h))) | split | split | with_reducible apply Out.mem_bind | intro _ | dsimp only)

@[simp] theorem jrBody_mem (a : BitVec 5) (s : State) :
    (jrBody a s).st.mem = s.mem := by
  unfold jrBody; (repeat' first | with_reducible rfl | with_reducible assumption | (simp [*]; done) | (split <;> try (rename_i h; first | replace h := waitTokens_mem _ _ _ _ h | (replace h := congrArg (fun o => o.st.mem) h; simp [*] at h) | (replace h := congrArg (fun o => o.2.st.mem) h; simp [*] at h) | (replace h := congrArg (fun o => o.1.mem) h; simp [*] at h) | (replace h := congrArg (fun o => o.2.mem) h; simp [*] at h))) | split | split | with_reducible apply Out.mem_bind | intro _ | dsimp only)

theorem execJ_mem (w : Tok) (o : BitVec 18) (s : State) :
    ∃ u₁, (execJ w o s) = .next u₁ ∧ u₁.mem = s.mem := by
  unfold execJ; (first | with_reducible apply sWord_mem | with_reducible apply sOnly_mem | with_reducible apply vWord_mem | with_reducible apply cmdWord_mem | with_reducible apply plainWord_mem); all_goals (intros; simp [*]; done)

theorem execJal_mem (w : Tok) (o : BitVec 18) (s : State) :
    ∃ u₁, (execJal w o s) = .next u₁ ∧ u₁.mem = s.mem := by
  unfold execJal; (first | with_reducible apply sWord_mem | with_reducible apply sOnly_mem | with_reducible apply vWord_mem | with_reducible apply cmdWord_mem | with_reducible apply plainWord_mem); all_goals (intros; simp [*]; done)

theorem execJr_mem (w : Tok) (a : BitVec 5) (s : State) :
    ∃ u₁, (execJr w a s) = .next u₁ ∧ u₁.mem = s.mem := by
  unfold execJr; (first | with_reducible apply sWord_mem | with_reducible apply sOnly_mem | with_reducible apply vWord_mem | with_reducible apply cmdWord_mem | with_reducible apply plainWord_mem); all_goals (intros; simp [*]; done)

@[simp] theorem bwBody_mem (n c : BitVec 5) (o : BitVec 8) (s : State) :
    (bwBody n c o s).st.mem = s.mem := by
  unfold bwBody; (repeat' first | with_reducible rfl | with_reducible assumption | (simp [*]; done) | (split <;> try (rename_i h; first | replace h := waitTokens_mem _ _ _ _ h | (replace h := congrArg (fun o => o.st.mem) h; simp [*] at h) | (replace h := congrArg (fun o => o.2.st.mem) h; simp [*] at h) | (replace h := congrArg (fun o => o.1.mem) h; simp [*] at h) | (replace h := congrArg (fun o => o.2.mem) h; simp [*] at h))) | split | split | with_reducible apply Out.mem_bind | intro _ | dsimp only)

@[simp] theorem rdwBody_mem (d n : BitVec 5) (sel : BitVec 3) (s : State) :
    (rdwBody d n sel s).st.mem = s.mem := by
  unfold rdwBody; (repeat' first | with_reducible rfl | with_reducible assumption | (simp [*]; done) | (split <;> try (rename_i h; first | replace h := waitTokens_mem _ _ _ _ h | (replace h := congrArg (fun o => o.st.mem) h; simp [*] at h) | (replace h := congrArg (fun o => o.2.st.mem) h; simp [*] at h) | (replace h := congrArg (fun o => o.1.mem) h; simp [*] at h) | (replace h := congrArg (fun o => o.2.mem) h; simp [*] at h))) | split | split | with_reducible apply Out.mem_bind | intro _ | dsimp only)

theorem execBw_mem (w : Tok) (n c : BitVec 5) (o : BitVec 8) (s : State) :
    ∃ u₁, (execBw w n c o s) = .next u₁ ∧ u₁.mem = s.mem := by
  unfold execBw; (first | with_reducible apply sWord_mem | with_reducible apply sOnly_mem | with_reducible apply vWord_mem | with_reducible apply cmdWord_mem | with_reducible apply plainWord_mem); all_goals (intros; simp [*]; done)

theorem execRdw_mem (w : Tok) (d n : BitVec 5) (sel : BitVec 3) (s : State) :
    ∃ u₁, (execRdw w d n sel s) = .next u₁ ∧ u₁.mem = s.mem := by
  unfold execRdw; (first | with_reducible apply sWord_mem | with_reducible apply sOnly_mem | with_reducible apply vWord_mem | with_reducible apply cmdWord_mem | with_reducible apply plainWord_mem); all_goals (intros; simp [*]; done)

@[simp] theorem writeOwnRow_wf (sp : BitVec 7) (row : Nat) (v : Row) (s : State) (hw : s.mem.wf = true) :
    (writeOwnRow sp row v s).mem.wf = true := by
  unfold writeOwnRow; simp [*, Memory.wf_putRow, Memory.wf_putNat, Memory.wf_put, Memory.wf_filter]

@[simp] theorem snapshot_wf (sp : BitVec 7) (r : BitVec 2) (scy : W64) (s : State) (hw : s.mem.wf = true) :
    (snapshot sp r scy s).mem.wf = true := by
  unfold snapshot
  dsimp only
  apply foldl_wf
  · intro s i h; exact writeOwnRow_wf _ _ _ _ h
  · exact writeOwnRow_wf _ _ _ _ (by simpa using hw)

@[simp] theorem noteExit_mem (s : State) :
    (noteExit s).mem = s.mem := by
  unfold noteExit; (repeat' first | with_reducible rfl | with_reducible assumption | (simp [*]; done) | (split <;> try (rename_i h; first | replace h := waitTokens_mem _ _ _ _ h | (replace h := congrArg (fun o => o.st.mem) h; simp [*] at h) | (replace h := congrArg (fun o => o.2.st.mem) h; simp [*] at h) | (replace h := congrArg (fun o => o.1.mem) h; simp [*] at h) | (replace h := congrArg (fun o => o.2.mem) h; simp [*] at h))) | split | split | with_reducible apply Out.mem_bind | intro _ | dsimp only)

@[simp] theorem loopBody_mem (a : BitVec 5) (o : BitVec 8) (s : State) :
    (loopBody a o s).st.mem = s.mem := by
  unfold loopBody; (repeat' first | with_reducible rfl | with_reducible assumption | (simp [*]; done) | (split <;> try (rename_i h; first | replace h := waitTokens_mem _ _ _ _ h | (replace h := congrArg (fun o => o.st.mem) h; simp [*] at h) | (replace h := congrArg (fun o => o.2.st.mem) h; simp [*] at h) | (replace h := congrArg (fun o => o.1.mem) h; simp [*] at h) | (replace h := congrArg (fun o => o.2.mem) h; simp [*] at h))) | split | split | with_reducible apply Out.mem_bind | intro _ | dsimp only)

@[simp] theorem lbrBody_wf (o : BitVec 18) (s : State) (hw : s.mem.wf = true) :
    (lbrBody o s).st.mem.wf = true := by
  unfold lbrBody; (repeat' first | (simp [*, Memory.wf_putRow, Memory.wf_putNat, Memory.wf_put, Memory.wf_filter]; done) | (split <;> try (rename_i h; first | replace h := waitTokens_mem _ _ _ _ h | (replace h := congrArg (fun o => o.st.mem.wf) h; simp [*] at h) | (replace h := congrArg (fun o => o.2.st.mem.wf) h; simp [*] at h) | (replace h := congrArg (fun o => o.1.mem.wf) h; simp [*] at h) | (replace h := congrArg (fun o => o.2.mem.wf) h; simp [*] at h))) | split | split | with_reducible apply Out.wf_bind | intro _ | dsimp only)

theorem execLoop_mem (w : Tok) (a : BitVec 5) (o : BitVec 8) (s : State) :
    ∃ u₁, (execLoop w a o s) = .next u₁ ∧ u₁.mem = s.mem := by
  unfold execLoop; (first | with_reducible apply sWord_mem | with_reducible apply sOnly_mem | with_reducible apply vWord_mem | with_reducible apply cmdWord_mem | with_reducible apply plainWord_mem); all_goals (intros; simp [*]; done)

theorem execLbr_wf (w : Tok) (o : BitVec 18) (s : State) (hw : s.mem.wf = true) :
    ∃ u₁, (execLbr w o s) = .next u₁ ∧ u₁.mem.wf = true := by
  unfold execLbr; (first | with_reducible apply sWord_wf | with_reducible apply sOnly_wf | with_reducible apply vWord_wf | with_reducible apply cmdWord_wf); all_goals (intros; simp [*, Memory.wf_putRow, Memory.wf_putNat, Memory.wf_put, Memory.wf_filter]; done)

end Sys2Proof.Machine
end

