-- ==== Sys2Proof/Laws/KeepClock.lean ====
section
/-! SUPPORT. What the definitions of Machine/Clock.lean keep of memory: its bytes, or its canonical form
(R17). -/

set_option maxRecDepth 2000
set_option linter.all false

namespace Sys2Proof.Machine

@[simp] theorem startCycle_mem (sp : BitVec 7) (s : State) (r : BitVec 2) : (startCycle sp s r).mem = s.mem := by
  unfold startCycle
  by_cases h : clocked (s.reck sp r) = true
  · rw [if_pos h]
    by_cases h' : clocked ((settle sp r s).reck sp r) = true
    · simp only [h', if_true]; simp
    · simp only [h', if_false, Bool.false_eq_true]; simp
  · rw [if_neg h]

@[simp] theorem endClock_mem (sp : BitVec 7) (s : State) (r : BitVec 2) :
    (endClock sp s r).mem = s.mem := by
  unfold endClock; (repeat' first | with_reducible rfl | with_reducible assumption | (simp [*]; done) | (split <;> try (rename_i h; first | replace h := waitTokens_mem _ _ _ _ h | (replace h := congrArg (fun o => o.st.mem) h; simp [*] at h) | (replace h := congrArg (fun o => o.2.st.mem) h; simp [*] at h) | (replace h := congrArg (fun o => o.1.mem) h; simp [*] at h) | (replace h := congrArg (fun o => o.2.mem) h; simp [*] at h))) | split | split | with_reducible apply Out.mem_bind | intro _ | dsimp only)

@[simp] theorem grantTo_mem (sp : BitVec 7) (r : BitVec 2) (s : State) :
    (grantTo sp r s).mem = s.mem := by
  unfold grantTo; (repeat' first | with_reducible rfl | with_reducible assumption | (simp [*]; done) | (split <;> try (rename_i h; first | replace h := waitTokens_mem _ _ _ _ h | (replace h := congrArg (fun o => o.st.mem) h; simp [*] at h) | (replace h := congrArg (fun o => o.2.st.mem) h; simp [*] at h) | (replace h := congrArg (fun o => o.1.mem) h; simp [*] at h) | (replace h := congrArg (fun o => o.2.mem) h; simp [*] at h))) | split | split | with_reducible apply Out.mem_bind | intro _ | dsimp only)

@[simp] theorem grantAmong_mem (p : BitVec 2 → Bool) (sp : BitVec 7) (s : State) :
    (grantAmong p sp s).mem = s.mem := by
  unfold grantAmong; (repeat' first | with_reducible rfl | with_reducible assumption | (simp [*]; done) | (split <;> try (rename_i h; first | replace h := waitTokens_mem _ _ _ _ h | (replace h := congrArg (fun o => o.st.mem) h; simp [*] at h) | (replace h := congrArg (fun o => o.2.st.mem) h; simp [*] at h) | (replace h := congrArg (fun o => o.1.mem) h; simp [*] at h) | (replace h := congrArg (fun o => o.2.mem) h; simp [*] at h))) | split | split | with_reducible apply Out.mem_bind | intro _ | dsimp only)

@[simp] theorem grantNext_mem (sp : BitVec 7) (s : State) :
    (grantNext sp s).mem = s.mem := by
  unfold grantNext; simp [*]

@[simp] theorem revokeDue_mem (sp : BitVec 7) (s : State) :
    (revokeDue sp s).mem = s.mem := by
  unfold revokeDue; (repeat' first | with_reducible rfl | with_reducible assumption | (simp [*]; done) | (split <;> try (rename_i h; first | replace h := waitTokens_mem _ _ _ _ h | (replace h := congrArg (fun o => o.st.mem) h; simp [*] at h) | (replace h := congrArg (fun o => o.2.st.mem) h; simp [*] at h) | (replace h := congrArg (fun o => o.1.mem) h; simp [*] at h) | (replace h := congrArg (fun o => o.2.mem) h; simp [*] at h))) | split | split | with_reducible apply Out.mem_bind | intro _ | dsimp only)

@[simp] theorem leaseNow_mem (sp : BitVec 7) (s : State) :
    (leaseNow sp s).mem = s.mem := by
  unfold leaseNow; simp [*]

theorem takeSnaps_wf (sp : BitVec 7) (s : State) (hw : s.mem.wf = true) : (takeSnaps sp s).mem.wf = true := by
  unfold takeSnaps
  dsimp only
  apply foldl_wf
  · intro t r h
    exact foldl_wf _ (fun u e hu => snapshot_wf _ _ _ _ hu) _ _ h
  · split <;> simpa using hw

theorem edge_wf (sp : BitVec 7) (s : State) (hw : s.mem.wf = true) : (edge sp s).mem.wf = true := by
  unfold edge
  rw [State_mapSpan_mem]
  exact foldl_wf _ (fun t r ht => by simpa using ht) _ _ (takeSnaps_wf sp _ (by simpa using hw))

@[simp] theorem tickSpan_wf (sp : BitVec 7) (s : State) (hw : s.mem.wf = true) : (tickSpan sp s).mem.wf = true :=
  foldl_wf _ (fun t r ht => by simpa using ht) _ _ (edge_wf sp s hw)

end Sys2Proof.Machine
end

