-- ==== Sys2Proof/Laws/KeepSchedule.lean ====
section
/-! SUPPORT. What the definitions of Machine/Schedule.lean keep of memory: its bytes, or its canonical form
(R17). -/

set_option maxRecDepth 2000
set_option linter.all false

namespace Sys2Proof.Machine

@[simp] theorem headOf_mem (sp : BitVec 7) (r : BitVec 2) (e : Stream) (go : Option (Option Nat × Bool)) (s : State) :
    (headOf sp r e go s).1.mem = s.mem := by
  unfold headOf
  cases go with
  | none => rfl
  | some g =>
    dsimp only
    repeat' split
    all_goals simp

@[simp] theorem tenderMove_mem (sp : BitVec 7) (s : State) : (tenderMove sp s).1.mem = s.mem := by
  unfold tenderMove
  dsimp only
  split
  · rfl
  · split
    · rfl
    · have hf := tenderFetch_mem sp { s with cur := ⟨sp, .tender, none, false⟩ }
      split <;> (rename_i h; rw [h] at hf; exact hf)

@[simp] theorem loadWord_wf (s : State) (nbits w : Nat) (hw : s.mem.wf = true) :
    (loadWord s nbits w).mem.wf = true := by
  unfold loadWord; simp [*, Memory.wf_putRow, Memory.wf_putNat, Memory.wf_put, Memory.wf_filter]

end Sys2Proof.Machine
end

