-- ==== Sys2Proof/Laws/KeepDistributor.lean ====
section
/-! SUPPORT. What the definitions of Machine/Distributor.lean keep of memory: its bytes, or its canonical form
(R17). -/

set_option maxRecDepth 2000
set_option linter.all false

namespace Sys2Proof.Machine

@[simp] theorem mapNode_mem (id : Nat) (f : Node → Node) (s : State) :
    (mapNode id f s).mem = s.mem := by
  unfold mapNode; simp [*]

@[simp] theorem fixPages_mem (root : W64) (pages : List Nat) (s : State) :
    (fixPages root pages s).mem = s.mem := by
  unfold fixPages; simp [*]

@[simp] theorem examinedWalks_mem (s : State) (n : Node) :
    (examinedWalks s n).mem = s.mem := by
  unfold examinedWalks; (repeat' first | with_reducible rfl | with_reducible assumption | (simp [*]; done) | (split <;> try (rename_i h; first | replace h := waitTokens_mem _ _ _ _ h | (replace h := congrArg (fun o => o.st.mem) h; simp [*] at h) | (replace h := congrArg (fun o => o.2.st.mem) h; simp [*] at h) | (replace h := congrArg (fun o => o.1.mem) h; simp [*] at h) | (replace h := congrArg (fun o => o.2.mem) h; simp [*] at h))) | split | split | with_reducible apply Out.mem_bind | intro _ | dsimp only)

@[simp] theorem examine_mem (s : State) :
    (examine s).mem = s.mem := by
  unfold examine; simp [*]

@[simp] theorem addNode_mem (rec' : List W64) (s : State) :
    (addNode rec' s).mem = s.mem := by
  unfold addNode; simp [*]

@[simp] theorem State_setWindow_mem (s : State) (n : BitVec 5) (w : Window) :
    (State.setWindow s n w).mem = s.mem := by
  unfold State.setWindow; simp [*]

@[simp] theorem submitWindow_mem (n : BitVec 5) (s : State) :
    (submitWindow n s).mem = s.mem := by
  unfold submitWindow; (repeat' first | with_reducible rfl | with_reducible assumption | (simp [*]; done) | (split <;> try (rename_i h; first | replace h := waitTokens_mem _ _ _ _ h | (replace h := congrArg (fun o => o.st.mem) h; simp [*] at h) | (replace h := congrArg (fun o => o.2.st.mem) h; simp [*] at h) | (replace h := congrArg (fun o => o.1.mem) h; simp [*] at h) | (replace h := congrArg (fun o => o.2.mem) h; simp [*] at h))) | split | split | with_reducible apply Out.mem_bind | intro _ | dsimp only)

@[simp] theorem writeDkill_mem (v : W64) (s : State) :
    (writeDkill v s).mem = s.mem := by
  unfold writeDkill; (repeat' first | with_reducible rfl | with_reducible assumption | (simp [*]; done) | (split <;> try (rename_i h; first | replace h := waitTokens_mem _ _ _ _ h | (replace h := congrArg (fun o => o.st.mem) h; simp [*] at h) | (replace h := congrArg (fun o => o.2.st.mem) h; simp [*] at h) | (replace h := congrArg (fun o => o.1.mem) h; simp [*] at h) | (replace h := congrArg (fun o => o.2.mem) h; simp [*] at h))) | split | split | with_reducible apply Out.mem_bind | intro _ | dsimp only)

end Sys2Proof.Machine
end

