-- ==== Sys2Proof/Laws/KeepDevice.lean ====
section
/-! SUPPORT. What the definitions of Machine/Device.lean keep of memory: its bytes, or its canonical form
(R17). -/

set_option maxRecDepth 2000
set_option linter.all false

namespace Sys2Proof.Machine

@[simp] theorem popRecord_mem (sp : BitVec 7) (s : State) :
    (popRecord sp s).mem = s.mem := by
  unfold popRecord; simp [*]

theorem writeTpwr_mem (sp : BitVec 7) (v : W64) (s : State) :
    ∀ u₁, (writeTpwr sp v s) = .ok u₁ → u₁.mem = s.mem := by
  unfold writeTpwr; (repeat' first | with_reducible rfl | with_reducible assumption | (simp [*]; done) | (split <;> try (rename_i h; first | replace h := waitTokens_mem _ _ _ _ h | (replace h := congrArg (fun o => o.st.mem) h; simp [*] at h) | (replace h := congrArg (fun o => o.2.st.mem) h; simp [*] at h) | (replace h := congrArg (fun o => o.1.mem) h; simp [*] at h) | (replace h := congrArg (fun o => o.2.mem) h; simp [*] at h))) | split | split | with_reducible apply Out.mem_bind | intro _ | dsimp only)

theorem writeTprof_mem (sp : BitVec 7) (v : W64) (s : State) :
    ∀ u₁, (writeTprof sp v s) = .ok u₁ → u₁.mem = s.mem := by
  unfold writeTprof; (repeat' first | with_reducible rfl | with_reducible assumption | (simp [*]; done) | (split <;> try (rename_i h; first | replace h := waitTokens_mem _ _ _ _ h | (replace h := congrArg (fun o => o.st.mem) h; simp [*] at h) | (replace h := congrArg (fun o => o.2.st.mem) h; simp [*] at h) | (replace h := congrArg (fun o => o.1.mem) h; simp [*] at h) | (replace h := congrArg (fun o => o.2.mem) h; simp [*] at h))) | split | split | with_reducible apply Out.mem_bind | intro _ | dsimp only)

@[simp] theorem onFrozen_mem (sp : BitVec 7) (f : Freeze → Freeze) (s : State) :
    (onFrozen sp f s).mem = s.mem := by
  unfold onFrozen; simp [*]

theorem writeTenderCsr_mem (sp : BitVec 7) (n : Nat) (v : W64) (s : State) :
    ∀ t, writeTenderCsr sp n v s = .ok t → t.mem = s.mem := by
  intro t h
  unfold writeTenderCsr at h
  dsimp only at h
  have ok : ∀ u : State, u.mem = s.mem → (Except.ok u : Except (BitVec 8) State) = .ok t → t.mem = s.mem := by
    intro u hu e; cases e; exact hu
  by_cases hn : n = 0x100
  · rw [if_pos hn] at h
    exact ok _ (by rfl) h
  rw [if_neg hn] at h; clear hn
  by_cases hn : n = 0x101
  · rw [if_pos hn] at h
    by_cases hv : v.getLsbD 0 = true
    · rw [if_pos hv] at h; exact ok _ (popRecord_mem _ _) h
    · rw [if_neg hv] at h; exact ok _ (by rfl) h
  rw [if_neg hn] at h; clear hn
  by_cases hn : n = 0x102
  · rw [if_pos hn] at h
    exact ok _ (by rfl) h
  rw [if_neg hn] at h; clear hn
  by_cases hn : n = 0x103
  · rw [if_pos hn] at h
    exact ok _ (by rfl) h
  rw [if_neg hn] at h; clear hn
  by_cases hn : n = 0x104
  · rw [if_pos hn] at h
    exact ok _ (by rfl) h
  rw [if_neg hn] at h; clear hn
  by_cases hn : n = 0x120
  · rw [if_pos hn] at h
    exact ok _ (onFrozen_mem _ _ _) h
  rw [if_neg hn] at h; clear hn
  by_cases hn : n = 0x121
  · rw [if_pos hn] at h
    exact ok _ (onFrozen_mem _ _ _) h
  rw [if_neg hn] at h; clear hn
  by_cases hn : (decide (0x140 ≤ n) && decide (n ≤ 0x15F)) = true
  · rw [if_pos hn] at h
    exact ok _ (by rfl) h
  rw [if_neg hn] at h; clear hn
  by_cases hn : n = 0x180
  · rw [if_pos hn] at h
    exact ok _ (by rfl) h
  rw [if_neg hn] at h; clear hn
  by_cases hn : n = 0x181
  · rw [if_pos hn] at h
    exact ok _ (by rfl) h
  rw [if_neg hn] at h; clear hn
  by_cases hn : n = 0x182
  · rw [if_pos hn] at h
    exact ok _ (by rfl) h
  rw [if_neg hn] at h; clear hn
  by_cases hn : n = 0x190
  · rw [if_pos hn] at h
    exact ok _ (by rfl) h
  rw [if_neg hn] at h; clear hn
  by_cases hn : n = 0x1A0
  · rw [if_pos hn] at h
    exact writeTpwr_mem _ _ _ _ h
  rw [if_neg hn] at h; clear hn
  by_cases hn : n = 0x1B0
  · rw [if_pos hn] at h
    exact writeTprof_mem _ _ _ _ h
  rw [if_neg hn] at h; clear hn
  exact ok _ (by rfl) h

@[simp] theorem startInval_mem (s : State) :
    (startInval s).mem = s.mem := by
  unfold startInval; simp [*]

@[simp] theorem writeXinvc_mem (v : W64) (s : State) :
    (writeXinvc v s).mem = s.mem := by
  unfold writeXinvc; (repeat' first | with_reducible rfl | with_reducible assumption | (simp [*]; done) | (split <;> try (rename_i h; first | replace h := waitTokens_mem _ _ _ _ h | (replace h := congrArg (fun o => o.st.mem) h; simp [*] at h) | (replace h := congrArg (fun o => o.2.st.mem) h; simp [*] at h) | (replace h := congrArg (fun o => o.1.mem) h; simp [*] at h) | (replace h := congrArg (fun o => o.2.mem) h; simp [*] at h))) | split | split | with_reducible apply Out.mem_bind | intro _ | dsimp only)

@[simp] theorem newGroup_mem (o : Nat) (v : W64) (s : State) :
    (newGroup o v s).mem = s.mem := by
  unfold newGroup; (repeat' first | with_reducible rfl | with_reducible assumption | (simp [*]; done) | (split <;> try (rename_i h; first | replace h := waitTokens_mem _ _ _ _ h | (replace h := congrArg (fun o => o.st.mem) h; simp [*] at h) | (replace h := congrArg (fun o => o.2.st.mem) h; simp [*] at h) | (replace h := congrArg (fun o => o.1.mem) h; simp [*] at h) | (replace h := congrArg (fun o => o.2.mem) h; simp [*] at h))) | split | split | with_reducible apply Out.mem_bind | rw [atUnit_mem] | rw [atLane_mem] | intro _ | dsimp only)

@[simp] theorem State_setPort_mem (s : State) (n : BitVec 3) (p : Port) :
    (State.setPort s n p).mem = s.mem := by
  unfold State.setPort; simp [*]

@[simp] theorem writeHpcfg_mem (n : BitVec 3) (v : W64) (s : State) :
    (writeHpcfg n v s).mem = s.mem := by
  unfold writeHpcfg; (repeat' first | with_reducible rfl | with_reducible assumption | (simp [*]; done) | (split <;> try (rename_i h; first | replace h := waitTokens_mem _ _ _ _ h | (replace h := congrArg (fun o => o.st.mem) h; simp [*] at h) | (replace h := congrArg (fun o => o.2.st.mem) h; simp [*] at h) | (replace h := congrArg (fun o => o.1.mem) h; simp [*] at h) | (replace h := congrArg (fun o => o.2.mem) h; simp [*] at h))) | split | split | with_reducible apply Out.mem_bind | intro _ | dsimp only)

@[simp] theorem writeHpnet_mem (v : W64) (s : State) :
    (writeHpnet v s).mem = s.mem := by
  unfold writeHpnet; (repeat' first | with_reducible rfl | with_reducible assumption | (simp [*]; done) | (split <;> try (rename_i h; first | replace h := waitTokens_mem _ _ _ _ h | (replace h := congrArg (fun o => o.st.mem) h; simp [*] at h) | (replace h := congrArg (fun o => o.2.st.mem) h; simp [*] at h) | (replace h := congrArg (fun o => o.1.mem) h; simp [*] at h) | (replace h := congrArg (fun o => o.2.mem) h; simp [*] at h))) | split | split | with_reducible apply Out.mem_bind | intro _ | dsimp only)

@[simp] theorem writeDistributor_mem (o : Nat) (v : W64) (s : State) : (writeDistributor o v s).mem = s.mem := by
  unfold writeDistributor
  dsimp only
  split
  · split
    · rfl
    · split
      · split <;> simp
      · split
        · rfl
        · split <;> simp
  · split
    · split
      · rename_i h; exact writeTenderCsr_mem _ _ _ _ _ h
      · rfl
    · rfl

@[simp] theorem writeRegBlock_mem (b p : Nat) (v : W64) (s : State) :
    (writeRegBlock b p v s).mem = s.mem := by
  unfold writeRegBlock; (repeat' first | with_reducible rfl | with_reducible assumption | (simp [*]; done) | (split <;> try (rename_i h; first | replace h := waitTokens_mem _ _ _ _ h | (replace h := congrArg (fun o => o.st.mem) h; simp [*] at h) | (replace h := congrArg (fun o => o.2.st.mem) h; simp [*] at h) | (replace h := congrArg (fun o => o.1.mem) h; simp [*] at h) | (replace h := congrArg (fun o => o.2.mem) h; simp [*] at h))) | split | split | with_reducible apply Out.mem_bind | rw [atUnit_mem] | rw [atLane_mem] | intro _ | dsimp only)

@[simp] theorem writeDevice_mem (pa : Nat) (v : W64) (s : State) : (writeDevice pa v s).mem = s.mem := writeRegBlock_mem _ _ _ _

end Sys2Proof.Machine
end

