-- ==== Sys2Proof/Laws/KeepScalarAlu.lean ====
section
/-! SUPPORT. What the definitions of Machine/ScalarAlu.lean keep of memory: its bytes, or its canonical form
(R17). -/

set_option maxRecDepth 2000
set_option linter.all false

namespace Sys2Proof.Machine

@[simp] theorem alu2_mem (d a b : BitVec 5) (f : W64 → W64 → W64) (a0 : State) :
    (alu2 d a b f a0).st.mem = a0.mem := by
  unfold alu2; simp [*]

@[simp] theorem alu1_mem (d a : BitVec 5) (f : W64 → W64) (a0 : State) :
    (alu1 d a f a0).st.mem = a0.mem := by
  unfold alu1; simp [*]

@[simp] theorem aluI_mem {n : Nat} (d a : BitVec 5) (i : BitVec n) (f : W64 → W64 → W64) (a0 : State) :
    (aluI d a i f a0).st.mem = a0.mem := by
  unfold aluI; simp [*]

theorem execNop_mem (w : Tok) (s : State) :
    ∃ u₁, (execNop w s) = .next u₁ ∧ u₁.mem = s.mem := by
  unfold execNop; (first | with_reducible apply sWord_mem | with_reducible apply sOnly_mem | with_reducible apply vWord_mem | with_reducible apply cmdWord_mem | with_reducible apply plainWord_mem); all_goals (intros; simp [*]; done)

theorem execAdd_mem (w : Tok) (d a b : BitVec 5) (s : State) :
    ∃ u₁, (execAdd w d a b s) = .next u₁ ∧ u₁.mem = s.mem := by
  unfold execAdd; (first | with_reducible apply sWord_mem | with_reducible apply sOnly_mem | with_reducible apply vWord_mem | with_reducible apply cmdWord_mem | with_reducible apply plainWord_mem); all_goals (intros; simp [*]; done)

theorem execSub_mem (w : Tok) (d a b : BitVec 5) (s : State) :
    ∃ u₁, (execSub w d a b s) = .next u₁ ∧ u₁.mem = s.mem := by
  unfold execSub; (first | with_reducible apply sWord_mem | with_reducible apply sOnly_mem | with_reducible apply vWord_mem | with_reducible apply cmdWord_mem | with_reducible apply plainWord_mem); all_goals (intros; simp [*]; done)

theorem execAnd_mem (w : Tok) (d a b : BitVec 5) (s : State) :
    ∃ u₁, (execAnd w d a b s) = .next u₁ ∧ u₁.mem = s.mem := by
  unfold execAnd; (first | with_reducible apply sWord_mem | with_reducible apply sOnly_mem | with_reducible apply vWord_mem | with_reducible apply cmdWord_mem | with_reducible apply plainWord_mem); all_goals (intros; simp [*]; done)

theorem execOr_mem (w : Tok) (d a b : BitVec 5) (s : State) :
    ∃ u₁, (execOr w d a b s) = .next u₁ ∧ u₁.mem = s.mem := by
  unfold execOr; (first | with_reducible apply sWord_mem | with_reducible apply sOnly_mem | with_reducible apply vWord_mem | with_reducible apply cmdWord_mem | with_reducible apply plainWord_mem); all_goals (intros; simp [*]; done)

theorem execXor_mem (w : Tok) (d a b : BitVec 5) (s : State) :
    ∃ u₁, (execXor w d a b s) = .next u₁ ∧ u₁.mem = s.mem := by
  unfold execXor; (first | with_reducible apply sWord_mem | with_reducible apply sOnly_mem | with_reducible apply vWord_mem | with_reducible apply cmdWord_mem | with_reducible apply plainWord_mem); all_goals (intros; simp [*]; done)

theorem execSll_mem (w : Tok) (d a b : BitVec 5) (s : State) :
    ∃ u₁, (execSll w d a b s) = .next u₁ ∧ u₁.mem = s.mem := by
  unfold execSll; (first | with_reducible apply sWord_mem | with_reducible apply sOnly_mem | with_reducible apply vWord_mem | with_reducible apply cmdWord_mem | with_reducible apply plainWord_mem); all_goals (intros; simp [*]; done)

theorem execSrl_mem (w : Tok) (d a b : BitVec 5) (s : State) :
    ∃ u₁, (execSrl w d a b s) = .next u₁ ∧ u₁.mem = s.mem := by
  unfold execSrl; (first | with_reducible apply sWord_mem | with_reducible apply sOnly_mem | with_reducible apply vWord_mem | with_reducible apply cmdWord_mem | with_reducible apply plainWord_mem); all_goals (intros; simp [*]; done)

theorem execSra_mem (w : Tok) (d a b : BitVec 5) (s : State) :
    ∃ u₁, (execSra w d a b s) = .next u₁ ∧ u₁.mem = s.mem := by
  unfold execSra; (first | with_reducible apply sWord_mem | with_reducible apply sOnly_mem | with_reducible apply vWord_mem | with_reducible apply cmdWord_mem | with_reducible apply plainWord_mem); all_goals (intros; simp [*]; done)

theorem execMul_mem (w : Tok) (d a b : BitVec 5) (s : State) :
    ∃ u₁, (execMul w d a b s) = .next u₁ ∧ u₁.mem = s.mem := by
  unfold execMul; (first | with_reducible apply sWord_mem | with_reducible apply sOnly_mem | with_reducible apply vWord_mem | with_reducible apply cmdWord_mem | with_reducible apply plainWord_mem); all_goals (intros; simp [*]; done)

theorem execMulh_mem (w : Tok) (d a b : BitVec 5) (f : BitVec 3) (s : State) :
    ∃ u₁, (execMulh w d a b f s) = .next u₁ ∧ u₁.mem = s.mem := by
  unfold execMulh; (first | with_reducible apply sWord_mem | with_reducible apply sOnly_mem | with_reducible apply vWord_mem | with_reducible apply cmdWord_mem | with_reducible apply plainWord_mem); all_goals (intros; simp [*]; done)

theorem execDiv_mem (w : Tok) (d a b : BitVec 5) (s : State) :
    ∃ u₁, (execDiv w d a b s) = .next u₁ ∧ u₁.mem = s.mem := by
  unfold execDiv; (first | with_reducible apply sWord_mem | with_reducible apply sOnly_mem | with_reducible apply vWord_mem | with_reducible apply cmdWord_mem | with_reducible apply plainWord_mem); all_goals (intros; simp [*]; done)

theorem execRem_mem (w : Tok) (d a b : BitVec 5) (s : State) :
    ∃ u₁, (execRem w d a b s) = .next u₁ ∧ u₁.mem = s.mem := by
  unfold execRem; (first | with_reducible apply sWord_mem | with_reducible apply sOnly_mem | with_reducible apply vWord_mem | with_reducible apply cmdWord_mem | with_reducible apply plainWord_mem); all_goals (intros; simp [*]; done)

theorem execMin_mem (w : Tok) (d a b : BitVec 5) (s : State) :
    ∃ u₁, (execMin w d a b s) = .next u₁ ∧ u₁.mem = s.mem := by
  unfold execMin; (first | with_reducible apply sWord_mem | with_reducible apply sOnly_mem | with_reducible apply vWord_mem | with_reducible apply cmdWord_mem | with_reducible apply plainWord_mem); all_goals (intros; simp [*]; done)

theorem execMax_mem (w : Tok) (d a b : BitVec 5) (s : State) :
    ∃ u₁, (execMax w d a b s) = .next u₁ ∧ u₁.mem = s.mem := by
  unfold execMax; (first | with_reducible apply sWord_mem | with_reducible apply sOnly_mem | with_reducible apply vWord_mem | with_reducible apply cmdWord_mem | with_reducible apply plainWord_mem); all_goals (intros; simp [*]; done)

theorem execSlt_mem (w : Tok) (d a b : BitVec 5) (f : BitVec 3) (s : State) :
    ∃ u₁, (execSlt w d a b f s) = .next u₁ ∧ u₁.mem = s.mem := by
  unfold execSlt; (first | with_reducible apply sWord_mem | with_reducible apply sOnly_mem | with_reducible apply vWord_mem | with_reducible apply cmdWord_mem | with_reducible apply plainWord_mem); all_goals (intros; simp [*]; done)

theorem execSel_mem (w : Tok) (d a b : BitVec 5) (s : State) :
    ∃ u₁, (execSel w d a b s) = .next u₁ ∧ u₁.mem = s.mem := by
  unfold execSel; (first | with_reducible apply sWord_mem | with_reducible apply sOnly_mem | with_reducible apply vWord_mem | with_reducible apply cmdWord_mem | with_reducible apply plainWord_mem); all_goals (intros; simp [*]; done)

theorem execAddsh_mem (w : Tok) (d a b : BitVec 5) (n : BitVec 3) (s : State) :
    ∃ u₁, (execAddsh w d a b n s) = .next u₁ ∧ u₁.mem = s.mem := by
  unfold execAddsh; (first | with_reducible apply sWord_mem | with_reducible apply sOnly_mem | with_reducible apply vWord_mem | with_reducible apply cmdWord_mem | with_reducible apply plainWord_mem); all_goals (intros; simp [*]; done)

theorem execClz_mem (w : Tok) (d a : BitVec 5) (s : State) :
    ∃ u₁, (execClz w d a s) = .next u₁ ∧ u₁.mem = s.mem := by
  unfold execClz; (first | with_reducible apply sWord_mem | with_reducible apply sOnly_mem | with_reducible apply vWord_mem | with_reducible apply cmdWord_mem | with_reducible apply plainWord_mem); all_goals (intros; simp [*]; done)

theorem execPopc_mem (w : Tok) (d a : BitVec 5) (s : State) :
    ∃ u₁, (execPopc w d a s) = .next u₁ ∧ u₁.mem = s.mem := by
  unfold execPopc; (first | with_reducible apply sWord_mem | with_reducible apply sOnly_mem | with_reducible apply vWord_mem | with_reducible apply cmdWord_mem | with_reducible apply plainWord_mem); all_goals (intros; simp [*]; done)

theorem execBfx_mem (w : Tok) (d a b : BitVec 5) (s : State) :
    ∃ u₁, (execBfx w d a b s) = .next u₁ ∧ u₁.mem = s.mem := by
  unfold execBfx; (first | with_reducible apply sWord_mem | with_reducible apply sOnly_mem | with_reducible apply vWord_mem | with_reducible apply cmdWord_mem | with_reducible apply plainWord_mem); all_goals (intros; simp [*]; done)

theorem execBfi_mem (w : Tok) (d a b : BitVec 5) (s : State) :
    ∃ u₁, (execBfi w d a b s) = .next u₁ ∧ u₁.mem = s.mem := by
  unfold execBfi; (first | with_reducible apply sWord_mem | with_reducible apply sOnly_mem | with_reducible apply vWord_mem | with_reducible apply cmdWord_mem | with_reducible apply plainWord_mem); all_goals (intros; simp [*]; done)

theorem execAddi_mem (w : Tok) (d a : BitVec 5) (i : BitVec 8) (s : State) :
    ∃ u₁, (execAddi w d a i s) = .next u₁ ∧ u₁.mem = s.mem := by
  unfold execAddi; (first | with_reducible apply sWord_mem | with_reducible apply sOnly_mem | with_reducible apply vWord_mem | with_reducible apply cmdWord_mem | with_reducible apply plainWord_mem); all_goals (intros; simp [*]; done)

theorem execAndi_mem (w : Tok) (d a : BitVec 5) (i : BitVec 8) (s : State) :
    ∃ u₁, (execAndi w d a i s) = .next u₁ ∧ u₁.mem = s.mem := by
  unfold execAndi; (first | with_reducible apply sWord_mem | with_reducible apply sOnly_mem | with_reducible apply vWord_mem | with_reducible apply cmdWord_mem | with_reducible apply plainWord_mem); all_goals (intros; simp [*]; done)

theorem execOri_mem (w : Tok) (d a : BitVec 5) (i : BitVec 8) (s : State) :
    ∃ u₁, (execOri w d a i s) = .next u₁ ∧ u₁.mem = s.mem := by
  unfold execOri; (first | with_reducible apply sWord_mem | with_reducible apply sOnly_mem | with_reducible apply vWord_mem | with_reducible apply cmdWord_mem | with_reducible apply plainWord_mem); all_goals (intros; simp [*]; done)

theorem execXori_mem (w : Tok) (d a : BitVec 5) (i : BitVec 8) (s : State) :
    ∃ u₁, (execXori w d a i s) = .next u₁ ∧ u₁.mem = s.mem := by
  unfold execXori; (first | with_reducible apply sWord_mem | with_reducible apply sOnly_mem | with_reducible apply vWord_mem | with_reducible apply cmdWord_mem | with_reducible apply plainWord_mem); all_goals (intros; simp [*]; done)

theorem execSlli_mem (w : Tok) (d a : BitVec 5) (n : BitVec 6) (s : State) :
    ∃ u₁, (execSlli w d a n s) = .next u₁ ∧ u₁.mem = s.mem := by
  unfold execSlli; (first | with_reducible apply sWord_mem | with_reducible apply sOnly_mem | with_reducible apply vWord_mem | with_reducible apply cmdWord_mem | with_reducible apply plainWord_mem); all_goals (intros; simp [*]; done)

theorem execSrli_mem (w : Tok) (d a : BitVec 5) (n : BitVec 6) (s : State) :
    ∃ u₁, (execSrli w d a n s) = .next u₁ ∧ u₁.mem = s.mem := by
  unfold execSrli; (first | with_reducible apply sWord_mem | with_reducible apply sOnly_mem | with_reducible apply vWord_mem | with_reducible apply cmdWord_mem | with_reducible apply plainWord_mem); all_goals (intros; simp [*]; done)

theorem execSrai_mem (w : Tok) (d a : BitVec 5) (n : BitVec 6) (s : State) :
    ∃ u₁, (execSrai w d a n s) = .next u₁ ∧ u₁.mem = s.mem := by
  unfold execSrai; (first | with_reducible apply sWord_mem | with_reducible apply sOnly_mem | with_reducible apply vWord_mem | with_reducible apply cmdWord_mem | with_reducible apply plainWord_mem); all_goals (intros; simp [*]; done)

theorem execSlti_mem (w : Tok) (d a : BitVec 5) (i : BitVec 8) (s : State) :
    ∃ u₁, (execSlti w d a i s) = .next u₁ ∧ u₁.mem = s.mem := by
  unfold execSlti; (first | with_reducible apply sWord_mem | with_reducible apply sOnly_mem | with_reducible apply vWord_mem | with_reducible apply cmdWord_mem | with_reducible apply plainWord_mem); all_goals (intros; simp [*]; done)

theorem execLi_mem (w : Tok) (d : BitVec 5) (i : BitVec 13) (s : State) :
    ∃ u₁, (execLi w d i s) = .next u₁ ∧ u₁.mem = s.mem := by
  unfold execLi; (first | with_reducible apply sWord_mem | with_reducible apply sOnly_mem | with_reducible apply vWord_mem | with_reducible apply cmdWord_mem | with_reducible apply plainWord_mem); all_goals (intros; simp [*]; done)

theorem execLsh_mem (w : Tok) (d : BitVec 5) (i : BitVec 13) (s : State) :
    ∃ u₁, (execLsh w d i s) = .next u₁ ∧ u₁.mem = s.mem := by
  unfold execLsh; (first | with_reducible apply sWord_mem | with_reducible apply sOnly_mem | with_reducible apply vWord_mem | with_reducible apply cmdWord_mem | with_reducible apply plainWord_mem); all_goals (intros; simp [*]; done)

theorem execAgen_mem (w : Tok) (d a b : BitVec 5) (g : BitVec 3) (s : State) :
    ∃ u₁, (execAgen w d a b g s) = .next u₁ ∧ u₁.mem = s.mem := by
  unfold execAgen; (first | with_reducible apply sWord_mem | with_reducible apply sOnly_mem | with_reducible apply vWord_mem | with_reducible apply cmdWord_mem | with_reducible apply plainWord_mem); all_goals (intros; simp [*]; done)

end Sys2Proof.Machine
end

