-- ==== Sys2Proof/Laws/KeepScalarMem.lean ====
section
/-! SUPPORT. What the definitions of Machine/ScalarMem.lean keep of memory: its bytes, or its canonical form
(R17). -/

set_option maxRecDepth 2000
set_option linter.all false

namespace Sys2Proof.Machine

@[simp] theorem localSpace_mem (e : Stream) (a : W64) (wr : Bool) (s : State) :
    (localSpace e a wr s).st.mem = s.mem := by
  unfold localSpace; (repeat' first | with_reducible rfl | with_reducible assumption | (simp [*]; done) | (split <;> try (rename_i h; first | replace h := waitTokens_mem _ _ _ _ h | (replace h := congrArg (fun o => o.st.mem) h; simp [*] at h) | (replace h := congrArg (fun o => o.2.st.mem) h; simp [*] at h) | (replace h := congrArg (fun o => o.1.mem) h; simp [*] at h) | (replace h := congrArg (fun o => o.2.mem) h; simp [*] at h))) | split | split | with_reducible apply Out.mem_bind | intro _ | dsimp only)

@[simp] theorem watchS_mem (off : BitVec 24) (wr : Bool) (s : State) :
    (watchS off wr s).st.mem = s.mem := by
  unfold watchS; (repeat' first | with_reducible rfl | with_reducible assumption | (simp [*]; done) | (split <;> try (rename_i h; first | replace h := waitTokens_mem _ _ _ _ h | (replace h := congrArg (fun o => o.st.mem) h; simp [*] at h) | (replace h := congrArg (fun o => o.2.st.mem) h; simp [*] at h) | (replace h := congrArg (fun o => o.1.mem) h; simp [*] at h) | (replace h := congrArg (fun o => o.2.mem) h; simp [*] at h))) | split | split | with_reducible apply Out.mem_bind | intro _ | dsimp only)

@[simp] theorem ldsRow_mem (off : BitVec 24) (s : State) :
    (ldsRow off s).st.mem = s.mem := by
  unfold ldsRow; (repeat' first | with_reducible rfl | with_reducible assumption | (simp [*]; done) | (split <;> try (rename_i h; first | replace h := waitTokens_mem _ _ _ _ h | (replace h := congrArg (fun o => o.st.mem) h; simp [*] at h) | (replace h := congrArg (fun o => o.2.st.mem) h; simp [*] at h) | (replace h := congrArg (fun o => o.1.mem) h; simp [*] at h) | (replace h := congrArg (fun o => o.2.mem) h; simp [*] at h))) | split | split | with_reducible apply Out.mem_bind | intro _ | dsimp only)

@[simp] theorem ldsBody_mem (d a : BitVec 5) (i : BitVec 8) (s : State) :
    (ldsBody d a i s).st.mem = s.mem := by
  unfold ldsBody; (repeat' first | with_reducible rfl | with_reducible assumption | (simp [*]; done) | (split <;> try (rename_i h; first | replace h := waitTokens_mem _ _ _ _ h | (replace h := congrArg (fun o => o.st.mem) h; simp [*] at h) | (replace h := congrArg (fun o => o.2.st.mem) h; simp [*] at h) | (replace h := congrArg (fun o => o.1.mem) h; simp [*] at h) | (replace h := congrArg (fun o => o.2.mem) h; simp [*] at h))) | split | split | with_reducible apply Out.mem_bind | intro _ | dsimp only)

@[simp] theorem stsRow_wf (off : BitVec 24) (v : W64) (s : State) (hw : s.mem.wf = true) :
    (stsRow off v s).st.mem.wf = true := by
  unfold stsRow; (repeat' first | (simp [*, Memory.wf_putRow, Memory.wf_putNat, Memory.wf_put, Memory.wf_filter]; done) | (split <;> try (rename_i h; first | replace h := waitTokens_mem _ _ _ _ h | (replace h := congrArg (fun o => o.st.mem.wf) h; simp [*] at h) | (replace h := congrArg (fun o => o.2.st.mem.wf) h; simp [*] at h) | (replace h := congrArg (fun o => o.1.mem.wf) h; simp [*] at h) | (replace h := congrArg (fun o => o.2.mem.wf) h; simp [*] at h))) | split | split | with_reducible apply Out.wf_bind | intro _ | dsimp only)

@[simp] theorem stsBody_wf (d a : BitVec 5) (i : BitVec 8) (s : State) (hw : s.mem.wf = true) :
    (stsBody d a i s).st.mem.wf = true := by
  unfold stsBody; (repeat' first | (simp [*, Memory.wf_putRow, Memory.wf_putNat, Memory.wf_put, Memory.wf_filter]; done) | (split <;> try (rename_i h; first | replace h := waitTokens_mem _ _ _ _ h | (replace h := congrArg (fun o => o.st.mem.wf) h; simp [*] at h) | (replace h := congrArg (fun o => o.2.st.mem.wf) h; simp [*] at h) | (replace h := congrArg (fun o => o.1.mem.wf) h; simp [*] at h) | (replace h := congrArg (fun o => o.2.mem.wf) h; simp [*] at h))) | split | split | with_reducible apply Out.wf_bind | intro _ | dsimp only)

theorem execLds_mem (w : Tok) (d a : BitVec 5) (i : BitVec 8) (s : State) :
    ∃ u₁, (execLds w d a i s) = .next u₁ ∧ u₁.mem = s.mem := by
  unfold execLds; (first | with_reducible apply sWord_mem | with_reducible apply sOnly_mem | with_reducible apply vWord_mem | with_reducible apply cmdWord_mem | with_reducible apply plainWord_mem); all_goals (intros; simp [*]; done)

theorem execSts_wf (w : Tok) (d a : BitVec 5) (i : BitVec 8) (s : State) (hw : s.mem.wf = true) :
    ∃ u₁, (execSts w d a i s) = .next u₁ ∧ u₁.mem.wf = true := by
  unfold execSts; (first | with_reducible apply sWord_wf | with_reducible apply sOnly_wf | with_reducible apply vWord_wf | with_reducible apply cmdWord_wf); all_goals (intros; simp [*, Memory.wf_putRow, Memory.wf_putNat, Memory.wf_put, Memory.wf_filter]; done)

@[simp] theorem requestGate_mem (s : State) :
    (requestGate s).st.mem = s.mem := by
  unfold requestGate; (repeat' first | with_reducible rfl | with_reducible assumption | (simp [*]; done) | (split <;> try (rename_i h; first | replace h := waitTokens_mem _ _ _ _ h | (replace h := congrArg (fun o => o.st.mem) h; simp [*] at h) | (replace h := congrArg (fun o => o.2.st.mem) h; simp [*] at h) | (replace h := congrArg (fun o => o.1.mem) h; simp [*] at h) | (replace h := congrArg (fun o => o.2.mem) h; simp [*] at h))) | split | split | with_reducible apply Out.mem_bind | intro _ | dsimp only)

@[simp] theorem requestWalk_mem (a : W64) (policy : BitVec 2) (s : State) :
    (requestWalk a policy s).st.mem = s.mem := by
  unfold requestWalk; (repeat' first | with_reducible rfl | with_reducible assumption | (simp [*]; done) | (split <;> try (rename_i h; first | replace h := waitTokens_mem _ _ _ _ h | (replace h := congrArg (fun o => o.st.mem) h; simp [*] at h) | (replace h := congrArg (fun o => o.2.st.mem) h; simp [*] at h) | (replace h := congrArg (fun o => o.1.mem) h; simp [*] at h) | (replace h := congrArg (fun o => o.2.mem) h; simp [*] at h))) | split | split | with_reducible apply Out.mem_bind | intro _ | dsimp only)

@[simp] theorem virtForm_mem (a : W64) (wr : Bool) (s : State) :
    (virtForm a wr s).st.mem = s.mem := by
  unfold virtForm; (repeat' first | with_reducible rfl | with_reducible assumption | (simp [*]; done) | (split <;> try (rename_i h; first | replace h := waitTokens_mem _ _ _ _ h | (replace h := congrArg (fun o => o.st.mem) h; simp [*] at h) | (replace h := congrArg (fun o => o.2.st.mem) h; simp [*] at h) | (replace h := congrArg (fun o => o.1.mem) h; simp [*] at h) | (replace h := congrArg (fun o => o.2.mem) h; simp [*] at h))) | split | split | with_reducible apply Out.mem_bind | intro _ | dsimp only)

@[simp] theorem ldtBody_mem (d a : BitVec 5) (slot : BitVec 8) (s : State) :
    (ldtBody d a slot s).st.mem = s.mem := by
  unfold ldtBody; (repeat' first | with_reducible rfl | with_reducible assumption | (simp [*]; done) | (split <;> try (rename_i h; first | replace h := waitTokens_mem _ _ _ _ h | (replace h := congrArg (fun o => o.st.mem) h; simp [*] at h) | (replace h := congrArg (fun o => o.2.st.mem) h; simp [*] at h) | (replace h := congrArg (fun o => o.1.mem) h; simp [*] at h) | (replace h := congrArg (fun o => o.2.mem) h; simp [*] at h))) | split | split | with_reducible apply Out.mem_bind | intro _ | dsimp only)

theorem execLdt_mem (w : Tok) (d a : BitVec 5) (slot : BitVec 8) (s : State) :
    ∃ u₁, (execLdt w d a slot s) = .next u₁ ∧ u₁.mem = s.mem := by
  unfold execLdt; (first | with_reducible apply sWord_mem | with_reducible apply sOnly_mem | with_reducible apply vWord_mem | with_reducible apply cmdWord_mem | with_reducible apply plainWord_mem); all_goals (intros; simp [*]; done)

theorem execLandingBufferFill_mem (sp : BitVec 7) (r : BitVec 2) (k : Nat) (s : State) :
    ∃ u₁, (execLandingBufferFill sp r k s) = .next u₁ ∧ u₁.mem = s.mem := by
  unfold execLandingBufferFill; dsimp only; (repeat' first | (split <;> try (rename_i h; first | replace h := waitTokens_mem _ _ _ _ h | (replace h := congrArg (fun o => o.st.mem) h; simp [*] at h) | (replace h := congrArg (fun o => o.2.st.mem) h; simp [*] at h) | (replace h := congrArg (fun o => o.1.mem) h; simp [*] at h) | (replace h := congrArg (fun o => o.2.mem) h; simp [*] at h))) | split); all_goals (refine ⟨_, rfl, ?_⟩; (repeat' first | with_reducible rfl | with_reducible assumption | (simp [*]; done) | (split <;> try (rename_i h; first | replace h := waitTokens_mem _ _ _ _ h | (replace h := congrArg (fun o => o.st.mem) h; simp [*] at h) | (replace h := congrArg (fun o => o.2.st.mem) h; simp [*] at h) | (replace h := congrArg (fun o => o.1.mem) h; simp [*] at h) | (replace h := congrArg (fun o => o.2.mem) h; simp [*] at h))) | split | split | with_reducible apply Out.mem_bind | intro _ | dsimp only))

theorem execTimedLanding_mem (sp : BitVec 7) (r : BitVec 2) (s : State) :
    ∃ u₁, (execTimedLanding sp r s) = .next u₁ ∧ u₁.mem = s.mem := by
  unfold execTimedLanding; refine ⟨_, rfl, ?_⟩; (repeat' first | with_reducible rfl | with_reducible assumption | (simp [*]; done) | (split <;> try (rename_i h; first | replace h := waitTokens_mem _ _ _ _ h | (replace h := congrArg (fun o => o.st.mem) h; simp [*] at h) | (replace h := congrArg (fun o => o.2.st.mem) h; simp [*] at h) | (replace h := congrArg (fun o => o.1.mem) h; simp [*] at h) | (replace h := congrArg (fun o => o.2.mem) h; simp [*] at h))) | split | split | with_reducible apply Out.mem_bind | intro _ | dsimp only)

theorem execLateDataArrival_mem (sp : BitVec 7) (r : BitVec 2) (k : Nat) (s : State) :
    ∃ u₁, (execLateDataArrival sp r k s) = .next u₁ ∧ u₁.mem = s.mem := by
  unfold execLateDataArrival; dsimp only; (repeat' first | (split <;> try (rename_i h; first | replace h := waitTokens_mem _ _ _ _ h | (replace h := congrArg (fun o => o.st.mem) h; simp [*] at h) | (replace h := congrArg (fun o => o.2.st.mem) h; simp [*] at h) | (replace h := congrArg (fun o => o.1.mem) h; simp [*] at h) | (replace h := congrArg (fun o => o.2.mem) h; simp [*] at h))) | split); all_goals (refine ⟨_, rfl, ?_⟩; (repeat' first | with_reducible rfl | with_reducible assumption | (simp [*]; done) | (split <;> try (rename_i h; first | replace h := waitTokens_mem _ _ _ _ h | (replace h := congrArg (fun o => o.st.mem) h; simp [*] at h) | (replace h := congrArg (fun o => o.2.st.mem) h; simp [*] at h) | (replace h := congrArg (fun o => o.1.mem) h; simp [*] at h) | (replace h := congrArg (fun o => o.2.mem) h; simp [*] at h))) | split | split | with_reducible apply Out.mem_bind | intro _ | dsimp only))

theorem execWalkComplete_mem (sp : BitVec 7) (k : Nat) (s : State) :
    ∃ u₁, (execWalkComplete sp k s) = .next u₁ ∧ u₁.mem = s.mem := by
  unfold execWalkComplete; dsimp only; (repeat' first | (split <;> try (rename_i h; first | replace h := waitTokens_mem _ _ _ _ h | (replace h := congrArg (fun o => o.st.mem) h; simp [*] at h) | (replace h := congrArg (fun o => o.2.st.mem) h; simp [*] at h) | (replace h := congrArg (fun o => o.1.mem) h; simp [*] at h) | (replace h := congrArg (fun o => o.2.mem) h; simp [*] at h))) | split); all_goals (refine ⟨_, rfl, ?_⟩; (repeat' first | with_reducible rfl | with_reducible assumption | (simp [*]; done) | (split <;> try (rename_i h; first | replace h := waitTokens_mem _ _ _ _ h | (replace h := congrArg (fun o => o.st.mem) h; simp [*] at h) | (replace h := congrArg (fun o => o.2.st.mem) h; simp [*] at h) | (replace h := congrArg (fun o => o.1.mem) h; simp [*] at h) | (replace h := congrArg (fun o => o.2.mem) h; simp [*] at h))) | split | split | with_reducible apply Out.mem_bind | intro _ | dsimp only))

@[simp] theorem store64_wf (pa : Nat) (v : W64) (s : State) (hw : s.mem.wf = true) :
    (store64 pa v s).st.mem.wf = true := by
  unfold store64; simp [*, Memory.wf_putRow, Memory.wf_putNat, Memory.wf_put, Memory.wf_filter]

@[simp] theorem store64As_wf (via : Via) (pa : Nat) (v : W64) (s : State) (hw : s.mem.wf = true) :
    (store64As via pa v s).st.mem.wf = true := by
  unfold store64As; simp [*, Memory.wf_putRow, Memory.wf_putNat, Memory.wf_put, Memory.wf_filter]

@[simp] theorem holdFor_mem (order : BitVec 3) (pa : Nat) (s : State) :
    (holdFor order pa s).mem = s.mem := by
  unfold holdFor; simp [*]

@[simp] theorem stxStore_wf (addr v : W64) (s : State) (hw : s.mem.wf = true) :
    (stxStore addr v s).st.mem.wf = true := by
  unfold stxStore
  apply Out.wf_bind _ _ (by rw [onceSent_mem _ _ _ _ _ (by simp)]; exact hw)
  intro p t ht
  by_cases h : t.atTender = true
  · rw [if_pos h]
    split
    · rw [Out.st_ok, writeDevice_mem]; exact ht
    · exact store64As_wf _ _ _ _ ht
  · rw [if_neg h]
    split
    · simpa using ht
    · split
      · split
        · simpa using ht
        · apply Out.wf_bind _ _ (by simpa using ht)
          intro _ x hx
          exact store64_wf _ _ _ (by simpa using hx)
      · simpa using ht

@[simp] theorem stxBody_wf (a b : BitVec 5) (s : State) (hw : s.mem.wf = true) : (stxBody a b s).st.mem.wf = true := by
  unfold stxBody
  apply Out.wf_bind _ _ (by simpa using hw)
  intro _ t ht
  rw [atUnit_mem]
  exact Out.wf_bind _ _ (by simpa using ht) (fun _ u hu => stxStore_wf _ _ u hu)

theorem execStx_wf (w : Tok) (a b : BitVec 5) (s : State) (hw : s.mem.wf = true) :
    ∃ u₁, (execStx w a b s) = .next u₁ ∧ u₁.mem.wf = true := by
  unfold execStx; (first | with_reducible apply sWord_wf | with_reducible apply sOnly_wf | with_reducible apply vWord_wf | with_reducible apply cmdWord_wf); all_goals (intros; simp [*, Memory.wf_putRow, Memory.wf_putNat, Memory.wf_put, Memory.wf_filter]; done)

@[simp] theorem execPostedStorePerform_wf (sp : BitVec 7) (r : BitVec 2) (k : Nat) (s : State) (hw : s.mem.wf = true) :
    ∃ u₁, (execPostedStorePerform sp r k s) = .next u₁ ∧ u₁.mem.wf = true := by
  unfold execPostedStorePerform; dsimp only; (repeat' first | (split <;> try (rename_i h; first | replace h := waitTokens_mem _ _ _ _ h | (replace h := congrArg (fun o => o.st.mem.wf) h; simp [*] at h) | (replace h := congrArg (fun o => o.2.st.mem.wf) h; simp [*] at h) | (replace h := congrArg (fun o => o.1.mem.wf) h; simp [*] at h) | (replace h := congrArg (fun o => o.2.mem.wf) h; simp [*] at h))) | split); all_goals (refine ⟨_, rfl, ?_⟩; (repeat' first | (simp [*, Memory.wf_putRow, Memory.wf_putNat, Memory.wf_put, Memory.wf_filter]; done) | (split <;> try (rename_i h; first | replace h := waitTokens_mem _ _ _ _ h | (replace h := congrArg (fun o => o.st.mem.wf) h; simp [*] at h) | (replace h := congrArg (fun o => o.2.st.mem.wf) h; simp [*] at h) | (replace h := congrArg (fun o => o.1.mem.wf) h; simp [*] at h) | (replace h := congrArg (fun o => o.2.mem.wf) h; simp [*] at h))) | split | split | with_reducible apply Out.wf_bind | rw [atUnit_mem] | rw [atLane_mem] | intro _ | dsimp only))

@[simp] theorem cwaitBody_mem (a : BitVec 5) (n : BitVec 8) (s : State) :
    (cwaitBody a n s).st.mem = s.mem := by
  unfold cwaitBody; (repeat' first | with_reducible rfl | with_reducible assumption | (simp [*]; done) | (split <;> try (rename_i h; first | replace h := waitTokens_mem _ _ _ _ h | (replace h := congrArg (fun o => o.st.mem) h; simp [*] at h) | (replace h := congrArg (fun o => o.2.st.mem) h; simp [*] at h) | (replace h := congrArg (fun o => o.1.mem) h; simp [*] at h) | (replace h := congrArg (fun o => o.2.mem) h; simp [*] at h))) | split | split | with_reducible apply Out.mem_bind | intro _ | dsimp only)

theorem execCwait_mem (w : Tok) (a : BitVec 5) (n : BitVec 8) (s : State) :
    ∃ u₁, (execCwait w a n s) = .next u₁ ∧ u₁.mem = s.mem := by
  unfold execCwait; (first | with_reducible apply sWord_mem | with_reducible apply sOnly_mem | with_reducible apply vWord_mem | with_reducible apply cmdWord_mem | with_reducible apply plainWord_mem); all_goals (intros; simp [*]; done)

end Sys2Proof.Machine
end

