-- ==== Sys2Proof/Laws/KeepCsr.lean ====
section
/-! SUPPORT. What the definitions of Machine/Csr.lean keep of memory: its bytes, or its canonical form
(R17). -/

set_option maxRecDepth 2000
set_option linter.all false

namespace Sys2Proof.Machine

theorem writeTcfg_mem (t : BitVec 4) (v : W64) (s : State) : ∀ u, writeTcfg t v s = .ok u → u.mem = s.mem := by
  intro u h
  unfold writeTcfg at h
  dsimp only at h
  split at h
  · cases h; simp [State.setMy]
  · cases h

theorem writeCsr_mem (c : BitVec 12) (v : W64) (s : State) : ∀ t, writeCsr c v s = .ok t → t.mem = s.mem := by
  intro t h
  unfold writeCsr at h
  dsimp only at h
  have ok : ∀ u : State, u.mem = s.mem → (Except.ok u : Except (BitVec 8) State) = .ok t → t.mem = s.mem := by
    intro u hu e; cases e; exact hu
  by_cases hn : c.toNat = 0x020
  · rw [if_pos hn] at h
    split at h
    · exact ok _ (by rfl) h
    · cases h
  rw [if_neg hn] at h; clear hn
  by_cases hn : c.toNat = 0x021
  · rw [if_pos hn] at h
    exact ok _ (by rfl) h
  rw [if_neg hn] at h; clear hn
  by_cases hn : c.toNat = 0x022
  · rw [if_pos hn] at h
    exact ok _ (by rfl) h
  rw [if_neg hn] at h; clear hn
  by_cases hn : c.toNat = 0x023
  · rw [if_pos hn] at h
    exact ok _ (by rfl) h
  rw [if_neg hn] at h; clear hn
  by_cases hn : c.toNat = 0x024
  · rw [if_pos hn] at h
    exact ok _ (by rfl) h
  rw [if_neg hn] at h; clear hn
  by_cases hn : (decide (0x030 ≤ c.toNat) && decide (c.toNat ≤ 0x03F)) = true
  · rw [if_pos hn] at h
    exact writeTcfg_mem _ _ _ _ h
  rw [if_neg hn] at h; clear hn
  by_cases hn : c.toNat = 0x040
  · rw [if_pos hn] at h
    exact ok _ (by rfl) h
  rw [if_neg hn] at h; clear hn
  by_cases hn : c.toNat = 0x041
  · rw [if_pos hn] at h
    exact ok _ (by rfl) h
  rw [if_neg hn] at h; clear hn
  by_cases hn : c.toNat = 0x042
  · rw [if_pos hn] at h
    exact ok _ (by rfl) h
  rw [if_neg hn] at h; clear hn
  by_cases hn : c.toNat = 0x043
  · rw [if_pos hn] at h
    exact ok _ (by rfl) h
  rw [if_neg hn] at h; clear hn
  by_cases hn : c.toNat = 0x048
  · rw [if_pos hn] at h
    exact ok _ (by rfl) h
  rw [if_neg hn] at h; clear hn
  by_cases hn : (decide (0x050 ≤ c.toNat) && decide (c.toNat ≤ 0x06F)) = true
  · rw [if_pos hn] at h
    exact ok _ (by rfl) h
  rw [if_neg hn] at h; clear hn
  by_cases hn : c.toNat = 0x070
  · rw [if_pos hn] at h
    split at h
    · exact ok _ (by rfl) h
    · cases h
  rw [if_neg hn] at h; clear hn
  by_cases hn : c.toNat = 0x071
  · rw [if_pos hn] at h
    exact ok _ (by rfl) h
  rw [if_neg hn] at h; clear hn
  by_cases hn : c.toNat = 0x072
  · rw [if_pos hn] at h
    exact ok _ (by rfl) h
  rw [if_neg hn] at h; clear hn
  by_cases hn : c.toNat = 0x073
  · rw [if_pos hn] at h
    exact ok _ (by rfl) h
  rw [if_neg hn] at h; clear hn
  by_cases hn : c.toNat = 0x074
  · rw [if_pos hn] at h
    exact ok _ (by rfl) h
  rw [if_neg hn] at h; clear hn
  by_cases hn : c.toNat = 0x078
  · rw [if_pos hn] at h
    exact ok _ (by rfl) h
  rw [if_neg hn] at h; clear hn
  by_cases hn : c.toNat = 0x090
  · rw [if_pos hn] at h
    exact ok _ (by rfl) h
  rw [if_neg hn] at h; clear hn
  exact ok _ (by rfl) h

@[simp] theorem tenderLow_mem (n : Nat) (s : State) :
    (tenderLow n s).2.mem = s.mem := by
  unfold tenderLow; (repeat' first | with_reducible rfl | with_reducible assumption | (simp [*]; done) | (split <;> try (rename_i h; first | replace h := waitTokens_mem _ _ _ _ h | (replace h := congrArg (fun o => o.st.mem) h; simp [*] at h) | (replace h := congrArg (fun o => o.2.st.mem) h; simp [*] at h) | (replace h := congrArg (fun o => o.1.mem) h; simp [*] at h) | (replace h := congrArg (fun o => o.2.mem) h; simp [*] at h))) | split | split | with_reducible apply Out.mem_bind | intro _ | dsimp only)

@[simp] theorem csrrBody_mem (d : BitVec 5) (c : BitVec 12) (s : State) :
    (csrrBody d c s).st.mem = s.mem := by
  unfold csrrBody; (repeat' first | with_reducible rfl | with_reducible assumption | (simp [*]; done) | (split <;> try (rename_i h; first | replace h := waitTokens_mem _ _ _ _ h | (replace h := congrArg (fun o => o.st.mem) h; simp [*] at h) | (replace h := congrArg (fun o => o.2.st.mem) h; simp [*] at h) | (replace h := congrArg (fun o => o.1.mem) h; simp [*] at h) | (replace h := congrArg (fun o => o.2.mem) h; simp [*] at h))) | split | split | with_reducible apply Out.mem_bind | intro _ | dsimp only)

theorem outOf_mem (s : State) (x : Except (BitVec 8) State) (h : ∀ t, x = .ok t → t.mem = s.mem) : (outOf s x).st.mem = s.mem := by
  cases x with
  | ok t => exact h t rfl
  | error c => rfl

@[simp] theorem csrwBody_mem (a : BitVec 5) (c : BitVec 12) (s : State) : (csrwBody a c s).st.mem = s.mem := by
  unfold csrwBody
  split
  · split
    · exact outOf_mem _ _ (writeTenderCsr_mem _ _ _ _)
    · split
      · split <;> simp
      · rfl
  · split
    · rfl
    · apply Out.mem_bind _ _ _ (by simp)
      intro _ t ht
      rw [← ht]
      exact outOf_mem _ _ (writeCsr_mem _ _ _)

theorem execCsrr_mem (w : Tok) (d : BitVec 5) (c : BitVec 12) (s : State) :
    ∃ u₁, (execCsrr w d c s) = .next u₁ ∧ u₁.mem = s.mem := by
  unfold execCsrr; (first | with_reducible apply sWord_mem | with_reducible apply sOnly_mem | with_reducible apply vWord_mem | with_reducible apply cmdWord_mem | with_reducible apply plainWord_mem); all_goals (intros; simp [*]; done)

theorem execCsrw_mem (w : Tok) (a : BitVec 5) (c : BitVec 12) (s : State) :
    ∃ u₁, (execCsrw w a c s) = .next u₁ ∧ u₁.mem = s.mem := by
  unfold execCsrw; (first | with_reducible apply sWord_mem | with_reducible apply sOnly_mem | with_reducible apply vWord_mem | with_reducible apply cmdWord_mem | with_reducible apply plainWord_mem); all_goals (intros; simp [*]; done)

end Sys2Proof.Machine
end

