-- ==== Sys2Proof/Laws/KeepAtomics.lean ====
section
/-! SUPPORT. What the definitions of Machine/Atomics.lean keep of memory: its bytes, or its canonical form
(R17). -/

set_option maxRecDepth 2000
set_option linter.all false

namespace Sys2Proof.Machine

@[simp] theorem atomicForm_mem (a : W64) (s : State) :
    (atomicForm a s).st.mem = s.mem := by
  unfold atomicForm; (repeat' first | with_reducible rfl | with_reducible assumption | (simp [*]; done) | (split <;> try (rename_i h; first | replace h := waitTokens_mem _ _ _ _ h | (replace h := congrArg (fun o => o.st.mem) h; simp [*] at h) | (replace h := congrArg (fun o => o.2.st.mem) h; simp [*] at h) | (replace h := congrArg (fun o => o.1.mem) h; simp [*] at h) | (replace h := congrArg (fun o => o.2.mem) h; simp [*] at h))) | split | split | with_reducible apply Out.mem_bind | intro _ | dsimp only)

@[simp] theorem atomicTarget_mem (a : W64) (s : State) :
    (atomicTarget a s).st.mem = s.mem := by
  unfold atomicTarget; simp [*]

@[simp] theorem returnOld_mem (d : BitVec 5) (v : W64) (s : State) :
    (returnOld d v s).st.mem = s.mem := by
  unfold returnOld; (repeat' first | with_reducible rfl | with_reducible assumption | (simp [*]; done) | (split <;> try (rename_i h; first | replace h := waitTokens_mem _ _ _ _ h | (replace h := congrArg (fun o => o.st.mem) h; simp [*] at h) | (replace h := congrArg (fun o => o.2.st.mem) h; simp [*] at h) | (replace h := congrArg (fun o => o.1.mem) h; simp [*] at h) | (replace h := congrArg (fun o => o.2.mem) h; simp [*] at h))) | split | split | with_reducible apply Out.mem_bind | intro _ | dsimp only)

@[simp] theorem modifyUnit_wf (t : Target) (n : Nat) (f : W64 → Option W64 × W64) (s : State) (hw : s.mem.wf = true) :
    (modifyUnit t n f s).st.mem.wf = true := by
  unfold modifyUnit; (repeat' first | (simp [*, Memory.wf_putRow, Memory.wf_putNat, Memory.wf_put, Memory.wf_filter]; done) | (split <;> try (rename_i h; first | replace h := waitTokens_mem _ _ _ _ h | (replace h := congrArg (fun o => o.st.mem.wf) h; simp [*] at h) | (replace h := congrArg (fun o => o.2.st.mem.wf) h; simp [*] at h) | (replace h := congrArg (fun o => o.1.mem.wf) h; simp [*] at h) | (replace h := congrArg (fun o => o.2.mem.wf) h; simp [*] at h))) | split | split | with_reducible apply Out.wf_bind | intro _ | dsimp only)

@[simp] theorem remoteAtomic_mem (op : BitVec 7) (a : W64) (pa : Nat) (x e : W64) (s : State) :
    (remoteAtomic op a pa x e s).st.mem = s.mem := by
  unfold remoteAtomic; simp [*]

@[simp] theorem portTake_mem (u : WindowUpdate) (s : State) :
    (portTake u s).mem = s.mem := by
  unfold portTake; (repeat' first | with_reducible rfl | with_reducible assumption | (simp [*]; done) | (split <;> try (rename_i h; first | replace h := waitTokens_mem _ _ _ _ h | (replace h := congrArg (fun o => o.st.mem) h; simp [*] at h) | (replace h := congrArg (fun o => o.2.st.mem) h; simp [*] at h) | (replace h := congrArg (fun o => o.1.mem) h; simp [*] at h) | (replace h := congrArg (fun o => o.2.mem) h; simp [*] at h))) | split | split | with_reducible apply Out.mem_bind | intro _ | dsimp only)

@[simp] theorem postWindow_mem (op : BitVec 7) (pa : Nat) (page : Option Page) (d : BitVec 5) (x : W64) (s : State) :
    (postWindow op pa page d x s).st.mem = s.mem := by
  unfold postWindow; (repeat' first | with_reducible rfl | with_reducible assumption | (simp [*]; done) | (split <;> try (rename_i h; first | replace h := waitTokens_mem _ _ _ _ h | (replace h := congrArg (fun o => o.st.mem) h; simp [*] at h) | (replace h := congrArg (fun o => o.2.st.mem) h; simp [*] at h) | (replace h := congrArg (fun o => o.1.mem) h; simp [*] at h) | (replace h := congrArg (fun o => o.2.mem) h; simp [*] at h))) | split | split | with_reducible apply Out.mem_bind | rw [atUnit_mem] | rw [atLane_mem] | intro _ | dsimp only)

@[simp] theorem nameAddr_mem (a : W64) (a0 : Out Unit) :
    (nameAddr a a0).st.mem = a0.st.mem := by
  unfold nameAddr; (repeat' first | with_reducible rfl | with_reducible assumption | (simp [*]; done) | (split <;> try (rename_i h; first | replace h := waitTokens_mem _ _ _ _ h | (replace h := congrArg (fun o => o.st.mem) h; simp [*] at h) | (replace h := congrArg (fun o => o.2.st.mem) h; simp [*] at h) | (replace h := congrArg (fun o => o.1.mem) h; simp [*] at h) | (replace h := congrArg (fun o => o.2.mem) h; simp [*] at h))) | split | split | with_reducible apply Out.mem_bind | intro _ | dsimp only)

@[simp] theorem atomicBody_wf (op : BitVec 7) (n : Nat) (d a b : BitVec 5) (f : W64 → W64 → W64 → Option W64 × W64) (s : State) (hw : s.mem.wf = true) :
    (atomicBody op n d a b f s).st.mem.wf = true := by
  unfold atomicBody; (repeat' first | (simp [*, Memory.wf_putRow, Memory.wf_putNat, Memory.wf_put, Memory.wf_filter]; done) | (split <;> try (rename_i h; first | replace h := waitTokens_mem _ _ _ _ h | (replace h := congrArg (fun o => o.st.mem.wf) h; simp [*] at h) | (replace h := congrArg (fun o => o.2.st.mem.wf) h; simp [*] at h) | (replace h := congrArg (fun o => o.1.mem.wf) h; simp [*] at h) | (replace h := congrArg (fun o => o.2.mem.wf) h; simp [*] at h))) | split | split | with_reducible apply Out.wf_bind | rw [atUnit_mem] | rw [atLane_mem] | intro _ | dsimp only)

@[simp] theorem atomic8_wf (op : BitVec 7) (d a b : BitVec 5) (a0 : State) (hw : a0.mem.wf = true) :
    (atomic8 op d a b a0).st.mem.wf = true := by
  unfold atomic8; simp [*, Memory.wf_putRow, Memory.wf_putNat, Memory.wf_put, Memory.wf_filter]

theorem execAadd_wf (w : Tok) (d a b : BitVec 5) (s : State) (hw : s.mem.wf = true) :
    ∃ u₁, (execAadd w d a b s) = .next u₁ ∧ u₁.mem.wf = true := by
  unfold execAadd; (first | with_reducible apply sWord_wf | with_reducible apply sOnly_wf | with_reducible apply vWord_wf | with_reducible apply cmdWord_wf); all_goals (intros; simp [*, Memory.wf_putRow, Memory.wf_putNat, Memory.wf_put, Memory.wf_filter]; done)

theorem execAand_wf (w : Tok) (d a b : BitVec 5) (s : State) (hw : s.mem.wf = true) :
    ∃ u₁, (execAand w d a b s) = .next u₁ ∧ u₁.mem.wf = true := by
  unfold execAand; (first | with_reducible apply sWord_wf | with_reducible apply sOnly_wf | with_reducible apply vWord_wf | with_reducible apply cmdWord_wf); all_goals (intros; simp [*, Memory.wf_putRow, Memory.wf_putNat, Memory.wf_put, Memory.wf_filter]; done)

theorem execAor_wf (w : Tok) (d a b : BitVec 5) (s : State) (hw : s.mem.wf = true) :
    ∃ u₁, (execAor w d a b s) = .next u₁ ∧ u₁.mem.wf = true := by
  unfold execAor; (first | with_reducible apply sWord_wf | with_reducible apply sOnly_wf | with_reducible apply vWord_wf | with_reducible apply cmdWord_wf); all_goals (intros; simp [*, Memory.wf_putRow, Memory.wf_putNat, Memory.wf_put, Memory.wf_filter]; done)

theorem execAxor_wf (w : Tok) (d a b : BitVec 5) (s : State) (hw : s.mem.wf = true) :
    ∃ u₁, (execAxor w d a b s) = .next u₁ ∧ u₁.mem.wf = true := by
  unfold execAxor; (first | with_reducible apply sWord_wf | with_reducible apply sOnly_wf | with_reducible apply vWord_wf | with_reducible apply cmdWord_wf); all_goals (intros; simp [*, Memory.wf_putRow, Memory.wf_putNat, Memory.wf_put, Memory.wf_filter]; done)

theorem execAmin_wf (w : Tok) (d a b : BitVec 5) (s : State) (hw : s.mem.wf = true) :
    ∃ u₁, (execAmin w d a b s) = .next u₁ ∧ u₁.mem.wf = true := by
  unfold execAmin; (first | with_reducible apply sWord_wf | with_reducible apply sOnly_wf | with_reducible apply vWord_wf | with_reducible apply cmdWord_wf); all_goals (intros; simp [*, Memory.wf_putRow, Memory.wf_putNat, Memory.wf_put, Memory.wf_filter]; done)

theorem execAmax_wf (w : Tok) (d a b : BitVec 5) (s : State) (hw : s.mem.wf = true) :
    ∃ u₁, (execAmax w d a b s) = .next u₁ ∧ u₁.mem.wf = true := by
  unfold execAmax; (first | with_reducible apply sWord_wf | with_reducible apply sOnly_wf | with_reducible apply vWord_wf | with_reducible apply cmdWord_wf); all_goals (intros; simp [*, Memory.wf_putRow, Memory.wf_putNat, Memory.wf_put, Memory.wf_filter]; done)

theorem execAswp_wf (w : Tok) (d a b : BitVec 5) (s : State) (hw : s.mem.wf = true) :
    ∃ u₁, (execAswp w d a b s) = .next u₁ ∧ u₁.mem.wf = true := by
  unfold execAswp; (first | with_reducible apply sWord_wf | with_reducible apply sOnly_wf | with_reducible apply vWord_wf | with_reducible apply cmdWord_wf); all_goals (intros; simp [*, Memory.wf_putRow, Memory.wf_putNat, Memory.wf_put, Memory.wf_filter]; done)

theorem execAcas_wf (w : Tok) (d a b : BitVec 5) (s : State) (hw : s.mem.wf = true) :
    ∃ u₁, (execAcas w d a b s) = .next u₁ ∧ u₁.mem.wf = true := by
  unfold execAcas; (first | with_reducible apply sWord_wf | with_reducible apply sOnly_wf | with_reducible apply vWord_wf | with_reducible apply cmdWord_wf); all_goals (intros; simp [*, Memory.wf_putRow, Memory.wf_putNat, Memory.wf_put, Memory.wf_filter]; done)

theorem execAincw_wf (w : Tok) (d a b : BitVec 5) (s : State) (hw : s.mem.wf = true) :
    ∃ u₁, (execAincw w d a b s) = .next u₁ ∧ u₁.mem.wf = true := by
  unfold execAincw; (first | with_reducible apply sWord_wf | with_reducible apply sOnly_wf | with_reducible apply vWord_wf | with_reducible apply cmdWord_wf); all_goals (intros; simp [*, Memory.wf_putRow, Memory.wf_putNat, Memory.wf_put, Memory.wf_filter]; done)

theorem execAaddb_wf (w : Tok) (d a b : BitVec 5) (s : State) (hw : s.mem.wf = true) :
    ∃ u₁, (execAaddb w d a b s) = .next u₁ ∧ u₁.mem.wf = true := by
  unfold execAaddb; (first | with_reducible apply sWord_wf | with_reducible apply sOnly_wf | with_reducible apply vWord_wf | with_reducible apply cmdWord_wf); all_goals (intros; simp [*, Memory.wf_putRow, Memory.wf_putNat, Memory.wf_put, Memory.wf_filter]; done)

@[simp] theorem returnPair_mem (d : BitVec 5) (v0 v1 : W64) (s : State) :
    (returnPair d v0 v1 s).st.mem = s.mem := by
  unfold returnPair; (repeat' first | with_reducible rfl | with_reducible assumption | (simp [*]; done) | (split <;> try (rename_i h; first | replace h := waitTokens_mem _ _ _ _ h | (replace h := congrArg (fun o => o.st.mem) h; simp [*] at h) | (replace h := congrArg (fun o => o.2.st.mem) h; simp [*] at h) | (replace h := congrArg (fun o => o.1.mem) h; simp [*] at h) | (replace h := congrArg (fun o => o.2.mem) h; simp [*] at h))) | split | split | with_reducible apply Out.mem_bind | intro _ | dsimp only)

@[simp] theorem pairBody_wf (d a b : BitVec 5) (writes : W64 → W64 → State → Bool) (s : State) (hw : s.mem.wf = true) :
    (pairBody d a b writes s).st.mem.wf = true := by
  unfold pairBody; (repeat' first | (simp [*, Memory.wf_putRow, Memory.wf_putNat, Memory.wf_put, Memory.wf_filter]; done) | (split <;> try (rename_i h; first | replace h := waitTokens_mem _ _ _ _ h | (replace h := congrArg (fun o => o.st.mem.wf) h; simp [*] at h) | (replace h := congrArg (fun o => o.2.st.mem.wf) h; simp [*] at h) | (replace h := congrArg (fun o => o.1.mem.wf) h; simp [*] at h) | (replace h := congrArg (fun o => o.2.mem.wf) h; simp [*] at h))) | split | split | with_reducible apply Out.wf_bind | intro _ | dsimp only)

theorem execDcas_wf (w : Tok) (d a b : BitVec 5) (s : State) (hw : s.mem.wf = true) :
    ∃ u₁, (execDcas w d a b s) = .next u₁ ∧ u₁.mem.wf = true := by
  unfold execDcas; (first | with_reducible apply sWord_wf | with_reducible apply sOnly_wf | with_reducible apply vWord_wf | with_reducible apply cmdWord_wf); all_goals (intros; simp [*, Memory.wf_putRow, Memory.wf_putNat, Memory.wf_put, Memory.wf_filter]; done)

theorem execAmov2_wf (w : Tok) (d a b : BitVec 5) (s : State) (hw : s.mem.wf = true) :
    ∃ u₁, (execAmov2 w d a b s) = .next u₁ ∧ u₁.mem.wf = true := by
  unfold execAmov2; (first | with_reducible apply sWord_wf | with_reducible apply sOnly_wf | with_reducible apply vWord_wf | with_reducible apply cmdWord_wf); all_goals (intros; simp [*, Memory.wf_putRow, Memory.wf_putNat, Memory.wf_put, Memory.wf_filter]; done)

theorem execAtomicWriteBack_mem (sp : BitVec 7) (r : BitVec 2) (s : State) :
    ∃ u₁, (execAtomicWriteBack sp r s) = .next u₁ ∧ u₁.mem = s.mem := by
  unfold execAtomicWriteBack; dsimp only; (repeat' first | (split <;> try (rename_i h; first | replace h := waitTokens_mem _ _ _ _ h | (replace h := congrArg (fun o => o.st.mem) h; simp [*] at h) | (replace h := congrArg (fun o => o.2.st.mem) h; simp [*] at h) | (replace h := congrArg (fun o => o.1.mem) h; simp [*] at h) | (replace h := congrArg (fun o => o.2.mem) h; simp [*] at h))) | split); all_goals (refine ⟨_, rfl, ?_⟩; (repeat' first | with_reducible rfl | with_reducible assumption | (simp [*]; done) | (split <;> try (rename_i h; first | replace h := waitTokens_mem _ _ _ _ h | (replace h := congrArg (fun o => o.st.mem) h; simp [*] at h) | (replace h := congrArg (fun o => o.2.st.mem) h; simp [*] at h) | (replace h := congrArg (fun o => o.1.mem) h; simp [*] at h) | (replace h := congrArg (fun o => o.2.mem) h; simp [*] at h))) | split | split | with_reducible apply Out.mem_bind | intro _ | dsimp only))

@[simp] theorem windowLost_mem (u : WindowUpdate) (s : State) :
    (windowLost u s).mem = s.mem := by
  unfold windowLost; (repeat' first | with_reducible rfl | with_reducible assumption | (simp [*]; done) | (split <;> try (rename_i h; first | replace h := waitTokens_mem _ _ _ _ h | (replace h := congrArg (fun o => o.st.mem) h; simp [*] at h) | (replace h := congrArg (fun o => o.2.st.mem) h; simp [*] at h) | (replace h := congrArg (fun o => o.1.mem) h; simp [*] at h) | (replace h := congrArg (fun o => o.2.mem) h; simp [*] at h))) | split | split | with_reducible apply Out.mem_bind | rw [atUnit_mem] | rw [atLane_mem] | intro _ | dsimp only)

@[simp] theorem execWindowAtomicAccept_mem (sp : BitVec 7) (r : BitVec 2) (s : State) :
    ∃ u₁, (execWindowAtomicAccept sp r s) = .next u₁ ∧ u₁.mem = s.mem := by
  unfold execWindowAtomicAccept; dsimp only; (repeat' first | (split <;> try (rename_i h; first | replace h := waitTokens_mem _ _ _ _ h | (replace h := congrArg (fun o => o.st.mem) h; simp [*] at h) | (replace h := congrArg (fun o => o.2.st.mem) h; simp [*] at h) | (replace h := congrArg (fun o => o.1.mem) h; simp [*] at h) | (replace h := congrArg (fun o => o.2.mem) h; simp [*] at h))) | split); all_goals (refine ⟨_, rfl, ?_⟩; (repeat' first | with_reducible rfl | with_reducible assumption | (simp [*]; done) | (split <;> try (rename_i h; first | replace h := waitTokens_mem _ _ _ _ h | (replace h := congrArg (fun o => o.st.mem) h; simp [*] at h) | (replace h := congrArg (fun o => o.2.st.mem) h; simp [*] at h) | (replace h := congrArg (fun o => o.1.mem) h; simp [*] at h) | (replace h := congrArg (fun o => o.2.mem) h; simp [*] at h))) | split | split | with_reducible apply Out.mem_bind | rw [atUnit_mem] | rw [atLane_mem] | intro _ | dsimp only))

@[simp] theorem applyUpdate_wf (pa : Nat) (op : BitVec 7) (x : W64) (s : State) (hw : s.mem.wf = true) :
    (applyUpdate pa op x s).st.mem.wf = true := by
  unfold applyUpdate; (repeat' first | (simp [*, Memory.wf_putRow, Memory.wf_putNat, Memory.wf_put, Memory.wf_filter]; done) | (split <;> try (rename_i h; first | replace h := waitTokens_mem _ _ _ _ h | (replace h := congrArg (fun o => o.st.mem.wf) h; simp [*] at h) | (replace h := congrArg (fun o => o.2.st.mem.wf) h; simp [*] at h) | (replace h := congrArg (fun o => o.1.mem.wf) h; simp [*] at h) | (replace h := congrArg (fun o => o.2.mem.wf) h; simp [*] at h))) | split | split | with_reducible apply Out.wf_bind | rw [atUnit_mem] | rw [atLane_mem] | intro _ | dsimp only)

@[simp] theorem deliver_wf (s : State) (u : WindowUpdate) (hw : s.mem.wf = true) :
    (deliver s u).mem.wf = true := by
  unfold deliver; (repeat' first | (simp [*, Memory.wf_putRow, Memory.wf_putNat, Memory.wf_put, Memory.wf_filter]; done) | (split <;> try (rename_i h; first | replace h := waitTokens_mem _ _ _ _ h | (replace h := congrArg (fun o => o.st.mem.wf) h; simp [*] at h) | (replace h := congrArg (fun o => o.2.st.mem.wf) h; simp [*] at h) | (replace h := congrArg (fun o => o.1.mem.wf) h; simp [*] at h) | (replace h := congrArg (fun o => o.2.mem.wf) h; simp [*] at h))) | split | split | with_reducible apply Out.wf_bind | rw [atUnit_mem] | rw [atLane_mem] | intro _ | dsimp only)

theorem execWindowUpdateDelivery_wf (k : Nat) (s : State) (hw : s.mem.wf = true) :
    ∃ u₁, (execWindowUpdateDelivery k s) = .next u₁ ∧ u₁.mem.wf = true := by
  unfold execWindowUpdateDelivery
  split
  · exact ⟨_, rfl, hw⟩
  · exact ⟨_, rfl, foldl_wf _ (fun t u h => deliver_wf t u h) _ _ hw⟩

@[simp] theorem fenceBody_mem (s : State) :
    (fenceBody s).st.mem = s.mem := by
  unfold fenceBody; (repeat' first | with_reducible rfl | with_reducible assumption | (simp [*]; done) | (split <;> try (rename_i h; first | replace h := waitTokens_mem _ _ _ _ h | (replace h := congrArg (fun o => o.st.mem) h; simp [*] at h) | (replace h := congrArg (fun o => o.2.st.mem) h; simp [*] at h) | (replace h := congrArg (fun o => o.1.mem) h; simp [*] at h) | (replace h := congrArg (fun o => o.2.mem) h; simp [*] at h))) | split | split | with_reducible apply Out.mem_bind | intro _ | dsimp only)

theorem execFence_mem (w : Tok) (s : State) :
    ∃ u₁, (execFence w s) = .next u₁ ∧ u₁.mem = s.mem := by
  unfold execFence; (first | with_reducible apply sWord_mem | with_reducible apply sOnly_mem | with_reducible apply vWord_mem | with_reducible apply cmdWord_mem | with_reducible apply plainWord_mem); all_goals (intros; simp [*]; done)

end Sys2Proof.Machine
end

