-- ==== Sys2Proof/Laws/KeepVectorAlu.lean ====
section
/-! SUPPORT. What the definitions of Machine/VectorAlu.lean keep of memory: its bytes, or its canonical form
(R17). -/

set_option maxRecDepth 2000
set_option linter.all false

namespace Sys2Proof.Machine

@[simp] theorem lane2_mem (lat : Nat) (p : BitVec 3) (k : BitVec 1) (d a b : BitVec 5) (f : W32 → W32 → W32) (a0 : State) :
    (lane2 lat p k d a b f a0).st.mem = a0.mem := by
  unfold lane2; simp [*]

@[simp] theorem lane1_mem (lat : Nat) (p : BitVec 3) (k : BitVec 1) (d a : BitVec 5) (f : State → W32 → W32) (a0 : State) :
    (lane1 lat p k d a f a0).st.mem = a0.mem := by
  unfold lane1; simp [*]

theorem execVnop_mem (w : Tok) (s : State) :
    ∃ u₁, (execVnop w s) = .next u₁ ∧ u₁.mem = s.mem := by
  unfold execVnop; (first | with_reducible apply sWord_mem | with_reducible apply sOnly_mem | with_reducible apply vWord_mem | with_reducible apply cmdWord_mem | with_reducible apply plainWord_mem); all_goals (intros; simp [*]; done)

theorem execVadd_mem (w : Tok) (p : BitVec 3) (k : BitVec 1) (d a b : BitVec 5) (s : State) :
    ∃ u₁, (execVadd w p k d a b s) = .next u₁ ∧ u₁.mem = s.mem := by
  unfold execVadd; (first | with_reducible apply sWord_mem | with_reducible apply sOnly_mem | with_reducible apply vWord_mem | with_reducible apply cmdWord_mem | with_reducible apply plainWord_mem); all_goals (intros; simp [*]; done)

theorem execVsub_mem (w : Tok) (p : BitVec 3) (k : BitVec 1) (d a b : BitVec 5) (s : State) :
    ∃ u₁, (execVsub w p k d a b s) = .next u₁ ∧ u₁.mem = s.mem := by
  unfold execVsub; (first | with_reducible apply sWord_mem | with_reducible apply sOnly_mem | with_reducible apply vWord_mem | with_reducible apply cmdWord_mem | with_reducible apply plainWord_mem); all_goals (intros; simp [*]; done)

theorem execVmul_mem (w : Tok) (p : BitVec 3) (k : BitVec 1) (d a b : BitVec 5) (s : State) :
    ∃ u₁, (execVmul w p k d a b s) = .next u₁ ∧ u₁.mem = s.mem := by
  unfold execVmul; (first | with_reducible apply sWord_mem | with_reducible apply sOnly_mem | with_reducible apply vWord_mem | with_reducible apply cmdWord_mem | with_reducible apply plainWord_mem); all_goals (intros; simp [*]; done)

theorem execVmin_mem (w : Tok) (p : BitVec 3) (k : BitVec 1) (d a b : BitVec 5) (s : State) :
    ∃ u₁, (execVmin w p k d a b s) = .next u₁ ∧ u₁.mem = s.mem := by
  unfold execVmin; (first | with_reducible apply sWord_mem | with_reducible apply sOnly_mem | with_reducible apply vWord_mem | with_reducible apply cmdWord_mem | with_reducible apply plainWord_mem); all_goals (intros; simp [*]; done)

theorem execVmax_mem (w : Tok) (p : BitVec 3) (k : BitVec 1) (d a b : BitVec 5) (s : State) :
    ∃ u₁, (execVmax w p k d a b s) = .next u₁ ∧ u₁.mem = s.mem := by
  unfold execVmax; (first | with_reducible apply sWord_mem | with_reducible apply sOnly_mem | with_reducible apply vWord_mem | with_reducible apply cmdWord_mem | with_reducible apply plainWord_mem); all_goals (intros; simp [*]; done)

theorem execVand_mem (w : Tok) (p : BitVec 3) (k : BitVec 1) (d a b : BitVec 5) (s : State) :
    ∃ u₁, (execVand w p k d a b s) = .next u₁ ∧ u₁.mem = s.mem := by
  unfold execVand; (first | with_reducible apply sWord_mem | with_reducible apply sOnly_mem | with_reducible apply vWord_mem | with_reducible apply cmdWord_mem | with_reducible apply plainWord_mem); all_goals (intros; simp [*]; done)

theorem execVor_mem (w : Tok) (p : BitVec 3) (k : BitVec 1) (d a b : BitVec 5) (s : State) :
    ∃ u₁, (execVor w p k d a b s) = .next u₁ ∧ u₁.mem = s.mem := by
  unfold execVor; (first | with_reducible apply sWord_mem | with_reducible apply sOnly_mem | with_reducible apply vWord_mem | with_reducible apply cmdWord_mem | with_reducible apply plainWord_mem); all_goals (intros; simp [*]; done)

theorem execVxor_mem (w : Tok) (p : BitVec 3) (k : BitVec 1) (d a b : BitVec 5) (s : State) :
    ∃ u₁, (execVxor w p k d a b s) = .next u₁ ∧ u₁.mem = s.mem := by
  unfold execVxor; (first | with_reducible apply sWord_mem | with_reducible apply sOnly_mem | with_reducible apply vWord_mem | with_reducible apply cmdWord_mem | with_reducible apply plainWord_mem); all_goals (intros; simp [*]; done)

theorem execVshl_mem (w : Tok) (p : BitVec 3) (k : BitVec 1) (d a b : BitVec 5) (s : State) :
    ∃ u₁, (execVshl w p k d a b s) = .next u₁ ∧ u₁.mem = s.mem := by
  unfold execVshl; (first | with_reducible apply sWord_mem | with_reducible apply sOnly_mem | with_reducible apply vWord_mem | with_reducible apply cmdWord_mem | with_reducible apply plainWord_mem); all_goals (intros; simp [*]; done)

theorem execVshr_mem (w : Tok) (p : BitVec 3) (k : BitVec 1) (d a b : BitVec 5) (s : State) :
    ∃ u₁, (execVshr w p k d a b s) = .next u₁ ∧ u₁.mem = s.mem := by
  unfold execVshr; (first | with_reducible apply sWord_mem | with_reducible apply sOnly_mem | with_reducible apply vWord_mem | with_reducible apply cmdWord_mem | with_reducible apply plainWord_mem); all_goals (intros; simp [*]; done)

theorem execVsra_mem (w : Tok) (p : BitVec 3) (k : BitVec 1) (d a b : BitVec 5) (s : State) :
    ∃ u₁, (execVsra w p k d a b s) = .next u₁ ∧ u₁.mem = s.mem := by
  unfold execVsra; (first | with_reducible apply sWord_mem | with_reducible apply sOnly_mem | with_reducible apply vWord_mem | with_reducible apply cmdWord_mem | with_reducible apply plainWord_mem); all_goals (intros; simp [*]; done)

@[simp] theorem flane2_mem (p : BitVec 3) (k : BitVec 1) (d a b : BitVec 5) (f : Rm → W32 → W32 → W32) (a0 : State) :
    (flane2 p k d a b f a0).st.mem = a0.mem := by
  unfold flane2; simp [*]

theorem execFadd_mem (w : Tok) (p : BitVec 3) (k : BitVec 1) (d a b : BitVec 5) (s : State) :
    ∃ u₁, (execFadd w p k d a b s) = .next u₁ ∧ u₁.mem = s.mem := by
  unfold execFadd; (first | with_reducible apply sWord_mem | with_reducible apply sOnly_mem | with_reducible apply vWord_mem | with_reducible apply cmdWord_mem | with_reducible apply plainWord_mem); all_goals (intros; simp [*]; done)

theorem execFsub_mem (w : Tok) (p : BitVec 3) (k : BitVec 1) (d a b : BitVec 5) (s : State) :
    ∃ u₁, (execFsub w p k d a b s) = .next u₁ ∧ u₁.mem = s.mem := by
  unfold execFsub; (first | with_reducible apply sWord_mem | with_reducible apply sOnly_mem | with_reducible apply vWord_mem | with_reducible apply cmdWord_mem | with_reducible apply plainWord_mem); all_goals (intros; simp [*]; done)

theorem execFmul_mem (w : Tok) (p : BitVec 3) (k : BitVec 1) (d a b : BitVec 5) (s : State) :
    ∃ u₁, (execFmul w p k d a b s) = .next u₁ ∧ u₁.mem = s.mem := by
  unfold execFmul; (first | with_reducible apply sWord_mem | with_reducible apply sOnly_mem | with_reducible apply vWord_mem | with_reducible apply cmdWord_mem | with_reducible apply plainWord_mem); all_goals (intros; simp [*]; done)

theorem execFfma_mem (w : Tok) (p : BitVec 3) (k : BitVec 1) (d a b : BitVec 5) (s : State) :
    ∃ u₁, (execFfma w p k d a b s) = .next u₁ ∧ u₁.mem = s.mem := by
  unfold execFfma; (first | with_reducible apply sWord_mem | with_reducible apply sOnly_mem | with_reducible apply vWord_mem | with_reducible apply cmdWord_mem | with_reducible apply plainWord_mem); all_goals (intros; simp [*]; done)

theorem execFmin_mem (w : Tok) (p : BitVec 3) (k : BitVec 1) (d a b : BitVec 5) (s : State) :
    ∃ u₁, (execFmin w p k d a b s) = .next u₁ ∧ u₁.mem = s.mem := by
  unfold execFmin; (first | with_reducible apply sWord_mem | with_reducible apply sOnly_mem | with_reducible apply vWord_mem | with_reducible apply cmdWord_mem | with_reducible apply plainWord_mem); all_goals (intros; simp [*]; done)

theorem execFmax_mem (w : Tok) (p : BitVec 3) (k : BitVec 1) (d a b : BitVec 5) (s : State) :
    ∃ u₁, (execFmax w p k d a b s) = .next u₁ ∧ u₁.mem = s.mem := by
  unfold execFmax; (first | with_reducible apply sWord_mem | with_reducible apply sOnly_mem | with_reducible apply vWord_mem | with_reducible apply cmdWord_mem | with_reducible apply plainWord_mem); all_goals (intros; simp [*]; done)

@[simp] theorem cmp2_mem (p : BitVec 3) (k : BitVec 1) (q : BitVec 3) (a b : BitVec 5) (f : W32 → W32 → Bool) (a0 : State) :
    (cmp2 p k q a b f a0).st.mem = a0.mem := by
  unfold cmp2; simp [*]

theorem execVceq_mem (w : Tok) (p : BitVec 3) (k : BitVec 1) (q : BitVec 3) (a b : BitVec 5) (s : State) :
    ∃ u₁, (execVceq w p k q a b s) = .next u₁ ∧ u₁.mem = s.mem := by
  unfold execVceq; (first | with_reducible apply sWord_mem | with_reducible apply sOnly_mem | with_reducible apply vWord_mem | with_reducible apply cmdWord_mem | with_reducible apply plainWord_mem); all_goals (intros; simp [*]; done)

theorem execVclt_mem (w : Tok) (p : BitVec 3) (k : BitVec 1) (q : BitVec 3) (a b : BitVec 5) (s : State) :
    ∃ u₁, (execVclt w p k q a b s) = .next u₁ ∧ u₁.mem = s.mem := by
  unfold execVclt; (first | with_reducible apply sWord_mem | with_reducible apply sOnly_mem | with_reducible apply vWord_mem | with_reducible apply cmdWord_mem | with_reducible apply plainWord_mem); all_goals (intros; simp [*]; done)

theorem execVcltn_mem (w : Tok) (p : BitVec 3) (k : BitVec 1) (q : BitVec 3) (a b : BitVec 5) (s : State) :
    ∃ u₁, (execVcltn w p k q a b s) = .next u₁ ∧ u₁.mem = s.mem := by
  unfold execVcltn; (first | with_reducible apply sWord_mem | with_reducible apply sOnly_mem | with_reducible apply vWord_mem | with_reducible apply cmdWord_mem | with_reducible apply plainWord_mem); all_goals (intros; simp [*]; done)

theorem execFceq_mem (w : Tok) (p : BitVec 3) (k : BitVec 1) (q : BitVec 3) (a b : BitVec 5) (s : State) :
    ∃ u₁, (execFceq w p k q a b s) = .next u₁ ∧ u₁.mem = s.mem := by
  unfold execFceq; (first | with_reducible apply sWord_mem | with_reducible apply sOnly_mem | with_reducible apply vWord_mem | with_reducible apply cmdWord_mem | with_reducible apply plainWord_mem); all_goals (intros; simp [*]; done)

theorem execFclt_mem (w : Tok) (p : BitVec 3) (k : BitVec 1) (q : BitVec 3) (a b : BitVec 5) (s : State) :
    ∃ u₁, (execFclt w p k q a b s) = .next u₁ ∧ u₁.mem = s.mem := by
  unfold execFclt; (first | with_reducible apply sWord_mem | with_reducible apply sOnly_mem | with_reducible apply vWord_mem | with_reducible apply cmdWord_mem | with_reducible apply plainWord_mem); all_goals (intros; simp [*]; done)

theorem execFcle_mem (w : Tok) (p : BitVec 3) (k : BitVec 1) (q : BitVec 3) (a b : BitVec 5) (s : State) :
    ∃ u₁, (execFcle w p k q a b s) = .next u₁ ∧ u₁.mem = s.mem := by
  unfold execFcle; (first | with_reducible apply sWord_mem | with_reducible apply sOnly_mem | with_reducible apply vWord_mem | with_reducible apply cmdWord_mem | with_reducible apply plainWord_mem); all_goals (intros; simp [*]; done)

theorem execVsel_mem (w : Tok) (p : BitVec 3) (k : BitVec 1) (d a b : BitVec 5) (s : State) :
    ∃ u₁, (execVsel w p k d a b s) = .next u₁ ∧ u₁.mem = s.mem := by
  unfold execVsel; (first | with_reducible apply sWord_mem | with_reducible apply sOnly_mem | with_reducible apply vWord_mem | with_reducible apply cmdWord_mem | with_reducible apply plainWord_mem); all_goals (intros; simp [*]; done)

@[simp] theorem predBody_mem (p d a b : BitVec 3) (f : W32 → W32 → W32) (a0 : State) :
    (predBody p d a b f a0).st.mem = a0.mem := by
  unfold predBody; simp [*]

theorem execPand_mem (w : Tok) (p d a b : BitVec 3) (s : State) :
    ∃ u₁, (execPand w p d a b s) = .next u₁ ∧ u₁.mem = s.mem := by
  unfold execPand; (first | with_reducible apply sWord_mem | with_reducible apply sOnly_mem | with_reducible apply vWord_mem | with_reducible apply cmdWord_mem | with_reducible apply plainWord_mem); all_goals (intros; simp [*]; done)

theorem execPor_mem (w : Tok) (p d a b : BitVec 3) (s : State) :
    ∃ u₁, (execPor w p d a b s) = .next u₁ ∧ u₁.mem = s.mem := by
  unfold execPor; (first | with_reducible apply sWord_mem | with_reducible apply sOnly_mem | with_reducible apply vWord_mem | with_reducible apply cmdWord_mem | with_reducible apply plainWord_mem); all_goals (intros; simp [*]; done)

theorem execPxor_mem (w : Tok) (p d a b : BitVec 3) (s : State) :
    ∃ u₁, (execPxor w p d a b s) = .next u₁ ∧ u₁.mem = s.mem := by
  unfold execPxor; (first | with_reducible apply sWord_mem | with_reducible apply sOnly_mem | with_reducible apply vWord_mem | with_reducible apply cmdWord_mem | with_reducible apply plainWord_mem); all_goals (intros; simp [*]; done)

theorem execVcvt_mem (w : Tok) (p : BitVec 3) (k : BitVec 1) (d a c : BitVec 5) (s : State) :
    ∃ u₁, (execVcvt w p k d a c s) = .next u₁ ∧ u₁.mem = s.mem := by
  unfold execVcvt; (first | with_reducible apply sWord_mem | with_reducible apply sOnly_mem | with_reducible apply vWord_mem | with_reducible apply cmdWord_mem | with_reducible apply plainWord_mem); all_goals (intros; simp [*]; done)

@[simp] theorem vqBook_mem (s : State) :
    (vqBook s).st.mem = s.mem := by
  unfold vqBook; (repeat' first | with_reducible rfl | with_reducible assumption | (simp [*]; done) | (split <;> try (rename_i h; first | replace h := waitTokens_mem _ _ _ _ h | (replace h := congrArg (fun o => o.st.mem) h; simp [*] at h) | (replace h := congrArg (fun o => o.2.st.mem) h; simp [*] at h) | (replace h := congrArg (fun o => o.1.mem) h; simp [*] at h) | (replace h := congrArg (fun o => o.2.mem) h; simp [*] at h))) | split | split | with_reducible apply Out.mem_bind | intro _ | dsimp only)

theorem execVqnt_mem (w : Tok) (p : BitVec 3) (k : BitVec 1) (d a b : BitVec 5) (s : State) :
    ∃ u₁, (execVqnt w p k d a b s) = .next u₁ ∧ u₁.mem = s.mem := by
  unfold execVqnt; (first | with_reducible apply sWord_mem | with_reducible apply sOnly_mem | with_reducible apply vWord_mem | with_reducible apply cmdWord_mem | with_reducible apply plainWord_mem); (repeat' first | with_reducible rfl | with_reducible assumption | (simp [*]; done) | (split <;> try (rename_i h; first | replace h := waitTokens_mem _ _ _ _ h | (replace h := congrArg (fun o => o.st.mem) h; simp [*] at h) | (replace h := congrArg (fun o => o.2.st.mem) h; simp [*] at h) | (replace h := congrArg (fun o => o.1.mem) h; simp [*] at h) | (replace h := congrArg (fun o => o.2.mem) h; simp [*] at h))) | split | split | with_reducible apply Out.mem_bind | intro _ | dsimp only)

theorem execVlut_mem (w : Tok) (p : BitVec 3) (k : BitVec 1) (d a : BitVec 5) (s : State) :
    ∃ u₁, (execVlut w p k d a s) = .next u₁ ∧ u₁.mem = s.mem := by
  unfold execVlut; (first | with_reducible apply sWord_mem | with_reducible apply sOnly_mem | with_reducible apply vWord_mem | with_reducible apply cmdWord_mem | with_reducible apply plainWord_mem); (repeat' first | with_reducible rfl | with_reducible assumption | (simp [*]; done) | (split <;> try (rename_i h; first | replace h := waitTokens_mem _ _ _ _ h | (replace h := congrArg (fun o => o.st.mem) h; simp [*] at h) | (replace h := congrArg (fun o => o.2.st.mem) h; simp [*] at h) | (replace h := congrArg (fun o => o.1.mem) h; simp [*] at h) | (replace h := congrArg (fun o => o.2.mem) h; simp [*] at h))) | split | split | with_reducible apply Out.mem_bind | intro _ | dsimp only)

@[simp] theorem reduceBody_mem (p : BitVec 3) (k : BitVec 1) (d a : BitVec 5) (f : BitVec 1) (n : BitVec 3) (red : Reduce) (s : State) :
    (reduceBody p k d a f n red s).st.mem = s.mem := by
  unfold reduceBody; (repeat' first | with_reducible rfl | with_reducible assumption | (simp [*]; done) | (split <;> try (rename_i h; first | replace h := waitTokens_mem _ _ _ _ h | (replace h := congrArg (fun o => o.st.mem) h; simp [*] at h) | (replace h := congrArg (fun o => o.2.st.mem) h; simp [*] at h) | (replace h := congrArg (fun o => o.1.mem) h; simp [*] at h) | (replace h := congrArg (fun o => o.2.mem) h; simp [*] at h))) | split | split | with_reducible apply Out.mem_bind | intro _ | dsimp only)

theorem execVreda_mem (w : Tok) (p : BitVec 3) (k : BitVec 1) (d a : BitVec 5) (f : BitVec 1) (n : BitVec 3) (s : State) :
    ∃ u₁, (execVreda w p k d a f n s) = .next u₁ ∧ u₁.mem = s.mem := by
  unfold execVreda; (first | with_reducible apply sWord_mem | with_reducible apply sOnly_mem | with_reducible apply vWord_mem | with_reducible apply cmdWord_mem | with_reducible apply plainWord_mem); all_goals (intros; simp [*]; done)

theorem execFreda_mem (w : Tok) (p : BitVec 3) (k : BitVec 1) (d a : BitVec 5) (f : BitVec 1) (n : BitVec 3) (s : State) :
    ∃ u₁, (execFreda w p k d a f n s) = .next u₁ ∧ u₁.mem = s.mem := by
  unfold execFreda; (first | with_reducible apply sWord_mem | with_reducible apply sOnly_mem | with_reducible apply vWord_mem | with_reducible apply cmdWord_mem | with_reducible apply plainWord_mem); all_goals (intros; simp [*]; done)

theorem execFredm_mem (w : Tok) (p : BitVec 3) (k : BitVec 1) (d a : BitVec 5) (f : BitVec 1) (n : BitVec 3) (s : State) :
    ∃ u₁, (execFredm w p k d a f n s) = .next u₁ ∧ u₁.mem = s.mem := by
  unfold execFredm; (first | with_reducible apply sWord_mem | with_reducible apply sOnly_mem | with_reducible apply vWord_mem | with_reducible apply cmdWord_mem | with_reducible apply plainWord_mem); all_goals (intros; simp [*]; done)

theorem execVredm_mem (w : Tok) (p : BitVec 3) (k : BitVec 1) (d a : BitVec 5) (f : BitVec 1) (n : BitVec 3) (s : State) :
    ∃ u₁, (execVredm w p k d a f n s) = .next u₁ ∧ u₁.mem = s.mem := by
  unfold execVredm; (first | with_reducible apply sWord_mem | with_reducible apply sOnly_mem | with_reducible apply vWord_mem | with_reducible apply cmdWord_mem | with_reducible apply plainWord_mem); all_goals (intros; simp [*]; done)

theorem execVscan_mem (w : Tok) (p : BitVec 3) (k : BitVec 1) (d a : BitVec 5) (e f : BitVec 1) (s : State) :
    ∃ u₁, (execVscan w p k d a e f s) = .next u₁ ∧ u₁.mem = s.mem := by
  unfold execVscan; (first | with_reducible apply sWord_mem | with_reducible apply sOnly_mem | with_reducible apply vWord_mem | with_reducible apply cmdWord_mem | with_reducible apply plainWord_mem); all_goals (intros; simp [*]; done)

theorem execVperm_mem (w : Tok) (p : BitVec 3) (k : BitVec 1) (d a b : BitVec 5) (s : State) :
    ∃ u₁, (execVperm w p k d a b s) = .next u₁ ∧ u₁.mem = s.mem := by
  unfold execVperm; (first | with_reducible apply sWord_mem | with_reducible apply sOnly_mem | with_reducible apply vWord_mem | with_reducible apply cmdWord_mem | with_reducible apply plainWord_mem); all_goals (intros; simp [*]; done)

@[simp] theorem vflagBody_mem (p n q : BitVec 3) (s : State) :
    (vflagBody p n q s).st.mem = s.mem := by
  unfold vflagBody; (repeat' first | with_reducible rfl | with_reducible assumption | (simp [*]; done) | (split <;> try (rename_i h; first | replace h := waitTokens_mem _ _ _ _ h | (replace h := congrArg (fun o => o.st.mem) h; simp [*] at h) | (replace h := congrArg (fun o => o.2.st.mem) h; simp [*] at h) | (replace h := congrArg (fun o => o.1.mem) h; simp [*] at h) | (replace h := congrArg (fun o => o.2.mem) h; simp [*] at h))) | split | split | with_reducible apply Out.mem_bind | intro _ | dsimp only)

theorem execVflag_mem (w : Tok) (p n q : BitVec 3) (s : State) :
    ∃ u₁, (execVflag w p n q s) = .next u₁ ∧ u₁.mem = s.mem := by
  unfold execVflag; (first | with_reducible apply sWord_mem | with_reducible apply sOnly_mem | with_reducible apply vWord_mem | with_reducible apply cmdWord_mem | with_reducible apply plainWord_mem); all_goals (intros; simp [*]; done)

end Sys2Proof.Machine
end

