-- ==== Sys2Proof/Laws/KeepVectorMem.lean ====
section
/-! SUPPORT. What the definitions of Machine/VectorMem.lean keep of memory: its bytes, or its canonical form
(R17). -/

set_option maxRecDepth 2000
set_option linter.all false

namespace Sys2Proof.Machine

theorem execVmov_mem (w : Tok) (p : BitVec 3) (k : BitVec 1) (d a : BitVec 5) (s : State) :
    ∃ u₁, (execVmov w p k d a s) = .next u₁ ∧ u₁.mem = s.mem := by
  unfold execVmov; (first | with_reducible apply sWord_mem | with_reducible apply sOnly_mem | with_reducible apply vWord_mem | with_reducible apply cmdWord_mem | with_reducible apply plainWord_mem); all_goals (intros; simp [*]; done)

@[simp] theorem vbcastBody_mem (p : BitVec 3) (d : BitVec 5) (s : State) :
    (vbcastBody p d s).st.mem = s.mem := by
  unfold vbcastBody; (repeat' first | with_reducible rfl | with_reducible assumption | (simp [*]; done) | (split <;> try (rename_i h; first | replace h := waitTokens_mem _ _ _ _ h | (replace h := congrArg (fun o => o.st.mem) h; simp [*] at h) | (replace h := congrArg (fun o => o.2.st.mem) h; simp [*] at h) | (replace h := congrArg (fun o => o.1.mem) h; simp [*] at h) | (replace h := congrArg (fun o => o.2.mem) h; simp [*] at h))) | split | split | with_reducible apply Out.mem_bind | intro _ | dsimp only)

theorem execVbcast_mem (w : Tok) (p : BitVec 3) (d : BitVec 5) (s : State) :
    ∃ u₁, (execVbcast w p d s) = .next u₁ ∧ u₁.mem = s.mem := by
  unfold execVbcast; (first | with_reducible apply sWord_mem | with_reducible apply sOnly_mem | with_reducible apply vWord_mem | with_reducible apply cmdWord_mem | with_reducible apply plainWord_mem); all_goals (intros; simp [*]; done)

@[simp] theorem vpopBody_mem (p : BitVec 3) (d : BitVec 5) (n : BitVec 2) (s : State) :
    (vpopBody p d n s).st.mem = s.mem := by
  unfold vpopBody; (repeat' first | with_reducible rfl | with_reducible assumption | (simp [*]; done) | (split <;> try (rename_i h; first | replace h := waitTokens_mem _ _ _ _ h | (replace h := congrArg (fun o => o.st.mem) h; simp [*] at h) | (replace h := congrArg (fun o => o.2.st.mem) h; simp [*] at h) | (replace h := congrArg (fun o => o.1.mem) h; simp [*] at h) | (replace h := congrArg (fun o => o.2.mem) h; simp [*] at h))) | split | split | with_reducible apply Out.mem_bind | intro _ | dsimp only)

theorem execVpop_mem (w : Tok) (p : BitVec 3) (d : BitVec 5) (n : BitVec 2) (s : State) :
    ∃ u₁, (execVpop w p d n s) = .next u₁ ∧ u₁.mem = s.mem := by
  unfold execVpop; (first | with_reducible apply sWord_mem | with_reducible apply sOnly_mem | with_reducible apply vWord_mem | with_reducible apply cmdWord_mem | with_reducible apply plainWord_mem); all_goals (intros; simp [*]; done)

@[simp] theorem vamovBody_mem (n : BitVec 3) (s : State) :
    (vamovBody n s).st.mem = s.mem := by
  unfold vamovBody; (repeat' first | with_reducible rfl | with_reducible assumption | (simp [*]; done) | (split <;> try (rename_i h; first | replace h := waitTokens_mem _ _ _ _ h | (replace h := congrArg (fun o => o.st.mem) h; simp [*] at h) | (replace h := congrArg (fun o => o.2.st.mem) h; simp [*] at h) | (replace h := congrArg (fun o => o.1.mem) h; simp [*] at h) | (replace h := congrArg (fun o => o.2.mem) h; simp [*] at h))) | split | split | with_reducible apply Out.mem_bind | intro _ | dsimp only)

@[simp] theorem vrmsBody_mem (s : State) :
    (vrmsBody s).st.mem = s.mem := by
  unfold vrmsBody; (repeat' first | with_reducible rfl | with_reducible assumption | (simp [*]; done) | (split <;> try (rename_i h; first | replace h := waitTokens_mem _ _ _ _ h | (replace h := congrArg (fun o => o.st.mem) h; simp [*] at h) | (replace h := congrArg (fun o => o.2.st.mem) h; simp [*] at h) | (replace h := congrArg (fun o => o.1.mem) h; simp [*] at h) | (replace h := congrArg (fun o => o.2.mem) h; simp [*] at h))) | split | split | with_reducible apply Out.mem_bind | intro _ | dsimp only)

theorem execVamov_mem (w : Tok) (n : BitVec 3) (s : State) :
    ∃ u₁, (execVamov w n s) = .next u₁ ∧ u₁.mem = s.mem := by
  unfold execVamov; (first | with_reducible apply sWord_mem | with_reducible apply sOnly_mem | with_reducible apply vWord_mem | with_reducible apply cmdWord_mem | with_reducible apply plainWord_mem); all_goals (intros; simp [*]; done)

theorem execVrms_mem (w : Tok) (s : State) :
    ∃ u₁, (execVrms w s) = .next u₁ ∧ u₁.mem = s.mem := by
  unfold execVrms; (first | with_reducible apply sWord_mem | with_reducible apply sOnly_mem | with_reducible apply vWord_mem | with_reducible apply cmdWord_mem | with_reducible apply plainWord_mem); all_goals (intros; simp [*]; done)

theorem execVrmg_mem (w : Tok) (p : BitVec 3) (k : BitVec 1) (d a b : BitVec 5) (s : State) :
    ∃ u₁, (execVrmg w p k d a b s) = .next u₁ ∧ u₁.mem = s.mem := by
  unfold execVrmg; (first | with_reducible apply sWord_mem | with_reducible apply sOnly_mem | with_reducible apply vWord_mem | with_reducible apply cmdWord_mem | with_reducible apply plainWord_mem); all_goals (intros; simp [*]; done)

@[simp] theorem vmovtBody_mem (p : BitVec 3) (d : BitVec 5) (s : State) :
    (vmovtBody p d s).st.mem = s.mem := by
  unfold vmovtBody; (repeat' first | with_reducible rfl | with_reducible assumption | (simp [*]; done) | (split <;> try (rename_i h; first | replace h := waitTokens_mem _ _ _ _ h | (replace h := congrArg (fun o => o.st.mem) h; simp [*] at h) | (replace h := congrArg (fun o => o.2.st.mem) h; simp [*] at h) | (replace h := congrArg (fun o => o.1.mem) h; simp [*] at h) | (replace h := congrArg (fun o => o.2.mem) h; simp [*] at h))) | split | split | with_reducible apply Out.mem_bind | intro _ | dsimp only)

theorem execVmovt_mem (w : Tok) (p : BitVec 3) (d : BitVec 5) (s : State) :
    ∃ u₁, (execVmovt w p d s) = .next u₁ ∧ u₁.mem = s.mem := by
  unfold execVmovt; (first | with_reducible apply sWord_mem | with_reducible apply sOnly_mem | with_reducible apply vWord_mem | with_reducible apply cmdWord_mem | with_reducible apply plainWord_mem); all_goals (intros; simp [*]; done)

@[simp] theorem vmovaBody_mem (p : BitVec 3) (d : BitVec 5) (s : State) :
    (vmovaBody p d s).st.mem = s.mem := by
  unfold vmovaBody; (repeat' first | with_reducible rfl | with_reducible assumption | (simp [*]; done) | (split <;> try (rename_i h; first | replace h := waitTokens_mem _ _ _ _ h | (replace h := congrArg (fun o => o.st.mem) h; simp [*] at h) | (replace h := congrArg (fun o => o.2.st.mem) h; simp [*] at h) | (replace h := congrArg (fun o => o.1.mem) h; simp [*] at h) | (replace h := congrArg (fun o => o.2.mem) h; simp [*] at h))) | split | split | with_reducible apply Out.mem_bind | intro _ | dsimp only)

theorem execVmova_mem (w : Tok) (p : BitVec 3) (d : BitVec 5) (s : State) :
    ∃ u₁, (execVmova w p d s) = .next u₁ ∧ u₁.mem = s.mem := by
  unfold execVmova; (first | with_reducible apply sWord_mem | with_reducible apply sOnly_mem | with_reducible apply vWord_mem | with_reducible apply cmdWord_mem | with_reducible apply plainWord_mem); all_goals (intros; simp [*]; done)

@[simp] theorem postInc_mem (pi : BitVec 1) (x : BitVec 3) (o : BitVec 7) (s : State) :
    (postInc pi x o s).mem = s.mem := by
  unfold postInc; (repeat' first | with_reducible rfl | with_reducible assumption | (simp [*]; done) | (split <;> try (rename_i h; first | replace h := waitTokens_mem _ _ _ _ h | (replace h := congrArg (fun o => o.st.mem) h; simp [*] at h) | (replace h := congrArg (fun o => o.2.st.mem) h; simp [*] at h) | (replace h := congrArg (fun o => o.1.mem) h; simp [*] at h) | (replace h := congrArg (fun o => o.2.mem) h; simp [*] at h))) | split | split | with_reducible apply Out.mem_bind | intro _ | dsimp only)

@[simp] theorem watchV_mem (off : BitVec 24) (wr : Bool) (lane word : BitVec 5) (s : State) :
    (watchV off wr lane word s).st.mem = s.mem := by
  unfold watchV; simp [*]

@[simp] theorem vldBody_mem (p : BitVec 3) (pi : BitVec 1) (d : BitVec 5) (x : BitVec 3) (o : BitVec 7) (s : State) :
    (vldBody p pi d x o s).st.mem = s.mem := by
  unfold vldBody; (repeat' first | with_reducible rfl | with_reducible assumption | (simp [*]; done) | (split <;> try (rename_i h; first | replace h := waitTokens_mem _ _ _ _ h | (replace h := congrArg (fun o => o.st.mem) h; simp [*] at h) | (replace h := congrArg (fun o => o.2.st.mem) h; simp [*] at h) | (replace h := congrArg (fun o => o.1.mem) h; simp [*] at h) | (replace h := congrArg (fun o => o.2.mem) h; simp [*] at h))) | split | split | with_reducible apply Out.mem_bind | intro _ | dsimp only)

@[simp] theorem vstBody_wf (p : BitVec 3) (pi : BitVec 1) (d : BitVec 5) (x : BitVec 3) (o : BitVec 7) (s : State) (hw : s.mem.wf = true) :
    (vstBody p pi d x o s).st.mem.wf = true := by
  unfold vstBody; (repeat' first | (simp [*, Memory.wf_putRow, Memory.wf_putNat, Memory.wf_put, Memory.wf_filter]; done) | (split <;> try (rename_i h; first | replace h := waitTokens_mem _ _ _ _ h | (replace h := congrArg (fun o => o.st.mem.wf) h; simp [*] at h) | (replace h := congrArg (fun o => o.2.st.mem.wf) h; simp [*] at h) | (replace h := congrArg (fun o => o.1.mem.wf) h; simp [*] at h) | (replace h := congrArg (fun o => o.2.mem.wf) h; simp [*] at h))) | split | split | with_reducible apply Out.wf_bind | intro _ | dsimp only)

theorem execVld_mem (w : Tok) (p : BitVec 3) (i : BitVec 1) (d : BitVec 5) (x : BitVec 3) (o : BitVec 7) (s : State) :
    ∃ u₁, (execVld w p i d x o s) = .next u₁ ∧ u₁.mem = s.mem := by
  unfold execVld; (first | with_reducible apply sWord_mem | with_reducible apply sOnly_mem | with_reducible apply vWord_mem | with_reducible apply cmdWord_mem | with_reducible apply plainWord_mem); all_goals (intros; simp [*]; done)

theorem execVst_wf (w : Tok) (p : BitVec 3) (i : BitVec 1) (d : BitVec 5) (x : BitVec 3) (o : BitVec 7) (s : State) (hw : s.mem.wf = true) :
    ∃ u₁, (execVst w p i d x o s) = .next u₁ ∧ u₁.mem.wf = true := by
  unfold execVst; (first | with_reducible apply sWord_wf | with_reducible apply sOnly_wf | with_reducible apply vWord_wf | with_reducible apply cmdWord_wf); all_goals (intros; simp [*, Memory.wf_putRow, Memory.wf_putNat, Memory.wf_put, Memory.wf_filter]; done)

@[simp] theorem wakeRows_mem (a0 : List (Nat × BitVec 24)) (a1 : State) :
    (wakeRows a0 a1).st.mem = a1.mem := by
  induction a0 generalizing a1 <;> (unfold wakeRows; (repeat' first | with_reducible rfl | with_reducible assumption | (simp [*]; done) | (split <;> try (rename_i h; first | replace h := waitTokens_mem _ _ _ _ h | (replace h := congrArg (fun o => o.st.mem) h; simp [*] at h) | (replace h := congrArg (fun o => o.2.st.mem) h; simp [*] at h) | (replace h := congrArg (fun o => o.1.mem) h; simp [*] at h) | (replace h := congrArg (fun o => o.2.mem) h; simp [*] at h))) | split | split | with_reducible apply Out.mem_bind | rw [atUnit_mem] | rw [atLane_mem] | intro _ | dsimp only))

@[simp] theorem eachRow_mem (f : Nat × BitVec 24 → State → Out Unit) (a0 : List (Nat × BitVec 24)) (a1 : State) (hf : ∀ (v0 : Nat × BitVec 24) (v1 : State), (f v0 v1).st.mem = v1.mem) :
    (eachRow f a0 a1).st.mem = a1.mem := by
  induction a0 generalizing a1 <;> (unfold eachRow; (repeat' first | with_reducible rfl | with_reducible assumption | (simp [*]; done) | (split <;> try (rename_i h; first | replace h := waitTokens_mem _ _ _ _ h | (replace h := congrArg (fun o => o.st.mem) h; simp [*] at h) | (replace h := congrArg (fun o => o.2.st.mem) h; simp [*] at h) | (replace h := congrArg (fun o => o.1.mem) h; simp [*] at h) | (replace h := congrArg (fun o => o.2.mem) h; simp [*] at h))) | split | split | with_reducible apply Out.mem_bind | intro _ | dsimp only))

@[simp] theorem eachRow_wf (f : Nat × BitVec 24 → State → Out Unit)
    (hf : ∀ e t, t.mem.wf = true → (f e t).st.mem.wf = true) (l : List (Nat × BitVec 24)) (s : State) (hs : s.mem.wf = true) :
    (eachRow f l s).st.mem.wf = true := by
  induction l generalizing s with
  | nil => exact hs
  | cons e t ih => exact Out.wf_bind _ _ (hf e s hs) (fun _ u hu => ih u hu)

theorem wholeOr_wf (s : State) (x : Out Unit) (h : x.st.mem.wf = true) (hs : s.mem.wf = true) : (wholeOr s x).st.mem.wf = true := by
  cases x <;> simp_all [wholeOr]

@[simp] theorem rowsLive_mem (rows : List (Nat × BitVec 24)) (s : State) :
    (rowsLive rows s).st.mem = s.mem := by
  unfold rowsLive; (repeat' first | with_reducible rfl | with_reducible assumption | (simp [*]; done) | (split <;> try (rename_i h; first | replace h := waitTokens_mem _ _ _ _ h | (replace h := congrArg (fun o => o.st.mem) h; simp [*] at h) | (replace h := congrArg (fun o => o.2.st.mem) h; simp [*] at h) | (replace h := congrArg (fun o => o.1.mem) h; simp [*] at h) | (replace h := congrArg (fun o => o.2.mem) h; simp [*] at h))) | split | split | with_reducible apply Out.mem_bind | intro _ | dsimp only)

@[simp] theorem watchLane_mem (wr : Bool) (e : Nat × BitVec 24) (s : State) :
    (watchLane wr e s).st.mem = s.mem := by
  unfold watchLane; simp [*]

@[simp] theorem serveConflicts_mem (rows : List (Nat × BitVec 24)) (s : State) :
    (serveConflicts rows s).st.mem = s.mem := by
  unfold serveConflicts; (repeat' first | with_reducible rfl | with_reducible assumption | (simp [*]; done) | (split <;> try (rename_i h; first | replace h := waitTokens_mem _ _ _ _ h | (replace h := congrArg (fun o => o.st.mem) h; simp [*] at h) | (replace h := congrArg (fun o => o.2.st.mem) h; simp [*] at h) | (replace h := congrArg (fun o => o.1.mem) h; simp [*] at h) | (replace h := congrArg (fun o => o.2.mem) h; simp [*] at h))) | split | split | with_reducible apply Out.mem_bind | rw [atUnit_mem] | rw [atLane_mem] | intro _ | dsimp only)

@[simp] theorem gatherRows_mem (addr : Nat → BitVec 24) (g : W32) (a0 : List (Nat × BitVec 24)) (a1 : Row) (a2 : State) :
    (gatherRows addr g a0 a1 a2).st.mem = a2.mem := by
  induction a0 generalizing g a1 a2 <;> (unfold gatherRows; (repeat' first | with_reducible rfl | with_reducible assumption | (simp [*]; done) | (split <;> try (rename_i h; first | replace h := waitTokens_mem _ _ _ _ h | (replace h := congrArg (fun o => o.st.mem) h; simp [*] at h) | (replace h := congrArg (fun o => o.2.st.mem) h; simp [*] at h) | (replace h := congrArg (fun o => o.1.mem) h; simp [*] at h) | (replace h := congrArg (fun o => o.2.mem) h; simp [*] at h))) | split | split | with_reducible apply Out.mem_bind | intro _ | dsimp only))

@[simp] theorem lanesSpace_mem (g : W32) (addr : Nat → BitVec 24) (wr : Bool) (s : State) :
    (lanesSpace g addr wr s).st.mem = s.mem := by
  unfold lanesSpace; (repeat' first | with_reducible rfl | with_reducible assumption | (simp [*]; done) | (split <;> try (rename_i h; first | replace h := waitTokens_mem _ _ _ _ h | (replace h := congrArg (fun o => o.st.mem) h; simp [*] at h) | (replace h := congrArg (fun o => o.2.st.mem) h; simp [*] at h) | (replace h := congrArg (fun o => o.1.mem) h; simp [*] at h) | (replace h := congrArg (fun o => o.2.mem) h; simp [*] at h))) | split | split | with_reducible apply Out.mem_bind | rw [atUnit_mem] | rw [atLane_mem] | intro _ | dsimp only)

@[simp] theorem vgthBody_mem (p : BitVec 3) (pi : BitVec 1) (d : BitVec 5) (x : BitVec 3) (o : BitVec 7) (s : State) :
    (vgthBody p pi d x o s).st.mem = s.mem := by
  unfold vgthBody; (repeat' first | with_reducible rfl | with_reducible assumption | (simp [*]; done) | (split <;> try (rename_i h; first | replace h := waitTokens_mem _ _ _ _ h | (replace h := congrArg (fun o => o.st.mem) h; simp [*] at h) | (replace h := congrArg (fun o => o.2.st.mem) h; simp [*] at h) | (replace h := congrArg (fun o => o.1.mem) h; simp [*] at h) | (replace h := congrArg (fun o => o.2.mem) h; simp [*] at h))) | split | split | with_reducible apply Out.mem_bind | intro _ | dsimp only)

@[simp] theorem scatterRow_wf (addr : Nat → BitVec 24) (g : W32) (v : Row) (e : Nat × BitVec 24) (s : State) (hw : s.mem.wf = true) :
    (scatterRow addr g v e s).st.mem.wf = true := by
  unfold scatterRow; simp [*, Memory.wf_putRow, Memory.wf_putNat, Memory.wf_put, Memory.wf_filter]

@[simp] theorem vsctBody_wf (p : BitVec 3) (pi : BitVec 1) (d : BitVec 5) (x : BitVec 3) (o : BitVec 7) (s : State) (hw : s.mem.wf = true) :
    (vsctBody p pi d x o s).st.mem.wf = true := by
  unfold vsctBody
  apply Out.wf_bind _ _ (by simpa using hw); intro _ sa ha
  apply Out.wf_bind _ _ (by simpa using ha); intro _ sb hb
  apply Out.wf_bind _ _ (by simpa using hb); intro _ sc hc
  apply Out.wf_bind _ _ (by split <;> simpa using hc); intro _ sd hd
  apply Out.wf_bind _ _ (by simpa using hd); intro _ se he
  apply Out.wf_bind _ _ (by simpa using he); intro _ sf hf
  apply Out.wf_bind _ _ (by rw [wholeOr_mem _ _ (by simp)]; exact hf); intro _ sg hg
  apply Out.wf_bind _ _ (wholeOr_wf _ _ (eachRow_wf _ (fun r u hu => scatterRow_wf _ _ _ r u hu) _ _ hg) hg); intro _ sh hh
  simpa using hh

theorem execVgth_mem (w : Tok) (p : BitVec 3) (i : BitVec 1) (d : BitVec 5) (x : BitVec 3) (o : BitVec 7) (s : State) :
    ∃ u₁, (execVgth w p i d x o s) = .next u₁ ∧ u₁.mem = s.mem := by
  unfold execVgth; (first | with_reducible apply sWord_mem | with_reducible apply sOnly_mem | with_reducible apply vWord_mem | with_reducible apply cmdWord_mem | with_reducible apply plainWord_mem); all_goals (intros; simp [*]; done)

theorem execVsct_wf (w : Tok) (p : BitVec 3) (i : BitVec 1) (d : BitVec 5) (x : BitVec 3) (o : BitVec 7) (s : State) (hw : s.mem.wf = true) :
    ∃ u₁, (execVsct w p i d x o s) = .next u₁ ∧ u₁.mem.wf = true := by
  unfold execVsct; (first | with_reducible apply sWord_wf | with_reducible apply sOnly_wf | with_reducible apply vWord_wf | with_reducible apply cmdWord_wf); all_goals (intros; simp [*, Memory.wf_putRow, Memory.wf_putNat, Memory.wf_put, Memory.wf_filter]; done)

@[simp] theorem vldtBody_mem (p : BitVec 3) (d : BitVec 5) (slot : BitVec 8) (s : State) :
    (vldtBody p d slot s).st.mem = s.mem := by
  unfold vldtBody; (repeat' first | with_reducible rfl | with_reducible assumption | (simp [*]; done) | (split <;> try (rename_i h; first | replace h := waitTokens_mem _ _ _ _ h | (replace h := congrArg (fun o => o.st.mem) h; simp [*] at h) | (replace h := congrArg (fun o => o.2.st.mem) h; simp [*] at h) | (replace h := congrArg (fun o => o.1.mem) h; simp [*] at h) | (replace h := congrArg (fun o => o.2.mem) h; simp [*] at h))) | split | split | with_reducible apply Out.mem_bind | intro _ | dsimp only)

theorem execVldt_mem (w : Tok) (p : BitVec 3) (d : BitVec 5) (slot : BitVec 8) (s : State) :
    ∃ u₁, (execVldt w p d slot s) = .next u₁ ∧ u₁.mem = s.mem := by
  unfold execVldt; (first | with_reducible apply sWord_mem | with_reducible apply sOnly_mem | with_reducible apply vWord_mem | with_reducible apply cmdWord_mem | with_reducible apply plainWord_mem); all_goals (intros; simp [*]; done)

theorem execVResultLanding_mem (sp : BitVec 7) (r : BitVec 2) (s : State) :
    ∃ u₁, (execVResultLanding sp r s) = .next u₁ ∧ u₁.mem = s.mem := by
  unfold execVResultLanding; refine ⟨_, rfl, ?_⟩; (repeat' first | with_reducible rfl | with_reducible assumption | (simp [*]; done) | (split <;> try (rename_i h; first | replace h := waitTokens_mem _ _ _ _ h | (replace h := congrArg (fun o => o.st.mem) h; simp [*] at h) | (replace h := congrArg (fun o => o.2.st.mem) h; simp [*] at h) | (replace h := congrArg (fun o => o.1.mem) h; simp [*] at h) | (replace h := congrArg (fun o => o.2.mem) h; simp [*] at h))) | split | split | with_reducible apply Out.mem_bind | intro _ | dsimp only)

theorem execWideFlagFull_mem (sp : BitVec 7) (r : BitVec 2) (n : BitVec 3) (s : State) :
    ∃ u₁, (execWideFlagFull sp r n s) = .next u₁ ∧ u₁.mem = s.mem := by
  unfold execWideFlagFull; dsimp only; (repeat' first | (split <;> try (rename_i h; first | replace h := waitTokens_mem _ _ _ _ h | (replace h := congrArg (fun o => o.st.mem) h; simp [*] at h) | (replace h := congrArg (fun o => o.2.st.mem) h; simp [*] at h) | (replace h := congrArg (fun o => o.1.mem) h; simp [*] at h) | (replace h := congrArg (fun o => o.2.mem) h; simp [*] at h))) | split); all_goals (refine ⟨_, rfl, ?_⟩; (repeat' first | with_reducible rfl | with_reducible assumption | (simp [*]; done) | (split <;> try (rename_i h; first | replace h := waitTokens_mem _ _ _ _ h | (replace h := congrArg (fun o => o.st.mem) h; simp [*] at h) | (replace h := congrArg (fun o => o.2.st.mem) h; simp [*] at h) | (replace h := congrArg (fun o => o.1.mem) h; simp [*] at h) | (replace h := congrArg (fun o => o.2.mem) h; simp [*] at h))) | split | split | with_reducible apply Out.mem_bind | intro _ | dsimp only))

end Sys2Proof.Machine
end

