-- ==== Sys2Proof/Laws/KeepRows.lean ====
section
/-! SUPPORT. What the definitions of Machine/Rows.lean keep of memory: its bytes, or its canonical form
(R17). -/

set_option maxRecDepth 2000
set_option linter.all false

namespace Sys2Proof.Machine

@[simp] theorem requestRoom_mem (t : Target) (s : State) :
    (requestRoom t s).st.mem = s.mem := by
  unfold requestRoom; (repeat' first | with_reducible rfl | with_reducible assumption | (simp [*]; done) | (split <;> try (rename_i h; first | replace h := waitTokens_mem _ _ _ _ h | (replace h := congrArg (fun o => o.st.mem) h; simp [*] at h) | (replace h := congrArg (fun o => o.2.st.mem) h; simp [*] at h) | (replace h := congrArg (fun o => o.1.mem) h; simp [*] at h) | (replace h := congrArg (fun o => o.2.mem) h; simp [*] at h))) | split | split | with_reducible apply Out.mem_bind | intro _ | dsimp only)

@[simp] theorem cmdTarget_mem (e : Stream) (c : Cmd) (wr : Bool) (a : W64) (s : State) : (cmdTarget e c wr a s).st.mem = s.mem :=
  sentTarget_mem _ _ _ _ _ fun u => Out.mem_bind _ _ _ (by simp) fun _ v hv => by simpa using hv

@[simp] theorem unitRead_mem (e : Stream) (c : Cmd) (a : W64) (t : Target) (s : State) :
    (unitRead e c a t s).st.mem = s.mem := by
  unfold unitRead; simp [*]

@[simp] theorem unitWrite_wf (e : Stream) (c : Cmd) (a : W64) (t : Target) (mask : BitVec 128) (v : Row) (s : State) (hw : s.mem.wf = true) :
    (unitWrite e c a t mask v s).st.mem.wf = true := by
  unfold unitWrite; simp [*, Memory.wf_putRow, Memory.wf_putNat, Memory.wf_put, Memory.wf_filter, wholeOr_wf]

@[simp] theorem cmdRead_mem (e : Stream) (c : Cmd) (a : W64) (s : State) :
    (cmdRead e c a s).st.mem = s.mem := by
  unfold cmdRead; (repeat' first | with_reducible rfl | with_reducible assumption | (simp [*]; done) | (split <;> try (rename_i h; first | replace h := waitTokens_mem _ _ _ _ h | (replace h := congrArg (fun o => o.st.mem) h; simp [*] at h) | (replace h := congrArg (fun o => o.2.st.mem) h; simp [*] at h) | (replace h := congrArg (fun o => o.1.mem) h; simp [*] at h) | (replace h := congrArg (fun o => o.2.mem) h; simp [*] at h))) | split | split | with_reducible apply Out.mem_bind | intro _ | dsimp only)

@[simp] theorem cmdWrite_wf (e : Stream) (c : Cmd) (a : W64) (mask : BitVec 128) (v : Row) (s : State) (hw : s.mem.wf = true) :
    (cmdWrite e c a mask v s).st.mem.wf = true := by
  unfold cmdWrite; (repeat' first | (simp [*, Memory.wf_putRow, Memory.wf_putNat, Memory.wf_put, Memory.wf_filter, wholeOr_wf]; done) | (split <;> try (rename_i h; first | replace h := waitTokens_mem _ _ _ _ h | (replace h := congrArg (fun o => o.st.mem.wf) h; simp [*] at h) | (replace h := congrArg (fun o => o.2.st.mem.wf) h; simp [*] at h) | (replace h := congrArg (fun o => o.1.mem.wf) h; simp [*] at h) | (replace h := congrArg (fun o => o.2.mem.wf) h; simp [*] at h))) | split | split | with_reducible apply Out.wf_bind | intro _ | dsimp only)

@[simp] theorem readyTarget_mem (t : Target) (s : State) :
    (readyTarget t s).st.mem = s.mem := by
  unfold readyTarget; (repeat' first | with_reducible rfl | with_reducible assumption | (simp [*]; done) | (split <;> try (rename_i h; first | replace h := waitTokens_mem _ _ _ _ h | (replace h := congrArg (fun o => o.st.mem) h; simp [*] at h) | (replace h := congrArg (fun o => o.2.st.mem) h; simp [*] at h) | (replace h := congrArg (fun o => o.1.mem) h; simp [*] at h) | (replace h := congrArg (fun o => o.2.mem) h; simp [*] at h))) | split | split | with_reducible apply Out.mem_bind | rw [atUnit_mem] | rw [atLane_mem] | intro _ | dsimp only)

@[simp] theorem readyEach_mem (a0 : List RowWrite) (a1 : State) :
    (readyEach a0 a1).st.mem = a1.mem := by
  induction a0 generalizing a1 <;> (unfold readyEach; (repeat' first | with_reducible rfl | with_reducible assumption | (simp [*]; done) | (split <;> try (rename_i h; first | replace h := waitTokens_mem _ _ _ _ h | (replace h := congrArg (fun o => o.st.mem) h; simp [*] at h) | (replace h := congrArg (fun o => o.2.st.mem) h; simp [*] at h) | (replace h := congrArg (fun o => o.1.mem) h; simp [*] at h) | (replace h := congrArg (fun o => o.2.mem) h; simp [*] at h))) | split | split | with_reducible apply Out.mem_bind | rw [atUnit_mem] | rw [atLane_mem] | intro _ | dsimp only))

@[simp] theorem writeEach_wf (e : Stream) (c : Cmd) (a0 : List RowWrite) (a1 : State) (hw : a1.mem.wf = true) :
    (writeEach e c a0 a1).st.mem.wf = true := by
  induction a0 generalizing e c a1 <;> (unfold writeEach; (repeat' first | (simp [*, Memory.wf_putRow, Memory.wf_putNat, Memory.wf_put, Memory.wf_filter, wholeOr_wf]; done) | (split <;> try (rename_i h; first | replace h := waitTokens_mem _ _ _ _ h | (replace h := congrArg (fun o => o.st.mem.wf) h; simp [*] at h) | (replace h := congrArg (fun o => o.2.st.mem.wf) h; simp [*] at h) | (replace h := congrArg (fun o => o.1.mem.wf) h; simp [*] at h) | (replace h := congrArg (fun o => o.2.mem.wf) h; simp [*] at h))) | split | split | with_reducible apply Out.wf_bind | rw [atUnit_mem] | rw [atLane_mem] | intro _ | dsimp only))

@[simp] theorem wouldTrap_mem (s0 : State) (a0 : Out Unit) :
    (wouldTrap s0 a0).st.mem = s0.mem := by
  unfold wouldTrap; (repeat' first | with_reducible rfl | with_reducible assumption | (simp [*]; done) | (split <;> try (rename_i h; first | replace h := waitTokens_mem _ _ _ _ h | (replace h := congrArg (fun o => o.st.mem) h; simp [*] at h) | (replace h := congrArg (fun o => o.2.st.mem) h; simp [*] at h) | (replace h := congrArg (fun o => o.1.mem) h; simp [*] at h) | (replace h := congrArg (fun o => o.2.mem) h; simp [*] at h))) | split | split | with_reducible apply Out.mem_bind | rw [atUnit_mem] | rw [atLane_mem] | intro _ | dsimp only)

@[simp] theorem writeTogether_wf (e : Stream) (c : Cmd) (rows : List RowWrite) (s : State) (hw : s.mem.wf = true) :
    (writeTogether e c rows s).st.mem.wf = true := by
  unfold writeTogether; (repeat' first | (simp [*, Memory.wf_putRow, Memory.wf_putNat, Memory.wf_put, Memory.wf_filter, wholeOr_wf]; done) | (split <;> try (rename_i h; first | replace h := waitTokens_mem _ _ _ _ h | (replace h := congrArg (fun o => o.st.mem.wf) h; simp [*] at h) | (replace h := congrArg (fun o => o.2.st.mem.wf) h; simp [*] at h) | (replace h := congrArg (fun o => o.1.mem.wf) h; simp [*] at h) | (replace h := congrArg (fun o => o.2.mem.wf) h; simp [*] at h))) | split | split | with_reducible apply Out.wf_bind | rw [atUnit_mem] | rw [atLane_mem] | intro _ | dsimp only)

@[simp] theorem copyGate_mem (s : State) : (copyGate s).st.mem = s.mem := by
  unfold copyGate
  dsimp only
  repeat' split
  all_goals simp

@[simp] theorem copyBack_mem (s : State) : (copyBack s).st.mem = s.mem := by
  unfold copyBack
  repeat' split
  all_goals simp

@[simp] theorem pierGate_mem (s : State) :
    (pierGate s).st.mem = s.mem := by
  unfold pierGate; (repeat' first | with_reducible rfl | with_reducible assumption | (simp [*]; done) | (split <;> try (rename_i h; first | replace h := waitTokens_mem _ _ _ _ h | (replace h := congrArg (fun o => o.st.mem) h; simp [*] at h) | (replace h := congrArg (fun o => o.2.st.mem) h; simp [*] at h) | (replace h := congrArg (fun o => o.1.mem) h; simp [*] at h) | (replace h := congrArg (fun o => o.2.mem) h; simp [*] at h))) | split | split | with_reducible apply Out.mem_bind | intro _ | dsimp only)

@[simp] theorem keptEngine_mem (s : State) :
    (keptEngine s).st.mem = s.mem := by
  unfold keptEngine; simp [*]

@[simp] theorem noClose_mem (c : Cmd) (s : State) :
    (noClose c s).st.mem = s.mem := by
  unfold noClose; simp [*]

end Sys2Proof.Machine
end

