-- ==== Sys2Proof/Laws/KeepCopy.lean ====
section
/-! SUPPORT. What the definitions of Machine/Copy.lean keep of memory: its bytes, or its canonical form
(R17). -/

set_option maxRecDepth 2000
set_option linter.all false

namespace Sys2Proof.Machine

@[simp] theorem copyWord_mem (w : Tok) (need : Nat) (c : BitVec 6) (r : BitVec 1) (latch : State → Cmd → Cmd)
    (check : Cmd → Option Flt) (total : Cmd → Nat) (unit close : Cmd → State → Out Cmd) (s : State)
    (hu : ∀ c t, (unit c t).st.mem = t.mem) (hc : ∀ c t, (close c t).st.mem = t.mem) :
    ∃ t, copyWord w need c r latch check total unit close s = .next t ∧ t.mem = s.mem :=
  cmdWord_mem _ _ _ _ _ _ _ _ _ _ _ _ _ _ _ (fun t => by simp) (fun t => by simp) (fun t => by simp) (fun _ => rfl) hu hc

@[simp] theorem copyWord_wf (w : Tok) (need : Nat) (c : BitVec 6) (r : BitVec 1) (latch : State → Cmd → Cmd)
    (check : Cmd → Option Flt) (total : Cmd → Nat) (unit close : Cmd → State → Out Cmd) (s : State)
    (hu : ∀ c t, t.mem.wf = true → (unit c t).st.mem.wf = true) (hc : ∀ c t, t.mem.wf = true → (close c t).st.mem.wf = true)
    (hs : s.mem.wf = true) :
    ∃ t, copyWord w need c r latch check total unit close s = .next t ∧ t.mem.wf = true :=
  cmdWord_wf _ _ _ _ _ _ _ _ _ _ _ _ _ _ _ (fun t => by simp) (fun t => by simp) (fun t => by simp) (fun _ => rfl) hu hc hs

theorem execCnop_mem (w : Tok) (s : State) :
    ∃ u₁, (execCnop w s) = .next u₁ ∧ u₁.mem = s.mem := by
  unfold execCnop; (first | with_reducible apply sWord_mem | with_reducible apply sOnly_mem | with_reducible apply vWord_mem | with_reducible apply cmdWord_mem | with_reducible apply copyWord_mem | with_reducible apply plainWord_mem); all_goals (intros; simp [*]; done)

@[simp] theorem readBefore_mem (c : Cmd) (a : W64) (s : State) :
    (readBefore c a s).st.mem = s.mem := by
  unfold readBefore; (repeat' first | with_reducible rfl | with_reducible assumption | (simp [*]; done) | (split <;> try (rename_i h; first | replace h := waitTokens_mem _ _ _ _ h | (replace h := congrArg (fun o => o.st.mem) h; simp [*] at h) | (replace h := congrArg (fun o => o.2.st.mem) h; simp [*] at h) | (replace h := congrArg (fun o => o.1.mem) h; simp [*] at h) | (replace h := congrArg (fun o => o.2.mem) h; simp [*] at h))) | split | split | with_reducible apply Out.mem_bind | intro _ | dsimp only)

@[simp] theorem keepOriginal_mem (c : Cmd) (a : W64) (t : Target) (s : State) :
    (keepOriginal c a t s).st.mem = s.mem := by
  unfold keepOriginal; (repeat' first | with_reducible rfl | with_reducible assumption | (simp [*]; done) | (split <;> try (rename_i h; first | replace h := waitTokens_mem _ _ _ _ h | (replace h := congrArg (fun o => o.st.mem) h; simp [*] at h) | (replace h := congrArg (fun o => o.2.st.mem) h; simp [*] at h) | (replace h := congrArg (fun o => o.1.mem) h; simp [*] at h) | (replace h := congrArg (fun o => o.2.mem) h; simp [*] at h))) | split | split | with_reducible apply Out.mem_bind | rw [atUnit_mem] | rw [atLane_mem] | intro _ | dsimp only)

@[simp] theorem writeKeeping_wf (c : Cmd) (a : W64) (v : Row) (s : State) (hw : s.mem.wf = true) :
    (writeKeeping c a v s).st.mem.wf = true := by
  unfold writeKeeping; (repeat' first | (simp [*, Memory.wf_putRow, Memory.wf_putNat, Memory.wf_put, Memory.wf_filter, wholeOr_wf]; done) | (split <;> try (rename_i h; first | replace h := waitTokens_mem _ _ _ _ h | (replace h := congrArg (fun o => o.st.mem.wf) h; simp [*] at h) | (replace h := congrArg (fun o => o.2.st.mem.wf) h; simp [*] at h) | (replace h := congrArg (fun o => o.1.mem.wf) h; simp [*] at h) | (replace h := congrArg (fun o => o.2.mem.wf) h; simp [*] at h))) | split | split | with_reducible apply Out.wf_bind | intro _ | dsimp only)

@[simp] theorem copyRow_wf (c : Cmd) (dst src : W64) (s : State) (hw : s.mem.wf = true) :
    (copyRow c dst src s).st.mem.wf = true := by
  unfold copyRow; (repeat' first | (simp [*, Memory.wf_putRow, Memory.wf_putNat, Memory.wf_put, Memory.wf_filter, wholeOr_wf]; done) | (split <;> try (rename_i h; first | replace h := waitTokens_mem _ _ _ _ h | (replace h := congrArg (fun o => o.st.mem.wf) h; simp [*] at h) | (replace h := congrArg (fun o => o.2.st.mem.wf) h; simp [*] at h) | (replace h := congrArg (fun o => o.1.mem.wf) h; simp [*] at h) | (replace h := congrArg (fun o => o.2.mem.wf) h; simp [*] at h))) | split | split | with_reducible apply Out.wf_bind | intro _ | dsimp only)

@[simp] theorem moveRow_wf (c : Cmd) (dst src : W64) (s : State) (hw : s.mem.wf = true) :
    (moveRow c dst src s).st.mem.wf = true := by
  unfold moveRow; (repeat' first | (simp [*, Memory.wf_putRow, Memory.wf_putNat, Memory.wf_put, Memory.wf_filter, wholeOr_wf]; done) | (split <;> try (rename_i h; first | replace h := waitTokens_mem _ _ _ _ h | (replace h := congrArg (fun o => o.st.mem.wf) h; simp [*] at h) | (replace h := congrArg (fun o => o.2.st.mem.wf) h; simp [*] at h) | (replace h := congrArg (fun o => o.1.mem.wf) h; simp [*] at h) | (replace h := congrArg (fun o => o.2.mem.wf) h; simp [*] at h))) | split | split | with_reducible apply Out.wf_bind | intro _ | dsimp only)

theorem execCcpy_wf (w : Tok) (c : BitVec 6) (r : BitVec 1) (s : State) (hw : s.mem.wf = true) :
    ∃ u₁, (execCcpy w c r s) = .next u₁ ∧ u₁.mem.wf = true := by
  unfold execCcpy; (first | with_reducible apply sWord_wf | with_reducible apply sOnly_wf | with_reducible apply vWord_wf | with_reducible apply cmdWord_wf | with_reducible apply copyWord_wf); all_goals (intros; simp [*, Memory.wf_putRow, Memory.wf_putNat, Memory.wf_put, Memory.wf_filter, wholeOr_wf]; done)

theorem execC2d_wf (w : Tok) (c : BitVec 6) (r : BitVec 1) (s : State) (hw : s.mem.wf = true) :
    ∃ u₁, (execC2d w c r s) = .next u₁ ∧ u₁.mem.wf = true := by
  unfold execC2d; (first | with_reducible apply sWord_wf | with_reducible apply sOnly_wf | with_reducible apply vWord_wf | with_reducible apply cmdWord_wf | with_reducible apply copyWord_wf); all_goals (intros; simp [*, Memory.wf_putRow, Memory.wf_putNat, Memory.wf_put, Memory.wf_filter, wholeOr_wf]; done)

@[simp] theorem listElem_mem (c : Cmd) (iw : BitVec 1) (list : W64) (j : Nat) (s : State) :
    (listElem c iw list j s).st.mem = s.mem := by
  unfold listElem; simp [*]

@[simp] theorem farIndex_mem (c : Cmd) (iw : BitVec 1) (s : State) :
    (farIndex c iw s).st.mem = s.mem := by
  unfold farIndex; (repeat' first | with_reducible rfl | with_reducible assumption | (simp [*]; done) | (split <;> try (rename_i h; first | replace h := waitTokens_mem _ _ _ _ h | (replace h := congrArg (fun o => o.st.mem) h; simp [*] at h) | (replace h := congrArg (fun o => o.2.st.mem) h; simp [*] at h) | (replace h := congrArg (fun o => o.1.mem) h; simp [*] at h) | (replace h := congrArg (fun o => o.2.mem) h; simp [*] at h))) | split | split | with_reducible apply Out.mem_bind | intro _ | dsimp only)

@[simp] theorem gatherUnit_wf (out : Bool) (rows : Nat) (far : W64) (c : Cmd) (s : State) (hw : s.mem.wf = true) :
    (gatherUnit out rows far c s).st.mem.wf = true := by
  unfold gatherUnit; (repeat' first | (simp [*, Memory.wf_putRow, Memory.wf_putNat, Memory.wf_put, Memory.wf_filter, wholeOr_wf]; done) | (split <;> try (rename_i h; first | replace h := waitTokens_mem _ _ _ _ h | (replace h := congrArg (fun o => o.st.mem.wf) h; simp [*] at h) | (replace h := congrArg (fun o => o.2.st.mem.wf) h; simp [*] at h) | (replace h := congrArg (fun o => o.1.mem.wf) h; simp [*] at h) | (replace h := congrArg (fun o => o.2.mem.wf) h; simp [*] at h))) | split | split | with_reducible apply Out.wf_bind | intro _ | dsimp only)

@[simp] theorem indexUnit_wf (out : Bool) (iw : BitVec 1) (c : Cmd) (s : State) (hw : s.mem.wf = true) :
    (indexUnit out iw c s).st.mem.wf = true := by
  unfold indexUnit; (repeat' first | (simp [*, Memory.wf_putRow, Memory.wf_putNat, Memory.wf_put, Memory.wf_filter, wholeOr_wf]; done) | (split <;> try (rename_i h; first | replace h := waitTokens_mem _ _ _ _ h | (replace h := congrArg (fun o => o.st.mem.wf) h; simp [*] at h) | (replace h := congrArg (fun o => o.2.st.mem.wf) h; simp [*] at h) | (replace h := congrArg (fun o => o.1.mem.wf) h; simp [*] at h) | (replace h := congrArg (fun o => o.2.mem.wf) h; simp [*] at h))) | split | split | with_reducible apply Out.wf_bind | intro _ | dsimp only)

@[simp] theorem arenaUnit_wf (out : Bool) (c : Cmd) (s : State) (hw : s.mem.wf = true) :
    (arenaUnit out c s).st.mem.wf = true := by
  unfold arenaUnit; simp [*, Memory.wf_putRow, Memory.wf_putNat, Memory.wf_put, Memory.wf_filter, wholeOr_wf]

theorem execCgth_wf (w : Tok) (c : BitVec 6) (r i : BitVec 1) (s : State) (hw : s.mem.wf = true) :
    ∃ u₁, (execCgth w c r i s) = .next u₁ ∧ u₁.mem.wf = true := by
  unfold execCgth; (first | with_reducible apply sWord_wf | with_reducible apply sOnly_wf | with_reducible apply vWord_wf | with_reducible apply cmdWord_wf | with_reducible apply copyWord_wf); all_goals (intros; simp [*, Memory.wf_putRow, Memory.wf_putNat, Memory.wf_put, Memory.wf_filter, wholeOr_wf]; done)

theorem execCgthArena_wf (w : Tok) (c : BitVec 6) (r : BitVec 1) (g : BitVec 3) (s : State) (hw : s.mem.wf = true) :
    ∃ u₁, (execCgthArena w c r g s) = .next u₁ ∧ u₁.mem.wf = true := by
  unfold execCgthArena; (first | with_reducible apply sWord_wf | with_reducible apply sOnly_wf | with_reducible apply vWord_wf | with_reducible apply cmdWord_wf | with_reducible apply copyWord_wf); all_goals (intros; simp [*, Memory.wf_putRow, Memory.wf_putNat, Memory.wf_put, Memory.wf_filter, wholeOr_wf]; done)

theorem execCsct_wf (w : Tok) (c : BitVec 6) (r i : BitVec 1) (s : State) (hw : s.mem.wf = true) :
    ∃ u₁, (execCsct w c r i s) = .next u₁ ∧ u₁.mem.wf = true := by
  unfold execCsct; (first | with_reducible apply sWord_wf | with_reducible apply sOnly_wf | with_reducible apply vWord_wf | with_reducible apply cmdWord_wf | with_reducible apply copyWord_wf); all_goals (intros; simp [*, Memory.wf_putRow, Memory.wf_putNat, Memory.wf_put, Memory.wf_filter, wholeOr_wf]; done)

theorem execCsctArena_wf (w : Tok) (c : BitVec 6) (r : BitVec 1) (g : BitVec 3) (s : State) (hw : s.mem.wf = true) :
    ∃ u₁, (execCsctArena w c r g s) = .next u₁ ∧ u₁.mem.wf = true := by
  unfold execCsctArena; (first | with_reducible apply sWord_wf | with_reducible apply sOnly_wf | with_reducible apply vWord_wf | with_reducible apply cmdWord_wf | with_reducible apply copyWord_wf); all_goals (intros; simp [*, Memory.wf_putRow, Memory.wf_putNat, Memory.wf_put, Memory.wf_filter, wholeOr_wf]; done)

@[simp] theorem tileUnit_wf (t : BitVec 4) (dir : BitVec 1) (c : Cmd) (s : State) (hw : s.mem.wf = true) :
    (tileUnit t dir c s).st.mem.wf = true := by
  unfold tileUnit; (repeat' first | (simp [*, Memory.wf_putRow, Memory.wf_putNat, Memory.wf_put, Memory.wf_filter, wholeOr_wf]; done) | (split <;> try (rename_i h; first | replace h := waitTokens_mem _ _ _ _ h | (replace h := congrArg (fun o => o.st.mem.wf) h; simp [*] at h) | (replace h := congrArg (fun o => o.2.st.mem.wf) h; simp [*] at h) | (replace h := congrArg (fun o => o.1.mem.wf) h; simp [*] at h) | (replace h := congrArg (fun o => o.2.mem.wf) h; simp [*] at h))) | split | split | with_reducible apply Out.wf_bind | intro _ | dsimp only)

theorem execCtile_wf (w : Tok) (c : BitVec 6) (t : BitVec 4) (r d : BitVec 1) (s : State) (hw : s.mem.wf = true) :
    ∃ u₁, (execCtile w c t r d s) = .next u₁ ∧ u₁.mem.wf = true := by
  unfold execCtile; (first | with_reducible apply sWord_wf | with_reducible apply sOnly_wf | with_reducible apply vWord_wf | with_reducible apply cmdWord_wf | with_reducible apply copyWord_wf); all_goals (intros; simp [*, Memory.wf_putRow, Memory.wf_putNat, Memory.wf_put, Memory.wf_filter, wholeOr_wf]; done)

@[simp] theorem ccbUnit_mem (sz : BitVec 1) (c : Cmd) (s : State) :
    (ccbUnit sz c s).st.mem = s.mem := by
  unfold ccbUnit; simp [*]

@[simp] theorem ccbClose_mem (b : BitVec 3) (c : Cmd) (s : State) :
    (ccbClose b c s).st.mem = s.mem := by
  unfold ccbClose; simp [*]

theorem execCcb_mem (w : Tok) (c : BitVec 6) (r : BitVec 1) (b : BitVec 3) (z : BitVec 1) (s : State) :
    ∃ u₁, (execCcb w c r b z s) = .next u₁ ∧ u₁.mem = s.mem := by
  unfold execCcb; (first | with_reducible apply sWord_mem | with_reducible apply sOnly_mem | with_reducible apply vWord_mem | with_reducible apply cmdWord_mem | with_reducible apply copyWord_mem | with_reducible apply plainWord_mem); all_goals (intros; simp [*]; done)

@[simp] theorem cqldUnit_mem (q : BitVec 2) (c : Cmd) (s : State) :
    (cqldUnit q c s).st.mem = s.mem := by
  unfold cqldUnit; (repeat' first | with_reducible rfl | with_reducible assumption | (simp [*]; done) | (split <;> try (rename_i h; first | replace h := waitTokens_mem _ _ _ _ h | (replace h := congrArg (fun o => o.st.mem) h; simp [*] at h) | (replace h := congrArg (fun o => o.2.st.mem) h; simp [*] at h) | (replace h := congrArg (fun o => o.1.mem) h; simp [*] at h) | (replace h := congrArg (fun o => o.2.mem) h; simp [*] at h))) | split | split | with_reducible apply Out.mem_bind | intro _ | dsimp only)

theorem execCqld_mem (w : Tok) (c : BitVec 6) (r : BitVec 1) (q : BitVec 2) (s : State) :
    ∃ u₁, (execCqld w c r q s) = .next u₁ ∧ u₁.mem = s.mem := by
  unfold execCqld; (first | with_reducible apply sWord_mem | with_reducible apply sOnly_mem | with_reducible apply vWord_mem | with_reducible apply cmdWord_mem | with_reducible apply copyWord_mem | with_reducible apply plainWord_mem); all_goals (intros; simp [*]; done)

theorem execCfill_wf (w : Tok) (c : BitVec 6) (r : BitVec 1) (s : State) (hw : s.mem.wf = true) :
    ∃ u₁, (execCfill w c r s) = .next u₁ ∧ u₁.mem.wf = true := by
  unfold execCfill; (first | with_reducible apply sWord_wf | with_reducible apply sOnly_wf | with_reducible apply vWord_wf | with_reducible apply cmdWord_wf | with_reducible apply copyWord_wf); all_goals (intros; simp [*, Memory.wf_putRow, Memory.wf_putNat, Memory.wf_put, Memory.wf_filter, wholeOr_wf]; done)

theorem execCompletionRowUpdate_wf (sp : BitVec 7) (r : BitVec 2) (e : BitVec 3) (s : State) (hw : s.mem.wf = true) :
    ∃ u₁, (execCompletionRowUpdate sp r e s) = .next u₁ ∧ u₁.mem.wf = true := by
  unfold execCompletionRowUpdate; refine ⟨_, rfl, ?_⟩; (repeat' first | (simp [*, Memory.wf_putRow, Memory.wf_putNat, Memory.wf_put, Memory.wf_filter, wholeOr_wf]; done) | (split <;> try (rename_i h; first | replace h := waitTokens_mem _ _ _ _ h | (replace h := congrArg (fun o => o.st.mem.wf) h; simp [*] at h) | (replace h := congrArg (fun o => o.2.st.mem.wf) h; simp [*] at h) | (replace h := congrArg (fun o => o.1.mem.wf) h; simp [*] at h) | (replace h := congrArg (fun o => o.2.mem.wf) h; simp [*] at h))) | split | split | with_reducible apply Out.wf_bind | intro _ | dsimp only)

end Sys2Proof.Machine
end

