-- ==== Sys2Proof/Laws/KeepBorene.lean ====
section
/-! SUPPORT. What the definitions of Machine/Borene.lean keep of memory: its bytes, or its canonical form
(R17). -/

set_option maxRecDepth 2000
set_option linter.all false

namespace Sys2Proof.Machine

@[simp] theorem readHalf_mem (c : Cmd) (a : W64) (second : Bool) (s : State) :
    (readHalf c a second s).st.mem = s.mem := by
  unfold readHalf; simp [*]

@[simp] theorem readBlock_mem (c : Cmd) (a : W64) (s : State) :
    (readBlock c a s).st.mem = s.mem := by
  unfold readBlock; (repeat' first | with_reducible rfl | with_reducible assumption | (simp [*]; done) | (split <;> try (rename_i h; first | replace h := waitTokens_mem _ _ _ _ h | (replace h := congrArg (fun o => o.st.mem) h; simp [*] at h) | (replace h := congrArg (fun o => o.2.st.mem) h; simp [*] at h) | (replace h := congrArg (fun o => o.1.mem) h; simp [*] at h) | (replace h := congrArg (fun o => o.2.mem) h; simp [*] at h))) | split | split | with_reducible apply Out.mem_bind | intro _ | dsimp only)

@[simp] theorem bumpWgen_mem (t : BitVec 4) (c : Cmd) (s : State) :
    (bumpWgen t c s).2.mem = s.mem := by
  unfold bumpWgen; (repeat' first | with_reducible rfl | with_reducible assumption | (simp [*]; done) | (split <;> try (rename_i h; first | replace h := waitTokens_mem _ _ _ _ h | (replace h := congrArg (fun o => o.st.mem) h; simp [*] at h) | (replace h := congrArg (fun o => o.2.st.mem) h; simp [*] at h) | (replace h := congrArg (fun o => o.1.mem) h; simp [*] at h) | (replace h := congrArg (fun o => o.2.mem) h; simp [*] at h))) | split | split | with_reducible apply Out.mem_bind | intro _ | dsimp only)

@[simp] theorem cdecUnit_mem (t : BitVec 4) (c : Cmd) (s : State) :
    (cdecUnit t c s).st.mem = s.mem := by
  unfold cdecUnit; (repeat' first | with_reducible rfl | with_reducible assumption | (simp [*]; done) | (split <;> try (rename_i h; first | replace h := waitTokens_mem _ _ _ _ h | (replace h := congrArg (fun o => o.st.mem) h; simp [*] at h) | (replace h := congrArg (fun o => o.2.st.mem) h; simp [*] at h) | (replace h := congrArg (fun o => o.1.mem) h; simp [*] at h) | (replace h := congrArg (fun o => o.2.mem) h; simp [*] at h))) | split | split | with_reducible apply Out.mem_bind | intro _ | dsimp only)

theorem execCdec_mem (w : Tok) (c : BitVec 6) (t : BitVec 4) (r : BitVec 1) (s : State) :
    ∃ u₁, (execCdec w c t r s) = .next u₁ ∧ u₁.mem = s.mem := by
  unfold execCdec; (first | with_reducible apply sWord_mem | with_reducible apply sOnly_mem | with_reducible apply vWord_mem | with_reducible apply cmdWord_mem | with_reducible apply copyWord_mem | with_reducible apply plainWord_mem); all_goals (intros; simp [*]; done)

@[simp] theorem writeBlock_wf (c : Cmd) (a : W64) (b : Nat) (s : State) (hw : s.mem.wf = true) :
    (writeBlock c a b s).st.mem.wf = true := by
  unfold writeBlock; (repeat' first | (simp [*, Memory.wf_putRow, Memory.wf_putNat, Memory.wf_put, Memory.wf_filter]; done) | (split <;> try (rename_i h; first | replace h := waitTokens_mem _ _ _ _ h | (replace h := congrArg (fun o => o.st.mem.wf) h; simp [*] at h) | (replace h := congrArg (fun o => o.2.st.mem.wf) h; simp [*] at h) | (replace h := congrArg (fun o => o.1.mem.wf) h; simp [*] at h) | (replace h := congrArg (fun o => o.2.mem.wf) h; simp [*] at h))) | split | split | with_reducible apply Out.wf_bind | rw [atUnit_mem] | rw [atLane_mem] | intro _ | dsimp only)

@[simp] theorem readScales_mem (c : Cmd) (a : W64) (s : State) :
    (readScales c a s).st.mem = s.mem := by
  unfold readScales; simp [*]

@[simp] theorem cencUnit_wf (c : Cmd) (s : State) (hw : s.mem.wf = true) :
    (cencUnit c s).st.mem.wf = true := by
  unfold cencUnit; (repeat' first | (simp [*, Memory.wf_putRow, Memory.wf_putNat, Memory.wf_put, Memory.wf_filter]; done) | (split <;> try (rename_i h; first | replace h := waitTokens_mem _ _ _ _ h | (replace h := congrArg (fun o => o.st.mem.wf) h; simp [*] at h) | (replace h := congrArg (fun o => o.2.st.mem.wf) h; simp [*] at h) | (replace h := congrArg (fun o => o.1.mem.wf) h; simp [*] at h) | (replace h := congrArg (fun o => o.2.mem.wf) h; simp [*] at h))) | split | split | with_reducible apply Out.wf_bind | intro _ | dsimp only)

@[simp] theorem cencClose_mem (c : Cmd) (s : State) :
    (cencClose c s).st.mem = s.mem := by
  unfold cencClose; simp [*]

theorem execCenc_wf (w : Tok) (c : BitVec 6) (r : BitVec 1) (s : State) (hw : s.mem.wf = true) :
    ∃ u₁, (execCenc w c r s) = .next u₁ ∧ u₁.mem.wf = true := by
  unfold execCenc; (first | with_reducible apply sWord_wf | with_reducible apply sOnly_wf | with_reducible apply vWord_wf | with_reducible apply cmdWord_wf | with_reducible apply copyWord_wf); all_goals (intros; simp [*, Memory.wf_putRow, Memory.wf_putNat, Memory.wf_put, Memory.wf_filter]; done)

end Sys2Proof.Machine
end

