-- ==== Sys2Proof/Laws/KeepGirder.lean ====
section
/-! SUPPORT. What the definitions of Machine/Girder.lean keep of memory: its bytes, or its canonical form
(R17). -/

set_option maxRecDepth 2000
set_option linter.all false

namespace Sys2Proof.Machine

@[simp] theorem endLease_mem (s : State) :
    (endLease s).mem = s.mem := by
  unfold endLease; (repeat' first | with_reducible rfl | with_reducible assumption | (simp [*]; done) | (split <;> try (rename_i h; first | replace h := waitTokens_mem _ _ _ _ h | (replace h := congrArg (fun o => o.st.mem) h; simp [*] at h) | (replace h := congrArg (fun o => o.2.st.mem) h; simp [*] at h) | (replace h := congrArg (fun o => o.1.mem) h; simp [*] at h) | (replace h := congrArg (fun o => o.2.mem) h; simp [*] at h))) | split | split | with_reducible apply Out.mem_bind | intro _ | dsimp only)

@[simp] theorem askLease_mem (s : State) :
    (askLease s).mem = s.mem := by
  unfold askLease; simp [*]

@[simp] theorem leaseGate_mem (s : State) :
    (leaseGate s).st.mem = s.mem := by
  unfold leaseGate; (repeat' first | with_reducible rfl | with_reducible assumption | (simp [*]; done) | (split <;> try (rename_i h; first | replace h := waitTokens_mem _ _ _ _ h | (replace h := congrArg (fun o => o.st.mem) h; simp [*] at h) | (replace h := congrArg (fun o => o.2.st.mem) h; simp [*] at h) | (replace h := congrArg (fun o => o.1.mem) h; simp [*] at h) | (replace h := congrArg (fun o => o.2.mem) h; simp [*] at h))) | split | split | with_reducible apply Out.mem_bind | intro _ | dsimp only)

@[simp] theorem countLease_mem (s : State) :
    (countLease s).mem = s.mem := by
  unfold countLease; (repeat' first | with_reducible rfl | with_reducible assumption | (simp [*]; done) | (split <;> try (rename_i h; first | replace h := waitTokens_mem _ _ _ _ h | (replace h := congrArg (fun o => o.st.mem) h; simp [*] at h) | (replace h := congrArg (fun o => o.2.st.mem) h; simp [*] at h) | (replace h := congrArg (fun o => o.1.mem) h; simp [*] at h) | (replace h := congrArg (fun o => o.2.mem) h; simp [*] at h))) | split | split | with_reducible apply Out.mem_bind | intro _ | dsimp only)

@[simp] theorem raiseLease_mem (s : State) :
    (raiseLease s).mem = s.mem := by
  unfold raiseLease; simp [*]

@[simp] theorem girderBack_mem (s : State) :
    (girderBack s).st.mem = s.mem := by
  unfold girderBack; (repeat' first | with_reducible rfl | with_reducible assumption | (simp [*]; done) | (split <;> try (rename_i h; first | replace h := waitTokens_mem _ _ _ _ h | (replace h := congrArg (fun o => o.st.mem) h; simp [*] at h) | (replace h := congrArg (fun o => o.2.st.mem) h; simp [*] at h) | (replace h := congrArg (fun o => o.1.mem) h; simp [*] at h) | (replace h := congrArg (fun o => o.2.mem) h; simp [*] at h))) | split | split | with_reducible apply Out.mem_bind | rw [atUnit_mem] | rw [atLane_mem] | intro _ | dsimp only)

theorem girderWord_keeps (P : State → Prop) (hP : OfMem P) (w : Tok) (pops : State → Out (List W64)) (n : BitVec 6)
    (latch : State → Cmd → Cmd) (check : State → Cmd → Option Flt) (total : Cmd → Nat) (unit close : Cmd → State → Out Cmd)
    (s : State) (hp : ∀ t, (pops t).st.mem = t.mem) (hu : ∀ c t, P t → P (unit c t).st) (hc : ∀ c t, P t → P (close c t).st)
    (hs : P s) : ∃ t, girderWord w pops n latch check total unit close s = .next t ∧ P t := by
  have hl : P (leaseNow s.cur.sp s) := hP s _ (by simp) hs
  unfold girderWord
  dsimp only
  split
  · exact ⟨_, rfl, hP s _ (by simp) hs⟩
  · exact cmdWord_keeps P hP _ _ _ _ _ _ _ _ _ _ _ _ _ _ hp (fun t => by simp) (fun t => by simp) (fun t ht => hP t _ (by simp) ht) hu hc _ hl

@[simp] theorem girderWord_mem (w : Tok) (pops : State → Out (List W64)) (n : BitVec 6)
    (latch : State → Cmd → Cmd) (check : State → Cmd → Option Flt) (total : Cmd → Nat) (unit close : Cmd → State → Out Cmd)
    (s : State) (hp : ∀ t, (pops t).st.mem = t.mem) (hu : ∀ c t, (unit c t).st.mem = t.mem)
    (hc : ∀ c t, (close c t).st.mem = t.mem) :
    ∃ t, girderWord w pops n latch check total unit close s = .next t ∧ t.mem = s.mem :=
  girderWord_keeps (fun t => t.mem = s.mem) (ofMem_mem _) w pops n latch check total unit close s hp
    (fun c t ht => (hu c t).trans ht) (fun c t ht => (hc c t).trans ht) rfl

@[simp] theorem girderWord_wf (w : Tok) (pops : State → Out (List W64)) (n : BitVec 6)
    (latch : State → Cmd → Cmd) (check : State → Cmd → Option Flt) (total : Cmd → Nat) (unit close : Cmd → State → Out Cmd)
    (s : State) (hp : ∀ t, (pops t).st.mem = t.mem) (hu : ∀ c t, t.mem.wf = true → (unit c t).st.mem.wf = true)
    (hc : ∀ c t, t.mem.wf = true → (close c t).st.mem.wf = true) (hs : s.mem.wf = true) :
    ∃ t, girderWord w pops n latch check total unit close s = .next t ∧ t.mem.wf = true :=
  girderWord_keeps _ ofMem_wf w pops n latch check total unit close s hp hu hc hs

theorem execMnop_mem (w : Tok) (s : State) :
    ∃ u₁, (execMnop w s) = .next u₁ ∧ u₁.mem = s.mem := by
  unfold execMnop; (first | with_reducible apply sWord_mem | with_reducible apply sOnly_mem | with_reducible apply vWord_mem | with_reducible apply cmdWord_mem | with_reducible apply girderWord_mem | with_reducible apply plainWord_mem); all_goals (intros; simp [*]; done)

theorem execMrel_mem (w : Tok) (s : State) :
    ∃ u₁, (execMrel w s) = .next u₁ ∧ u₁.mem = s.mem := by
  unfold execMrel
  obtain ⟨u, h, hm⟩ := plainWord_mem .M w (fun s => .ok () (endLease s)) (leaseNow s.cur.sp s) (fun t => by simp)
  exact ⟨u, h, hm.trans (by simp)⟩

theorem execMlease_mem (w : Tok) (_n : BitVec 6) (s : State) :
    ∃ u₁, (execMlease w _n s) = .next u₁ ∧ u₁.mem = s.mem := by
  unfold execMlease; refine ⟨_, rfl, ?_⟩; (repeat' first | with_reducible rfl | with_reducible assumption | (simp [*]; done) | (split <;> try (rename_i h; first | replace h := waitTokens_mem _ _ _ _ h | (replace h := congrArg (fun o => o.st.mem) h; simp [*] at h) | (replace h := congrArg (fun o => o.2.st.mem) h; simp [*] at h) | (replace h := congrArg (fun o => o.1.mem) h; simp [*] at h) | (replace h := congrArg (fun o => o.2.mem) h; simp [*] at h))) | split | split | with_reducible apply Out.mem_bind | intro _ | dsimp only)

theorem execLeaseGrant_mem (sp : BitVec 7) (s : State) :
    ∃ u₁, (execLeaseGrant sp s) = .next u₁ ∧ u₁.mem = s.mem := by
  unfold execLeaseGrant; refine ⟨_, rfl, ?_⟩; simp [*]

@[simp] theorem execLeaseRevoke_mem (sp : BitVec 7) (s : State) :
    ∃ u₁, (execLeaseRevoke sp s) = .next u₁ ∧ u₁.mem = s.mem := by
  unfold execLeaseRevoke; refine ⟨_, rfl, ?_⟩; simp [*]

@[simp] theorem State_mapArray_mem (s : State) (arr : BitVec 1) (f : ArraySt → ArraySt) :
    (State.mapArray s arr f).mem = s.mem := by
  unfold State.mapArray; simp [*]

@[simp] theorem wakeBands_mem (c : Cmd) (arr : BitVec 1) (s : State) :
    (wakeBands c arr s).st.mem = s.mem := by
  unfold wakeBands; (repeat' first | with_reducible rfl | with_reducible assumption | (simp [*]; done) | (split <;> try (rename_i h; first | replace h := waitTokens_mem _ _ _ _ h | (replace h := congrArg (fun o => o.st.mem) h; simp [*] at h) | (replace h := congrArg (fun o => o.2.st.mem) h; simp [*] at h) | (replace h := congrArg (fun o => o.1.mem) h; simp [*] at h) | (replace h := congrArg (fun o => o.2.mem) h; simp [*] at h))) | split | split | with_reducible apply Out.mem_bind | intro _ | dsimp only)

@[simp] theorem touchArray_mem (c : Cmd) (arr : BitVec 1) (s : State) :
    (touchArray c arr s).mem = s.mem := by
  unfold touchArray; simp [*]

theorem execBandGate_mem (sp : BitVec 7) (arr : BitVec 1) (j : BitVec 2) (s : State) :
    ∃ u₁, (execBandGate sp arr j s) = .next u₁ ∧ u₁.mem = s.mem := by
  unfold execBandGate; refine ⟨_, rfl, ?_⟩; (repeat' first | with_reducible rfl | with_reducible assumption | (simp [*]; done) | (split <;> try (rename_i h; first | replace h := waitTokens_mem _ _ _ _ h | (replace h := congrArg (fun o => o.st.mem) h; simp [*] at h) | (replace h := congrArg (fun o => o.2.st.mem) h; simp [*] at h) | (replace h := congrArg (fun o => o.1.mem) h; simp [*] at h) | (replace h := congrArg (fun o => o.2.mem) h; simp [*] at h))) | split | split | with_reducible apply Out.mem_bind | intro _ | dsimp only)

theorem execBandWakeDone_mem (sp : BitVec 7) (arr : BitVec 1) (j : BitVec 2) (s : State) :
    ∃ u₁, (execBandWakeDone sp arr j s) = .next u₁ ∧ u₁.mem = s.mem := by
  unfold execBandWakeDone; dsimp only; (repeat' first | (split <;> try (rename_i h; first | replace h := waitTokens_mem _ _ _ _ h | (replace h := congrArg (fun o => o.st.mem) h; simp [*] at h) | (replace h := congrArg (fun o => o.2.st.mem) h; simp [*] at h) | (replace h := congrArg (fun o => o.1.mem) h; simp [*] at h) | (replace h := congrArg (fun o => o.2.mem) h; simp [*] at h))) | split); all_goals (refine ⟨_, rfl, ?_⟩; (repeat' first | with_reducible rfl | with_reducible assumption | (simp [*]; done) | (split <;> try (rename_i h; first | replace h := waitTokens_mem _ _ _ _ h | (replace h := congrArg (fun o => o.st.mem) h; simp [*] at h) | (replace h := congrArg (fun o => o.2.st.mem) h; simp [*] at h) | (replace h := congrArg (fun o => o.1.mem) h; simp [*] at h) | (replace h := congrArg (fun o => o.2.mem) h; simp [*] at h))) | split | split | with_reducible apply Out.mem_bind | intro _ | dsimp only))

@[simp] theorem bandsLive_mem (c : Cmd) (arr : BitVec 1) (s : State) :
    (bandsLive c arr s).st.mem = s.mem := by
  unfold bandsLive; (repeat' first | with_reducible rfl | with_reducible assumption | (simp [*]; done) | (split <;> try (rename_i h; first | replace h := waitTokens_mem _ _ _ _ h | (replace h := congrArg (fun o => o.st.mem) h; simp [*] at h) | (replace h := congrArg (fun o => o.2.st.mem) h; simp [*] at h) | (replace h := congrArg (fun o => o.1.mem) h; simp [*] at h) | (replace h := congrArg (fun o => o.2.mem) h; simp [*] at h))) | split | split | with_reducible apply Out.mem_bind | intro _ | dsimp only)

@[simp] theorem tileRowsLive_mem (t : BitVec 4) (cfg : W32) (s : State) :
    (tileRowsLive t cfg s).st.mem = s.mem := by
  unfold tileRowsLive; simp [*]

@[simp] theorem bookCheck_mem (cfg : W32) (s : State) :
    (bookCheck cfg s).st.mem = s.mem := by
  unfold bookCheck; (repeat' first | with_reducible rfl | with_reducible assumption | (simp [*]; done) | (split <;> try (rename_i h; first | replace h := waitTokens_mem _ _ _ _ h | (replace h := congrArg (fun o => o.st.mem) h; simp [*] at h) | (replace h := congrArg (fun o => o.2.st.mem) h; simp [*] at h) | (replace h := congrArg (fun o => o.1.mem) h; simp [*] at h) | (replace h := congrArg (fun o => o.2.mem) h; simp [*] at h))) | split | split | with_reducible apply Out.mem_bind | intro _ | dsimp only)

@[simp] theorem accRowsLive_mem (arr : BitVec 1) (a : BitVec 3) (rows : List Nat) (s : State) :
    (accRowsLive arr a rows s).st.mem = s.mem := by
  unfold accRowsLive; (repeat' first | with_reducible rfl | with_reducible assumption | (simp [*]; done) | (split <;> try (rename_i h; first | replace h := waitTokens_mem _ _ _ _ h | (replace h := congrArg (fun o => o.st.mem) h; simp [*] at h) | (replace h := congrArg (fun o => o.2.st.mem) h; simp [*] at h) | (replace h := congrArg (fun o => o.1.mem) h; simp [*] at h) | (replace h := congrArg (fun o => o.2.mem) h; simp [*] at h))) | split | split | with_reducible apply Out.mem_bind | intro _ | dsimp only)

@[simp] theorem tileInStep_mem (v : Tile) (t : BitVec 4) (cfg : W32) (b : Nat) (s : State) :
    (tileInStep v t cfg b s).st.mem = s.mem := by
  unfold tileInStep; (repeat' first | with_reducible rfl | with_reducible assumption | (simp [*]; done) | (split <;> try (rename_i h; first | replace h := waitTokens_mem _ _ _ _ h | (replace h := congrArg (fun o => o.st.mem) h; simp [*] at h) | (replace h := congrArg (fun o => o.2.st.mem) h; simp [*] at h) | (replace h := congrArg (fun o => o.1.mem) h; simp [*] at h) | (replace h := congrArg (fun o => o.2.mem) h; simp [*] at h))) | split | split | with_reducible apply Out.mem_bind | rw [atUnit_mem] | rw [atLane_mem] | intro _ | dsimp only)

@[simp] theorem weightsInStep_mem (c : Cmd) (arr : BitVec 1) (b : Nat) (s : State) :
    (weightsInStep c arr b s).st.mem = s.mem := by
  unfold weightsInStep; (repeat' first | with_reducible rfl | with_reducible assumption | (simp [*]; done) | (split <;> try (rename_i h; first | replace h := waitTokens_mem _ _ _ _ h | (replace h := congrArg (fun o => o.st.mem) h; simp [*] at h) | (replace h := congrArg (fun o => o.2.st.mem) h; simp [*] at h) | (replace h := congrArg (fun o => o.1.mem) h; simp [*] at h) | (replace h := congrArg (fun o => o.2.mem) h; simp [*] at h))) | split | split | with_reducible apply Out.mem_bind | intro _ | dsimp only)

@[simp] theorem applyUnit_mem (arr : BitVec 1) (a : BitVec 3) (rows : Nat) (clear : Bool) (cols : Nat → Bool) (f : Nat → Nat → W32 → W32 × BitVec 8) (c : Cmd) (s : State) :
    (applyUnit arr a rows clear cols f c s).st.mem = s.mem := by
  unfold applyUnit; simp [*]

@[simp] theorem wakeItems_mem (t : BitVec 4) (arr : BitVec 1) (a : BitVec 3) (s : State) :
    (wakeItems t arr a s).st.mem = s.mem := by
  unfold wakeItems; (repeat' first | with_reducible rfl | with_reducible assumption | (simp [*]; done) | (split <;> try (rename_i h; first | replace h := waitTokens_mem _ _ _ _ h | (replace h := congrArg (fun o => o.st.mem) h; simp [*] at h) | (replace h := congrArg (fun o => o.2.st.mem) h; simp [*] at h) | (replace h := congrArg (fun o => o.1.mem) h; simp [*] at h) | (replace h := congrArg (fun o => o.2.mem) h; simp [*] at h))) | split | split | with_reducible apply Out.mem_bind | intro _ | dsimp only)

@[simp] theorem killAtEnd_mem (l : BitVec 1) (t : BitVec 4) (c : Cmd) (s : State) :
    (killAtEnd l t c s).st.mem = s.mem := by
  unfold killAtEnd; (repeat' first | with_reducible rfl | with_reducible assumption | (simp [*]; done) | (split <;> try (rename_i h; first | replace h := waitTokens_mem _ _ _ _ h | (replace h := congrArg (fun o => o.st.mem) h; simp [*] at h) | (replace h := congrArg (fun o => o.2.st.mem) h; simp [*] at h) | (replace h := congrArg (fun o => o.1.mem) h; simp [*] at h) | (replace h := congrArg (fun o => o.2.mem) h; simp [*] at h))) | split | split | with_reducible apply Out.mem_bind | intro _ | dsimp only)

@[simp] theorem setWeights_mem (c : Cmd) (arr : BitVec 1) (ws : WeightSet) (s : State) :
    (setWeights c arr ws s).mem = s.mem := by
  unfold setWeights; simp [*]

@[simp] theorem mwldUnit_mem (arr : BitVec 1) (t : BitVec 4) (c : Cmd) (s : State) :
    (mwldUnit arr t c s).st.mem = s.mem := by
  unfold mwldUnit; (repeat' first | with_reducible rfl | with_reducible assumption | (simp [*]; done) | (split <;> try (rename_i h; first | replace h := waitTokens_mem _ _ _ _ h | (replace h := congrArg (fun o => o.st.mem) h; simp [*] at h) | (replace h := congrArg (fun o => o.2.st.mem) h; simp [*] at h) | (replace h := congrArg (fun o => o.1.mem) h; simp [*] at h) | (replace h := congrArg (fun o => o.2.mem) h; simp [*] at h))) | split | split | with_reducible apply Out.mem_bind | intro _ | dsimp only)

theorem execMwld_mem (w : Tok) (r : BitVec 1) (t : BitVec 4) (c : BitVec 6) (l : BitVec 1) (s : State) :
    ∃ u₁, (execMwld w r t c l s) = .next u₁ ∧ u₁.mem = s.mem := by
  unfold execMwld; (first | with_reducible apply sWord_mem | with_reducible apply sOnly_mem | with_reducible apply vWord_mem | with_reducible apply cmdWord_mem | with_reducible apply girderWord_mem | with_reducible apply plainWord_mem); all_goals (intros; simp [*]; done)

@[simp] theorem mmaUnit_mem (arr : BitVec 1) (a : BitVec 3) (t : BitVec 4) (z : BitVec 1) (c : Cmd) (s : State) :
    (mmaUnit arr a t z c s).st.mem = s.mem := by
  unfold mmaUnit; (repeat' first | with_reducible rfl | with_reducible assumption | (simp [*]; done) | (split <;> try (rename_i h; first | replace h := waitTokens_mem _ _ _ _ h | (replace h := congrArg (fun o => o.st.mem) h; simp [*] at h) | (replace h := congrArg (fun o => o.2.st.mem) h; simp [*] at h) | (replace h := congrArg (fun o => o.1.mem) h; simp [*] at h) | (replace h := congrArg (fun o => o.2.mem) h; simp [*] at h))) | split | split | with_reducible apply Out.mem_bind | rw [atUnit_mem] | rw [atLane_mem] | intro _ | dsimp only)

theorem execMma_mem (w : Tok) (r : BitVec 1) (a : BitVec 3) (t : BitVec 4) (c : BitVec 6) (z l : BitVec 1) (s : State) :
    ∃ u₁, (execMma w r a t c z l s) = .next u₁ ∧ u₁.mem = s.mem := by
  unfold execMma; (first | with_reducible apply sWord_mem | with_reducible apply sOnly_mem | with_reducible apply vWord_mem | with_reducible apply cmdWord_mem | with_reducible apply girderWord_mem | with_reducible apply plainWord_mem); all_goals (intros; simp [*]; done)

@[simp] theorem readGain_mem (c : Cmd) (i : Nat) (s : State) :
    (readGain c i s).st.mem = s.mem := by
  unfold readGain; (repeat' first | with_reducible rfl | with_reducible assumption | (simp [*]; done) | (split <;> try (rename_i h; first | replace h := waitTokens_mem _ _ _ _ h | (replace h := congrArg (fun o => o.st.mem) h; simp [*] at h) | (replace h := congrArg (fun o => o.2.st.mem) h; simp [*] at h) | (replace h := congrArg (fun o => o.1.mem) h; simp [*] at h) | (replace h := congrArg (fun o => o.2.mem) h; simp [*] at h))) | split | split | with_reducible apply Out.mem_bind | rw [atUnit_mem] | rw [atLane_mem] | intro _ | dsimp only)

@[simp] theorem readGains_mem (c : Cmd) (s : State) :
    (readGains c s).st.mem = s.mem := by
  unfold readGains; (repeat' first | with_reducible rfl | with_reducible assumption | (simp [*]; done) | (split <;> try (rename_i h; first | replace h := waitTokens_mem _ _ _ _ h | (replace h := congrArg (fun o => o.st.mem) h; simp [*] at h) | (replace h := congrArg (fun o => o.2.st.mem) h; simp [*] at h) | (replace h := congrArg (fun o => o.1.mem) h; simp [*] at h) | (replace h := congrArg (fun o => o.2.mem) h; simp [*] at h))) | split | split | with_reducible apply Out.mem_bind | intro _ | dsimp only)

@[simp] theorem slabUnit_mem (arr : BitVec 1) (a : BitVec 3) (t : BitVec 4) (z : BitVec 1) (c : Cmd) (s : State) :
    (slabUnit arr a t z c s).st.mem = s.mem := by
  unfold slabUnit; (repeat' first | with_reducible rfl | with_reducible assumption | (simp [*]; done) | (split <;> try (rename_i h; first | replace h := waitTokens_mem _ _ _ _ h | (replace h := congrArg (fun o => o.st.mem) h; simp [*] at h) | (replace h := congrArg (fun o => o.2.st.mem) h; simp [*] at h) | (replace h := congrArg (fun o => o.1.mem) h; simp [*] at h) | (replace h := congrArg (fun o => o.2.mem) h; simp [*] at h))) | split | split | with_reducible apply Out.mem_bind | rw [atUnit_mem] | rw [atLane_mem] | intro _ | dsimp only)

@[simp] theorem mmaidUnit_mem (arr : BitVec 1) (a : BitVec 3) (t : BitVec 4) (z : BitVec 1) (c : Cmd) (s : State) :
    (mmaidUnit arr a t z c s).st.mem = s.mem := by
  unfold mmaidUnit; (repeat' first | with_reducible rfl | with_reducible assumption | (simp [*]; done) | (split <;> try (rename_i h; first | replace h := waitTokens_mem _ _ _ _ h | (replace h := congrArg (fun o => o.st.mem) h; simp [*] at h) | (replace h := congrArg (fun o => o.2.st.mem) h; simp [*] at h) | (replace h := congrArg (fun o => o.1.mem) h; simp [*] at h) | (replace h := congrArg (fun o => o.2.mem) h; simp [*] at h))) | split | split | with_reducible apply Out.mem_bind | intro _ | dsimp only)

theorem execMmaid_mem (w : Tok) (r : BitVec 1) (a : BitVec 3) (t : BitVec 4) (c : BitVec 6) (z l : BitVec 1) (s : State) :
    ∃ u₁, (execMmaid w r a t c z l s) = .next u₁ ∧ u₁.mem = s.mem := by
  unfold execMmaid; (first | with_reducible apply sWord_mem | with_reducible apply sOnly_mem | with_reducible apply vWord_mem | with_reducible apply cmdWord_mem | with_reducible apply girderWord_mem | with_reducible apply plainWord_mem); all_goals (intros; simp [*]; done)

@[simp] theorem mma32Unit_mem (arr : BitVec 1) (a : BitVec 3) (t u : BitVec 4) (z : BitVec 1) (c : Cmd) (s : State) :
    (mma32Unit arr a t u z c s).st.mem = s.mem := by
  unfold mma32Unit; (repeat' first | with_reducible rfl | with_reducible assumption | (simp [*]; done) | (split <;> try (rename_i h; first | replace h := waitTokens_mem _ _ _ _ h | (replace h := congrArg (fun o => o.st.mem) h; simp [*] at h) | (replace h := congrArg (fun o => o.2.st.mem) h; simp [*] at h) | (replace h := congrArg (fun o => o.1.mem) h; simp [*] at h) | (replace h := congrArg (fun o => o.2.mem) h; simp [*] at h))) | split | split | with_reducible apply Out.mem_bind | intro _ | dsimp only)

theorem execMma32_mem (w : Tok) (r : BitVec 1) (a : BitVec 3) (t : BitVec 4) (c : BitVec 6) (z l : BitVec 1) (u : BitVec 4) (s : State) :
    ∃ u₁, (execMma32 w r a t c z l u s) = .next u₁ ∧ u₁.mem = s.mem := by
  unfold execMma32; (first | with_reducible apply sWord_mem | with_reducible apply sOnly_mem | with_reducible apply vWord_mem | with_reducible apply cmdWord_mem | with_reducible apply girderWord_mem | with_reducible apply plainWord_mem); all_goals (intros; simp [*]; done)

@[simp] theorem mzeroUnit_mem (arr : BitVec 1) (a : BitVec 3) (c : Cmd) (s : State) :
    (mzeroUnit arr a c s).st.mem = s.mem := by
  unfold mzeroUnit; (repeat' first | with_reducible rfl | with_reducible assumption | (simp [*]; done) | (split <;> try (rename_i h; first | replace h := waitTokens_mem _ _ _ _ h | (replace h := congrArg (fun o => o.st.mem) h; simp [*] at h) | (replace h := congrArg (fun o => o.2.st.mem) h; simp [*] at h) | (replace h := congrArg (fun o => o.1.mem) h; simp [*] at h) | (replace h := congrArg (fun o => o.2.mem) h; simp [*] at h))) | split | split | with_reducible apply Out.mem_bind | intro _ | dsimp only)

theorem execMzero_mem (w : Tok) (r : BitVec 1) (a : BitVec 3) (c : BitVec 6) (s : State) :
    ∃ u₁, (execMzero w r a c s) = .next u₁ ∧ u₁.mem = s.mem := by
  unfold execMzero; (first | with_reducible apply sWord_mem | with_reducible apply sOnly_mem | with_reducible apply vWord_mem | with_reducible apply cmdWord_mem | with_reducible apply girderWord_mem | with_reducible apply plainWord_mem); all_goals (intros; simp [*]; done)

end Sys2Proof.Machine
end

