-- ==== Sys2Proof/Laws/KeepLadder.lean ====
section
/-! SUPPORT. What the definitions of Machine/Ladder.lean keep of memory: its bytes, or its canonical form
(R17). -/

set_option maxRecDepth 2000
set_option linter.all false

namespace Sys2Proof.Machine

@[simp] theorem serveLadder_mem (arr : BitVec 1) (s : State) :
    (serveLadder arr s).mem = s.mem := by
  unfold serveLadder; simp [*]

@[simp] theorem ladderGate_mem (arr : BitVec 1) (s : State) :
    (ladderGate arr s).st.mem = s.mem := by
  unfold ladderGate; (repeat' first | with_reducible rfl | with_reducible assumption | (simp [*]; done) | (split <;> try (rename_i h; first | replace h := waitTokens_mem _ _ _ _ h | (replace h := congrArg (fun o => o.st.mem) h; simp [*] at h) | (replace h := congrArg (fun o => o.2.st.mem) h; simp [*] at h) | (replace h := congrArg (fun o => o.1.mem) h; simp [*] at h) | (replace h := congrArg (fun o => o.2.mem) h; simp [*] at h))) | split | split | with_reducible apply Out.mem_bind | intro _ | dsimp only)

@[simp] theorem ladderBack_mem (s : State) :
    (ladderBack s).st.mem = s.mem := by
  unfold ladderBack; (repeat' first | with_reducible rfl | with_reducible assumption | (simp [*]; done) | (split <;> try (rename_i h; first | replace h := waitTokens_mem _ _ _ _ h | (replace h := congrArg (fun o => o.st.mem) h; simp [*] at h) | (replace h := congrArg (fun o => o.2.st.mem) h; simp [*] at h) | (replace h := congrArg (fun o => o.1.mem) h; simp [*] at h) | (replace h := congrArg (fun o => o.2.mem) h; simp [*] at h))) | split | split | with_reducible apply Out.mem_bind | intro _ | dsimp only)

@[simp] theorem ladderWord_mem (arr : BitVec 1) (w : Tok) (need : Nat) (n : BitVec 6) (latch copies : State → Cmd → Cmd)
    (check : State → Cmd → Option Flt) (total : Cmd → Nat) (unit close : Cmd → State → Out Cmd) (s : State)
    (hu : ∀ c t, (unit c t).st.mem = t.mem) (hc : ∀ c t, (close c t).st.mem = t.mem) :
    ∃ t, ladderWord arr w need n latch copies check total unit close s = .next t ∧ t.mem = s.mem :=
  cmdWord_mem _ _ _ _ _ _ _ _ _ _ _ _ _ _ _ (fun t => by simp) (fun t => by simp) (fun t => by simp) (fun _ => rfl) hu hc

@[simp] theorem ladderWord_wf (arr : BitVec 1) (w : Tok) (need : Nat) (n : BitVec 6) (latch copies : State → Cmd → Cmd)
    (check : State → Cmd → Option Flt) (total : Cmd → Nat) (unit close : Cmd → State → Out Cmd) (s : State)
    (hu : ∀ c t, t.mem.wf = true → (unit c t).st.mem.wf = true) (hc : ∀ c t, t.mem.wf = true → (close c t).st.mem.wf = true)
    (hs : s.mem.wf = true) :
    ∃ t, ladderWord arr w need n latch copies check total unit close s = .next t ∧ t.mem.wf = true :=
  cmdWord_wf _ _ _ _ _ _ _ _ _ _ _ _ _ _ _ (fun t => by simp) (fun t => by simp) (fun t => by simp) (fun _ => rfl) hu hc hs

theorem execKnop_mem (w : Tok) (s : State) :
    ∃ u₁, (execKnop w s) = .next u₁ ∧ u₁.mem = s.mem := by
  unfold execKnop; (first | with_reducible apply sWord_mem | with_reducible apply sOnly_mem | with_reducible apply vWord_mem | with_reducible apply cmdWord_mem | with_reducible apply girderWord_mem | with_reducible apply ladderWord_mem | with_reducible apply plainWord_mem); all_goals (intros; simp [*]; done)

@[simp] theorem readRows_go_mem (o : BitVec 24) (l : List Nat) (s : State) : (readRows.go o l s).st.mem = s.mem := by
  induction l generalizing s with
  | nil => rfl
  | cons i l ih =>
    unfold readRows.go
    apply Out.mem_bind _ _ _ (by simp)
    intro _ t ht
    rw [← ht]
    simp [ih]

@[simp] theorem readRows_mem (o : BitVec 24) (n : Nat) (s : State) : (readRows o n s).st.mem = s.mem := by
  unfold readRows
  split <;> simp

@[simp] theorem kloadUnit_mem (arr : BitVec 1) (slot : BitVec 2) (c : Cmd) (s : State) :
    (kloadUnit arr slot c s).st.mem = s.mem := by
  unfold kloadUnit; (repeat' first | with_reducible rfl | with_reducible assumption | (simp [*]; done) | (split <;> try (rename_i h; first | replace h := waitTokens_mem _ _ _ _ h | (replace h := congrArg (fun o => o.st.mem) h; simp [*] at h) | (replace h := congrArg (fun o => o.2.st.mem) h; simp [*] at h) | (replace h := congrArg (fun o => o.1.mem) h; simp [*] at h) | (replace h := congrArg (fun o => o.2.mem) h; simp [*] at h))) | split | split | with_reducible apply Out.mem_bind | intro _ | dsimp only)

theorem execKload_mem (w : Tok) (r : BitVec 1) (k : BitVec 2) (c : BitVec 6) (s : State) :
    ∃ u₁, (execKload w r k c s) = .next u₁ ∧ u₁.mem = s.mem := by
  unfold execKload; (first | with_reducible apply sWord_mem | with_reducible apply sOnly_mem | with_reducible apply vWord_mem | with_reducible apply cmdWord_mem | with_reducible apply girderWord_mem | with_reducible apply ladderWord_mem | with_reducible apply plainWord_mem); all_goals (intros; simp [*]; done)

@[simp] theorem readWords_mem (a : W64) (m : Nat) (s : State) :
    (readWords a m s).st.mem = s.mem := by
  unfold readWords; (repeat' first | with_reducible rfl | with_reducible assumption | (simp [*]; done) | (split <;> try (rename_i h; first | replace h := waitTokens_mem _ _ _ _ h | (replace h := congrArg (fun o => o.st.mem) h; simp [*] at h) | (replace h := congrArg (fun o => o.2.st.mem) h; simp [*] at h) | (replace h := congrArg (fun o => o.1.mem) h; simp [*] at h) | (replace h := congrArg (fun o => o.2.mem) h; simp [*] at h))) | split | split | with_reducible apply Out.mem_bind | intro _ | dsimp only)

@[simp] theorem kpatchUnit_mem (arr : BitVec 1) (slot : BitVec 2) (c : Cmd) (s : State) :
    (kpatchUnit arr slot c s).st.mem = s.mem := by
  unfold kpatchUnit; (repeat' first | with_reducible rfl | with_reducible assumption | (simp [*]; done) | (split <;> try (rename_i h; first | replace h := waitTokens_mem _ _ _ _ h | (replace h := congrArg (fun o => o.st.mem) h; simp [*] at h) | (replace h := congrArg (fun o => o.2.st.mem) h; simp [*] at h) | (replace h := congrArg (fun o => o.1.mem) h; simp [*] at h) | (replace h := congrArg (fun o => o.2.mem) h; simp [*] at h))) | split | split | with_reducible apply Out.mem_bind | intro _ | dsimp only)

theorem execKpatch_mem (w : Tok) (r : BitVec 1) (k : BitVec 2) (c : BitVec 6) (s : State) :
    ∃ u₁, (execKpatch w r k c s) = .next u₁ ∧ u₁.mem = s.mem := by
  unfold execKpatch; (first | with_reducible apply sWord_mem | with_reducible apply sOnly_mem | with_reducible apply vWord_mem | with_reducible apply cmdWord_mem | with_reducible apply girderWord_mem | with_reducible apply ladderWord_mem | with_reducible apply plainWord_mem); all_goals (intros; simp [*]; done)

@[simp] theorem kgainUnit_mem (arr : BitVec 1) (c : Cmd) (s : State) :
    (kgainUnit arr c s).st.mem = s.mem := by
  unfold kgainUnit; (repeat' first | with_reducible rfl | with_reducible assumption | (simp [*]; done) | (split <;> try (rename_i h; first | replace h := waitTokens_mem _ _ _ _ h | (replace h := congrArg (fun o => o.st.mem) h; simp [*] at h) | (replace h := congrArg (fun o => o.2.st.mem) h; simp [*] at h) | (replace h := congrArg (fun o => o.1.mem) h; simp [*] at h) | (replace h := congrArg (fun o => o.2.mem) h; simp [*] at h))) | split | split | with_reducible apply Out.mem_bind | intro _ | dsimp only)

theorem execKgain_mem (w : Tok) (r : BitVec 1) (c : BitVec 6) (s : State) :
    ∃ u₁, (execKgain w r c s) = .next u₁ ∧ u₁.mem = s.mem := by
  unfold execKgain; (first | with_reducible apply sWord_mem | with_reducible apply sOnly_mem | with_reducible apply vWord_mem | with_reducible apply cmdWord_mem | with_reducible apply girderWord_mem | with_reducible apply ladderWord_mem | with_reducible apply plainWord_mem); all_goals (intros; simp [*]; done)

@[simp] theorem khistUnit_mem (arr : BitVec 1) (c : Cmd) (s : State) :
    (khistUnit arr c s).st.mem = s.mem := by
  unfold khistUnit; simp [*]

theorem execKhist_mem (w : Tok) (r : BitVec 1) (c : BitVec 6) (s : State) :
    ∃ u₁, (execKhist w r c s) = .next u₁ ∧ u₁.mem = s.mem := by
  unfold execKhist; (first | with_reducible apply sWord_mem | with_reducible apply sOnly_mem | with_reducible apply vWord_mem | with_reducible apply cmdWord_mem | with_reducible apply girderWord_mem | with_reducible apply ladderWord_mem | with_reducible apply plainWord_mem); all_goals (intros; simp [*]; done)

@[simp] theorem koutWrite_wf (k : KoutForm) (r : Nat) (codes : List (Nat × Bool)) (c : Cmd) (s : State) (hw : s.mem.wf = true) :
    (koutWrite k r codes c s).st.mem.wf = true := by
  unfold koutWrite; (repeat' first | (simp [*, Memory.wf_putRow, Memory.wf_putNat, Memory.wf_put, Memory.wf_filter, wholeOr_wf]; done) | (split <;> try (rename_i h; first | replace h := waitTokens_mem _ _ _ _ h | (replace h := congrArg (fun o => o.st.mem.wf) h; simp [*] at h) | (replace h := congrArg (fun o => o.2.st.mem.wf) h; simp [*] at h) | (replace h := congrArg (fun o => o.1.mem.wf) h; simp [*] at h) | (replace h := congrArg (fun o => o.2.mem.wf) h; simp [*] at h))) | split | split | with_reducible apply Out.wf_bind | intro _ | dsimp only)

@[simp] theorem accRead_mem (arr : BitVec 1) (a : BitVec 3) (r : Nat) (s : State) :
    (accRead arr a r s).st.mem = s.mem := by
  unfold accRead; (repeat' first | with_reducible rfl | with_reducible assumption | (simp [*]; done) | (split <;> try (rename_i h; first | replace h := waitTokens_mem _ _ _ _ h | (replace h := congrArg (fun o => o.st.mem) h; simp [*] at h) | (replace h := congrArg (fun o => o.2.st.mem) h; simp [*] at h) | (replace h := congrArg (fun o => o.1.mem) h; simp [*] at h) | (replace h := congrArg (fun o => o.2.mem) h; simp [*] at h))) | split | split | with_reducible apply Out.mem_bind | intro _ | dsimp only)

@[simp] theorem koutUnit_wf (k : KoutForm) (c : Cmd) (s : State) (hw : s.mem.wf = true) :
    (koutUnit k c s).st.mem.wf = true := by
  unfold koutUnit; (repeat' first | (simp [*, Memory.wf_putRow, Memory.wf_putNat, Memory.wf_put, Memory.wf_filter, wholeOr_wf]; done) | (split <;> try (rename_i h; first | replace h := waitTokens_mem _ _ _ _ h | (replace h := congrArg (fun o => o.st.mem.wf) h; simp [*] at h) | (replace h := congrArg (fun o => o.2.st.mem.wf) h; simp [*] at h) | (replace h := congrArg (fun o => o.1.mem.wf) h; simp [*] at h) | (replace h := congrArg (fun o => o.2.mem.wf) h; simp [*] at h))) | split | split | with_reducible apply Out.wf_bind | intro _ | dsimp only)

@[simp] theorem koutClose_mem (k : KoutForm) (la : BitVec 1) (c : Cmd) (s : State) :
    (koutClose k la c s).st.mem = s.mem := by
  unfold koutClose; (repeat' first | with_reducible rfl | with_reducible assumption | (simp [*]; done) | (split <;> try (rename_i h; first | replace h := waitTokens_mem _ _ _ _ h | (replace h := congrArg (fun o => o.st.mem) h; simp [*] at h) | (replace h := congrArg (fun o => o.2.st.mem) h; simp [*] at h) | (replace h := congrArg (fun o => o.1.mem) h; simp [*] at h) | (replace h := congrArg (fun o => o.2.mem) h; simp [*] at h))) | split | split | with_reducible apply Out.mem_bind | intro _ | dsimp only)

theorem koutWord_wf (k : KoutForm) (w : Tok) (need : Nat) (c : BitVec 6) (la : BitVec 1) (s : State) (hw : s.mem.wf = true) :
    ∃ t, koutWord k w need c la s = .next t ∧ t.mem.wf = true :=
  ladderWord_wf _ _ _ _ _ _ _ _ _ _ _ (fun c t ht => by simp [ht]) (fun c t ht => by simp [ht]) hw

theorem execKout_wf (w : Tok) (r : BitVec 1) (k : BitVec 2) (a : BitVec 3) (t : BitVec 4) (c : BitVec 6) (l y : BitVec 1)
    (s : State) (hw : s.mem.wf = true) : ∃ u₁, execKout w r k a t c l y s = .next u₁ ∧ u₁.mem.wf = true := koutWord_wf _ _ _ _ _ _ hw

theorem execKoutD_wf (w : Tok) (r : BitVec 1) (k : BitVec 2) (a : BitVec 3) (c : BitVec 6) (l y : BitVec 1)
    (s : State) (hw : s.mem.wf = true) : ∃ u₁, execKoutD w r k a c l y s = .next u₁ ∧ u₁.mem.wf = true := koutWord_wf _ _ _ _ _ _ hw

@[simp] theorem writeRows_wf (a0 : List (BitVec 24 × BitVec 128 × Row)) (a1 : State) (hw : a1.mem.wf = true) :
    (writeRows a0 a1).st.mem.wf = true := by
  induction a0 generalizing a1 <;> (unfold writeRows; (repeat' first | (simp [*, Memory.wf_putRow, Memory.wf_putNat, Memory.wf_put, Memory.wf_filter, wholeOr_wf]; done) | (split <;> try (rename_i h; first | replace h := waitTokens_mem _ _ _ _ h | (replace h := congrArg (fun o => o.st.mem.wf) h; simp [*] at h) | (replace h := congrArg (fun o => o.2.st.mem.wf) h; simp [*] at h) | (replace h := congrArg (fun o => o.1.mem.wf) h; simp [*] at h) | (replace h := congrArg (fun o => o.2.mem.wf) h; simp [*] at h))) | split | split | with_reducible apply Out.wf_bind | intro _ | dsimp only))

@[simp] theorem readyRows_mem (a0 : List (BitVec 24 × BitVec 128 × Row)) (a1 : State) :
    (readyRows a0 a1).st.mem = a1.mem := by
  induction a0 generalizing a1 <;> (unfold readyRows; (repeat' first | with_reducible rfl | with_reducible assumption | (simp [*]; done) | (split <;> try (rename_i h; first | replace h := waitTokens_mem _ _ _ _ h | (replace h := congrArg (fun o => o.st.mem) h; simp [*] at h) | (replace h := congrArg (fun o => o.2.st.mem) h; simp [*] at h) | (replace h := congrArg (fun o => o.1.mem) h; simp [*] at h) | (replace h := congrArg (fun o => o.2.mem) h; simp [*] at h))) | split | split | with_reducible apply Out.mem_bind | intro _ | dsimp only))

@[simp] theorem mstatUnit_wf (arr : BitVec 1) (a : BitVec 3) (c : Cmd) (s : State) (hw : s.mem.wf = true) :
    (mstatUnit arr a c s).st.mem.wf = true := by
  unfold mstatUnit; (repeat' first | (simp [*, Memory.wf_putRow, Memory.wf_putNat, Memory.wf_put, Memory.wf_filter, wholeOr_wf]; done) | (split <;> try (rename_i h; first | replace h := waitTokens_mem _ _ _ _ h | (replace h := congrArg (fun o => o.st.mem.wf) h; simp [*] at h) | (replace h := congrArg (fun o => o.2.st.mem.wf) h; simp [*] at h) | (replace h := congrArg (fun o => o.1.mem.wf) h; simp [*] at h) | (replace h := congrArg (fun o => o.2.mem.wf) h; simp [*] at h))) | split | split | with_reducible apply Out.wf_bind | intro _ | dsimp only)

theorem execMstat_wf (w : Tok) (r : BitVec 1) (a : BitVec 3) (c : BitVec 6) (s : State) (hw : s.mem.wf = true) :
    ∃ u₁, (execMstat w r a c s) = .next u₁ ∧ u₁.mem.wf = true := by
  unfold execMstat; (first | with_reducible apply sWord_wf | with_reducible apply sOnly_wf | with_reducible apply vWord_wf | with_reducible apply cmdWord_wf | with_reducible apply girderWord_wf | with_reducible apply ladderWord_wf); all_goals (intros; simp [*, Memory.wf_putRow, Memory.wf_putNat, Memory.wf_put, Memory.wf_filter, wholeOr_wf]; done)

end Sys2Proof.Machine
end

