-- ==== Sys2Proof/Laws/KeepAttention.lean ====
section
/-! SUPPORT. What the definitions of Machine/Attention.lean keep of memory: its bytes, or its canonical form
(R17). -/

set_option maxRecDepth 2000
set_option linter.all false

namespace Sys2Proof.Machine

@[simp] theorem smscfgUnit_mem (k : BitVec 2) (c : Cmd) (s : State) :
    (smscfgUnit k c s).st.mem = s.mem := by
  unfold smscfgUnit; simp [*]

theorem execSmscfg_mem (w : Tok) (k : BitVec 2) (c : BitVec 6) (s : State) :
    ∃ u₁, (execSmscfg w k c s) = .next u₁ ∧ u₁.mem = s.mem := by
  unfold execSmscfg; (first | with_reducible apply sWord_mem | with_reducible apply sOnly_mem | with_reducible apply vWord_mem | with_reducible apply cmdWord_mem | with_reducible apply girderWord_mem | with_reducible apply ladderWord_mem | with_reducible apply plainWord_mem); all_goals (intros; simp [*]; done)

@[simp] theorem smsrstUnit_mem (c : Cmd) (s : State) :
    (smsrstUnit c s).st.mem = s.mem := by
  unfold smsrstUnit; simp [*]

theorem execSmsrst_mem (w : Tok) (c : BitVec 6) (s : State) :
    ∃ u₁, (execSmsrst w c s) = .next u₁ ∧ u₁.mem = s.mem := by
  unfold execSmsrst; (first | with_reducible apply sWord_mem | with_reducible apply sOnly_mem | with_reducible apply vWord_mem | with_reducible apply cmdWord_mem | with_reducible apply girderWord_mem | with_reducible apply ladderWord_mem | with_reducible apply plainWord_mem); all_goals (intros; simp [*]; done)

@[simp] theorem mexpshUnit_mem (arr : BitVec 1) (a : BitVec 3) (c : Cmd) (s : State) :
    (mexpshUnit arr a c s).st.mem = s.mem := by
  unfold mexpshUnit; (repeat' first | with_reducible rfl | with_reducible assumption | (simp [*]; done) | (split <;> try (rename_i h; first | replace h := waitTokens_mem _ _ _ _ h | (replace h := congrArg (fun o => o.st.mem) h; simp [*] at h) | (replace h := congrArg (fun o => o.2.st.mem) h; simp [*] at h) | (replace h := congrArg (fun o => o.1.mem) h; simp [*] at h) | (replace h := congrArg (fun o => o.2.mem) h; simp [*] at h))) | split | split | with_reducible apply Out.mem_bind | intro _ | dsimp only)

theorem execMexpsh_mem (w : Tok) (r : BitVec 1) (a : BitVec 3) (c : BitVec 6) (s : State) :
    ∃ u₁, (execMexpsh w r a c s) = .next u₁ ∧ u₁.mem = s.mem := by
  unfold execMexpsh; (first | with_reducible apply sWord_mem | with_reducible apply sOnly_mem | with_reducible apply vWord_mem | with_reducible apply cmdWord_mem | with_reducible apply girderWord_mem | with_reducible apply ladderWord_mem | with_reducible apply plainWord_mem); all_goals (intros; simp [*]; done)

@[simp] theorem mattnArgs_mem (s : State) :
    (mattnArgs s).st.mem = s.mem := by
  unfold mattnArgs; (repeat' first | with_reducible rfl | with_reducible assumption | (simp [*]; done) | (split <;> try (rename_i h; first | replace h := waitTokens_mem _ _ _ _ h | (replace h := congrArg (fun o => o.st.mem) h; simp [*] at h) | (replace h := congrArg (fun o => o.2.st.mem) h; simp [*] at h) | (replace h := congrArg (fun o => o.1.mem) h; simp [*] at h) | (replace h := congrArg (fun o => o.2.mem) h; simp [*] at h))) | split | split | with_reducible apply Out.mem_bind | intro _ | dsimp only)

@[simp] theorem blocksInStep_mem (c : Cmd) (arr : BitVec 1) (cols : List Nat) (s : State) :
    (blocksInStep c arr cols s).st.mem = s.mem := by
  unfold blocksInStep; (repeat' first | with_reducible rfl | with_reducible assumption | (simp [*]; done) | (split <;> try (rename_i h; first | replace h := waitTokens_mem _ _ _ _ h | (replace h := congrArg (fun o => o.st.mem) h; simp [*] at h) | (replace h := congrArg (fun o => o.2.st.mem) h; simp [*] at h) | (replace h := congrArg (fun o => o.1.mem) h; simp [*] at h) | (replace h := congrArg (fun o => o.2.mem) h; simp [*] at h))) | split | split | with_reducible apply Out.mem_bind | rw [atUnit_mem] | rw [atLane_mem] | intro _ | dsimp only)

@[simp] theorem mattnRowChecks_mem (a : BitVec 3) (t : BitVec 4) (z : BitVec 1) (row : Nat) (c : Cmd) (s : State) :
    (mattnRowChecks a t z row c s).st.mem = s.mem := by
  unfold mattnRowChecks; (repeat' first | with_reducible rfl | with_reducible assumption | (simp [*]; done) | (split <;> try (rename_i h; first | replace h := waitTokens_mem _ _ _ _ h | (replace h := congrArg (fun o => o.st.mem) h; simp [*] at h) | (replace h := congrArg (fun o => o.2.st.mem) h; simp [*] at h) | (replace h := congrArg (fun o => o.1.mem) h; simp [*] at h) | (replace h := congrArg (fun o => o.2.mem) h; simp [*] at h))) | split | split | with_reducible apply Out.mem_bind | rw [atUnit_mem] | rw [atLane_mem] | intro _ | dsimp only)

@[simp] theorem attendRow_mem (a : BitVec 3) (t : BitVec 4) (z : BitVec 1) (row : Nat) (c : Cmd) (s : State) :
    (attendRow a t z row c s).2.mem = s.mem := by
  unfold attendRow; simp [*]

@[simp] theorem mattnUnit_mem (a : BitVec 3) (t : BitVec 4) (z : BitVec 1) (c : Cmd) (s : State) :
    (mattnUnit a t z c s).st.mem = s.mem := by
  unfold mattnUnit; (repeat' first | with_reducible rfl | with_reducible assumption | (simp [*]; done) | (split <;> try (rename_i h; first | replace h := waitTokens_mem _ _ _ _ h | (replace h := congrArg (fun o => o.st.mem) h; simp [*] at h) | (replace h := congrArg (fun o => o.2.st.mem) h; simp [*] at h) | (replace h := congrArg (fun o => o.1.mem) h; simp [*] at h) | (replace h := congrArg (fun o => o.2.mem) h; simp [*] at h))) | split | split | with_reducible apply Out.mem_bind | intro _ | dsimp only)

theorem execMattn_mem (w : Tok) (a : BitVec 3) (t : BitVec 4) (c : BitVec 6) (z l : BitVec 1) (s : State) :
    ∃ u₁, (execMattn w a t c z l s) = .next u₁ ∧ u₁.mem = s.mem := by
  unfold execMattn; (first | with_reducible apply sWord_mem | with_reducible apply sOnly_mem | with_reducible apply vWord_mem | with_reducible apply cmdWord_mem | with_reducible apply girderWord_mem | with_reducible apply ladderWord_mem | with_reducible apply plainWord_mem); all_goals (intros; simp [*]; done)

end Sys2Proof.Machine
end

