-- ==== Sys2Proof/Laws/KeepPier.lean ====
section
/-! SUPPORT. What the definitions of Machine/Pier.lean keep of memory: its bytes, or its canonical form
(R17). -/

set_option maxRecDepth 2000
set_option linter.all false

namespace Sys2Proof.Machine

@[simp] theorem pierWord_mem (w : Tok) (need : Nat) (c : BitVec 6) (r : BitVec 1) (check : Cmd → Option Flt)
    (total : Cmd → Nat) (unit close : Cmd → State → Out Cmd) (s : State)
    (hu : ∀ c t, (unit c t).st.mem = t.mem) (hc : ∀ c t, (close c t).st.mem = t.mem) :
    ∃ t, pierWord w need c r check total unit close s = .next t ∧ t.mem = s.mem :=
  cmdWord_mem _ _ _ _ _ _ _ _ _ _ _ _ _ _ _ (fun t => by simp) (fun t => by simp) (fun t => by simp) (fun _ => rfl) hu hc

@[simp] theorem pierWord_wf (w : Tok) (need : Nat) (c : BitVec 6) (r : BitVec 1) (check : Cmd → Option Flt)
    (total : Cmd → Nat) (unit close : Cmd → State → Out Cmd) (s : State)
    (hu : ∀ c t, t.mem.wf = true → (unit c t).st.mem.wf = true) (hc : ∀ c t, t.mem.wf = true → (close c t).st.mem.wf = true)
    (hs : s.mem.wf = true) :
    ∃ t, pierWord w need c r check total unit close s = .next t ∧ t.mem.wf = true :=
  cmdWord_wf _ _ _ _ _ _ _ _ _ _ _ _ _ _ _ (fun t => by simp) (fun t => by simp) (fun t => by simp) (fun _ => rfl) hu hc hs

@[simp] theorem pierTarget_mem (c : Cmd) (wr : Bool) (a : W64) (s : State) :
    (pierTarget c wr a s).st.mem = s.mem := by
  unfold pierTarget; (repeat' first | with_reducible rfl | with_reducible assumption | (simp [*]; done) | (split <;> try (rename_i h; first | replace h := waitTokens_mem _ _ _ _ h | (replace h := congrArg (fun o => o.st.mem) h; simp [*] at h) | (replace h := congrArg (fun o => o.2.st.mem) h; simp [*] at h) | (replace h := congrArg (fun o => o.1.mem) h; simp [*] at h) | (replace h := congrArg (fun o => o.2.mem) h; simp [*] at h))) | split | split | with_reducible apply Out.mem_bind | intro _ | dsimp only)

@[simp] theorem pierRead_mem (c : Cmd) (a : W64) (s : State) :
    (pierRead c a s).st.mem = s.mem := by
  unfold pierRead; (repeat' first | with_reducible rfl | with_reducible assumption | (simp [*]; done) | (split <;> try (rename_i h; first | replace h := waitTokens_mem _ _ _ _ h | (replace h := congrArg (fun o => o.st.mem) h; simp [*] at h) | (replace h := congrArg (fun o => o.2.st.mem) h; simp [*] at h) | (replace h := congrArg (fun o => o.1.mem) h; simp [*] at h) | (replace h := congrArg (fun o => o.2.mem) h; simp [*] at h))) | split | split | with_reducible apply Out.mem_bind | intro _ | dsimp only)

@[simp] theorem pierElem_mem (c : Cmd) (a : W64) (n : Nat) (s : State) :
    (pierElem c a n s).st.mem = s.mem := by
  unfold pierElem; simp [*]

@[simp] theorem pierTargets_mem (c : Cmd) (a0 : List (W64 × BitVec 128 × Row)) (a1 : State) :
    (pierTargets c a0 a1).st.mem = a1.mem := by
  induction a0 generalizing c a1 <;> (unfold pierTargets; (repeat' first | with_reducible rfl | with_reducible assumption | (simp [*]; done) | (split <;> try (rename_i h; first | replace h := waitTokens_mem _ _ _ _ h | (replace h := congrArg (fun o => o.st.mem) h; simp [*] at h) | (replace h := congrArg (fun o => o.2.st.mem) h; simp [*] at h) | (replace h := congrArg (fun o => o.1.mem) h; simp [*] at h) | (replace h := congrArg (fun o => o.2.mem) h; simp [*] at h))) | split | split | with_reducible apply Out.mem_bind | intro _ | dsimp only))

@[simp] theorem pierWrite_wf (c : Cmd) (rows : List (W64 × BitVec 128 × Row)) (s : State) (hw : s.mem.wf = true) :
    (pierWrite c rows s).st.mem.wf = true := by
  unfold pierWrite; (repeat' first | (simp [*, Memory.wf_putRow, Memory.wf_putNat, Memory.wf_put, Memory.wf_filter, wholeOr_wf]; done) | (split <;> try (rename_i h; first | replace h := waitTokens_mem _ _ _ _ h | (replace h := congrArg (fun o => o.st.mem.wf) h; simp [*] at h) | (replace h := congrArg (fun o => o.2.st.mem.wf) h; simp [*] at h) | (replace h := congrArg (fun o => o.1.mem.wf) h; simp [*] at h) | (replace h := congrArg (fun o => o.2.mem.wf) h; simp [*] at h))) | split | split | with_reducible apply Out.wf_bind | rw [atUnit_mem] | rw [atLane_mem] | intro _ | dsimp only)

theorem execQnop_mem (w : Tok) (s : State) :
    ∃ u₁, (execQnop w s) = .next u₁ ∧ u₁.mem = s.mem := by
  unfold execQnop; (first | with_reducible apply sWord_mem | with_reducible apply sOnly_mem | with_reducible apply vWord_mem | with_reducible apply cmdWord_mem | with_reducible apply pierWord_mem | with_reducible apply plainWord_mem); all_goals (intros; simp [*]; done)

@[simp] theorem readElem_mem (c : Cmd) (e : BitVec 2) (base : W64) (i : Nat) (s : State) :
    (readElem c e base i s).st.mem = s.mem := by
  unfold readElem; simp [*]

@[simp] theorem qscanUnit_mem (e : BitVec 2) (m : BitVec 3) (c : Cmd) (s : State) :
    (qscanUnit e m c s).st.mem = s.mem := by
  unfold qscanUnit; simp [*]

@[simp] theorem qscanClose_wf (ix : BitVec 1) (c : Cmd) (s : State) (hw : s.mem.wf = true) :
    (qscanClose ix c s).st.mem.wf = true := by
  unfold qscanClose; simp [*, Memory.wf_putRow, Memory.wf_putNat, Memory.wf_put, Memory.wf_filter, wholeOr_wf]

theorem execQscan_wf (w : Tok) (c : BitVec 6) (e : BitVec 2) (r : BitVec 1) (m : BitVec 3) (x : BitVec 1) (s : State) (hw : s.mem.wf = true) :
    ∃ u₁, (execQscan w c e r m x s) = .next u₁ ∧ u₁.mem.wf = true := by
  unfold execQscan; (first | with_reducible apply sWord_wf | with_reducible apply sOnly_wf | with_reducible apply vWord_wf | with_reducible apply cmdWord_wf | with_reducible apply pierWord_wf); all_goals (intros; simp [*, Memory.wf_putRow, Memory.wf_putNat, Memory.wf_put, Memory.wf_filter, wholeOr_wf]; done)

@[simp] theorem qtopkRead_mem (e : BitVec 2) (pairs : Bool) (c : Cmd) (s : State) :
    (qtopkRead e pairs c s).st.mem = s.mem := by
  unfold qtopkRead; (repeat' first | with_reducible rfl | with_reducible assumption | (simp [*]; done) | (split <;> try (rename_i h; first | replace h := waitTokens_mem _ _ _ _ h | (replace h := congrArg (fun o => o.st.mem) h; simp [*] at h) | (replace h := congrArg (fun o => o.2.st.mem) h; simp [*] at h) | (replace h := congrArg (fun o => o.1.mem) h; simp [*] at h) | (replace h := congrArg (fun o => o.2.mem) h; simp [*] at h))) | split | split | with_reducible apply Out.mem_bind | intro _ | dsimp only)

@[simp] theorem qtopkUnit_mem (e : BitVec 2) (p a : BitVec 1) (c : Cmd) (s : State) :
    (qtopkUnit e p a c s).st.mem = s.mem := by
  unfold qtopkUnit; simp [*]

@[simp] theorem qtopkClose_wf (c : Cmd) (s : State) (hw : s.mem.wf = true) :
    (qtopkClose c s).st.mem.wf = true := by
  unfold qtopkClose; simp [*, Memory.wf_putRow, Memory.wf_putNat, Memory.wf_put, Memory.wf_filter, wholeOr_wf]

theorem execQtopk_wf (w : Tok) (c : BitVec 6) (e : BitVec 2) (r p a : BitVec 1) (s : State) (hw : s.mem.wf = true) :
    ∃ u₁, (execQtopk w c e r p a s) = .next u₁ ∧ u₁.mem.wf = true := by
  unfold execQtopk; (first | with_reducible apply sWord_wf | with_reducible apply sOnly_wf | with_reducible apply vWord_wf | with_reducible apply cmdWord_wf | with_reducible apply pierWord_wf); all_goals (intros; simp [*, Memory.wf_putRow, Memory.wf_putNat, Memory.wf_put, Memory.wf_filter, wholeOr_wf]; done)

@[simp] theorem pierRows_mem (a : W64) (a0 : Cmd) (a1 : List Nat) (a2 : State) :
    (pierRows a a0 a1 a2).st.mem = a2.mem := by
  induction a1 generalizing a a0 a2 <;> (unfold pierRows; (repeat' first | with_reducible rfl | with_reducible assumption | (simp [*]; done) | (split <;> try (rename_i h; first | replace h := waitTokens_mem _ _ _ _ h | (replace h := congrArg (fun o => o.st.mem) h; simp [*] at h) | (replace h := congrArg (fun o => o.2.st.mem) h; simp [*] at h) | (replace h := congrArg (fun o => o.1.mem) h; simp [*] at h) | (replace h := congrArg (fun o => o.2.mem) h; simp [*] at h))) | split | split | with_reducible apply Out.mem_bind | rw [atUnit_mem] | rw [atLane_mem] | intro _ | dsimp only))

@[simp] theorem pierVector_mem (c : Cmd) (a : W64) (n d : Nat) (s : State) :
    (pierVector c a n d s).st.mem = s.mem := by
  unfold pierVector; simp [*]

@[simp] theorem redWeight_mem (g : BitVec 1) (c : Cmd) (s : State) :
    (redWeight g c s).st.mem = s.mem := by
  unfold redWeight; (repeat' first | with_reducible rfl | with_reducible assumption | (simp [*]; done) | (split <;> try (rename_i h; first | replace h := waitTokens_mem _ _ _ _ h | (replace h := congrArg (fun o => o.st.mem) h; simp [*] at h) | (replace h := congrArg (fun o => o.2.st.mem) h; simp [*] at h) | (replace h := congrArg (fun o => o.1.mem) h; simp [*] at h) | (replace h := congrArg (fun o => o.2.mem) h; simp [*] at h))) | split | split | with_reducible apply Out.mem_bind | intro _ | dsimp only)

@[simp] theorem qredUnit_mem (e : BitVec 2) (g i : BitVec 1) (c : Cmd) (s : State) :
    (qredUnit e g i c s).st.mem = s.mem := by
  unfold qredUnit; (repeat' first | with_reducible rfl | with_reducible assumption | (simp [*]; done) | (split <;> try (rename_i h; first | replace h := waitTokens_mem _ _ _ _ h | (replace h := congrArg (fun o => o.st.mem) h; simp [*] at h) | (replace h := congrArg (fun o => o.2.st.mem) h; simp [*] at h) | (replace h := congrArg (fun o => o.1.mem) h; simp [*] at h) | (replace h := congrArg (fun o => o.2.mem) h; simp [*] at h))) | split | split | with_reducible apply Out.mem_bind | intro _ | dsimp only)

@[simp] theorem qredClose_wf (e : BitVec 2) (g : BitVec 1) (c : Cmd) (s : State) (hw : s.mem.wf = true) :
    (qredClose e g c s).st.mem.wf = true := by
  unfold qredClose; simp [*, Memory.wf_putRow, Memory.wf_putNat, Memory.wf_put, Memory.wf_filter, wholeOr_wf]

theorem execQred_wf (w : Tok) (c : BitVec 6) (e : BitVec 2) (r g i : BitVec 1) (s : State) (hw : s.mem.wf = true) :
    ∃ u₁, (execQred w c e r g i s) = .next u₁ ∧ u₁.mem.wf = true := by
  unfold execQred; (first | with_reducible apply sWord_wf | with_reducible apply sOnly_wf | with_reducible apply vWord_wf | with_reducible apply cmdWord_wf | with_reducible apply pierWord_wf); all_goals (intros; simp [*, Memory.wf_putRow, Memory.wf_putNat, Memory.wf_put, Memory.wf_filter, wholeOr_wf]; done)

end Sys2Proof.Machine
end

