-- ==== Sys2Proof/Laws/KeepLink.lean ====
section
/-! SUPPORT. What the definitions of Machine/Link.lean keep of memory: its bytes, or its canonical form
(R17). -/

set_option maxRecDepth 2000
set_option linter.all false

namespace Sys2Proof.Machine

@[simp] theorem serveFlit_mem (dst : BitVec 8) (a : BitVec 43) (o : Out FlitBody) :
    (serveFlit dst a o).st.mem = o.st.mem := by
  unfold serveFlit; (repeat' first | with_reducible rfl | with_reducible assumption | (simp [*]; done) | (split <;> try (rename_i h; first | replace h := waitTokens_mem _ _ _ _ h | (replace h := congrArg (fun o => o.st.mem) h; simp [*] at h) | (replace h := congrArg (fun o => o.2.st.mem) h; simp [*] at h) | (replace h := congrArg (fun o => o.1.mem) h; simp [*] at h) | (replace h := congrArg (fun o => o.2.mem) h; simp [*] at h))) | split | split | with_reducible apply Out.mem_bind | rw [atUnit_mem] | rw [atLane_mem] | intro _ | dsimp only)

@[simp] theorem atHome_wf (f : Flit) (a : BitVec 43) (act : Target → State → Out FlitBody) (s : State) (hact : ∀ (v0 : Target) (v1 : State), v1.mem.wf = true → (act v0 v1).st.mem.wf = true) (hw : s.mem.wf = true) :
    (atHome f a act s).st.mem.wf = true := by
  unfold atHome; (repeat' first | (simp [*, Memory.wf_putRow, Memory.wf_putNat, Memory.wf_put, Memory.wf_filter]; done) | (split <;> try (rename_i h; first | replace h := waitTokens_mem _ _ _ _ h | (replace h := congrArg (fun o => o.st.mem.wf) h; simp [*] at h) | (replace h := congrArg (fun o => o.2.st.mem.wf) h; simp [*] at h) | (replace h := congrArg (fun o => o.1.mem.wf) h; simp [*] at h) | (replace h := congrArg (fun o => o.2.mem.wf) h; simp [*] at h))) | split | split | with_reducible apply Out.wf_bind | rw [atUnit_mem] | rw [atLane_mem] | intro _ | dsimp only)

@[simp] theorem acceptBody_wf (f : Flit) (s : State) (hw : s.mem.wf = true) : (acceptBody f s).st.mem.wf = true := by
  unfold acceptBody
  split
  · exact hw
  · split
    · exact atHome_wf _ _ _ _ (fun t u hu => by simp [hu]) hw
    · exact atHome_wf _ _ _ _ (fun t u hu => by simp [hu]) hw
    · exact atHome_wf _ _ _ _ (fun t u hu => by simp [hu]) hw
    · split
      · have h := applyUpdate_wf
        split <;> rename_i e <;> (try (have := congrArg (fun o => o.st.mem.wf) e; simp [hw] at this)) <;> simp_all
      · exact hw
    all_goals simpa using hw

theorem execFlitReceive_wf (link : BitVec 4) (f : Flit) (s : State) (hw : s.mem.wf = true) :
    ∃ u₁, execFlitReceive link f s = .next u₁ ∧ u₁.mem.wf = true := by
  refine ⟨_, rfl, ?_⟩
  split
  · exact hw
  · split
    · generalize hx : mapLink _ _ s = t
      have ht : t.mem.wf = true := by rw [← hx, mapLink_mem]; exact hw
      have ha := acceptBody_wf f t ht
      split <;> rename_i h <;> rw [h] at ha
      · exact ha
      · simpa using ha
      · exact ha
    · split
      · exact hw
      · simpa using hw

theorem execReplayIntervalEnd_mem (link : BitVec 4) (s : State) :
    ∃ u₁, (execReplayIntervalEnd link s) = .next u₁ ∧ u₁.mem = s.mem := by
  unfold execReplayIntervalEnd; refine ⟨_, rfl, ?_⟩; simp [*]

@[simp] theorem handOver_mem (l : Link) (s : State) :
    (handOver l s).mem = s.mem := by
  unfold handOver; simp [*]

@[simp] theorem execLaneShed_mem (link : BitVec 4) (s : State) :
    ∃ u₁, (execLaneShed link s) = .next u₁ ∧ u₁.mem = s.mem := by
  unfold execLaneShed; refine ⟨_, rfl, ?_⟩; (repeat' first | with_reducible rfl | with_reducible assumption | (simp [*]; done) | (split <;> try (rename_i h; first | replace h := waitTokens_mem _ _ _ _ h | (replace h := congrArg (fun o => o.st.mem) h; simp [*] at h) | (replace h := congrArg (fun o => o.2.st.mem) h; simp [*] at h) | (replace h := congrArg (fun o => o.1.mem) h; simp [*] at h) | (replace h := congrArg (fun o => o.2.mem) h; simp [*] at h))) | split | split | with_reducible apply Out.mem_bind | rw [atUnit_mem] | rw [atLane_mem] | intro _ | dsimp only)

theorem execFabricEnumeration_mem (dev : BitVec 8) (links : BitVec 16) (s : State) :
    ∃ u₁, (execFabricEnumeration dev links s) = .next u₁ ∧ u₁.mem = s.mem := by
  unfold execFabricEnumeration; refine ⟨_, rfl, ?_⟩; (repeat' first | with_reducible rfl | with_reducible assumption | (simp [*]; done) | (split <;> try (rename_i h; first | replace h := waitTokens_mem _ _ _ _ h | (replace h := congrArg (fun o => o.st.mem) h; simp [*] at h) | (replace h := congrArg (fun o => o.2.st.mem) h; simp [*] at h) | (replace h := congrArg (fun o => o.1.mem) h; simp [*] at h) | (replace h := congrArg (fun o => o.2.mem) h; simp [*] at h))) | split | split | with_reducible apply Out.mem_bind | intro _ | dsimp only)

end Sys2Proof.Machine
end

