-- ==== Sys2Proof/Laws/KeepNodes.lean ====
section
/-! SUPPORT. What the definitions of Machine/Nodes.lean keep of memory: its bytes, or its canonical form
(R17). -/

set_option maxRecDepth 2000
set_option linter.all false

namespace Sys2Proof.Machine

theorem execNodeSubmit_mem (win : BitVec 5) (v : W64) (s : State) :
    ∃ u₁, (execNodeSubmit win v s) = .next u₁ ∧ u₁.mem = s.mem := by
  unfold execNodeSubmit; refine ⟨_, rfl, ?_⟩; (repeat' first | with_reducible rfl | with_reducible assumption | (simp [*]; done) | (split <;> try (rename_i h; first | replace h := waitTokens_mem _ _ _ _ h | (replace h := congrArg (fun o => o.st.mem) h; simp [*] at h) | (replace h := congrArg (fun o => o.2.st.mem) h; simp [*] at h) | (replace h := congrArg (fun o => o.1.mem) h; simp [*] at h) | (replace h := congrArg (fun o => o.2.mem) h; simp [*] at h))) | split | split | with_reducible apply Out.mem_bind | intro _ | dsimp only)

theorem execDkill_mem (v : W64) (s : State) :
    ∃ u₁, (execDkill v s) = .next u₁ ∧ u₁.mem = s.mem := by
  unfold execDkill; refine ⟨_, rfl, ?_⟩; (repeat' first | with_reducible rfl | with_reducible assumption | (simp [*]; done) | (split <;> try (rename_i h; first | replace h := waitTokens_mem _ _ _ _ h | (replace h := congrArg (fun o => o.st.mem) h; simp [*] at h) | (replace h := congrArg (fun o => o.2.st.mem) h; simp [*] at h) | (replace h := congrArg (fun o => o.1.mem) h; simp [*] at h) | (replace h := congrArg (fun o => o.2.mem) h; simp [*] at h))) | split | split | with_reducible apply Out.mem_bind | intro _ | dsimp only)

theorem loadSegment_wf (sp : BitVec 7) (seg : BitVec 24 × List Byte) (s : State) (hw : s.mem.wf = true) :
    (loadSegment sp seg s).mem.wf = true := by
  unfold loadSegment
  exact foldl_wf _ (fun t i ht => writeOwnRow_wf _ _ _ _ ht) _ _ hw

theorem placeSpan_wf (n : Node) (segs : List (BitVec 24 × List Byte)) (i : Nat) (sp : BitVec 7) (s : State)
    (hw : s.mem.wf = true) : (placeSpan n segs i sp s).mem.wf = true := by
  unfold placeSpan
  split
  · simpa using hw
  · exact foldl_wf _ (fun t g ht => loadSegment_wf _ _ _ ht) _ _ (by simpa using hw)

@[simp] theorem placeSpans_wf (n : Node) (segs : List (BitVec 24 × List Byte)) (i : Nat) (l : List (BitVec 7)) (s : State)
    (hw : s.mem.wf = true) : (placeSpans n segs i l s).mem.wf = true := by
  induction l generalizing i s with
  | nil => exact hw
  | cons sp l ih => exact ih _ _ (placeSpan_wf _ _ _ _ _ hw)

@[simp] theorem startGroup_mem (n : Node) (s : State) :
    (startGroup n s).mem = s.mem := by
  unfold startGroup; (repeat' first | with_reducible rfl | with_reducible assumption | (simp [*]; done) | (split <;> try (rename_i h; first | replace h := waitTokens_mem _ _ _ _ h | (replace h := congrArg (fun o => o.st.mem) h; simp [*] at h) | (replace h := congrArg (fun o => o.2.st.mem) h; simp [*] at h) | (replace h := congrArg (fun o => o.1.mem) h; simp [*] at h) | (replace h := congrArg (fun o => o.2.mem) h; simp [*] at h))) | split | split | with_reducible apply Out.mem_bind | intro _ | dsimp only)

theorem execNodeDispatch_wf (pick : List (BitVec 7)) (segs : List (BitVec 24 × List Byte)) (s : State) (hw : s.mem.wf = true) :
    ∃ u₁, (execNodeDispatch pick segs s) = .next u₁ ∧ u₁.mem.wf = true := by
  unfold execNodeDispatch; refine ⟨_, rfl, ?_⟩; (repeat' first | (simp [*, Memory.wf_putRow, Memory.wf_putNat, Memory.wf_put, Memory.wf_filter]; done) | (split <;> try (rename_i h; first | replace h := waitTokens_mem _ _ _ _ h | (replace h := congrArg (fun o => o.st.mem.wf) h; simp [*] at h) | (replace h := congrArg (fun o => o.2.st.mem.wf) h; simp [*] at h) | (replace h := congrArg (fun o => o.1.mem.wf) h; simp [*] at h) | (replace h := congrArg (fun o => o.2.mem.wf) h; simp [*] at h))) | split | split | with_reducible apply Out.wf_bind | intro _ | dsimp only)

theorem execPriorityAgeing_mem (id : Nat) (s : State) :
    ∃ u₁, (execPriorityAgeing id s) = .next u₁ ∧ u₁.mem = s.mem := by
  unfold execPriorityAgeing; refine ⟨_, rfl, ?_⟩; simp [*]

@[simp] theorem dropEntry_mem (id : Nat) (s : State) :
    (dropEntry id s).mem = s.mem := by
  unfold dropEntry; simp [*]

@[simp] theorem joinGrants_mem (n : Node) (s : State) :
    (joinGrants n s).mem = s.mem := by
  unfold joinGrants; simp [*]

theorem execNodeJoin_mem (id : Nat) (s : State) :
    ∃ u₁, (execNodeJoin id s) = .next u₁ ∧ u₁.mem = s.mem := by
  unfold execNodeJoin; refine ⟨_, rfl, ?_⟩; (repeat' first | with_reducible rfl | with_reducible assumption | (simp [*]; done) | (split <;> try (rename_i h; first | replace h := waitTokens_mem _ _ _ _ h | (replace h := congrArg (fun o => o.st.mem) h; simp [*] at h) | (replace h := congrArg (fun o => o.2.st.mem) h; simp [*] at h) | (replace h := congrArg (fun o => o.1.mem) h; simp [*] at h) | (replace h := congrArg (fun o => o.2.mem) h; simp [*] at h))) | split | split | with_reducible apply Out.mem_bind | intro _ | dsimp only)

@[simp] theorem addOne_wf (pa : Nat) (s : State) (hw : s.mem.wf = true) :
    (addOne pa s).st.mem.wf = true := by
  unfold addOne; (repeat' first | (simp [*, Memory.wf_putRow, Memory.wf_putNat, Memory.wf_put, Memory.wf_filter]; done) | (split <;> try (rename_i h; first | replace h := waitTokens_mem _ _ _ _ h | (replace h := congrArg (fun o => o.st.mem.wf) h; simp [*] at h) | (replace h := congrArg (fun o => o.2.st.mem.wf) h; simp [*] at h) | (replace h := congrArg (fun o => o.1.mem.wf) h; simp [*] at h) | (replace h := congrArg (fun o => o.2.mem.wf) h; simp [*] at h))) | split | split | with_reducible apply Out.wf_bind | intro _ | dsimp only)

theorem execDoneIncrement_wf (id : Nat) (s : State) (hw : s.mem.wf = true) :
    ∃ u₁, (execDoneIncrement id s) = .next u₁ ∧ u₁.mem.wf = true := by
  unfold execDoneIncrement; refine ⟨_, rfl, ?_⟩; (repeat' first | (simp [*, Memory.wf_putRow, Memory.wf_putNat, Memory.wf_put, Memory.wf_filter]; done) | (split <;> try (rename_i h; first | replace h := waitTokens_mem _ _ _ _ h | (replace h := congrArg (fun o => o.st.mem.wf) h; simp [*] at h) | (replace h := congrArg (fun o => o.2.st.mem.wf) h; simp [*] at h) | (replace h := congrArg (fun o => o.1.mem.wf) h; simp [*] at h) | (replace h := congrArg (fun o => o.2.mem.wf) h; simp [*] at h))) | split | split | with_reducible apply Out.wf_bind | intro _ | dsimp only)

theorem execPreemptionRequest_mem (s : State) :
    ∃ u₁, (execPreemptionRequest s) = .next u₁ ∧ u₁.mem = s.mem := by
  unfold execPreemptionRequest; refine ⟨_, rfl, ?_⟩; (repeat' first | with_reducible rfl | with_reducible assumption | (simp [*]; done) | (split <;> try (rename_i h; first | replace h := waitTokens_mem _ _ _ _ h | (replace h := congrArg (fun o => o.st.mem) h; simp [*] at h) | (replace h := congrArg (fun o => o.2.st.mem) h; simp [*] at h) | (replace h := congrArg (fun o => o.1.mem) h; simp [*] at h) | (replace h := congrArg (fun o => o.2.mem) h; simp [*] at h))) | split | split | with_reducible apply Out.mem_bind | intro _ | dsimp only)

theorem execPreemptEscalation_mem (sp : BitVec 7) (s : State) :
    ∃ u₁, (execPreemptEscalation sp s) = .next u₁ ∧ u₁.mem = s.mem := by
  unfold execPreemptEscalation; refine ⟨_, rfl, ?_⟩; (repeat' first | with_reducible rfl | with_reducible assumption | (simp [*]; done) | (split <;> try (rename_i h; first | replace h := waitTokens_mem _ _ _ _ h | (replace h := congrArg (fun o => o.st.mem) h; simp [*] at h) | (replace h := congrArg (fun o => o.2.st.mem) h; simp [*] at h) | (replace h := congrArg (fun o => o.1.mem) h; simp [*] at h) | (replace h := congrArg (fun o => o.2.mem) h; simp [*] at h))) | split | split | with_reducible apply Out.mem_bind | intro _ | dsimp only)

end Sys2Proof.Machine
end

