-- ==== Sys2Proof/Laws/KeepSwitch.lean ====
section
/-! SUPPORT. What the definitions of Machine/Switch.lean keep of memory: its bytes, or its canonical form
(R17). -/

set_option maxRecDepth 2000
set_option linter.all false

namespace Sys2Proof.Machine

@[simp] theorem haltSpan_mem (sp : BitVec 7) (s : State) :
    (haltSpan sp s).mem = s.mem := by
  unfold haltSpan; simp [*]

@[simp] theorem writeImage_wf (a0 : Nat) (a1 : List Row) (a2 : State) (hw : a2.mem.wf = true) :
    (writeImage a0 a1 a2).st.mem.wf = true := by
  induction a1 generalizing a0 a2 <;> (unfold writeImage; (repeat' first | (simp [*, Memory.wf_putRow, Memory.wf_putNat, Memory.wf_put, Memory.wf_filter]; done) | (split <;> try (rename_i h; first | replace h := waitTokens_mem _ _ _ _ h | (replace h := congrArg (fun o => o.st.mem.wf) h; simp [*] at h) | (replace h := congrArg (fun o => o.2.st.mem.wf) h; simp [*] at h) | (replace h := congrArg (fun o => o.1.mem.wf) h; simp [*] at h) | (replace h := congrArg (fun o => o.2.mem.wf) h; simp [*] at h))) | split | split | with_reducible apply Out.wf_bind | intro _ | dsimp only))

@[simp] theorem readLive_mem (sp : BitVec 7) (a0 : List Nat) (a1 : State) :
    (readLive sp a0 a1).st.mem = a1.mem := by
  induction a0 generalizing sp a1 <;> (unfold readLive; (repeat' first | with_reducible rfl | with_reducible assumption | (simp [*]; done) | (split <;> try (rename_i h; first | replace h := waitTokens_mem _ _ _ _ h | (replace h := congrArg (fun o => o.st.mem) h; simp [*] at h) | (replace h := congrArg (fun o => o.2.st.mem) h; simp [*] at h) | (replace h := congrArg (fun o => o.1.mem) h; simp [*] at h) | (replace h := congrArg (fun o => o.2.mem) h; simp [*] at h))) | split | split | with_reducible apply Out.mem_bind | intro _ | dsimp only))

@[simp] theorem switchFailed_mem (sp : BitVec 7) (s : State) :
    (switchFailed sp s).mem = s.mem := by
  unfold switchFailed; simp [*]

@[simp] theorem keepSections_mem (id : Nat) (sp : BitVec 7) (saved : Span) (f : Nat) (s : State) :
    (keepSections id sp saved f s).mem = s.mem := by
  unfold keepSections; simp [*]

theorem saveSpan_wf (n : Node) (sp : BitVec 7) (s : State) (hw : s.mem.wf = true) : (saveSpan n sp s).mem.wf = true := by
  unfold saveSpan
  dsimp only
  generalize hx : Out.bind _ _ = x
  have h : x.st.mem.wf = true := by
    rw [← hx]
    exact Out.wf_bind _ _ (by simpa using hw) (fun _ _ ht => writeImage_wf _ _ _ ht)
  cases x <;> simpa using h

theorem execFullSwitchSave_wf (sp : BitVec 7) (s : State) (hw : s.mem.wf = true) :
    ∃ u₁, execFullSwitchSave sp s = .next u₁ ∧ u₁.mem.wf = true := by
  have hh : (haltSpan sp s).mem.wf = true := by simpa using hw
  refine ⟨_, rfl, ?_⟩
  split
  · split
    · dsimp only
      split
      · exact saveSpan_wf _ _ _ hh
      · exact hh
    · exact hw
  · exact hw

@[simp] theorem readImage_mem (pa : Nat) (a0 : Nat) (a1 : State) :
    (readImage pa a0 a1).st.mem = a1.mem := by
  induction a0 generalizing pa a1 <;> (unfold readImage; (repeat' first | with_reducible rfl | with_reducible assumption | (simp [*]; done) | (split <;> try (rename_i h; first | replace h := waitTokens_mem _ _ _ _ h | (replace h := congrArg (fun o => o.st.mem) h; simp [*] at h) | (replace h := congrArg (fun o => o.2.st.mem) h; simp [*] at h) | (replace h := congrArg (fun o => o.1.mem) h; simp [*] at h) | (replace h := congrArg (fun o => o.2.mem) h; simp [*] at h))) | split | split | with_reducible apply Out.mem_bind | intro _ | dsimp only))

@[simp] theorem loadSpad_wf (sp : BitVec 7) (l : List Row) (x : Span) (s : State) (hw : s.mem.wf = true) :
    (loadSpad sp l x s).2.mem.wf = true := by
  unfold loadSpad
  exact foldl_keeps (fun m => Memory.wf m = true) _ (fun m e hm => Memory.wf_putRow m _ _ _ hm) _ _ hw

@[simp] theorem readSection_mem (pa : Nat) (h : Row) (i : Nat) (s : State) :
    (readSection pa h i s).st.mem = s.mem := by
  unfold readSection; simp [*]

@[simp] theorem restoreOne_wf (id : Nat) (sp : BitVec 7) (kept : Span) (s : State) (hw : s.mem.wf = true) :
    (restoreOne id sp kept s).st.mem.wf = true := by
  unfold restoreOne; (repeat' first | (simp [*, Memory.wf_putRow, Memory.wf_putNat, Memory.wf_put, Memory.wf_filter]; done) | (split <;> try (rename_i h; first | replace h := waitTokens_mem _ _ _ _ h | (replace h := congrArg (fun o => o.st.mem.wf) h; simp [*] at h) | (replace h := congrArg (fun o => o.2.st.mem.wf) h; simp [*] at h) | (replace h := congrArg (fun o => o.1.mem.wf) h; simp [*] at h) | (replace h := congrArg (fun o => o.2.mem.wf) h; simp [*] at h))) | split | split | with_reducible apply Out.wf_bind | rw [atUnit_mem] | rw [atLane_mem] | intro _ | dsimp only)

@[simp] theorem restoreAll_wf (id : Nat) (l : List (BitVec 7 × Span)) (s : State) (hw : s.mem.wf = true) :
    (restoreAll id l s).mem.wf = true := by
  induction l generalizing s with
  | nil => simpa [restoreAll] using hw
  | cons e l ih =>
    unfold restoreAll
    have h := restoreOne_wf id e.1 e.2 s hw
    split <;> rename_i h' <;> rw [h'] at h
    · exact ih _ (by simpa using h)
    · exact ih _ h
    · simpa using h

@[simp] theorem markBad_mem (s : State) (sp : BitVec 7) : (markBad s sp).mem = s.mem := by
  unfold markBad
  by_cases h : imageGood s sp = true
  · rw [if_pos h]
  · rw [if_neg h]; rfl

theorem execContextRestore_wf (id : Nat) (s : State) (hw : s.mem.wf = true) :
    ∃ u₁, execContextRestore id s = .next u₁ ∧ u₁.mem.wf = true := by
  refine ⟨_, rfl, ?_⟩
  split
  · exact hw
  · dsimp only
    split
    · rw [killTag_mem, foldl_mem _ (fun t e => markBad_mem t e)]; exact hw
    · exact restoreAll_wf _ _ _ hw

end Sys2Proof.Machine
end

