-- ==== Sys2Proof/Laws/KeepThreads.lean ====
section
/-! SUPPORT. What the definitions of Machine/Threads.lean keep of memory: its bytes, or its canonical form
(R17). -/

set_option maxRecDepth 2000
set_option linter.all false

namespace Sys2Proof.Machine

theorem execSplitterSteer_mem (sp : BitVec 7) (r : BitVec 2) (s : State) :
    ∃ u₁, (execSplitterSteer sp r s) = .next u₁ ∧ u₁.mem = s.mem := by
  unfold execSplitterSteer; refine ⟨_, rfl, ?_⟩; (repeat' first | with_reducible rfl | with_reducible assumption | (simp [*]; done) | (split <;> try (rename_i h; first | replace h := waitTokens_mem _ _ _ _ h | (replace h := congrArg (fun o => o.st.mem) h; simp [*] at h) | (replace h := congrArg (fun o => o.2.st.mem) h; simp [*] at h) | (replace h := congrArg (fun o => o.1.mem) h; simp [*] at h) | (replace h := congrArg (fun o => o.2.mem) h; simp [*] at h))) | split | split | with_reducible apply Out.mem_bind | intro _ | dsimp only)

theorem execThreadRetire_mem (sp : BitVec 7) (r : BitVec 2) (s : State) :
    ∃ u₁, (execThreadRetire sp r s) = .next u₁ ∧ u₁.mem = s.mem := by
  unfold execThreadRetire; refine ⟨_, rfl, ?_⟩; (repeat' first | with_reducible rfl | with_reducible assumption | (simp [*]; done) | (split <;> try (rename_i h; first | replace h := waitTokens_mem _ _ _ _ h | (replace h := congrArg (fun o => o.st.mem) h; simp [*] at h) | (replace h := congrArg (fun o => o.2.st.mem) h; simp [*] at h) | (replace h := congrArg (fun o => o.1.mem) h; simp [*] at h) | (replace h := congrArg (fun o => o.2.mem) h; simp [*] at h))) | split | split | with_reducible apply Out.mem_bind | intro _ | dsimp only)

theorem execTrapFreeze_mem (sp : BitVec 7) (r : BitVec 2) (s : State) :
    ∃ u₁, (execTrapFreeze sp r s) = .next u₁ ∧ u₁.mem = s.mem := by
  unfold execTrapFreeze; refine ⟨_, rfl, ?_⟩; (repeat' first | with_reducible rfl | with_reducible assumption | (simp [*]; done) | (split <;> try (rename_i h; first | replace h := waitTokens_mem _ _ _ _ h | (replace h := congrArg (fun o => o.st.mem) h; simp [*] at h) | (replace h := congrArg (fun o => o.2.st.mem) h; simp [*] at h) | (replace h := congrArg (fun o => o.1.mem) h; simp [*] at h) | (replace h := congrArg (fun o => o.2.mem) h; simp [*] at h))) | split | split | with_reducible apply Out.mem_bind | intro _ | dsimp only)

theorem execTenderHandlerStart_mem (sp : BitVec 7) (s : State) :
    ∃ u₁, (execTenderHandlerStart sp s) = .next u₁ ∧ u₁.mem = s.mem := by
  unfold execTenderHandlerStart; refine ⟨_, rfl, ?_⟩; (repeat' first | with_reducible rfl | with_reducible assumption | (simp [*]; done) | (split <;> try (rename_i h; first | replace h := waitTokens_mem _ _ _ _ h | (replace h := congrArg (fun o => o.st.mem) h; simp [*] at h) | (replace h := congrArg (fun o => o.2.st.mem) h; simp [*] at h) | (replace h := congrArg (fun o => o.1.mem) h; simp [*] at h) | (replace h := congrArg (fun o => o.2.mem) h; simp [*] at h))) | split | split | with_reducible apply Out.mem_bind | intro _ | dsimp only)

theorem execTrpop_mem (sp : BitVec 7) (v : W64) (s : State) :
    ∃ u₁, (execTrpop sp v s) = .next u₁ ∧ u₁.mem = s.mem := by
  unfold execTrpop; refine ⟨_, rfl, ?_⟩; (repeat' first | with_reducible rfl | with_reducible assumption | (simp [*]; done) | (split <;> try (rename_i h; first | replace h := waitTokens_mem _ _ _ _ h | (replace h := congrArg (fun o => o.st.mem) h; simp [*] at h) | (replace h := congrArg (fun o => o.2.st.mem) h; simp [*] at h) | (replace h := congrArg (fun o => o.1.mem) h; simp [*] at h) | (replace h := congrArg (fun o => o.2.mem) h; simp [*] at h))) | split | split | with_reducible apply Out.mem_bind | intro _ | dsimp only)

theorem execDebugStop_mem (sp : BitVec 7) (r : BitVec 2) (s : State) :
    ∃ u₁, execDebugStop sp r s = .next u₁ ∧ u₁.mem = s.mem := by
  refine ⟨_, rfl, ?_⟩
  by_cases h : (!stopReady (s.reck sp r)) = true
  · rw [if_pos h]
  · rw [if_neg h]
    dsimp only
    repeat' split
    all_goals simp

@[simp] theorem wakeOffs_mem (sp : BitVec 7) (a0 : List (BitVec 24)) (a1 : State) :
    (wakeOffs sp a0 a1).st.mem = a1.mem := by
  induction a0 generalizing sp a1 <;> (unfold wakeOffs; (repeat' first | with_reducible rfl | with_reducible assumption | (simp [*]; done) | (split <;> try (rename_i h; first | replace h := waitTokens_mem _ _ _ _ h | (replace h := congrArg (fun o => o.st.mem) h; simp [*] at h) | (replace h := congrArg (fun o => o.2.st.mem) h; simp [*] at h) | (replace h := congrArg (fun o => o.1.mem) h; simp [*] at h) | (replace h := congrArg (fun o => o.2.mem) h; simp [*] at h))) | split | split | with_reducible apply Out.mem_bind | rw [atUnit_mem] | rw [atLane_mem] | intro _ | dsimp only))

@[simp] theorem readOffs_mem (sp : BitVec 7) (a0 : List (BitVec 24)) (a1 : State) :
    (readOffs sp a0 a1).st.mem = a1.mem := by
  induction a0 generalizing sp a1 <;> (unfold readOffs; (repeat' first | with_reducible rfl | with_reducible assumption | (simp [*]; done) | (split <;> try (rename_i h; first | replace h := waitTokens_mem _ _ _ _ h | (replace h := congrArg (fun o => o.st.mem) h; simp [*] at h) | (replace h := congrArg (fun o => o.2.st.mem) h; simp [*] at h) | (replace h := congrArg (fun o => o.1.mem) h; simp [*] at h) | (replace h := congrArg (fun o => o.2.mem) h; simp [*] at h))) | split | split | with_reducible apply Out.mem_bind | rw [atUnit_mem] | rw [atLane_mem] | intro _ | dsimp only))

@[simp] theorem readSnapshot_mem (sp : BitVec 7) (s : State) : (readSnapshot sp s).mem = s.mem := by
  unfold readSnapshot
  dsimp only
  split
  · rfl
  · generalize hx : Out.bind _ _ = x
    have hm : x.st.mem = s.mem := by rw [← hx]; exact Out.mem_bind _ _ _ (by simp) fun _ u hu => by simpa using hu
    cases x <;> exact hm

@[simp] theorem serveDebug_mem (sp : BitVec 7) (r : BitVec 2) (a : DebugAccess) (s : State) :
    (serveDebug sp r a s).mem = s.mem := by
  unfold serveDebug; (repeat' first | with_reducible rfl | with_reducible assumption | (simp [*]; done) | (split <;> try (rename_i h; first | replace h := waitTokens_mem _ _ _ _ h | (replace h := congrArg (fun o => o.st.mem) h; simp [*] at h) | (replace h := congrArg (fun o => o.2.st.mem) h; simp [*] at h) | (replace h := congrArg (fun o => o.1.mem) h; simp [*] at h) | (replace h := congrArg (fun o => o.2.mem) h; simp [*] at h))) | split | split | with_reducible apply Out.mem_bind | intro _ | dsimp only)

theorem execDstopResume_mem (m : SpdmRequest) (rid : BitVec 9) (a : DebugAccess) (s : State) :
    ∃ u₁, (execDstopResume m rid a s) = .next u₁ ∧ u₁.mem = s.mem := by
  unfold execDstopResume; refine ⟨_, rfl, ?_⟩; (repeat' first | with_reducible rfl | with_reducible assumption | (simp [*]; done) | (split <;> try (rename_i h; first | replace h := waitTokens_mem _ _ _ _ h | (replace h := congrArg (fun o => o.st.mem) h; simp [*] at h) | (replace h := congrArg (fun o => o.2.st.mem) h; simp [*] at h) | (replace h := congrArg (fun o => o.1.mem) h; simp [*] at h) | (replace h := congrArg (fun o => o.2.mem) h; simp [*] at h))) | split | split | with_reducible apply Out.mem_bind | intro _ | dsimp only)

end Sys2Proof.Machine
end

