-- ==== Sys2Proof/Laws/KeepControl.lean ====
section
/-! SUPPORT. What the definitions of Machine/Control.lean keep of memory: its bytes, or its canonical form
(R17). -/

set_option maxRecDepth 2000
set_option linter.all false

namespace Sys2Proof.Machine

theorem accepted_mem (s : State) (x : Except (BitVec 8) State) (h : ∀ t, x = .ok t → t.mem = s.mem) : (accepted s x).mem = s.mem := by
  cases x with
  | ok t => exact h t rfl
  | error c => rfl

theorem onceStarted_keeps (P : State → Prop) (f : State → State) (s : State) (hf : P s → P (f s)) (hs : P s) :
    ∃ t, onceStarted f s = .next t ∧ P t := by
  refine ⟨_, rfl, ?_⟩
  split
  · exact hf hs
  · exact hs

theorem execXinvcGo_mem (v : W64) (s : State) :
    ∃ u₁, (execXinvcGo v s) = .next u₁ ∧ u₁.mem = s.mem := by
  unfold execXinvcGo; refine ⟨_, rfl, ?_⟩; (repeat' first | with_reducible rfl | with_reducible assumption | (simp [*]; done) | (split <;> try (rename_i h; first | replace h := waitTokens_mem _ _ _ _ h | (replace h := congrArg (fun o => o.st.mem) h; simp [*] at h) | (replace h := congrArg (fun o => o.2.st.mem) h; simp [*] at h) | (replace h := congrArg (fun o => o.1.mem) h; simp [*] at h) | (replace h := congrArg (fun o => o.2.mem) h; simp [*] at h))) | split | split | with_reducible apply Out.mem_bind | intro _ | dsimp only)

theorem execTpwrWrite_mem (sp : BitVec 7) (v : W64) (s : State) :
    ∃ u₁, execTpwrWrite sp v s = .next u₁ ∧ u₁.mem = s.mem :=
  onceStarted_keeps (fun t => t.mem = s.mem) _ s (fun _ => accepted_mem _ _ (writeTpwr_mem _ _ _)) rfl

theorem execTprofClr_mem (sp : BitVec 7) (v : W64) (s : State) :
    ∃ u₁, execTprofClr sp v s = .next u₁ ∧ u₁.mem = s.mem :=
  onceStarted_keeps (fun t => t.mem = s.mem) _ s (fun _ => accepted_mem _ _ (writeTprof_mem _ _ _)) rfl

theorem execHpnetWrite_mem (v : W64) (s : State) :
    ∃ u₁, (execHpnetWrite v s) = .next u₁ ∧ u₁.mem = s.mem := by
  unfold execHpnetWrite; refine ⟨_, rfl, ?_⟩; (repeat' first | with_reducible rfl | with_reducible assumption | (simp [*]; done) | (split <;> try (rename_i h; first | replace h := waitTokens_mem _ _ _ _ h | (replace h := congrArg (fun o => o.st.mem) h; simp [*] at h) | (replace h := congrArg (fun o => o.2.st.mem) h; simp [*] at h) | (replace h := congrArg (fun o => o.1.mem) h; simp [*] at h) | (replace h := congrArg (fun o => o.2.mem) h; simp [*] at h))) | split | split | with_reducible apply Out.mem_bind | intro _ | dsimp only)

theorem execHpcfgWrite_mem (n : BitVec 3) (v : W64) (s : State) :
    ∃ u₁, (execHpcfgWrite n v s) = .next u₁ ∧ u₁.mem = s.mem := by
  unfold execHpcfgWrite; refine ⟨_, rfl, ?_⟩; (repeat' first | with_reducible rfl | with_reducible assumption | (simp [*]; done) | (split <;> try (rename_i h; first | replace h := waitTokens_mem _ _ _ _ h | (replace h := congrArg (fun o => o.st.mem) h; simp [*] at h) | (replace h := congrArg (fun o => o.2.st.mem) h; simp [*] at h) | (replace h := congrArg (fun o => o.1.mem) h; simp [*] at h) | (replace h := congrArg (fun o => o.2.mem) h; simp [*] at h))) | split | split | with_reducible apply Out.mem_bind | intro _ | dsimp only)

theorem execRegisterWrite_mem (a : BitVec 52) (size : Nat) (v : W64) (s : State) :
    ∃ u₁, (execRegisterWrite a size v s) = .next u₁ ∧ u₁.mem = s.mem := by
  unfold execRegisterWrite; refine ⟨_, rfl, ?_⟩; (repeat' first | with_reducible rfl | with_reducible assumption | (simp [*]; done) | (split <;> try (rename_i h; first | replace h := waitTokens_mem _ _ _ _ h | (replace h := congrArg (fun o => o.st.mem) h; simp [*] at h) | (replace h := congrArg (fun o => o.2.st.mem) h; simp [*] at h) | (replace h := congrArg (fun o => o.1.mem) h; simp [*] at h) | (replace h := congrArg (fun o => o.2.mem) h; simp [*] at h))) | split | split | with_reducible apply Out.mem_bind | intro _ | dsimp only)

theorem execInvalidationComplete_mem (s : State) :
    ∃ u₁, (execInvalidationComplete s) = .next u₁ ∧ u₁.mem = s.mem := by
  unfold execInvalidationComplete; refine ⟨_, rfl, ?_⟩; (repeat' first | with_reducible rfl | with_reducible assumption | (simp [*]; done) | (split <;> try (rename_i h; first | replace h := waitTokens_mem _ _ _ _ h | (replace h := congrArg (fun o => o.st.mem) h; simp [*] at h) | (replace h := congrArg (fun o => o.2.st.mem) h; simp [*] at h) | (replace h := congrArg (fun o => o.1.mem) h; simp [*] at h) | (replace h := congrArg (fun o => o.2.mem) h; simp [*] at h))) | split | split | with_reducible apply Out.mem_bind | intro _ | dsimp only)

@[simp] theorem notice_wf (sp : BitVec 7) (kind : BitVec 8) (s : State) (hw : s.mem.wf = true) :
    (notice sp kind s).mem.wf = true := by
  unfold notice; (repeat' first | (simp [*, Memory.wf_putRow, Memory.wf_putNat, Memory.wf_put, Memory.wf_filter]; done) | (split <;> try (rename_i h; first | replace h := waitTokens_mem _ _ _ _ h | (replace h := congrArg (fun o => o.st.mem.wf) h; simp [*] at h) | (replace h := congrArg (fun o => o.2.st.mem.wf) h; simp [*] at h) | (replace h := congrArg (fun o => o.1.mem.wf) h; simp [*] at h) | (replace h := congrArg (fun o => o.2.mem.wf) h; simp [*] at h))) | split | split | with_reducible apply Out.wf_bind | intro _ | dsimp only)

@[simp] theorem setCap_wf (s : State) (e : BitVec 7 × BitVec 16) (hw : s.mem.wf = true) :
    (setCap s e).mem.wf = true := by
  unfold setCap; (repeat' first | (simp [*, Memory.wf_putRow, Memory.wf_putNat, Memory.wf_put, Memory.wf_filter]; done) | (split <;> try (rename_i h; first | replace h := waitTokens_mem _ _ _ _ h | (replace h := congrArg (fun o => o.st.mem.wf) h; simp [*] at h) | (replace h := congrArg (fun o => o.2.st.mem.wf) h; simp [*] at h) | (replace h := congrArg (fun o => o.1.mem.wf) h; simp [*] at h) | (replace h := congrArg (fun o => o.2.mem.wf) h; simp [*] at h))) | split | split | with_reducible apply Out.wf_bind | intro _ | dsimp only)

@[simp] theorem settleSpan_wf (granted : List (BitVec 7)) (s : State) (sp : BitVec 7) (hw : s.mem.wf = true) :
    (settleSpan granted s sp).mem.wf = true := by
  unfold settleSpan; (repeat' first | (simp [*, Memory.wf_putRow, Memory.wf_putNat, Memory.wf_put, Memory.wf_filter]; done) | (split <;> try (rename_i h; first | replace h := waitTokens_mem _ _ _ _ h | (replace h := congrArg (fun o => o.st.mem.wf) h; simp [*] at h) | (replace h := congrArg (fun o => o.2.st.mem.wf) h; simp [*] at h) | (replace h := congrArg (fun o => o.1.mem.wf) h; simp [*] at h) | (replace h := congrArg (fun o => o.2.mem.wf) h; simp [*] at h))) | split | split | with_reducible apply Out.wf_bind | intro _ | dsimp only)

theorem settleDie_wf (s : State) (d : Fin 4) (hw : s.mem.wf = true) : (settleDie s d).mem.wf = true := by
  unfold settleDie
  exact foldl_wf _ (fun t sp ht => settleSpan_wf _ t sp ht) _ _ hw

theorem execPowerIntervalBoundary_wf (caps : List (BitVec 7 × BitVec 16)) (s : State) (hw : s.mem.wf = true) :
    ∃ u₁, execPowerIntervalBoundary caps s = .next u₁ ∧ u₁.mem.wf = true := by
  refine ⟨_, rfl, ?_⟩
  split
  · exact hw
  · exact foldl_wf _ (fun t d ht => settleDie_wf t d ht) _ _ (foldl_wf _ (fun t e ht => setCap_wf t e ht) _ _ hw)

theorem execAgeingReading_wf (sp : BitVec 7) (ceil : BitVec 2) (low : BitVec 1) (s : State) (hw : s.mem.wf = true) :
    ∃ u₁, (execAgeingReading sp ceil low s) = .next u₁ ∧ u₁.mem.wf = true := by
  unfold execAgeingReading; refine ⟨_, rfl, ?_⟩; (repeat' first | (simp [*, Memory.wf_putRow, Memory.wf_putNat, Memory.wf_put, Memory.wf_filter]; done) | (split <;> try (rename_i h; first | replace h := waitTokens_mem _ _ _ _ h | (replace h := congrArg (fun o => o.st.mem.wf) h; simp [*] at h) | (replace h := congrArg (fun o => o.2.st.mem.wf) h; simp [*] at h) | (replace h := congrArg (fun o => o.1.mem.wf) h; simp [*] at h) | (replace h := congrArg (fun o => o.2.mem.wf) h; simp [*] at h))) | split | split | with_reducible apply Out.wf_bind | intro _ | dsimp only)

theorem execPortLinkTraining_mem (n : BitVec 3) (up : BitVec 1) (hdm : List (Nat × Nat)) (bad : BitVec 1) (s : State) :
    ∃ u₁, (execPortLinkTraining n up hdm bad s) = .next u₁ ∧ u₁.mem = s.mem := by
  unfold execPortLinkTraining; refine ⟨_, rfl, ?_⟩; (repeat' first | with_reducible rfl | with_reducible assumption | (simp [*]; done) | (split <;> try (rename_i h; first | replace h := waitTokens_mem _ _ _ _ h | (replace h := congrArg (fun o => o.st.mem) h; simp [*] at h) | (replace h := congrArg (fun o => o.2.st.mem) h; simp [*] at h) | (replace h := congrArg (fun o => o.1.mem) h; simp [*] at h) | (replace h := congrArg (fun o => o.2.mem) h; simp [*] at h))) | split | split | with_reducible apply Out.mem_bind | intro _ | dsimp only)

theorem execPowerOnReset_mem (s : State) :
    ∃ u₁, (execPowerOnReset s) = .next u₁ ∧ u₁.mem = s.mem := by
  unfold execPowerOnReset; refine ⟨_, rfl, ?_⟩; simp [*]

theorem execHbmTraining_wf (failed : BitVec 8) (s : State) (hw : s.mem.wf = true) :
    ∃ u₁, (execHbmTraining failed s) = .next u₁ ∧ u₁.mem.wf = true := by
  unfold execHbmTraining; refine ⟨_, rfl, ?_⟩; (repeat' first | (simp [*, Memory.wf_putRow, Memory.wf_putNat, Memory.wf_put, Memory.wf_filter]; done) | (split <;> try (rename_i h; first | replace h := waitTokens_mem _ _ _ _ h | (replace h := congrArg (fun o => o.st.mem.wf) h; simp [*] at h) | (replace h := congrArg (fun o => o.2.st.mem.wf) h; simp [*] at h) | (replace h := congrArg (fun o => o.1.mem.wf) h; simp [*] at h) | (replace h := congrArg (fun o => o.2.mem.wf) h; simp [*] at h))) | split | split | with_reducible apply Out.wf_bind | intro _ | dsimp only)

theorem execBackgroundScrub_mem (row : Nat) (s : State) :
    ∃ u₁, (execBackgroundScrub row s) = .next u₁ ∧ u₁.mem = s.mem := by
  unfold execBackgroundScrub; refine ⟨_, rfl, ?_⟩; (repeat' first | with_reducible rfl | with_reducible assumption | (simp [*]; done) | (split <;> try (rename_i h; first | replace h := waitTokens_mem _ _ _ _ h | (replace h := congrArg (fun o => o.st.mem) h; simp [*] at h) | (replace h := congrArg (fun o => o.2.st.mem) h; simp [*] at h) | (replace h := congrArg (fun o => o.1.mem) h; simp [*] at h) | (replace h := congrArg (fun o => o.2.mem) h; simp [*] at h))) | split | split | with_reducible apply Out.mem_bind | intro _ | dsimp only)

end Sys2Proof.Machine
end

