-- ==== Sys2Proof/Laws/Local.lean ====
section
/-! SUPPORT. Numbers in memory, and what an access of the own scratchpad answers (R17, R102, R137). -/

namespace Sys2Proof.Machine

/-! ### Numbers in memory -/

theorem Memory.nat_lt (m : Memory) (a n : Nat) : m.nat a n < 256 ^ n := by
  induction n generalizing a with
  | zero => simp [Memory.nat]
  | succ n ih =>
    have h1 := ih (a + 1)
    have h2 := (m.get a).isLt
    simp only [Memory.nat, pow_succ]
    omega

theorem Memory.nat_add (m : Memory) (a i n : Nat) : m.nat a (i + n) = m.nat a i + 256 ^ i * m.nat (a + i) n := by
  induction i generalizing a with
  | zero => simp [Memory.nat]
  | succ i ih =>
    rw [show i + 1 + n = (i + n) + 1 by omega]
    simp only [Memory.nat, ih, pow_succ]
    rw [show a + 1 + i = a + (i + 1) by omega]
    ring

/-- A number within a number. -/
theorem Memory.nat_part (m : Memory) (a i n k : Nat) (h : i + n ≤ k) : m.nat a k / 256 ^ i % 256 ^ n = m.nat (a + i) n := by
  obtain ⟨j, rfl⟩ := Nat.exists_eq_add_of_le h
  rw [show i + n + j = i + (n + j) by omega, Memory.nat_add, Nat.add_mul_div_left _ _ (by positivity),
    Nat.div_eq_of_lt (Memory.nat_lt ..), Nat.zero_add, Memory.nat_add, Nat.add_mul_mod_self_left,
    Nat.mod_eq_of_lt (Memory.nat_lt ..)]

theorem Memory.row_toNat (m : Memory) (r : Nat) : (m.row r).toNat = m.nat (128 * r) 128 := by
  have h := Memory.nat_lt m (128 * r) 128
  rw [show (256 : Nat) = 2 ^ 8 by norm_num, ← pow_mul] at h
  exact (BitVec.toNat_ofNat ..).trans (Nat.mod_eq_of_lt h)

/-- `n` bytes of a row, from an address within it. -/
theorem Memory.row_part (m : Memory) (a n : Nat) (h : a % 128 + n ≤ 128) :
    (m.row (a / 128)).toNat / 256 ^ (a % 128) % 256 ^ n = m.nat a n := by
  rw [Memory.row_toNat, Memory.nat_part _ _ _ _ _ h, show 128 * (a / 128) + a % 128 = a by omega]

theorem unit64_row (m : Memory) (a : Nat) (h : a % 128 ≤ 120) : unit64 (m.row (a / 128)) a = m.w64 a := by
  apply BitVec.eq_of_toNat_eq
  have e := Memory.row_part m a 8 (by omega)
  simp only [unit64, Memory.w64, BitVec.extractLsb'_toNat, BitVec.toNat_ofNat, Nat.shiftRight_eq_div_pow, ← e,
    show (256 : Nat) = 2 ^ 8 by norm_num, ← pow_mul]
  norm_num

/-! ### The own scratchpad -/

theorem spadAddr_range (sp : BitVec 7) (off : BitVec 24) :
    0x14000000000 ≤ spadAddr sp off ∧ spadAddr sp off < 0x14080000000 := by
  have := sp.isLt
  have := off.isLt
  unfold spadAddr
  omega

theorem isFabric_spad (sp : BitVec 7) (off : BitVec 24) : isFabric (spadAddr sp off) = false := by
  have := spadAddr_range sp off
  have : ¬2 ^ 51 ≤ spadAddr sp off := by omega
  simpa [isFabric] using this

theorem homeAddr_spad (s : State) (sp : BitVec 7) (off : BitVec 24) : homeAddr s (spadAddr sp off) = spadAddr sp off := by
  simp [homeAddr, isFabric_spad]

theorem remote_local {s : State} {pa : Nat} (hf : isFabric pa = false) : remote s pa = false := by simp [remote, hf]

theorem unreachable_spad (s : State) (sp : BitVec 7) (off : BitVec 24) : unreachable s (spadAddr sp off) = false := by
  obtain ⟨h0, h1⟩ := spadAddr_range sp off
  have hf : isFabric (spadAddr sp off) = false := by
    have : ¬2 ^ 51 ≤ spadAddr sp off := by omega
    simpa [isFabric] using this
  simp only [unreachable, cxlDown, homeAddr_spad, hf, Bool.false_and, Bool.or_false]
  rw [decide_eq_false (show ¬0x40000000000 ≤ spadAddr sp off by omega), Bool.false_and, Bool.false_and]

/-- A bank that is FULL on this clock serves an access, and notes its clock (R195). -/
theorem useBank_full {sp : BitVec 7} {n : BankName} {s : State} (h : ((s.span sp).dueBank n).st = .full) :
    useBank sp n s =
      .ok () (s.setSpan sp ((s.span sp).setBank n { (s.span sp).dueBank n with used := (s.span sp).clock })) := by
  unfold useBank
  simp only [h]

@[simp] theorem bank_setBank_spad (x : Span) (i : BitVec 7) (b : Bank) : (x.setBank (.spad i) b).bank (.spad i) = b := by
  simp [Span.bank, Span.setBank]
@[simp] theorem setBank_setBank_spad (x : Span) (i : BitVec 7) (b c : Bank) :
    (x.setBank (.spad i) b).setBank (.spad i) c = x.setBank (.spad i) c := by
  simp [Span.setBank]
@[simp] theorem setBank_live_spad (x : Span) (i : BitVec 7) (b : Bank) : (x.setBank (.spad i) b).live = x.live := rfl
@[simp] theorem setBank_clock_spad (x : Span) (i : BitVec 7) (b : Bank) : (x.setBank (.spad i) b).clock = x.clock := rfl
@[simp] theorem setBank_recks_spad (x : Span) (i : BitVec 7) (b : Bank) : (x.setBank (.spad i) b).recks = x.recks := rfl

/-- A row of this device without error that can be reached is read. -/
theorem readRowAt_clean {pa : Nat} {s : State} (hf : isFabric pa = false) (hu : unreachable s pa = false)
    (he : Table.find? s.errors (pa / 128) = none) : readRowAt pa s = .ok (s.mem.row (pa / 128)) s := by
  unfold readRowAt
  simp [homeAddr, meetRow, Out.map, Out.bind, remote_local hf, hf, hu, he]

/-- A row of this device without error that can be reached is written. -/
theorem writeRowAt_clean {pa : Nat} {s : State} (mask : BitVec 128) (v : Row) (hf : isFabric pa = false)
    (hu : unreachable s pa = false) (he : Table.find? s.errors (pa / 128) = none) :
    writeRowAt pa mask v s = .ok () { s with mem := s.mem.putRow (pa / 128) mask v } := by
  unfold writeRowAt
  simp [homeAddr, remote_local hf, hf, hu, he]

/-- A row of a FULL bank, live and without error, is read. -/
theorem readSpad_open {sp : BitVec 7} {off : BitVec 24} {s : State} (hl : rowLive sp off s = true)
    (hb : ((s.span sp).dueBank (spadBankOf off)).st = .full) (he : Table.find? s.errors (spadAddr sp off / 128) = none) :
    readSpad sp off s = .ok (s.mem.row (spadAddr sp off / 128))
      (s.setSpan sp ((s.span sp).setBank (spadBankOf off)
        { (s.span sp).dueBank (spadBankOf off) with used := (s.span sp).clock })) := by
  have hu := fun t => unreachable_spad t sp off
  have hf := isFabric_spad sp off
  unfold readSpad
  generalize spadAddr sp off = pa at *
  rw [if_pos hl, useBank_full hb, Out.bind_ok]
  exact readRowAt_clean hf (hu _) he

theorem find_del {α : Type} (t : Table α) (a : Nat) : Table.find? (Table.del t a) a = none := by
  induction t with
  | nil => rfl
  | cons e t ih =>
    obtain ⟨k, v⟩ := e
    unfold Table.del at *
    by_cases h : k = a
    · simp [h, ih]
    · simp [h, Table.find?, ih]

/-- A row of a FULL bank without error takes a masked write, and becomes live (R102). -/
theorem writeSpad_open {sp : BitVec 7} {off : BitVec 24} {s : State} (mask : BitVec 128) (v : Row)
    (hb : ((s.span sp).dueBank (spadBankOf off)).st = .full) (he : Table.find? s.errors (spadAddr sp off / 128) = none) :
    ∃ u, u = reviveRow sp off (s.setSpan sp ((s.span sp).setBank (spadBankOf off)
        { (s.span sp).dueBank (spadBankOf off) with used := (s.span sp).clock })) ∧
      writeSpad sp off mask v s = .ok () { u with mem := u.mem.putRow (spadAddr sp off / 128) mask v } := by
  refine ⟨_, rfl, ?_⟩
  have hu := fun t => unreachable_spad t sp off
  have hf := isFabric_spad sp off
  unfold writeSpad reviveRow
  generalize spadAddr sp off = pa at *
  rw [useBank_full hb, Out.bind_ok]
  refine writeRowAt_clean mask v hf (hu _) ?_
  split
  · rw [setSpan_errors]; exact he
  · exact find_del _ _

/-- A byte of a row after a masked row write. -/
theorem Memory.get_putRow (m : Memory) (r : Nat) (mask : BitVec 128) (v : Row) (x : Nat) (h : Memory.wf m = true) :
    (m.putRow r mask v).get x =
      if x / 128 = r then (if mask.getLsbD (x % 128) then v.extractLsb' (8 * (x % 128)) 8 else m.get x) else m.get x := by
  split
  · rename_i hx
    have e : x = 128 * r + x % 128 := by omega
    unfold Memory.putRow
    conv_lhs => rw [e]
    rw [Memory.get_putNat_in 128 m (128 * r) mask.toNat v.toNat (x % 128) h (Nat.mod_lt _ (by omega)), ← e]
    rw [BitVec.getLsbD]
    congr 1
    apply BitVec.eq_of_toNat_eq
    simp only [BitVec.toNat_ofNat, BitVec.extractLsb'_toNat, Nat.shiftRight_eq_div_pow, show (256 : Nat) = 2 ^ 8 by norm_num, ← pow_mul]
  · exact Memory.get_putRow_out _ _ _ _ _ h ‹_›

theorem insertNat_mem (l : List Nat) (a : Nat) : a ∈ insertNat l a := by
  induction l with
  | nil => simp [insertNat]
  | cons k t ih => unfold insertNat; split <;> [simp; split <;> simp_all]

@[simp] theorem setBank_reck_spad (x : Span) (i : BitVec 7) (b : Bank) (r : BitVec 2) :
    (x.setBank (.spad i) b).reck r = x.reck r := rfl

theorem del_of_none {α : Type} (t : Table α) (a : Nat) (h : Table.find? t a = none) : Table.del t a = t := by
  induction t with
  | nil => rfl
  | cons e t ih =>
    obtain ⟨k, v⟩ := e
    unfold Table.find? at h
    split at h
    · cases h
    · have := ih h
      unfold Table.del at *
      rw [List.filter_cons_of_pos (by simpa using ‹¬k = a›), this]

theorem span_memErrors (s : State) (m : Memory) (e : Table RowError) (sp : BitVec 7) :
    ({ s with mem := m, errors := e } : State).span sp = s.span sp := rfl
theorem spans_memErrors (s : State) (m : Memory) (x : Vector Span 128) :
    ({ ({ s with spans := x } : State) with mem := m, errors := s.errors } : State) = { s with mem := m, spans := x } := rfl

/-- Reviving a row: memory, liveness, and all the rest (R102). -/
theorem reviveRow_result (sp : BitVec 7) (off : BitVec 24) (s : State) (hw : s.mem.wf = true)
    (he : Table.find? s.errors (spadAddr sp off / 128) = none) :
    rowLive sp off (reviveRow sp off s) = true ∧ (reviveRow sp off s).mem.wf = true ∧
    (∀ x, (reviveRow sp off s).mem.get x =
      if x / 128 = spadAddr sp off / 128 then (if rowLive sp off s then s.mem.get x else 0#8) else s.mem.get x) ∧
    (∀ n r, (reviveRow sp off s).reck n r = s.reck n r) ∧
    reviveRow sp off s = { s with mem := (reviveRow sp off s).mem, spans := (reviveRow sp off s).spans } := by
  by_cases hl : rowLive sp off s = true
  · have e : reviveRow sp off s = s := by unfold reviveRow; rw [if_pos hl]
    rw [e]
    simp [hl, hw]
  · unfold reviveRow
    rw [if_neg hl]
    generalize spadAddr sp off / 128 = p at *
    dsimp only
    refine ⟨?_, Memory.wf_putRow _ p (BitVec.allOnes 128) 0#1024 hw, fun x => ?_, fun n r => ?_, ?_⟩
    · unfold rowLive
      rw [span_memErrors, span_setSpan]
      simp [insertNat_mem]
    · rw [Memory.get_putRow _ _ _ _ _ hw]
      split
      · rw [if_pos (by rw [BitVec.getLsbD_allOnes]; exact decide_eq_true (Nat.mod_lt _ (by omega)))]
        simp
      · rfl
    · by_cases hn : n = sp
      · subst hn
        unfold State.reck
        rw [span_memErrors, span_setSpan]
        rfl
      · unfold State.reck
        rw [span_memErrors, span_setSpan_ne _ _ _ _ hn]
    · rw [del_of_none _ _ he]
      exact spans_memErrors s _ _

/-- What a masked write of an own row does (R102): the row is live, the bytes of the mask are written, the
others of the row keep their values or are zero in a dead row; no Reckoner changes. -/
theorem writeSpad_result {sp : BitVec 7} {off : BitVec 24} {s : State} (mask : BitVec 128) (v : Row)
    (hb : ((s.span sp).dueBank (spadBankOf off)).st = .full) (he : Table.find? s.errors (spadAddr sp off / 128) = none)
    (hw : s.mem.wf = true) :
    ∃ t, writeSpad sp off mask v s = .ok () t ∧ rowLive sp off t = true ∧
      (∀ x, t.mem.get x =
        if x / 128 = spadAddr sp off / 128 then
          if mask.getLsbD (x % 128) then v.extractLsb' (8 * (x % 128)) 8
          else if rowLive sp off s then s.mem.get x else 0#8
        else s.mem.get x) ∧
      (∀ n r, t.reck n r = s.reck n r) ∧ t = { s with mem := t.mem, spans := t.spans } := by
  obtain ⟨u, hu, ht⟩ := writeSpad_open mask v hb he
  have hr := reviveRow_result sp off (s.setSpan sp ((s.span sp).setBank (spadBankOf off)
        { (s.span sp).dueBank (spadBankOf off) with used := (s.span sp).clock })) hw he
  rw [← hu] at hr
  refine ⟨_, ht, ?_⟩
  generalize spadAddr sp off / 128 = p at *
  obtain ⟨h1, h2, h3, h4, h5⟩ := hr
  have hl : rowLive sp off (s.setSpan sp ((s.span sp).setBank (spadBankOf off)
        { (s.span sp).dueBank (spadBankOf off) with used := (s.span sp).clock })) = rowLive sp off s := by
    simp [rowLive, spadBankOf]
  refine ⟨h1, fun x => ?_, fun n r => ?_, ?_⟩
  · rw [Memory.get_putRow _ _ _ _ _ h2, h3, hl]
    split
    · split
      · rfl
      · rw [setSpan_mem]
    · rw [setSpan_mem]
  · refine (h4 n r).trans ?_
    by_cases hn : n = sp
    · subst hn; simp [State.reck, spadBankOf]
    · simp only [State.reck]
      congr 1
      exact span_setSpan_ne _ _ _ _ hn
  · rw [h5]
    rfl

end Sys2Proof.Machine
end

