-- ==== Sys2Proof/Laws/Words.lean ====
section
/-! SUPPORT. What the shared operations of a word answer: its waits, its PREP, its body (R50, R64). -/

namespace Sys2Proof.Machine

/-- An attempt that is done, or faults, stands as it is; one that holds has used no bank (R192). -/
@[simp] theorem sparing_ok {α : Type} (s t : State) (a : α) : sparing s (.ok a t) = .ok a t := rfl
@[simp] theorem sparing_trap {α : Type} (s t : State) (f : Flt) : sparing s (.trap f t : Out α) = .trap f t := rfl

/-- A word whose waits and PREP are met does what its body does. -/
theorem runWord_of {e : Stream} {w : Tok} {s s0 : State} (body : State → Out Unit)
    (hw : waitTokens e w s = some s0)
    (hp : ∀ p, (s0.unit e).prep = some p →
      (s0.unit e).rep < p.count.toNat ∧ ((s0.unit e).rep = 0 → repCheck false (s0.unit e).instr p = none)) :
    runWord e w body s = finishWord e w (sparing s0 (body s0)) := by
  unfold runWord
  rw [hw]
  dsimp only
  cases h : (s0.unit e).prep with
  | none => rfl
  | some p =>
    obtain ⟨h1, h2⟩ := hp p h
    dsimp only
    rw [if_neg (by omega)]
    split
    · rw [h2 ‹_›]
    · rfl

/-- A word of the tender whose PREP is met does what its body does. -/
theorem runTender_of {s s1 : State} (body : State → Out Unit) (hb : body s = .ok () s1)
    (hp : ∀ p, (s.unit .S).prep = some p →
      (s.unit .S).rep < p.count.toNat ∧ ((s.unit .S).rep = 0 → repCheck true (s.unit .S).instr p = none)) :
    runTender body s = tenderDone s1 := by
  unfold runTender
  cases h : (s.unit .S).prep with
  | none => simp [hb]
  | some p =>
    obtain ⟨h1, h2⟩ := hp p h
    simp only [hb]
    rw [if_neg (by omega), if_neg (by simp; exact h2)]

/-- An S word whose body answers a state ends in that state, finished. -/
theorem sWord_of {w : Tok} {s s0 s1 : State} (body : State → Out Unit)
    (hw : if s.atTender then s0 = s else waitTokens .S w s = some s0)
    (hp : ∀ p, (s0.unit .S).prep = some p →
      (s0.unit .S).rep < p.count.toNat ∧ ((s0.unit .S).rep = 0 → repCheck s.atTender (s0.unit .S).instr p = none))
    (hb : body s0 = .ok () s1) :
    sWord w body s = .next (if s.atTender then tenderDone s1 else issued .S w s1) := by
  unfold sWord
  split at hw
  · subst hw
    rename_i ht
    simp only [ht, if_true] at *
    rw [runTender_of body hb hp]
  · rename_i ht
    simp only [ht, if_false, Bool.false_eq_true] at *
    rw [runWord_of body hw (by simpa [ht] using hp), hb]
    rfl

/-- An S word of a Reckoner alone. -/
theorem sOnly_of {w : Tok} {s s0 s1 : State} (body : State → Out Unit) (ht : s.atTender = false)
    (hw : waitTokens .S w s = some s0)
    (hp : ∀ p, (s0.unit .S).prep = some p →
      (s0.unit .S).rep < p.count.toNat ∧ ((s0.unit .S).rep = 0 → repCheck false (s0.unit .S).instr p = none))
    (hb : body s0 = .ok () s1) : sOnly w body s = .next (issued .S w s1) := by
  unfold sOnly; simp only [ht, if_false, Bool.false_eq_true]; rw [runWord_of body hw hp, hb]; rfl

/-- A V word. -/
theorem vWord_of {w : Tok} {s s0 s1 : State} (body : State → Out Unit) (ht : s.atTender = false)
    (hw : waitTokens .V w s = some s0)
    (hp : ∀ p, (s0.unit .V).prep = some p →
      (s0.unit .V).rep < p.count.toNat ∧ ((s0.unit .V).rep = 0 → repCheck false (s0.unit .V).instr p = none))
    (hb : body s0 = .ok () s1) : vWord w body s = .next (issued .V w s1) := by
  unfold vWord; simp only [ht, if_false, Bool.false_eq_true]; rw [runWord_of body hw hp, hb]; rfl

end Sys2Proof.Machine
end

