-- ==== Sys2Proof/Tests/Slice0.lean ====
section
/-! SUPPORT. The tests: words written out from the encoding tables, ill-formed terms, single steps with
results from the manual's rules, and for every statement a state and operands that meet its hypotheses. -/

namespace Sys2Proof.Tests

section

set_option Elab.async false

open Sys2Proof Sys2Proof.Machine Sys2Proof.Claims

/-! ### Small states -/

/-- A unit of one word, without prefixes, at address 0x1000. -/
def unitFor (i : Sys2Proof.Instr) : Work :=
  { instr := i, pc := 0x1000#52, first := 0x1000#52, seq := 1#32, pimms := [], pmem := none, prep := none
    base := 0#4, rep := 0, waited := false, popped := [], kept := none, serve := none }

/-- A running Reckoner with one word at the head of a stream. -/
def reckFor (e : Stream) (i : Sys2Proof.Instr) : Reckoner :=
  { Reckoner.reset with run := .running, pc := 0x1004#52 }.modStr e (fun t => { t with queue := [unitFor i] })

/-- Span 0 and its Reckoner 0 changed from the state after reset. -/
def spanIs (f : Span → Span) (s : State := State.reset) : State := s.setSpan 0#7 (f (s.span 0#7))
def reckIs (f : Reckoner → Reckoner) (s : State := State.reset) : State := s.setReck 0#7 0#2 (f (s.reck 0#7 0#2))

/-- A state in which a word stands at the head of a stream of Reckoner 0 of Span 0. -/
def headS (e : Stream) (i : Sys2Proof.Instr) (f : Reckoner → Reckoner := id) : State := reckIs (fun _ => f (reckFor e i))

/-- A state in which the tender of Span 0 has a word. -/
def tenderS (i : Sys2Proof.Instr) (f : Tender → Tender := id) : State :=
  { spanIs (fun x => { x with tender := f { x.tender with running := true, work := some (unitFor i) } }) with
    cur := ⟨0#7, .tender, none, false⟩ }

/-- Every bank of Span 0 and of its Reckoners FULL. -/
def allFull (x : Span) : Span :=
  { x with tileBank := Vector.replicate 16 ⟨.full, none, 0, 0, none⟩, spadBank := Vector.replicate 128 ⟨.full, none, 0, 0, none⟩
           arr := x.arr.map (fun a => { a with accBank := Vector.replicate 8 ⟨.full, none, 0, 0, none⟩ })
           recks := x.recks.map (fun k => { k with vbank := Vector.replicate 4 ⟨.full, none, 0, 0, none⟩ }) }

/-- A state after its token waits, or after an access. -/
def waited (e : Stream) (w : Tok) (s : State) : State := (waitTokens e w s).getD s
def outState {α : Type} : Out α → State
  | .ok _ s => s
  | .hold s => s
  | .trap _ s => s
def isOk {α : Type} : Out α → Bool
  | .ok _ _ => true
  | _ => false

theorem okUnit {x : Out Unit} (h : isOk x = true) : x = .ok () (outState x) := by cases x <;> simp_all [isOk, outState]
theorem okSome {α : Type} {x : Out α} (h : isOk x = true) : ∃ a, x = .ok a (outState x) := by
  cases x <;> simp_all [isOk, outState]
def okAnd {α : Type} (p : α → State → Bool) : Out α → Bool
  | .ok a s => p a s
  | _ => false
theorem okIs {α : Type} {p : α → State → Bool} {x : Out α} (h : okAnd p x = true) :
    ∃ a s, x = .ok a s ∧ p a s = true := by cases x <;> simp_all [okAnd]
theorem waitIs {e : Stream} {w : Tok} {s : State} (h : (waitTokens e w s).isSome = true) :
    waitTokens e w s = some (waited e w s) := by
  unfold waited; cases h' : waitTokens e w s <;> simp_all
theorem prepNone {b : Bool} {u : Work} (h : u.prep = none) : PrepRuns b u := by intro p hp; rw [h] at hp; cases hp
theorem beginsIs {e : Stream} {w : Tok} {s : State} (h : s.atTender = false) (h1 : (waitTokens e w s).isSome = true)
    (h2 : ((waited e w s).unit e).prep = none) : Begins e w s (waited e w s) := ⟨h, waitIs h1, prepNone h2⟩
theorem startsIs {e : Stream} {w : Tok} {s s0 : State} (h : Begins e w s s0) : Starts e w s s0 := by
  obtain ⟨a, b, c⟩ := h; exact ⟨by rw [if_neg (by simp [a])]; exact b, by rw [a]; exact c⟩
theorem startsTender {w : Tok} {s : State} (h : s.atTender = true) (h2 : (s.unit .S).prep = none) : Starts .S w s s :=
  ⟨by simp [h], prepNone h2⟩
def begun? (e : Stream) (w : Tok) (s : State) : Bool :=
  !s.atTender && (waitTokens e w s).isSome && ((waited e w s).unit e).prep.isNone
theorem bg {e : Stream} {w : Tok} {s : State} (h : begun? e w s = true) : Begins e w s (waited e w s) := by
  simp only [begun?, Bool.and_eq_true, Bool.not_eq_true', Option.isNone_iff_eq_none] at h
  exact beginsIs h.1.1 h.1.2 h.2

theorem unsentIs {w : Access} {s : State} (h : s.fabric.requests = []) : Unsent w s := by
  intro q hq; rw [h] at hq; cases hq
def awake (s : State) : Bool := s.me.frozen.isNone && s.me.stop.isNone && !s.me.halted
theorem awakeIs {s : State} (h : awake s = true) : Awake s := by
  simp only [awake, Bool.and_eq_true, Option.isNone_iff_eq_none, Bool.not_eq_true'] at h
  exact ⟨h.1.1, h.1.2, h.2⟩

/-- The page at address 0 of the context 0, in deck SRAM. -/
def mapped (x : Span) : Span := { x with tlb := [⟨0#12, 0, 0x10000, codeLeaf, 0#2⟩] }
theorem formIs {a : W64} {s : State} (h : isOk (atomicForm a s) = true) : atomicForm a s = .ok () s := by
  unfold atomicForm at h ⊢; split <;> split <;> simp_all [isOk]

/-- The page at address 0 of the context 0, in register space. -/
def registers (x : Span) : Span := { x with tlb := [⟨0#12, 0, 0x10000, 0x000001800000000B#64, 0#2⟩] }
/-- 4,096 translations of the die of Span 0 outstanding. -/
def fullDie (s : State) : State := { s with walks := [⟨0#64, 9, 0#2, List.replicate 4096 1#7⟩] }
/-- A VLDT of the last byte of the space at the head of V. -/
def headV : State :=
  spanIs allFull (headS .V (.vldt 0#4 0#3 3#5 40#8) (fun k => { k with q := k.q.set 0 [0xFFFFFFFFFFFFF#64] }))

/-- What Served says, as a test. -/
def served (t : Target) (s : State) : Bool :=
  decide (Table.find? s.errors (home s t / 128) = none) &&
  (match t with | .spad _ _ => true | .phys pa => !remote s pa && !unreachable s pa) &&
  (match homeSpad s t with
    | some (sp, off) => rowLive sp off s && decide (((s.span sp).dueBank (spadBankOf off)).st = .full)
    | none => true)
def writable (t : Target) (s : State) : Bool :=
  decide (Table.find? s.errors (home s t / 128) = none) &&
  (match t with | .spad _ _ => true | .phys pa => !remote s pa && !unreachable s pa) &&
  (match homeSpad s t with
    | some (sp, off) => decide (((s.span sp).dueBank (spadBankOf off)).st = .full)
    | none => true)
theorem writableIs {t : Target} {s : State} (h : writable t s = true) : Writable t s := by
  simp only [writable, Bool.and_eq_true, decide_eq_true_eq] at h
  refine ⟨h.1.1, ?_, ?_⟩
  · cases t <;> simp_all [Reached]
  · intro sp off e
    have := h.2
    simpa [e] using this
theorem servedIs {t : Target} {s : State} (h : served t s = true) : Served t s := by
  simp only [served, Bool.and_eq_true, decide_eq_true_eq] at h
  refine ⟨h.1.1, ?_, ?_⟩
  · cases t <;> simp_all [Reached]
  · intro sp off e
    have := h.2
    simpa [e] using this

/-! ### Words -/

/-- Words of S1, field by field from the encoding tables (R91, R92). -/
theorem test_words_S1 :
    decode (0b000#3 ++ 9#4 ++ 0#25) = .ok (.nop 9#4) ∧
    decode (0b000#3 ++ 9#4 ++ 0b0000001#7 ++ 10#5 ++ 22#5 ++ 13#5 ++ 0b000#3) = .ok (.add 9#4 10#5 22#5 13#5) ∧
    decode (0b000#3 ++ 9#4 ++ 0b0000010#7 ++ 10#5 ++ 22#5 ++ 13#5 ++ 0b000#3) = .ok (.sub 9#4 10#5 22#5 13#5) ∧
    decode (0b000#3 ++ 9#4 ++ 0b0000011#7 ++ 10#5 ++ 22#5 ++ 13#5 ++ 0b000#3) = .ok (.and 9#4 10#5 22#5 13#5) ∧
    decode (0b000#3 ++ 9#4 ++ 0b0000100#7 ++ 10#5 ++ 22#5 ++ 13#5 ++ 0b000#3) = .ok (.or 9#4 10#5 22#5 13#5) ∧
    decode (0b000#3 ++ 9#4 ++ 0b0000101#7 ++ 10#5 ++ 22#5 ++ 13#5 ++ 0b000#3) = .ok (.xor 9#4 10#5 22#5 13#5) ∧
    decode (0b000#3 ++ 9#4 ++ 0b0000110#7 ++ 10#5 ++ 22#5 ++ 13#5 ++ 0b000#3) = .ok (.sll 9#4 10#5 22#5 13#5) ∧
    decode (0b000#3 ++ 9#4 ++ 0b0000111#7 ++ 10#5 ++ 22#5 ++ 13#5 ++ 0b000#3) = .ok (.srl 9#4 10#5 22#5 13#5) ∧
    decode (0b000#3 ++ 9#4 ++ 0b0001000#7 ++ 10#5 ++ 22#5 ++ 13#5 ++ 0b000#3) = .ok (.sra 9#4 10#5 22#5 13#5) ∧
    decode (0b000#3 ++ 9#4 ++ 0b0001001#7 ++ 10#5 ++ 22#5 ++ 13#5 ++ 0b000#3) = .ok (.mul 9#4 10#5 22#5 13#5) ∧
    decode (0b000#3 ++ 9#4 ++ 0b0001010#7 ++ 10#5 ++ 22#5 ++ 13#5 ++ 2#3) = .ok (.mulh 9#4 10#5 22#5 13#5 2#3) ∧
    decode (0b000#3 ++ 9#4 ++ 0b0001011#7 ++ 10#5 ++ 22#5 ++ 13#5 ++ 0b000#3) = .ok (.div 9#4 10#5 22#5 13#5) ∧
    decode (0b000#3 ++ 9#4 ++ 0b0001100#7 ++ 10#5 ++ 22#5 ++ 13#5 ++ 0b000#3) = .ok (.rem 9#4 10#5 22#5 13#5) ∧
    decode (0b000#3 ++ 9#4 ++ 0b0001101#7 ++ 10#5 ++ 22#5 ++ 13#5 ++ 0b000#3) = .ok (.min 9#4 10#5 22#5 13#5) ∧
    decode (0b000#3 ++ 9#4 ++ 0b0001110#7 ++ 10#5 ++ 22#5 ++ 13#5 ++ 0b000#3) = .ok (.max 9#4 10#5 22#5 13#5) ∧
    decode (0b000#3 ++ 9#4 ++ 0b0001111#7 ++ 10#5 ++ 22#5 ++ 13#5 ++ 3#3) = .ok (.slt 9#4 10#5 22#5 13#5 3#3) ∧
    decode (0b000#3 ++ 9#4 ++ 0b0010000#7 ++ 10#5 ++ 22#5 ++ 13#5 ++ 0b000#3) = .ok (.sel 9#4 10#5 22#5 13#5) ∧
    decode (0b000#3 ++ 9#4 ++ 0b0010001#7 ++ 10#5 ++ 22#5 ++ 13#5 ++ 5#3) = .ok (.addsh 9#4 10#5 22#5 13#5 5#3) ∧
    decode (0b000#3 ++ 9#4 ++ 0b0010010#7 ++ 10#5 ++ 22#5 ++ 0#8) = .ok (.clz 9#4 10#5 22#5) ∧
    decode (0b000#3 ++ 9#4 ++ 0b0010011#7 ++ 10#5 ++ 22#5 ++ 0#8) = .ok (.popc 9#4 10#5 22#5) ∧
    decode (0b000#3 ++ 9#4 ++ 0b0010100#7 ++ 10#5 ++ 22#5 ++ 13#5 ++ 0b000#3) = .ok (.bfx 9#4 10#5 22#5 13#5) ∧
    decode (0b000#3 ++ 9#4 ++ 0b0010101#7 ++ 10#5 ++ 22#5 ++ 13#5 ++ 0b000#3) = .ok (.bfi 9#4 10#5 22#5 13#5) ∧
    decode (0b000#3 ++ 9#4 ++ 0b0100000#7 ++ 10#5 ++ 22#5 ++ 0xA5#8) = .ok (.addi 9#4 10#5 22#5 165#8) ∧
    decode (0b000#3 ++ 9#4 ++ 0b0100001#7 ++ 10#5 ++ 22#5 ++ 0xA5#8) = .ok (.andi 9#4 10#5 22#5 165#8) := by
  decide +kernel

/-- Words of S2, field by field from the encoding tables (R91, R92). -/
theorem test_words_S2 :
    decode (0b000#3 ++ 9#4 ++ 0b0100010#7 ++ 10#5 ++ 22#5 ++ 0xA5#8) = .ok (.ori 9#4 10#5 22#5 165#8) ∧
    decode (0b000#3 ++ 9#4 ++ 0b0100011#7 ++ 10#5 ++ 22#5 ++ 0xA5#8) = .ok (.xori 9#4 10#5 22#5 165#8) ∧
    decode (0b000#3 ++ 9#4 ++ 0b0100100#7 ++ 10#5 ++ 22#5 ++ 0b00#2 ++ 0x25#6) = .ok (.slli 9#4 10#5 22#5 37#6) ∧
    decode (0b000#3 ++ 9#4 ++ 0b0100101#7 ++ 10#5 ++ 22#5 ++ 0b00#2 ++ 0x25#6) = .ok (.srli 9#4 10#5 22#5 37#6) ∧
    decode (0b000#3 ++ 9#4 ++ 0b0100110#7 ++ 10#5 ++ 22#5 ++ 0b00#2 ++ 0x25#6) = .ok (.srai 9#4 10#5 22#5 37#6) ∧
    decode (0b000#3 ++ 9#4 ++ 0b0100111#7 ++ 10#5 ++ 22#5 ++ 0xA5#8) = .ok (.slti 9#4 10#5 22#5 165#8) ∧
    decode (0b000#3 ++ 9#4 ++ 0b0101000#7 ++ 10#5 ++ 0x1A5#13) = .ok (.li 9#4 10#5 421#13) ∧
    decode (0b000#3 ++ 9#4 ++ 0b0101001#7 ++ 10#5 ++ 0x1A5#13) = .ok (.lsh 9#4 10#5 421#13) ∧
    decode (0b000#3 ++ 9#4 ++ 0b0101010#7 ++ 10#5 ++ 22#5 ++ 13#5 ++ 5#3) = .ok (.agen 9#4 10#5 22#5 13#5 5#3) ∧
    decode (0b000#3 ++ 9#4 ++ 0b0110000#7 ++ 10#5 ++ 22#5 ++ 0xA5#8) = .ok (.lds 9#4 10#5 22#5 165#8) ∧
    decode (0b000#3 ++ 9#4 ++ 0b0110001#7 ++ 10#5 ++ 22#5 ++ 0xA5#8) = .ok (.sts 9#4 10#5 22#5 165#8) ∧
    decode (0b000#3 ++ 9#4 ++ 0b0110010#7 ++ 10#5 ++ 22#5 ++ 0xA5#8) = .ok (.ldt 9#4 10#5 22#5 165#8) ∧
    decode (0b000#3 ++ 9#4 ++ 1632#12 ++ 10#5 ++ 22#5 ++ 0b000#3) = .ok (.stx 9#4 10#5 22#5) ∧
    decode (0b000#3 ++ 9#4 ++ 0b0111000#7 ++ 10#5 ++ 22#5 ++ 13#5 ++ 0b000#3) = .ok (.aadd 9#4 10#5 22#5 13#5) ∧
    decode (0b000#3 ++ 9#4 ++ 0b0111001#7 ++ 10#5 ++ 22#5 ++ 13#5 ++ 0b000#3) = .ok (.aand 9#4 10#5 22#5 13#5) ∧
    decode (0b000#3 ++ 9#4 ++ 0b0111010#7 ++ 10#5 ++ 22#5 ++ 13#5 ++ 0b000#3) = .ok (.aor 9#4 10#5 22#5 13#5) ∧
    decode (0b000#3 ++ 9#4 ++ 0b0111011#7 ++ 10#5 ++ 22#5 ++ 13#5 ++ 0b000#3) = .ok (.axor 9#4 10#5 22#5 13#5) ∧
    decode (0b000#3 ++ 9#4 ++ 0b0111100#7 ++ 10#5 ++ 22#5 ++ 13#5 ++ 0b000#3) = .ok (.amin 9#4 10#5 22#5 13#5) ∧
    decode (0b000#3 ++ 9#4 ++ 0b0111101#7 ++ 10#5 ++ 22#5 ++ 13#5 ++ 0b000#3) = .ok (.amax 9#4 10#5 22#5 13#5) ∧
    decode (0b000#3 ++ 9#4 ++ 0b0111110#7 ++ 10#5 ++ 22#5 ++ 13#5 ++ 0b000#3) = .ok (.aswp 9#4 10#5 22#5 13#5) ∧
    decode (0b000#3 ++ 9#4 ++ 0b0111111#7 ++ 10#5 ++ 22#5 ++ 13#5 ++ 0b000#3) = .ok (.acas 9#4 10#5 22#5 13#5) ∧
    decode (0b000#3 ++ 9#4 ++ 0b1000000#7 ++ 10#5 ++ 22#5 ++ 13#5 ++ 0b000#3) = .ok (.aincw 9#4 10#5 22#5 13#5) ∧
    decode (0b000#3 ++ 9#4 ++ 0b1000001#7 ++ 10#5 ++ 22#5 ++ 13#5 ++ 0b000#3) = .ok (.aaddb 9#4 10#5 22#5 13#5) ∧
    decode (0b000#3 ++ 9#4 ++ 0b1000010#7 ++ 10#5 ++ 22#5 ++ 12#5 ++ 0b000#3) = .ok (.dcas 9#4 10#5 22#5 12#5) := by
  decide +kernel

/-- Words of S3, field by field from the encoding tables (R91, R92). -/
theorem test_words_S3 :
    decode (0b000#3 ++ 9#4 ++ 0b1000011#7 ++ 10#5 ++ 22#5 ++ 12#5 ++ 0b000#3) = .ok (.amov2 9#4 10#5 22#5 12#5) ∧
    decode (0b000#3 ++ 9#4 ++ 18874368#25) = .ok (.fence 9#4) ∧
    decode (0b000#3 ++ 9#4 ++ 19136512#25) = .ok (.sync 9#4) ∧
    decode (0b000#3 ++ 9#4 ++ 2368#12 ++ 10#5 ++ 0x2D#8) = .ok (.cwait 9#4 10#5 45#8) ∧
    decode (0b000#3 ++ 9#4 ++ 0b1010000#7 ++ 10#5 ++ 22#5 ++ 0xA5#8) = .ok (.beq 9#4 10#5 22#5 165#8) ∧
    decode (0b000#3 ++ 9#4 ++ 0b1010001#7 ++ 10#5 ++ 22#5 ++ 0xA5#8) = .ok (.bne 9#4 10#5 22#5 165#8) ∧
    decode (0b000#3 ++ 9#4 ++ 0b1010010#7 ++ 10#5 ++ 22#5 ++ 0xA5#8) = .ok (.blt 9#4 10#5 22#5 165#8) ∧
    decode (0b000#3 ++ 9#4 ++ 0b1010011#7 ++ 10#5 ++ 22#5 ++ 0xA5#8) = .ok (.bge 9#4 10#5 22#5 165#8) ∧
    decode (0b000#3 ++ 9#4 ++ 0b1010100#7 ++ 10#5 ++ 22#5 ++ 0xA5#8) = .ok (.bltn 9#4 10#5 22#5 165#8) ∧
    decode (0b000#3 ++ 9#4 ++ 0b1010101#7 ++ 10#5 ++ 22#5 ++ 0xA5#8) = .ok (.bgen 9#4 10#5 22#5 165#8) ∧
    decode (0b000#3 ++ 9#4 ++ 0b1010110#7 ++ 0x1A5A5#18) = .ok (.j 9#4 107941#18) ∧
    decode (0b000#3 ++ 9#4 ++ 0b1010111#7 ++ 0x1A5A5#18) = .ok (.jal 9#4 107941#18) ∧
    decode (0b000#3 ++ 9#4 ++ 2816#12 ++ 10#5 ++ 0#8) = .ok (.jr 9#4 10#5) ∧
    decode (0b000#3 ++ 9#4 ++ 0b1011001#7 ++ 6#5 ++ 3#5 ++ 0xA5#8) = .ok (.bw 9#4 6#5 3#5 165#8) ∧
    decode (0b000#3 ++ 9#4 ++ 0b1011010#7 ++ 10#5 ++ 5#5 ++ 0b00000#5 ++ 4#3) = .ok (.rdw 9#4 10#5 5#5 4#3) ∧
    decode (0b000#3 ++ 9#4 ++ 0b1011011#7 ++ 10#5 ++ 0b00000#5 ++ 0xA5#8) = .ok (.loop 9#4 10#5 165#8) ∧
    decode (0b000#3 ++ 9#4 ++ 0b1011100#7 ++ 0x1A5A5#18) = .ok (.lbr 9#4 107941#18) ∧
    decode (0b000#3 ++ 9#4 ++ 24379392#25) = .ok (.region 9#4) ∧
    decode (0b000#3 ++ 9#4 ++ 0b1100000#7 ++ 10#5 ++ 0b0#1 ++ 0x345#12) = .ok (.csrr 9#4 10#5 837#12) ∧
    decode (0b000#3 ++ 9#4 ++ 0b1100001#7 ++ 10#5 ++ 0b0#1 ++ 0x345#12) = .ok (.csrw 9#4 10#5 837#12) ∧
    decode (0b000#3 ++ 9#4 ++ 3136#12 ++ 0x1A5#13) = .ok (.trap 9#4 421#13) ∧
    decode (0b000#3 ++ 9#4 ++ 25952256#25) = .ok (.exit 9#4) ∧
    decode (0b000#3 ++ 9#4 ++ 26214400#25) = .ok (.node 9#4) ∧
    decode (0b000#3 ++ 9#4 ++ 3232#12 ++ 10#5 ++ 0#8) = .ok (.launch 9#4 10#5) := by
  decide +kernel

/-- Words of S4, field by field from the encoding tables (R91, R92). -/
theorem test_words_S4 :
    decode (0b000#3 ++ 9#4 ++ 3264#12 ++ 0x1A5#13) = .ok (.brk 9#4 421#13) ∧
    decode (0b000#3 ++ 9#4 ++ 27000832#25) = .ok (.eret 9#4) ∧
    decode (0b000#3 ++ 9#4 ++ 3360#12 ++ 2#2 ++ 4#3 ++ 0x65#8) = .ok (.sphint 9#4 2#2 4#3 101#8) := by
  decide +kernel

/-- Words of V1, field by field from the encoding tables (R93, R94). -/
theorem test_words_V1 :
    decode (0b001#3 ++ 9#4 ++ 0#25) = .ok (.vnop 9#4) ∧
    decode (0b001#3 ++ 9#4 ++ 0b000001#6 ++ 5#3 ++ 1#1 ++ 10#5 ++ 22#5 ++ 13#5) = .ok (.vadd 9#4 5#3 1#1 10#5 22#5 13#5) ∧
    decode (0b001#3 ++ 9#4 ++ 0b000010#6 ++ 5#3 ++ 1#1 ++ 10#5 ++ 22#5 ++ 13#5) = .ok (.vsub 9#4 5#3 1#1 10#5 22#5 13#5) ∧
    decode (0b001#3 ++ 9#4 ++ 0b000011#6 ++ 5#3 ++ 1#1 ++ 10#5 ++ 22#5 ++ 13#5) = .ok (.vmul 9#4 5#3 1#1 10#5 22#5 13#5) ∧
    decode (0b001#3 ++ 9#4 ++ 0b000100#6 ++ 5#3 ++ 1#1 ++ 10#5 ++ 22#5 ++ 13#5) = .ok (.vmin 9#4 5#3 1#1 10#5 22#5 13#5) ∧
    decode (0b001#3 ++ 9#4 ++ 0b000101#6 ++ 5#3 ++ 1#1 ++ 10#5 ++ 22#5 ++ 13#5) = .ok (.vmax 9#4 5#3 1#1 10#5 22#5 13#5) ∧
    decode (0b001#3 ++ 9#4 ++ 0b000110#6 ++ 5#3 ++ 1#1 ++ 10#5 ++ 22#5 ++ 13#5) = .ok (.vand 9#4 5#3 1#1 10#5 22#5 13#5) ∧
    decode (0b001#3 ++ 9#4 ++ 0b000111#6 ++ 5#3 ++ 1#1 ++ 10#5 ++ 22#5 ++ 13#5) = .ok (.vor 9#4 5#3 1#1 10#5 22#5 13#5) ∧
    decode (0b001#3 ++ 9#4 ++ 0b001000#6 ++ 5#3 ++ 1#1 ++ 10#5 ++ 22#5 ++ 13#5) = .ok (.vxor 9#4 5#3 1#1 10#5 22#5 13#5) ∧
    decode (0b001#3 ++ 9#4 ++ 0b001001#6 ++ 5#3 ++ 1#1 ++ 10#5 ++ 22#5 ++ 13#5) = .ok (.vshl 9#4 5#3 1#1 10#5 22#5 13#5) ∧
    decode (0b001#3 ++ 9#4 ++ 0b001010#6 ++ 5#3 ++ 1#1 ++ 10#5 ++ 22#5 ++ 13#5) = .ok (.vshr 9#4 5#3 1#1 10#5 22#5 13#5) ∧
    decode (0b001#3 ++ 9#4 ++ 0b001011#6 ++ 5#3 ++ 1#1 ++ 10#5 ++ 22#5 ++ 13#5) = .ok (.vsra 9#4 5#3 1#1 10#5 22#5 13#5) ∧
    decode (0b001#3 ++ 9#4 ++ 0b001100#6 ++ 5#3 ++ 1#1 ++ 0b00#2 ++ 3#3 ++ 10#5 ++ 22#5) = .ok (.vceq 9#4 5#3 1#1 3#3 10#5 22#5) ∧
    decode (0b001#3 ++ 9#4 ++ 0b001101#6 ++ 5#3 ++ 1#1 ++ 0b00#2 ++ 3#3 ++ 10#5 ++ 22#5) = .ok (.vclt 9#4 5#3 1#1 3#3 10#5 22#5) ∧
    decode (0b001#3 ++ 9#4 ++ 0b001110#6 ++ 5#3 ++ 1#1 ++ 0b00#2 ++ 3#3 ++ 10#5 ++ 22#5) = .ok (.vcltn 9#4 5#3 1#1 3#3 10#5 22#5) ∧
    decode (0b001#3 ++ 9#4 ++ 0b010000#6 ++ 5#3 ++ 1#1 ++ 10#5 ++ 22#5 ++ 13#5) = .ok (.fadd 9#4 5#3 1#1 10#5 22#5 13#5) ∧
    decode (0b001#3 ++ 9#4 ++ 0b010001#6 ++ 5#3 ++ 1#1 ++ 10#5 ++ 22#5 ++ 13#5) = .ok (.fsub 9#4 5#3 1#1 10#5 22#5 13#5) ∧
    decode (0b001#3 ++ 9#4 ++ 0b010010#6 ++ 5#3 ++ 1#1 ++ 10#5 ++ 22#5 ++ 13#5) = .ok (.fmul 9#4 5#3 1#1 10#5 22#5 13#5) ∧
    decode (0b001#3 ++ 9#4 ++ 0b010011#6 ++ 5#3 ++ 1#1 ++ 10#5 ++ 22#5 ++ 13#5) = .ok (.ffma 9#4 5#3 1#1 10#5 22#5 13#5) ∧
    decode (0b001#3 ++ 9#4 ++ 0b010100#6 ++ 5#3 ++ 1#1 ++ 10#5 ++ 22#5 ++ 13#5) = .ok (.fmin 9#4 5#3 1#1 10#5 22#5 13#5) ∧
    decode (0b001#3 ++ 9#4 ++ 0b010101#6 ++ 5#3 ++ 1#1 ++ 10#5 ++ 22#5 ++ 13#5) = .ok (.fmax 9#4 5#3 1#1 10#5 22#5 13#5) ∧
    decode (0b001#3 ++ 9#4 ++ 0b010110#6 ++ 5#3 ++ 1#1 ++ 0b00#2 ++ 3#3 ++ 10#5 ++ 22#5) = .ok (.fceq 9#4 5#3 1#1 3#3 10#5 22#5) ∧
    decode (0b001#3 ++ 9#4 ++ 0b010111#6 ++ 5#3 ++ 1#1 ++ 0b00#2 ++ 3#3 ++ 10#5 ++ 22#5) = .ok (.fclt 9#4 5#3 1#1 3#3 10#5 22#5) ∧
    decode (0b001#3 ++ 9#4 ++ 0b011000#6 ++ 5#3 ++ 1#1 ++ 0b00#2 ++ 3#3 ++ 10#5 ++ 22#5) = .ok (.fcle 9#4 5#3 1#1 3#3 10#5 22#5) := by
  decide +kernel

/-- Words of V2, field by field from the encoding tables (R93, R94). -/
theorem test_words_V2 :
    decode (0b001#3 ++ 9#4 ++ 0b011001#6 ++ 5#3 ++ 1#1 ++ 10#5 ++ 22#5 ++ 13#5) = .ok (.vcvt 9#4 5#3 1#1 10#5 22#5 13#5) ∧
    decode (0b001#3 ++ 9#4 ++ 0b011010#6 ++ 5#3 ++ 1#1 ++ 10#5 ++ 22#5 ++ 13#5) = .ok (.vqnt 9#4 5#3 1#1 10#5 22#5 13#5) ∧
    decode (0b001#3 ++ 9#4 ++ 0b011011#6 ++ 5#3 ++ 1#1 ++ 10#5 ++ 22#5 ++ 0b00000#5) = .ok (.vlut 9#4 5#3 1#1 10#5 22#5) ∧
    decode (0b001#3 ++ 9#4 ++ 0b011100#6 ++ 5#3 ++ 1#1 ++ 10#5 ++ 22#5 ++ 13#5) = .ok (.vsel 9#4 5#3 1#1 10#5 22#5 13#5) ∧
    decode (0b001#3 ++ 9#4 ++ 0b011101#6 ++ 5#3 ++ 1#1 ++ 10#5 ++ 22#5 ++ 1#1 ++ 0b0#1 ++ 5#3) = .ok (.vreda 9#4 5#3 1#1 10#5 22#5 1#1 5#3) ∧
    decode (0b001#3 ++ 9#4 ++ 0b011110#6 ++ 5#3 ++ 1#1 ++ 10#5 ++ 22#5 ++ 1#1 ++ 0b0#1 ++ 5#3) = .ok (.freda 9#4 5#3 1#1 10#5 22#5 1#1 5#3) ∧
    decode (0b001#3 ++ 9#4 ++ 0b011111#6 ++ 5#3 ++ 1#1 ++ 10#5 ++ 22#5 ++ 1#1 ++ 0b0#1 ++ 5#3) = .ok (.fredm 9#4 5#3 1#1 10#5 22#5 1#1 5#3) ∧
    decode (0b001#3 ++ 9#4 ++ 0b100000#6 ++ 5#3 ++ 1#1 ++ 10#5 ++ 22#5 ++ 1#1 ++ 0b0#1 ++ 5#3) = .ok (.vredm 9#4 5#3 1#1 10#5 22#5 1#1 5#3) ∧
    decode (0b001#3 ++ 9#4 ++ 0b100001#6 ++ 5#3 ++ 1#1 ++ 10#5 ++ 22#5 ++ 0b000#3 ++ 0#1 ++ 1#1) = .ok (.vscan 9#4 5#3 1#1 10#5 22#5 0#1 1#1) ∧
    decode (0b001#3 ++ 9#4 ++ 0b100010#6 ++ 5#3 ++ 1#1 ++ 10#5 ++ 22#5 ++ 13#5) = .ok (.vperm 9#4 5#3 1#1 10#5 22#5 13#5) ∧
    decode (0b001#3 ++ 9#4 ++ 0b100011#6 ++ 5#3 ++ 0b000#3 ++ 3#3 ++ 0b00#2 ++ 6#3 ++ 0b00000#5) = .ok (.vflag 9#4 5#3 3#3 6#3) ∧
    decode (0b001#3 ++ 9#4 ++ 0b100100#6 ++ 5#3 ++ 0b000#3 ++ 3#3 ++ 0b00#2 ++ 6#3 ++ 0b00#2 ++ 5#3) = .ok (.pand 9#4 5#3 3#3 6#3 5#3) ∧
    decode (0b001#3 ++ 9#4 ++ 0b100101#6 ++ 5#3 ++ 0b000#3 ++ 3#3 ++ 0b00#2 ++ 6#3 ++ 0b00#2 ++ 5#3) = .ok (.por 9#4 5#3 3#3 6#3 5#3) ∧
    decode (0b001#3 ++ 9#4 ++ 0b100110#6 ++ 5#3 ++ 0b000#3 ++ 3#3 ++ 0b00#2 ++ 6#3 ++ 0b00#2 ++ 5#3) = .ok (.pxor 9#4 5#3 3#3 6#3 5#3) ∧
    decode (0b001#3 ++ 9#4 ++ 0b101000#6 ++ 5#3 ++ 1#1 ++ 10#5 ++ 22#5 ++ 0b00000#5) = .ok (.vmov 9#4 5#3 1#1 10#5 22#5) ∧
    decode (0b001#3 ++ 9#4 ++ 0b101001#6 ++ 5#3 ++ 0b0#1 ++ 10#5 ++ 0#10) = .ok (.vbcast 9#4 5#3 10#5) ∧
    decode (0b001#3 ++ 9#4 ++ 0b101010#6 ++ 5#3 ++ 1#1 ++ 10#5 ++ 22#5 ++ 13#5) = .ok (.vrmg 9#4 5#3 1#1 10#5 22#5 13#5) ∧
    decode (0b001#3 ++ 9#4 ++ 22544384#25) = .ok (.vrms 9#4) ∧
    decode (0b001#3 ++ 9#4 ++ 0b101100#6 ++ 5#3 ++ 0b0#1 ++ 10#5 ++ 0#10) = .ok (.vmovt 9#4 5#3 10#5) ∧
    decode (0b001#3 ++ 9#4 ++ 0b101101#6 ++ 5#3 ++ 0b0#1 ++ 10#5 ++ 0#10) = .ok (.vmova 9#4 5#3 10#5) ∧
    decode (0b001#3 ++ 9#4 ++ 2944#12 ++ 5#3 ++ 0#10) = .ok (.vamov 9#4 5#3) ∧
    decode (0b001#3 ++ 9#4 ++ 0b101111#6 ++ 5#3 ++ 0b0#1 ++ 10#5 ++ 0b000#3 ++ 2#2 ++ 0b00000#5) = .ok (.vpop 9#4 5#3 10#5 2#2) ∧
    decode (0b001#3 ++ 9#4 ++ 0b110000#6 ++ 5#3 ++ 1#1 ++ 10#5 ++ 3#3 ++ 0x45#7) = .ok (.vld 9#4 5#3 1#1 10#5 3#3 69#7) ∧
    decode (0b001#3 ++ 9#4 ++ 0b110001#6 ++ 5#3 ++ 1#1 ++ 10#5 ++ 3#3 ++ 0x45#7) = .ok (.vst 9#4 5#3 1#1 10#5 3#3 69#7) := by
  decide +kernel

/-- Words of V3, field by field from the encoding tables (R93, R94). -/
theorem test_words_V3 :
    decode (0b001#3 ++ 9#4 ++ 0b110010#6 ++ 5#3 ++ 1#1 ++ 10#5 ++ 3#3 ++ 0x45#7) = .ok (.vgth 9#4 5#3 1#1 10#5 3#3 69#7) ∧
    decode (0b001#3 ++ 9#4 ++ 0b110011#6 ++ 5#3 ++ 1#1 ++ 10#5 ++ 3#3 ++ 0x45#7) = .ok (.vsct 9#4 5#3 1#1 10#5 3#3 69#7) ∧
    decode (0b001#3 ++ 9#4 ++ 0b110100#6 ++ 5#3 ++ 0b0#1 ++ 10#5 ++ 0b00#2 ++ 0xA5#8) = .ok (.vldt 9#4 5#3 10#5 165#8) := by
  decide +kernel

/-- Words of M, field by field from the encoding tables (R95). -/
theorem test_words_M :
    decode (0b010#3 ++ 9#4 ++ 0#25) = .ok (.mnop 9#4) ∧
    decode (0b010#3 ++ 9#4 ++ 16384#19 ++ 0x25#6) = .ok (.mlease 9#4 37#6) ∧
    decode (0b010#3 ++ 9#4 ++ 2097152#25) = .ok (.mrel 9#4) ∧
    decode (0b010#3 ++ 9#4 ++ 0b00011#5 ++ 1#1 ++ 0b000#3 ++ 12#4 ++ 0x25#6 ++ 0b0#1 ++ 0#1 ++ 0b0000#4) = .ok (.mwld 9#4 1#1 12#4 37#6 0#1) ∧
    decode (0b010#3 ++ 9#4 ++ 0b00100#5 ++ 1#1 ++ 5#3 ++ 12#4 ++ 0x25#6 ++ 0#1 ++ 1#1 ++ 0b0000#4) = .ok (.mma 9#4 1#1 5#3 12#4 37#6 0#1 1#1) ∧
    decode (0b010#3 ++ 9#4 ++ 0b00101#5 ++ 1#1 ++ 5#3 ++ 12#4 ++ 0x25#6 ++ 0#1 ++ 1#1 ++ 0b0000#4) = .ok (.mmaid 9#4 1#1 5#3 12#4 37#6 0#1 1#1) ∧
    decode (0b010#3 ++ 9#4 ++ 0b00110#5 ++ 1#1 ++ 5#3 ++ 12#4 ++ 0x25#6 ++ 0#1 ++ 1#1 ++ 3#4) = .ok (.mma32 9#4 1#1 5#3 12#4 37#6 0#1 1#1 3#4) ∧
    decode (0b010#3 ++ 9#4 ++ 0b00111#5 ++ 1#1 ++ 5#3 ++ 0b0000#4 ++ 0x25#6 ++ 0b000000#6) = .ok (.mzero 9#4 1#1 5#3 37#6) ∧
    decode (0b010#3 ++ 9#4 ++ 0b01000#5 ++ 1#1 ++ 5#3 ++ 0b0000#4 ++ 0x25#6 ++ 0b000000#6) = .ok (.mexpsh 9#4 1#1 5#3 37#6) ∧
    decode (0b010#3 ++ 9#4 ++ 0b01001#5 ++ 1#1 ++ 5#3 ++ 0b0000#4 ++ 0x25#6 ++ 0b000000#6) = .ok (.mstat 9#4 1#1 5#3 37#6) ∧
    decode (0b010#3 ++ 9#4 ++ 0b010100#6 ++ 5#3 ++ 12#4 ++ 0x25#6 ++ 1#1 ++ 0#1 ++ 0b0000#4) = .ok (.mattn 9#4 5#3 12#4 37#6 1#1 0#1) := by
  decide +kernel

/-- Words of K, field by field from the encoding tables (R96). -/
theorem test_words_K :
    decode (0b011#3 ++ 9#4 ++ 0#25) = .ok (.knop 9#4) ∧
    decode (0b011#3 ++ 9#4 ++ 0b00001#5 ++ 1#1 ++ 2#2 ++ 0b0000000#7 ++ 0x25#6 ++ 0b0000#4) = .ok (.kload 9#4 1#1 2#2 37#6) ∧
    decode (0b011#3 ++ 9#4 ++ 0b00010#5 ++ 1#1 ++ 2#2 ++ 0b0000000#7 ++ 0x25#6 ++ 0b0000#4) = .ok (.kpatch 9#4 1#1 2#2 37#6) ∧
    decode (0b011#3 ++ 9#4 ++ 0b00100#5 ++ 1#1 ++ 0#9 ++ 0x25#6 ++ 0b0000#4) = .ok (.kgain 9#4 1#1 37#6) ∧
    decode (0b011#3 ++ 9#4 ++ 0b00101#5 ++ 1#1 ++ 0#9 ++ 0x25#6 ++ 0b0000#4) = .ok (.khist 9#4 1#1 37#6) ∧
    decode (0b011#3 ++ 9#4 ++ 0b00110#5 ++ 1#1 ++ 2#2 ++ 5#3 ++ 12#4 ++ 0x25#6 ++ 0b0#1 ++ 0#1 ++ 1#1 ++ 0b0#1) = .ok (.kout 9#4 1#1 2#2 5#3 12#4 37#6 0#1 1#1) ∧
    decode (0b011#3 ++ 9#4 ++ 0b00110#5 ++ 1#1 ++ 2#2 ++ 5#3 ++ 0b0000#4 ++ 0x25#6 ++ 0b1#1 ++ 0#1 ++ 1#1 ++ 0b0#1) = .ok (.koutD 9#4 1#1 2#2 5#3 37#6 0#1 1#1) ∧
    decode (0b011#3 ++ 9#4 ++ 0b001110#6 ++ 2#2 ++ 0b0000000#7 ++ 0x25#6 ++ 0b0000#4) = .ok (.smscfg 9#4 2#2 37#6) ∧
    decode (0b011#3 ++ 9#4 ++ 8192#15 ++ 0x25#6 ++ 0b0000#4) = .ok (.smsrst 9#4 37#6) := by
  decide +kernel

/-- Words of C, field by field from the encoding tables (R97). -/
theorem test_words_C :
    decode (0b100#3 ++ 9#4 ++ 0#25) = .ok (.cnop 9#4) ∧
    decode (0b100#3 ++ 9#4 ++ 0b00001#5 ++ 0x25#6 ++ 0b0000#4 ++ 1#1 ++ 0#9) = .ok (.ccpy 9#4 37#6 1#1) ∧
    decode (0b100#3 ++ 9#4 ++ 0b00010#5 ++ 0x25#6 ++ 0b0000#4 ++ 1#1 ++ 0#9) = .ok (.c2d 9#4 37#6 1#1) ∧
    decode (0b100#3 ++ 9#4 ++ 0b00011#5 ++ 0x25#6 ++ 0b0000#4 ++ 1#1 ++ 0b0000#4 ++ 0#1 ++ 0b0000#4) = .ok (.cgth 9#4 37#6 1#1 0#1) ∧
    decode (0b100#3 ++ 9#4 ++ 0b00011#5 ++ 0x25#6 ++ 0b0000#4 ++ 1#1 ++ 0b1#1 ++ 5#3 ++ 0b00000#5) = .ok (.cgthArena 9#4 37#6 1#1 5#3) ∧
    decode (0b100#3 ++ 9#4 ++ 0b00100#5 ++ 0x25#6 ++ 0b0000#4 ++ 1#1 ++ 0b0000#4 ++ 0#1 ++ 0b0000#4) = .ok (.csct 9#4 37#6 1#1 0#1) ∧
    decode (0b100#3 ++ 9#4 ++ 0b00100#5 ++ 0x25#6 ++ 0b0000#4 ++ 1#1 ++ 0b1#1 ++ 5#3 ++ 0b00000#5) = .ok (.csctArena 9#4 37#6 1#1 5#3) ∧
    decode (0b100#3 ++ 9#4 ++ 0b00101#5 ++ 0x25#6 ++ 12#4 ++ 1#1 ++ 0#1 ++ 0#8) = .ok (.ctile 9#4 37#6 12#4 1#1 0#1) ∧
    decode (0b100#3 ++ 9#4 ++ 0b00110#5 ++ 0x25#6 ++ 0b0000#4 ++ 1#1 ++ 5#3 ++ 0#1 ++ 0b00000#5) = .ok (.ccb 9#4 37#6 1#1 5#3 0#1) ∧
    decode (0b100#3 ++ 9#4 ++ 0b00111#5 ++ 0x25#6 ++ 12#4 ++ 1#1 ++ 0#9) = .ok (.cdec 9#4 37#6 12#4 1#1) ∧
    decode (0b100#3 ++ 9#4 ++ 0b01000#5 ++ 0x25#6 ++ 0b0000#4 ++ 1#1 ++ 0#9) = .ok (.cenc 9#4 37#6 1#1) ∧
    decode (0b100#3 ++ 9#4 ++ 0b01001#5 ++ 0x25#6 ++ 0b0000#4 ++ 1#1 ++ 2#2 ++ 0b0000000#7) = .ok (.cqld 9#4 37#6 1#1 2#2) ∧
    decode (0b100#3 ++ 9#4 ++ 0b01010#5 ++ 0x25#6 ++ 0b0000#4 ++ 1#1 ++ 0#9) = .ok (.cfill 9#4 37#6 1#1) := by
  decide +kernel

/-- Words of Q, field by field from the encoding tables (R98). -/
theorem test_words_Q :
    decode (0b101#3 ++ 9#4 ++ 0#25) = .ok (.qnop 9#4) ∧
    decode (0b101#3 ++ 9#4 ++ 0b00001#5 ++ 0x25#6 ++ 2#2 ++ 1#1 ++ 5#3 ++ 0#1 ++ 0b0000000#7) = .ok (.qscan 9#4 37#6 2#2 1#1 5#3 0#1) ∧
    decode (0b101#3 ++ 9#4 ++ 0b00010#5 ++ 0x25#6 ++ 2#2 ++ 1#1 ++ 0#1 ++ 1#1 ++ 0#9) = .ok (.qtopk 9#4 37#6 2#2 1#1 0#1 1#1) ∧
    decode (0b101#3 ++ 9#4 ++ 0b00011#5 ++ 0x25#6 ++ 2#2 ++ 1#1 ++ 0#1 ++ 1#1 ++ 0#9) = .ok (.qred 9#4 37#6 2#2 1#1 0#1 1#1) := by
  decide +kernel

/-- Words of Prefix, field by field from the encoding tables (R43, R60 to R63). -/
theorem test_words_Prefix :
    decode (0b1110000#7 ++ 0x1234567#25) = .ok (.pimm 19088743#25) ∧
    decode (0b1110001#7 ++ 4#3 ++ 2#2 ++ 3#3 ++ 1#2 ++ 0#15) = .ok (.pmem 4#3 2#2 3#3 1#2) ∧
    decode (0b1110010#7 ++ 0xA5#8 ++ 5#3 ++ 1#1 ++ 0#1 ++ 1#1 ++ 0#11) = .ok (.prep 165#8 5#3 1#1 0#1 1#1) := by
  decide +kernel
/-! ### Ill-formed instructions -/

/-- R44 check 3: what each limit of an operand refuses, beside the last value it allows. -/
theorem test_operand_limits :
    (Sys2Proof.Instr.mulh 0#4 1#5 2#5 3#5 3#3).wellFormed = false ∧ (Sys2Proof.Instr.mulh 0#4 1#5 2#5 3#5 2#3).wellFormed = true ∧
    (Sys2Proof.Instr.slt 0#4 1#5 2#5 3#5 4#3).wellFormed = false ∧ (Sys2Proof.Instr.slt 0#4 1#5 2#5 3#5 3#3).wellFormed = true ∧
    (Sys2Proof.Instr.ldt 0#4 1#5 2#5 7#8).wellFormed = false ∧ (Sys2Proof.Instr.ldt 0#4 1#5 2#5 8#8).wellFormed = true ∧
    (Sys2Proof.Instr.dcas 0#4 1#5 2#5 4#5).wellFormed = false ∧ (Sys2Proof.Instr.dcas 0#4 2#5 2#5 4#5).wellFormed = true ∧
    (Sys2Proof.Instr.amov2 0#4 2#5 2#5 5#5).wellFormed = false ∧ (Sys2Proof.Instr.cwait 0#4 1#5 64#8).wellFormed = false ∧
    (Sys2Proof.Instr.bw 0#4 8#5 0#5 0#8).wellFormed = false ∧ (Sys2Proof.Instr.bw 0#4 7#5 4#5 0#8).wellFormed = false ∧
    (Sys2Proof.Instr.rdw 0#4 1#5 8#5 0#3).wellFormed = false ∧ (Sys2Proof.Instr.rdw 0#4 1#5 7#5 5#3).wellFormed = false ∧
    (Sys2Proof.Instr.csrr 0#4 1#5 0x002#12).wellFormed = false ∧ (Sys2Proof.Instr.csrw 0#4 1#5 0x0FF#12).wellFormed = false ∧
    (Sys2Proof.Instr.sphint 0#4 3#2 1#3 0#8).wellFormed = false ∧ (Sys2Proof.Instr.sphint 0#4 2#2 0#3 0#8).wellFormed = false ∧
    (Sys2Proof.Instr.sphint 0#4 0#2 4#3 128#8).wellFormed = false ∧ (Sys2Proof.Instr.sphint 0#4 0#2 4#3 127#8).wellFormed = true := by
  decide +kernel

/-- R44 check 3 for vector, Pier and prefix words. -/
theorem test_vector_limits :
    (Sys2Proof.Instr.vceq 0#4 0#3 0#1 0#3 1#5 2#5).wellFormed = false ∧ (Sys2Proof.Instr.fcle 0#4 0#3 0#1 0#3 1#5 2#5).wellFormed = false ∧
    (Sys2Proof.Instr.vcvt 0#4 0#3 0#1 1#5 2#5 0x11#5).wellFormed = false ∧ (Sys2Proof.Instr.vcvt 0#4 0#3 0#1 1#5 2#5 0x10#5).wellFormed = true ∧
    (Sys2Proof.Instr.vreda 0#4 0#3 0#1 1#5 2#5 0#1 1#3).wellFormed = false ∧ (Sys2Proof.Instr.por 0#4 0#3 0#3 1#3 2#3).wellFormed = false ∧
    (Sys2Proof.Instr.vgth 0#4 0#3 0#1 1#5 0#3 0#7).wellFormed = false ∧ (Sys2Proof.Instr.vldt 0#4 0#3 1#5 7#8).wellFormed = false ∧
    (Sys2Proof.Instr.qscan 0#4 0#6 3#2 0#1 0#3 0#1).wellFormed = false ∧ (Sys2Proof.Instr.qscan 0#4 0#6 0#2 0#1 7#3 0#1).wellFormed = false ∧
    (Sys2Proof.Instr.qtopk 0#4 0#6 3#2 0#1 0#1 0#1).wellFormed = false ∧ (Sys2Proof.Instr.qred 0#4 0#6 3#2 0#1 0#1 0#1).wellFormed = false ∧
    (Sys2Proof.Instr.pmem 5#3 0#2 0#3 0#2).wellFormed = false ∧ (Sys2Proof.Instr.pmem 0#3 0#2 5#3 0#2).wellFormed = false ∧
    (Sys2Proof.Instr.pmem 0#3 0#2 0#3 3#2).wellFormed = false ∧ (Sys2Proof.Instr.pmem 4#3 0#2 4#3 2#2).wellFormed = true := by
  decide +kernel

/-- R44 check 5: a read-direction register written, a write-direction register read, a queue register where none may stand. -/
theorem test_queue_directions :
    (Sys2Proof.Instr.add 0#4 29#5 1#5 2#5).wellFormed = false ∧ (Sys2Proof.Instr.add 0#4 30#5 31#5 29#5).wellFormed = true ∧
    (Sys2Proof.Instr.add 0#4 1#5 24#5 2#5).wellFormed = false ∧ (Sys2Proof.Instr.sel 0#4 24#5 1#5 2#5).wellFormed = false ∧
    (Sys2Proof.Instr.ldt 0#4 30#5 2#5 8#8).wellFormed = false ∧ (Sys2Proof.Instr.dcas 0#4 2#5 30#5 4#5).wellFormed = false ∧
    (Sys2Proof.Instr.jr 0#4 28#5).wellFormed = false := by
  decide +kernel

/-- R44: a word that breaks a limit stands for no instruction. -/
theorem test_ill_words :
    decode (0b000#3 ++ 0#4 ++ 0b0001010#7 ++ 1#5 ++ 2#5 ++ 3#5 ++ 3#3) = .error .ill ∧
    decode (0b111#3 ++ 0b0001#4 ++ 5#3 ++ 0#2 ++ 0#3 ++ 0#2 ++ 0#15) = .error .illPrefix := by
  decide +kernel

/-! ### Single steps, with results of the manual's worked examples -/

/-- The state after an instruction. -/
def after (i : Sys2Proof.Instr) (s : State) : State :=
  match exec i s with
  | .next t => t
  | _ => s
def g (n : Fin 32) (s : State) : W64 := (s.reck 0#7 0#2).g[n]

/-- R132's example: BFX of 12 bits at 16. R136's example: an arena address, its position wrapped. -/
theorem test_fields_and_arenas :
    g 4 (after (.bfx 0#4 4#5 5#5 6#5) (headS .S (.bfx 0#4 4#5 5#5 6#5) (fun k => { k with g := (k.g.set 5 0xABCD1234#64).set 6 0xC10#64 }))) =
      0xBCD#64 ∧
    g 5 (after (.agen 0#4 5#5 6#5 7#5 2#3) (headS .S (.agen 0#4 5#5 6#5 7#5 2#3) (fun k => { k with
      g := (k.g.set 6 3#64).set 7 9000#64, ag := k.ag.set 2 ⟨0x2000000000#64, 0x400000#64, 256#64, 8192#32⟩ }))) = 0x2000C32800#64 := by
  decide +kernel

/-- R61's example: LI with a PIMM of 0x91A2. -/
theorem test_li_pimm :
    g 3 (after (.li 0#4 3#5 0x1678#13) (reckIs (fun _ => { Reckoner.reset with run := .running }.modStr .S (fun t =>
      { t with queue := [{ unitFor (.li 0#4 3#5 0x1678#13) with pimms := [0x91A2#25] }] })))) = 0x12345678#64 := by
  decide +kernel

/-- R131: a sum wraps; DIV of the smallest number by -1 and by 0, as the table of corner values gives. -/
theorem test_scalar_corners :
    g 4 (after (.add 0#4 4#5 5#5 5#5) (headS .S (.add 0#4 4#5 5#5 5#5) (fun k => { k with g := k.g.set 5 0x8000000000000001#64 }))) = 2#64 ∧
    g 4 (after (.div 0#4 4#5 5#5 6#5) (headS .S (.div 0#4 4#5 5#5 6#5) (fun k =>
      { k with g := (k.g.set 5 0x8000000000000000#64).set 6 0xFFFFFFFFFFFFFFFF#64 }))) = 0x8000000000000000#64 ∧
    g 4 (after (.div 0#4 4#5 5#5 0#5) (headS .S (.div 0#4 4#5 5#5 0#5) (fun k => { k with g := k.g.set 5 7#64 }))) = 0xFFFFFFFFFFFFFFFF#64 := by
  decide +kernel

/-- A vector word at the head of V, with v1 in every lane of `a`, under a rounding mode; the value it has scheduled. -/
def vscheduled (i : Sys2Proof.Instr) (vrm : BitVec 2) (a : Row) : Option (W64 × W64 × W32) :=
  let s := spanIs allFull (headS .V i (fun k => { k with v := k.v.set 1 a, vlive := 2#32, vrm := vrm, scyV := 200#64 }))
  let s := s.mapReck 0#7 0#2 (fun k => { k with vbank := Vector.replicate 4 ⟨.full, none, 0, 0, none⟩ })
  match ((after i s).reck 0#7 0#2).landings with
  | [l] => some (l.issued, l.due, l.value.extractLsb' 0 32)
  | _ => none

/-- R217's example: bf16.f32 in two rounding modes; E4M3 past its largest value and at its smallest. -/
theorem test_vcvt :
    vscheduled (.vcvt 0#4 0#3 0#1 2#5 1#5 4#5) 0#2 0x3F808000#1024 = some (200#64, 204#64, 0x3F80#32) ∧
    vscheduled (.vcvt 0#4 0#3 0#1 2#5 1#5 4#5) 3#2 0x3F808000#1024 = some (200#64, 204#64, 0x3F81#32) ∧
    vscheduled (.vcvt 0#4 0#3 0#1 2#5 1#5 8#5) 0#2 0x43FA0000#1024 = some (200#64, 204#64, 0x7E#32) ∧
    vscheduled (.vcvt 0#4 0#3 0#1 2#5 1#5 8#5) 0#2 0x3B000000#1024 = some (200#64, 204#64, 1#32) := by
  decide +kernel

/-- R221's example: the tree of FREDA over 2^24, 1, 1, -2^24 and zeros, in two rounding modes. -/
theorem test_freda :
    (vscheduled (.freda 0#4 0#3 0#1 2#5 1#5 0#1 0#3) 0#2 0xCB8000003F8000003F8000004B800000#1024).map (·.2.2) = some 0x3F800000#32 ∧
    (vscheduled (.freda 0#4 0#3 0#1 2#5 1#5 0#1 0#3) 3#2 0xCB8000003F8000003F8000004B800000#1024).map (·.2.2) = some 0x40400000#32 := by
  decide +kernel

/-- R64's example: PREP 4, 1, dab before VADD v30 raises REPX at issue. -/
theorem test_prep_past_the_registers :
    let i : Sys2Proof.Instr := .vadd 0#4 0#3 0#1 30#5 0#5 8#5
    ((after i (reckIs (fun _ => { Reckoner.reset with run := .running, vlive := 0xFFFFFFFF#32 }.modStr .V (fun t =>
      { t with queue := [{ unitFor i with prep := some ⟨4#8, 1#3, true, true, true⟩ }] })))).span 0#7).rowsOrd.map
        (fun r => r[0].extractLsb' 0 8) = [0x03#8] := by
  decide +kernel

/-- R10's example: RID of Reckoner 2 of Span 113. R111's example: the walk of 0x2E8C_FF00_1234. -/
theorem test_rid_and_walk :
    (readCsr 0x012#12 { State.reset with cur := ⟨113#7, .reck 2#2, none, false⟩ }).extractLsb' 0 9 = 454#9 ∧
    (let m := Memory.putNat (Memory.putNat (Memory.putNat [] 0x1000000028 0xFF 0x1000001001 8) 0x1000001D18 0xFF 0x1000002001 8) 0x10000023F8 0xFF
        0x264000001B 8
     match walk { State.reset with mem := m } 0x1000000000#64 0x2E8CFF001234#52 with
     | .leaf lvl e => (lvl, e, frameAddr e (pageSize lvl) 0x2E8CFF001234#52)
     | .bad _ _ _ => (9, 0#64, 0)) = (1, 0x264000001B#64, 0x2641001234) := by
  decide +kernel

/-- R29's worked encodings of the positive scales; R38's slices of 1 + 2^-8 + 2^-16 + 2^-23; R37's clamped sum. -/
theorem test_numbers :
    [s20OfF32 0x3F800000#32, s20OfF32 0x3F000000#32, s20OfF32 0x00800000#32, s20OfF32 0x7F7FF000#32] =
      [0x3F800#20, 0x3F000#20, 0x00800#20, 0x7F7FF#20] ∧
    [Slice.h, .m, .l].map (fun k => sliceOf k 0x3F808081#32) = [bf16 0x3F80#16, bf16 0x3B80#16, bf16 0x3781#16] ∧
    satI32 (2147483547 + 200) = (0x7FFFFFFF#32, true) ∧ satI32 (2147483647 - 50) = (2147483597#32, false) := by
  decide +kernel

/-- R358's example: the tags of four rows, the payload behind them, and the rows they take. -/
theorem test_coded_rows :
    let a : Row := BitVec.ofNat 1024 ((List.range 16).foldl (fun n i => n + 0x0102030405060708 * 2 ^ (64 * i)) 0)
    let b : Row := BitVec.ofNat 1024 ((List.range 32).foldl (fun n i => n + i * 2 ^ (32 * i)) 0)
    codeRows [0#1024, a, a, b] = [0xD8#1024, BitVec.ofNat 1024 (0x0102030405060708 + b.toNat * 2 ^ 64), BitVec.ofNat 1024 (b.toNat / 2 ^ 960)] := by
  decide +kernel

/-- R137: STS of the last 8-byte unit of a row writes its bytes, lowest first, and makes the row live. -/
theorem test_sts :
    let t := after (.sts 0#4 4#5 5#5 0#8) (spanIs allFull (headS .S (.sts 0#4 4#5 5#5 0#8) (fun k =>
      { k with g := (k.g.set 4 0x1122334455667788#64).set 5 0xFFFFF8#64 })))
    t.mem.get (spadAddr 0#7 0xFFFFF8#24) = 0x88#8 ∧ t.mem.get (spadAddr 0#7 0xFFFFFF#24) = 0x11#8 ∧ (t.span 0#7).live = [131071] := by
  decide +kernel

/-- R44, R348: from reset, a word loaded at the fetch address runs in the next step: `li g3, 0x1678`. -/
theorem test_step_from_reset :
    (match Sys2Proof.Machine.step (State.withFetchWord State.reset 32 0x00A07678) with
     | .next t => g 3 t
     | _ => 0#64) = 0xFFFFFFFFFFFFF678#64 := by
  decide +kernel

/-! ### Witnesses -/

/-- ScalarWordsCompute: at a Reckoner, from g5 and g6 to g4, and from q7 to q0; at the tender. -/
theorem wit_ScalarWordsCompute :
    (∃ s s0 s1 c, computeOf (.add 0#4 4#5 5#5 6#5) = some c ∧ Starts .S c.tok s s0 ∧ popSrcs c.srcs s0 = .ok () s1 ∧ Room c.dst s1) ∧
    (∃ s s0 s1 c, computeOf (.add 0#4 24#5 31#5 31#5) = some c ∧ Starts .S c.tok s s0 ∧ popSrcs c.srcs s0 = .ok () s1 ∧ Room c.dst s1) ∧
    (∃ s s0 s1 c, computeOf (.li 0#4 0#5 5#13) = some c ∧ Starts .S c.tok s s0 ∧ popSrcs c.srcs s0 = .ok () s1 ∧ Room c.dst s1) := by
  refine ⟨⟨headS .S (.add 0#4 4#5 5#5 6#5), _, _, _, rfl, startsIs (beginsIs (by decide +kernel) (by decide +kernel) (by decide +kernel)),
      okUnit (by decide +kernel), .inr (.inl (by decide +kernel))⟩,
    ⟨headS .S (.add 0#4 24#5 31#5 31#5) (fun k => { k with q := k.q.set 6 [7#64] }), _, _, _, rfl,
      startsIs (beginsIs (by decide +kernel) (by decide +kernel) (by decide +kernel)),
      okUnit (by decide +kernel), .inr (.inr (by decide +kernel))⟩,
    ⟨tenderS (.li 0#4 0#5 5#13), _, _, _, rfl, startsTender (by decide +kernel) (by decide +kernel), okUnit (by decide +kernel),
      .inl (by decide +kernel)⟩⟩

/-- LocalScalarAccess: a live row read, a dead row and the last unit of the scratchpad written. -/
theorem wit_LocalScalarAccess :
    (∃ s s0 s1, Starts .S 0#4 s s0 ∧ popSrcs [0#5] s0 = .ok () s1 ∧ LocalOpen .S (offsetOf 0#5 8#8 s1) false s1 ∧
      rowLive s1.cur.sp (offsetOf 0#5 8#8 s1) s1 = true ∧ Room 4#5 s1) ∧
    (∃ s s0 s1, Starts .S 0#4 s s0 ∧ popSrcs [4#5, 0#5] s0 = .ok () s1 ∧ LocalOpen .S (offsetOf 0#5 0xFF#8 s1) true s1 ∧
      s1.mem.wf = true) := by
  refine ⟨⟨spanIs (fun x => { allFull x with live := [0] }) (headS .S (.lds 0#4 4#5 0#5 8#8)), _, _,
      startsIs (beginsIs (by decide +kernel) (by decide +kernel) (by decide +kernel)), okUnit (by decide +kernel),
      ⟨by decide +kernel, by decide +kernel, by decide +kernel, by decide +kernel⟩, by decide +kernel, .inr (.inl (by decide +kernel))⟩,
    ⟨spanIs allFull (headS .S (.sts 0#4 4#5 0#5 0xFF#8)), _, _,
      startsIs (beginsIs (by decide +kernel) (by decide +kernel) (by decide +kernel)), okUnit (by decide +kernel),
      ⟨by decide +kernel, by decide +kernel, by decide +kernel, by decide +kernel⟩, by decide +kernel⟩⟩
/-- TimedLoadsIssue: an LDT that misses, and one that the 4,096 walks of its die hold; a VLDT, and one held; an LDT of
the tender in deck SRAM and in register space. -/
theorem wit_TimedLoadsIssue :
    (∃ s s0 s1, Begins .S 0#4 s s0 ∧ popSrcs [0#5] s0 = .ok () s1 ∧ (gVal 0#5 s1).toNat < 2 ^ 52 ∧ s1.me.buffer.length < 16 ∧
      outstanding s1 s1.cur.sp < s1.my.cap.toNat ∧ Missing (gVal 0#5 s1) s1 = true ∧ dieOutstanding s1 s1.cur.sp < 4096) ∧
    (∃ s s0 s1, Begins .S 0#4 s s0 ∧ popSrcs [0#5] s0 = .ok () s1 ∧ (gVal 0#5 s1).toNat < 2 ^ 52 ∧ s1.me.buffer.length < 16 ∧
      outstanding s1 s1.cur.sp < s1.my.cap.toNat ∧ Missing (gVal 0#5 s1) s1 = true ∧ 4096 ≤ dieOutstanding s1 s1.cur.sp) ∧
    (∃ s s0 s1 a rest, Begins .V 0#4 s s0 ∧ s0.me.q[0] = a :: rest ∧ a.toNat < 2 ^ 52 ∧ s0.me.buffer.length < 16 ∧
      outstanding s0 s0.cur.sp < s0.my.cap.toNat ∧ vBanks [3#5] s0 = .ok () s1 ∧ Missing a s1 = true ∧ dieOutstanding s1 s1.cur.sp < 4096) ∧
    (∃ s s0 s1 a rest, Begins .V 0#4 s s0 ∧ s0.me.q[0] = a :: rest ∧ a.toNat < 2 ^ 52 ∧ s0.me.buffer.length < 16 ∧
      outstanding s0 s0.cur.sp < s0.my.cap.toNat ∧ vBanks [3#5] s0 = .ok () s1 ∧ Missing a s1 = true ∧ 4096 ≤ dieOutstanding s1 s1.cur.sp) ∧
    (∃ s p s1 row s2, s.atTender = true ∧ PrepRuns true (s.unit .S) ∧ Unsent (wordAccess s) s ∧
      translate s.cur.sp s.my.tender.troot (ownAsk .S false s) (gVal 0#5 s) s = .ok p s1 ∧ place s1 p.pa ≠ .regs ∧
      remote s1 p.pa = false ∧ readRowAt p.pa s1 = .ok row s2) ∧
    (∃ s p s1, s.atTender = true ∧ PrepRuns true (s.unit .S) ∧ Unsent (wordAccess s) s ∧
      translate s.cur.sp s.my.tender.troot (ownAsk .S false s) (gVal 0#5 s) s = .ok p s1 ∧ place s1 p.pa = .regs) := by
  have v : headV.me.q[0] = [0xFFFFFFFFFFFFF#64] := by decide +kernel
  refine ⟨⟨headS .S (.ldt 0#4 4#5 0#5 40#8), _, _, bg (by decide +kernel), okUnit (by decide +kernel), by decide +kernel,
      by decide +kernel, by decide +kernel, by decide +kernel, by decide +kernel⟩,
    ⟨fullDie (headS .S (.ldt 0#4 4#5 0#5 40#8)), _, _, bg (by decide +kernel), okUnit (by decide +kernel), by decide +kernel,
      by decide +kernel, by decide +kernel, by decide +kernel, by decide +kernel⟩,
    ⟨headV, _, _, 0xFFFFFFFFFFFFF#64, [],
      bg (by decide +kernel), by decide +kernel, by decide +kernel, by decide +kernel, by decide +kernel, okUnit (by decide +kernel),
      by decide +kernel, by decide +kernel⟩,
    ⟨fullDie headV, _, _, 0xFFFFFFFFFFFFF#64, [],
      bg (by decide +kernel), by decide +kernel, by decide +kernel, by decide +kernel, by decide +kernel, okUnit (by decide +kernel),
      by decide +kernel, by decide +kernel⟩, ?_, ?_⟩
  · let s := spanIs mapped (tenderS (.ldt 0#4 4#5 0#5 0#8))
    obtain ⟨p, s1, h, hp⟩ := okIs (x := translate s.cur.sp s.my.tender.troot (ownAsk .S false s) (gVal 0#5 s) s)
      (p := fun p s1 => decide (place s1 p.pa ≠ .regs) && !remote s1 p.pa && isOk (readRowAt p.pa s1)) (by decide +kernel)
    simp only [Bool.and_eq_true, decide_eq_true_eq, Bool.not_eq_true'] at hp
    obtain ⟨row, hr⟩ := okSome hp.2
    exact ⟨s, p, s1, row, _, by decide +kernel, prepNone (by decide +kernel), unsentIs (by decide +kernel), h, hp.1.1, hp.1.2, hr⟩
  · let s := spanIs registers (tenderS (.ldt 0#4 4#5 0#5 0#8))
    obtain ⟨p, s1, h, hp⟩ := okIs (x := translate s.cur.sp s.my.tender.troot (ownAsk .S false s) (gVal 0#5 s) s)
      (p := fun p s1 => decide (place s1 p.pa = .regs)) (by decide +kernel)
    exact ⟨s, p, s1, by decide +kernel, prepNone (by decide +kernel), unsentIs (by decide +kernel), h, of_decide_eq_true hp⟩

/-- PostedStores: a store through the page at 0, and one to be performed at the first byte of deck SRAM. -/
theorem wit_PostedStores :
    (∃ s s0 s1 s2 p, Begins .S 0#4 s s0 ∧ popSrcs [0#5, 4#5] s0 = .ok () s1 ∧ Unsent (wordAccess s1) s1 ∧
      translate s1.cur.sp s1.my.xroot (ownAsk .S true s1) (gVal 0#5 s1) s1 = .ok p s2 ∧
      mustWait .S 0#3 true s2.me = false ∧ watchedVirt s2 s2.me p = false) ∧
    (∃ s s0 s1 s2 s3 p, Begins .S 0#4 s s0 ∧ popSrcs [0#5, 4#5] s0 = .ok () s1 ∧ Unsent (wordAccess s1) s1 ∧
      translate s1.cur.sp s1.my.xroot (ownAsk .S true s1) (gVal 0#5 s1) s1 = .ok p s2 ∧ mustWait .S 0#3 true s2.me = false ∧
      watchedVirt s2 s2.me p = true ∧ mustWait .S (orderOf .S s2) true s2.me = false ∧ rowOwed p.pa s2 = false ∧
      watchRow s2.cur.sp s2.cr p.pa true none true (gVal 0#5 s1 &&& ~~~0x7F#64) 0#5
        (BitVec.ofNat 5 ((gVal 0#5 s1).toNat / 8 % 16 * 2)) s2 = .ok () s3 ∧
      unreachable s3 p.pa = false ∧ Table.find? s3.errors (p.pa / 128) = none ∧ s3.mem.wf = true) ∧
    (∃ (s : State) (p : Posted), (s.reck 0#7 0#2).posted[0]? = some p ∧ postedReady 0#7 s (s.reck 0#7 0#2) 0 p = true ∧
      remote s p.pa = false ∧ unreachable s p.pa = false ∧ Table.find? s.errors (homeAddr s p.pa / 128) = none ∧ s.mem.wf = true) := by
  refine ⟨?_, ?_, ⟨reckIs (fun k => { k with posted := [⟨0x10000000000, unitFor (.stx 0#4 0#5 4#5), 5#64, 0#3, 0#2, ⟨0#12, 0, 0x10000⟩, false⟩] }), _, rfl,
    by decide +kernel, by decide +kernel, by decide +kernel, by decide +kernel, by decide +kernel⟩⟩
  · let s := spanIs mapped (headS .S (.stx 0#4 0#5 4#5))
    let s1 := outState (popSrcs [0#5, 4#5] (waited .S 0#4 s))
    obtain ⟨p, s2, h, hp⟩ := okIs (x := translate s1.cur.sp s1.my.xroot (ownAsk .S true s1) (gVal 0#5 s1) s1)
      (p := fun p s2 => !mustWait .S 0#3 true s2.me && !watchedVirt s2 s2.me p) (by decide +kernel)
    simp only [Bool.and_eq_true, Bool.not_eq_true'] at hp
    exact ⟨s, _, s1, s2, p, bg (by decide +kernel), okUnit (by decide +kernel), unsentIs (by decide +kernel), h, hp.1, hp.2⟩
  · let s := spanIs (fun x => { x with tlb := [⟨0#12, 0, 0x10000, codeLeaf ||| 0x80#64, 0#2⟩] })
      (headS .S (.stx 0#4 0#5 4#5) (fun k => { k with rwatch := 2#2 }))
    let s1 := outState (popSrcs [0#5, 4#5] (waited .S 0#4 s))
    let watch (p : Phys) (s2 : State) : Out Unit := watchRow s2.cur.sp s2.cr p.pa true none true (gVal 0#5 s1 &&& ~~~0x7F#64) 0#5
      (BitVec.ofNat 5 ((gVal 0#5 s1).toNat / 8 % 16 * 2)) s2
    obtain ⟨p, s2, h, hp⟩ := okIs (x := translate s1.cur.sp s1.my.xroot (ownAsk .S true s1) (gVal 0#5 s1) s1)
      (p := fun p s2 => !mustWait .S 0#3 true s2.me && watchedVirt s2 s2.me p && !mustWait .S (orderOf .S s2) true s2.me && !rowOwed p.pa s2 &&
        okAnd (fun _ s3 => !unreachable s3 p.pa && decide (Table.find? s3.errors (p.pa / 128) = none) && s3.mem.wf) (watch p s2))
      (by decide +kernel)
    simp only [Bool.and_eq_true, Bool.not_eq_true'] at hp
    obtain ⟨_, s3, hs, h3⟩ := okIs hp.2
    simp only [Bool.and_eq_true, Bool.not_eq_true', decide_eq_true_eq] at h3
    exact ⟨s, _, s1, s2, s3, p, bg (by decide +kernel), okUnit (by decide +kernel), unsentIs (by decide +kernel), h, hp.1.1.1.1, hp.1.1.1.2, hp.1.1.2, hp.1.2, hs,
      h3.1.1, h3.1.2, h3.2⟩

/-- BranchesAndJumps: taken to the lowest address and to one below it, not taken; a jump; a return. -/
theorem wit_BranchesAndJumps :
    (∃ s s0 s1 c, conditionalOf (.beq 0#4 0#5 0#5 0x80#8) = some c ∧ Starts .S c.tok s s0 ∧ popSrcs [c.a, c.b] s0 = .ok () s1 ∧
      c.taken (gVal c.a s1) (gVal c.b s1) ∧ branchGoal c.off s1 = 0 ∧ InSpace (branchGoal c.off s1)) ∧
    (∃ s s0 s1 c, conditionalOf (.bgen 0#4 0#5 0#5 0x80#8) = some c ∧ Starts .S c.tok s s0 ∧ popSrcs [c.a, c.b] s0 = .ok () s1 ∧
      c.taken (gVal c.a s1) (gVal c.b s1) ∧ branchGoal c.off s1 = -4 ∧ ¬ InSpace (branchGoal c.off s1) ∧ s.atTender = false ∧
      Awake s1) ∧
    (∃ s s0 s1 c, conditionalOf (.blt 0#4 0#5 0#5 0x80#8) = some c ∧ Starts .S c.tok s s0 ∧ popSrcs [c.a, c.b] s0 = .ok () s1 ∧
      ¬ c.taken (gVal c.a s1) (gVal c.b s1)) ∧
    (∃ s s0 s1, Starts .S 0#4 s s0 ∧ InSpace (branchGoal 1#18 s0) ∧ popSrcs [4#5] s0 = .ok () s1 ∧ (gVal 4#5 s1).toNat < 2 ^ 52) := by
  let from' (a : BitVec 52) (i : Sys2Proof.Instr) : State := reckIs (fun k =>
    k.modStr .S (fun t => { t with queue := [{ unitFor i with pc := a, first := a }] }))
  refine ⟨⟨from' 0x200#52 (.beq 0#4 0#5 0#5 0x80#8), _, _, _, rfl, startsIs (bg (by decide +kernel)), okUnit (by decide +kernel),
      rfl, by decide +kernel, by unfold InSpace; decide +kernel⟩,
    ⟨from' 0x1FC#52 (.bgen 0#4 0#5 0#5 0x80#8), _, _, _, rfl, startsIs (bg (by decide +kernel)), okUnit (by decide +kernel),
      Nat.le_refl _, by decide +kernel, by unfold InSpace; decide +kernel, by decide +kernel, awakeIs (by decide +kernel)⟩,
    ⟨from' 0x200#52 (.blt 0#4 0#5 0#5 0x80#8), _, _, _, rfl, startsIs (bg (by decide +kernel)), okUnit (by decide +kernel),
      Int.lt_irrefl _⟩,
    ⟨from' 0x200#52 (.j 0#4 1#18), _, _, startsIs (bg (by decide +kernel)), by unfold InSpace; decide +kernel, okUnit (by decide +kernel),
      by decide +kernel⟩⟩

/-- WideFlagConsumers: a FULL flag on which a branch is taken, and one on which it is not. -/
theorem wit_WideFlagConsumers :
    (∃ s s0 r, Begins .S 0#4 s s0 ∧ s0.me.wide ((1#5).extractLsb' 0 3) = .full r ∧ r.any = true ∧ InSpace (branchGoal 1#8 s0) ∧
      Room 4#5 s0) ∧
    (∃ s s0 r, Begins .S 0#4 s s0 ∧ s0.me.wide ((1#5).extractLsb' 0 3) = .full r ∧ r.any = false) := by
  let k (any : Bool) (k : Reckoner) : Reckoner := k.setWide 1#3 (.full ⟨3#16, any, false, !any⟩)
  exact ⟨⟨headS .S (.bw 0#4 1#5 0#5 1#8) (k true), _, _, bg (by decide +kernel), rfl, rfl, by unfold InSpace; decide +kernel,
      .inr (.inl (by decide +kernel))⟩,
    ⟨headS .S (.bw 0#4 1#5 0#5 1#8) (k false), _, _, bg (by decide +kernel), rfl, rfl⟩⟩

/-- HardwareLoop: LOOP of a count above 0 and of 0, LBR with LC 2 and with LC 1. -/
theorem wit_HardwareLoop :
    (∃ s s0 s1, Begins .S 0#4 s s0 ∧ popSrcs [4#5] s0 = .ok () s1 ∧ gVal 4#5 s1 ≠ 0#64) ∧
    (∃ s s0 s1, Begins .S 0#4 s s0 ∧ popSrcs [4#5] s0 = .ok () s1 ∧ gVal 4#5 s1 = 0#64 ∧ InSpace (branchGoal 1#8 s1)) ∧
    (∃ s s0, Begins .S 0#4 s s0 ∧ s0.me.lc = 2#64 ∧ 1 < s0.me.lc.toNat ∧ InSpace (branchGoal 1#18 s0)) ∧
    (∃ s s0, Begins .S 0#4 s s0 ∧ s0.me.lc = 1#64 ∧ s0.me.lc.toNat ≤ 1 ∧ s0.my.tender.profEn = false) := by
  refine ⟨⟨headS .S (.loop 0#4 4#5 1#8) (fun k => { k with g := k.g.set 4 3#64 }), _, _, bg (by decide +kernel), okUnit (by decide +kernel),
      by decide +kernel⟩,
    ⟨headS .S (.loop 0#4 4#5 1#8), _, _, bg (by decide +kernel), okUnit (by decide +kernel), by decide +kernel,
      by unfold InSpace; decide +kernel⟩,
    ⟨headS .S (.lbr 0#4 1#18) (fun k => { k with lc := 2#64 }), _, bg (by decide +kernel), by decide +kernel, by decide +kernel,
      by unfold InSpace; decide +kernel⟩,
    ⟨headS .S (.lbr 0#4 1#18) (fun k => { k with lc := 1#64 }), _, bg (by decide +kernel), by decide +kernel, by decide +kernel, by decide +kernel⟩⟩

/-- AtomicsModifyTheirUnits: an atomic on the own scratchpad, one on deck SRAM and the tender's in register space. -/
theorem wit_Atomics :
    (∃ s s0 s1 s2 m t, atomicOf (.aadd 0#4 4#5 5#5 6#5) = some m ∧ Begins .S m.tok s s0 ∧ popSrcs [m.a, m.b] s0 = .ok () s1 ∧
      Unsent (wordAccess s1) s1 ∧
      atomicForm (gVal m.a s1) s1 = .ok () s1 ∧ atomicTarget (gVal m.a s1) s1 = .ok t s2 ∧ (gVal m.a s1).getLsbD 63 = true ∧
      atomicWaits t.addr s2 = false ∧ place s2 t.addr ≠ .regs ∧ Served t s2 ∧ s2.mem.wf = true) ∧
    (∃ s s1 s2 m t, atomicOf (.aadd 0#4 4#5 0#5 6#5) = some m ∧ Starts .S m.tok s s ∧ popSrcs [m.a, m.b] s = .ok () s1 ∧
      Unsent (wordAccess s1) s1 ∧
      atomicForm (gVal m.a s1) s1 = .ok () s1 ∧ atomicTarget (gVal m.a s1) s1 = .ok t s2 ∧ inWindow s2 t.addr = false ∧
      atomicWaits t.addr s2 = false ∧ place s2 t.addr = .regs) ∧
    (∃ s s0 s1 s2 m t, atomicOf (.aaddb 0#4 4#5 5#5 6#5) = some m ∧ Begins .S m.tok s s0 ∧ popSrcs [m.a, m.b] s0 = .ok () s1 ∧
      Unsent (wordAccess s1) s1 ∧
      atomicForm (gVal m.a s1) s1 = .ok () s1 ∧ atomicTarget (gVal m.a s1) s1 = .ok t s2 ∧ inWindow s2 t.addr = false ∧
      atomicWaits t.addr s2 = false ∧ place s2 t.addr ≠ .regs ∧ Served t s2 ∧ s2.mem.wf = true) := by
  refine ⟨?_, ?_, ?_⟩
  · let s := spanIs (fun x => { allFull x with live := [0] }) (headS .S (.aadd 0#4 4#5 5#5 6#5) (fun k => { k with g := k.g.set 5 0x8000000000000008#64 }))
    let s1 := outState (popSrcs [5#5, 6#5] (waited .S 0#4 s))
    obtain ⟨t, s2, h, hp⟩ := okIs (x := atomicTarget (gVal 5#5 s1) s1)
      (p := fun t s2 => !atomicWaits t.addr s2 && decide (place s2 t.addr ≠ .regs) && served t s2 && s2.mem.wf) (by decide +kernel)
    simp only [Bool.and_eq_true, Bool.not_eq_true', decide_eq_true_eq] at hp
    exact ⟨s, _, s1, s2, _, t, rfl, bg (by decide +kernel), okUnit (by decide +kernel), unsentIs (by decide +kernel), formIs (by decide +kernel), h, by decide +kernel,
      hp.1.1.1, hp.1.1.2, servedIs hp.1.2, hp.2⟩
  · let s := spanIs registers (tenderS (.aadd 0#4 4#5 0#5 6#5))
    let s1 := outState (popSrcs [0#5, 6#5] s)
    obtain ⟨t, s2, h, hp⟩ := okIs (x := atomicTarget (gVal 0#5 s1) s1)
      (p := fun t s2 => !inWindow s2 t.addr && !atomicWaits t.addr s2 && decide (place s2 t.addr = .regs)) (by decide +kernel)
    simp only [Bool.and_eq_true, Bool.not_eq_true', decide_eq_true_eq] at hp
    exact ⟨s, s1, s2, _, t, rfl, startsTender (by decide +kernel) (by decide +kernel), okUnit (by decide +kernel), unsentIs (by decide +kernel), formIs (by decide +kernel), h,
      hp.1.1, hp.1.2, hp.2⟩
  · let s := spanIs mapped (headS .S (.aaddb 0#4 4#5 5#5 6#5))
    let s1 := outState (popSrcs [5#5, 6#5] (waited .S 0#4 s))
    obtain ⟨t, s2, h, hp⟩ := okIs (x := atomicTarget (gVal 5#5 s1) s1)
      (p := fun t s2 => !inWindow s2 t.addr && !atomicWaits t.addr s2 && decide (place s2 t.addr ≠ .regs) && served t s2 && s2.mem.wf)
      (by decide +kernel)
    simp only [Bool.and_eq_true, Bool.not_eq_true', decide_eq_true_eq] at hp
    exact ⟨s, _, s1, s2, _, t, rfl, bg (by decide +kernel), okUnit (by decide +kernel), unsentIs (by decide +kernel), formIs (by decide +kernel), h, hp.1.1.1.1, hp.1.1.1.2,
      hp.1.1.2, servedIs hp.1.2, hp.2⟩
theorem ownTarget {a : W64} {s : State} (h : a.getLsbD 63 = true) (h' : spaceAsk .S s = none) :
    atomicTarget a s = .ok (.spad s.cur.sp (a.extractLsb' 0 24)) s := by
  simp only [atomicTarget, resolve, h, if_true, ownAsk, h']; rfl

/-- AtomicsModifyTheirUnits, of a pair: one in the own scratchpad whose old values are the ones expected, and not. -/
theorem wit_AtomicPairs : ∃ s s0 s1 s2 t0 t1, Begins .S 0#4 s s0 ∧
    atomicForm (gVal 4#5 s0) s0 = .ok () s0 ∧ atomicForm (gVal 5#5 s0) s0 = .ok () s0 ∧
    atomicTarget (gVal 4#5 s0) s0 = .ok t0 s1 ∧ atomicTarget (gVal 5#5 s0) s1 = .ok t1 s2 ∧
    pairBad (gVal 4#5 s0) (gVal 5#5 s0) t0 t1 s2 = false ∧ atomicWaits t0.addr s2 = false ∧ atomicWaits t1.addr s2 = false ∧
    Served t0 s2 ∧ Served t1 s2 ∧ s2.mem.wf = true ∧
    BitVec.ofNat 64 (s2.mem.nat (unitAddr s2 t0 8) 8) = gVal 2#5 s2 ∧ BitVec.ofNat 64 (s2.mem.nat (unitAddr s2 t1 8) 8) ≠ gVal 8#5 s2 := by
  let s := spanIs (fun x => { allFull x with live := [0] }) (headS .S (.dcas 0#4 2#5 4#5 6#5) (fun k =>
    { k with g := ((k.g.set 4 0x8000000000000000#64).set 5 0x8000000000000008#64).set 8 1#64 }))
  let s0 := waited .S 0#4 s
  exact ⟨s, s0, s0, s0, _, _, bg (by decide +kernel), formIs (by decide +kernel), formIs (by decide +kernel),
    ownTarget (by decide +kernel) (by decide +kernel), ownTarget (by decide +kernel) (by decide +kernel), by decide +kernel,
    by decide +kernel, by decide +kernel, servedIs (by decide +kernel), servedIs (by decide +kernel), by decide +kernel, by decide +kernel, by decide +kernel⟩

/-- AtomicsModifyTheirUnits, in a window: AMAX, the last operation that is posted, and ASWP, the first that is not; and one
behind a CXL port that is not up. -/
theorem wit_WindowAtomics : (∃ s s0 s1 s2 t m m', atomicOf (.amax 0#4 4#5 0#5 6#5) = some m ∧ atomicOf (.aswp 0#4 4#5 0#5 6#5) = some m' ∧
    Begins .S 0#4 s s0 ∧ popSrcs [m.a, m.b] s0 = .ok () s1 ∧ Unsent (wordAccess s1) s1 ∧ (gVal m.a s1).toNat < 2 ^ 52 ∧
    atomicTarget (gVal m.a s1) s1 = .ok t s2 ∧
    inWindow s2 t.addr = true ∧ m.op.toNat ≤ 0x3D ∧ unreachable s2 t.addr = false ∧ mustWait .S 0#3 true s2.me = false ∧
    Room m.d s2 ∧ 0x3E ≤ m'.op.toNat ∧ Awake s2) ∧
    ∃ s s0 s1 s2 t m, atomicOf (.aadd 0#4 4#5 0#5 6#5) = some m ∧
    Begins .S 0#4 s s0 ∧ popSrcs [m.a, m.b] s0 = .ok () s1 ∧ Unsent (wordAccess s1) s1 ∧ (gVal m.a s1).toNat < 2 ^ 52 ∧
    atomicTarget (gVal m.a s1) s1 = .ok t s2 ∧
    inWindow s2 t.addr = true ∧ m.op.toNat ≤ 0x3D ∧ unreachable s2 t.addr = true ∧ Awake s2 := by
  refine ⟨?_, ?_⟩
  rotate_left
  · let s : State := { spanIs (fun x => { x with tlb := [⟨0#12, 0, 0x10000, 0x000004000000002B#64, 0#2⟩] })
      (headS .S (.aadd 0#4 4#5 0#5 6#5)) with
      ports := State.reset.ports.set 0 ⟨true, 3#2, [(0x40000000000, 0x10000)]⟩
      fabric := { Fabric.reset with vwinOn := [(0, (0x8000040000000000#64, 1#64))] } }
    let s1 := outState (popSrcs [0#5, 6#5] (waited .S 0#4 s))
    obtain ⟨t, s2, h, hp⟩ := okIs (x := atomicTarget (gVal 0#5 s1) s1) (p := fun t s2 => (inWindow s2 t.addr && unreachable s2 t.addr) && awake s2)
      (by decide +kernel)
    rw [Bool.and_eq_true, Bool.and_eq_true] at hp
    exact ⟨s, _, s1, s2, t, _, rfl, bg (by decide +kernel), okUnit (by decide +kernel), unsentIs (by decide +kernel), by decide +kernel, h, hp.1.1,
      by decide, hp.1.2, awakeIs hp.2⟩
  let s : State := { spanIs mapped (headS .S (.amax 0#4 4#5 0#5 6#5)) with
    fabric := { Fabric.reset with vwinOn := [(0, (0x8000010000000000#64, 1#64))] } }
  let s1 := outState (popSrcs [0#5, 6#5] (waited .S 0#4 s))
  obtain ⟨t, s2, h, hp⟩ := okIs (x := atomicTarget (gVal 0#5 s1) s1) (p := fun t s2 => (inWindow s2 t.addr && !unreachable s2 t.addr &&
    !mustWait .S 0#3 true s2.me) && awake s2) (by decide +kernel)
  rw [Bool.and_eq_true] at hp
  have h1 := hp.1
  simp only [Bool.and_eq_true, Bool.not_eq_true'] at h1
  exact ⟨s, _, s1, s2, t, _, _, rfl, rfl, bg (by decide +kernel), okUnit (by decide +kernel), unsentIs (by decide +kernel), by decide +kernel, h, h1.1.1,
    by decide, h1.1.2, h1.2, .inr (.inl (by decide)), by decide, awakeIs hp.2⟩

theorem exIs {x : Except (BitVec 8) State} (h : x.toOption.isSome = true) : ∃ t, x = .ok t := by
  cases x <;> simp_all [Except.toOption]

/-- CsrAccess: CSR numbers below 0x100 and from there, values placed and reserved, a tile CSR and LC. -/
theorem wit_CsrAccess :
    (∃ s s0 s1, Begins .S 0#4 s s0 ∧ (0xFF#12).toNat < 0x100 ∧ Room 4#5 s0 ∧ popSrcs [4#5] s0 = .ok () s1 ∧
      ¬ Reserved 0x024#12 (gVal 4#5 s1) s1) ∧
    (∃ s s0 s1, Begins .S 0#4 s s0 ∧ popSrcs [4#5] s0 = .ok () s1 ∧ Reserved 0x020#12 (gVal 4#5 s1) s1 ∧ Awake s0 ∧ Awake s1) ∧
    0x100 ≤ (0x100#12).toNat ∧
    (∃ s t, writeCsr 0x024#12 5#64 s = .ok t) ∧ (∃ s t, writeCsr 0x03F#12 0x18080800#64 s = .ok t) ∧ IsTcfg 0x03F#12 ∧ ¬ IsTcfg 0x040#12 := by
  refine ⟨⟨headS .S (.csrw 0#4 4#5 0x024#12), _, _, bg (by decide +kernel), by decide, .inr (.inl (by decide)), okUnit (by decide +kernel),
      ?_⟩,
    ⟨headS .S (.csrw 0#4 4#5 0x020#12) (fun k => { k with g := k.g.set 4 0x50#64 }), _, _, bg (by decide +kernel), okUnit (by decide +kernel),
      .inl ⟨rfl, .inl (by decide +kernel)⟩, awakeIs (by decide +kernel), awakeIs (by decide +kernel)⟩, by decide, ⟨State.reset, exIs (by decide +kernel)⟩, ⟨State.reset, exIs (by decide +kernel)⟩,
    by unfold IsTcfg; decide, by unfold IsTcfg; decide⟩
  unfold Reserved IsTcfg
  simp

/-- TenderCsrs: the tender reads and writes TVEC; TPC of a frozen thread, and its g1 and g23. -/
theorem wit_TenderCsrs :
    (∃ s t, s.atTender = true ∧ PrepRuns true (s.unit .S) ∧ 0x100 ≤ (0x182#12).toNat ∧
      writeTenderCsr s.cur.sp (0x182#12).toNat (gVal 4#5 s) s = .ok t) ∧
    (∀ n, n = 0x102 ∨ n = 0x104 ∨ n = 0x180 ∨ n = 0x181 ∨ n = 0x182 ∨ n = 0x190 ∨ n = 0x120 ∨ n = 0x121 ∨ n = 0x141 ∨ n = 0x157 →
      ∃ s t, writeTenderCsr 0#7 n 0xFFFFFFFFFFFFFFFF#64 s = .ok t ∧ (s.reck 0#7 (s.span 0#7).tender.tsel).frozen.isSome = true) := by
  let z : Freeze := ⟨true, false, [], [], false, false, 0#52, 0#8, 0#8, false⟩
  refine ⟨?_, ?_⟩
  · obtain ⟨t, h⟩ := exIs (x := writeTenderCsr 0#7 0x182 (gVal 4#5 (tenderS (.csrw 0#4 4#5 0x182#12))) (tenderS (.csrw 0#4 4#5 0x182#12)))
      (by decide +kernel)
    exact ⟨tenderS (.csrw 0#4 4#5 0x182#12), t, by decide +kernel, prepNone (by decide +kernel), by decide, h⟩
  · intro n hn
    refine ⟨reckIs (fun k => { k with frozen := some z }), ?_⟩
    rcases hn with rfl | rfl | rfl | rfl | rfl | rfl | rfl | rfl | rfl | rfl <;>
      exact (exIs (by decide +kernel)).imp (fun t h => ⟨h, by decide +kernel⟩)

/-- SynchronisingWords: a thread that has drained, at level 0 and at level 1, in and out of restart mode; a completion
row at its count and below it. -/
theorem wit_SynchronisingWords :
    (∃ s s0, Begins .S 0#4 s s0 ∧ sPerformed s0.me = true ∧ Drained s0 ∧ s0.me.level = 0#3 ∧ restartMode s0 s0.cur.sp = false) ∧
    (∃ s s0, Begins .S 0#4 s s0 ∧ Drained s0 ∧ s0.me.level ≠ 0#3 ∧ restartMode s0 s0.cur.sp = true) ∧
    (∀ v, v = 0#64 ∨ v = 1#64 → ∃ s s0 s1, Begins .S 0#4 s s0 ∧ popSrcs [4#5] s0 = .ok () s1 ∧
      let off : BitVec 24 := BitVec.ofNat 24 (s1.me.cobase.toNat * 8192 + 128 * (63#8).toNat)
      gVal 4#5 s1 = v ∧ rowLive s1.cur.sp off s1 = true ∧ (s1.my.dueBank (spadBankOf off)).st = .full ∧ mustWait .S 0#3 false s1.me = false ∧
      Table.find? s1.errors (spadAddr s1.cur.sp off / 128) = none ∧ s1.mem.w64 (spadAddr s1.cur.sp off) = 0#64) := by
  refine ⟨⟨headS .S (.sync 0#4), _, bg (by decide +kernel), by decide +kernel, ⟨by decide +kernel, by decide +kernel⟩, by decide +kernel,
      by decide +kernel⟩,
    ⟨spanIs (fun x => { x with tender := { x.tender with rm := true } }) (headS .S (.sync 0#4) (fun k => { k with level := 1#3 })), _,
      bg (by decide +kernel), ⟨by decide +kernel, by decide +kernel⟩, by decide +kernel, by decide +kernel⟩, ?_⟩
  rintro v (rfl | rfl)
  · exact ⟨spanIs (fun x => { allFull x with live := [63] }) (headS .S (.cwait 0#4 4#5 63#8)), _, _, bg (by decide +kernel),
      okUnit (by decide +kernel), by decide +kernel, by decide +kernel, by decide +kernel, by decide +kernel, by decide +kernel,
      by decide +kernel⟩
  · exact ⟨spanIs (fun x => { allFull x with live := [63] }) (headS .S (.cwait 0#4 4#5 63#8) (fun k => { k with g := k.g.set 4 1#64 })), _, _,
      bg (by decide +kernel), okUnit (by decide +kernel), by decide +kernel, by decide +kernel, by decide +kernel, by decide +kernel,
      by decide +kernel, by decide +kernel⟩

/-- A record and a digest that it names, if a record names any. -/
noncomputable def named : List W64 × BitVec 256 := Classical.epsilon fun p => Config.recordNames p.1 p.2 = true

theorem namedIs (h : ∃ n d, Config.recordNames n d = true) : Config.recordNames named.1 named.2 = true := by
  obtain ⟨n, d, h⟩ := h
  exact Classical.epsilon_spec (p := fun p : List W64 × BitVec 256 => Config.recordNames p.1 p.2 = true) ⟨(n, d), h⟩

/-- The thread of node 5 on Span 0 with a record `x`, and a session of its tag and a digest `d`. -/
def heldBy (x : List W64) (d : BitVec 256) (s : State) : State :=
  { spanIs (fun x => { x with node := some 5 }) s with
    nodes := [{ id := 5, record := x, status := .running, order := 0, dispatched := 0, since := 0, eff := 0#2
                spans := [0#7], preempt := none, taken := [], saved := [], restoring := false, ready := false }]
    trust := { Trust.reset with sessions := [⟨0, (x.getD 2 0#64).extractLsb' 48 16, d, true, 0#3⟩] } }

/-- Where the record names the digest, the session holds the Span. -/
theorem heldIs {x : List W64} {d : BitVec 256} (h : Config.recordNames x d = true) (s : State) :
    Holds (heldBy x d s) 0#7 = [⟨0, (x.getD 2 0#64).extractLsb' 48 16, d, true, 0#3⟩] := by
  have hn : nodeOn (heldBy x d s) 0#7 = some { id := 5, record := x, status := .running, order := 0, dispatched := 0, since := 0, eff := 0#2
                                               spans := [0#7], preempt := none, taken := [], saved := [], restoring := false, ready := false } := by
    simp [nodeOn, heldBy, spanIs, State.span, State.setSpan]
  unfold Holds
  rw [hn]
  simp [heldBy, h]

/-- The network port is up. -/
def netUp (s : State) : State := s.setPort 0#3 { s.port 0#3 with state := 2#2, cxl := false }

/-- TrapsAndStopsOfPrograms: a TRAP, a BRK unclaimed, and claimed for nobody; a stop that is met, and one that no session
holds. -/
theorem wit_TrapsAndStops :
    (∃ s s0, s.atTender = false ∧ waitTokens .S 0#4 s = some s0 ∧ s.me.claim = false) ∧
    (∃ s s0, s.atTender = false ∧ waitTokens .S 0#4 s = some s0 ∧ s.me.claim = true ∧ Holds s s.cur.sp = []) ∧
    (∃ k : Reckoner, clocked k = true ∧ k.stopMet = false ∧ (tickReck k).stopMet = true) ∧
    (∃ s : State, let k := s.reck 0#7 0#2
      k.stopMet = true ∧ clocked k = true ∧ k.faults = [] ∧ late { k with buffer := k.buffer.filter (fun b => b.fault.isNone) } = false ∧
      landTraps ((landTimed 0#7 0#2 Config.landingEntries s).reck 0#7 0#2) = [] ∧ Holds s 0#7 = []) := by
  exact ⟨⟨headS .S (.trap 0#4 0x1FFF#13), _, by decide +kernel, waitIs (by decide +kernel), by decide +kernel⟩,
    ⟨headS .S (.brk 0#4 0#13) (fun k => { k with claim := true }), _, by decide +kernel, waitIs (by decide +kernel), by decide +kernel,
      by decide +kernel⟩,
    ⟨{ Reckoner.reset with run := .running, dbgcmp := 0x8000000000000001#64 }, by decide +kernel, by decide +kernel, by decide +kernel⟩,
    ⟨headS .S (.nop 0#4) (fun k => { k with dbgcmp := 0x8000000000000000#64, stopMet := true }), by decide +kernel, by decide +kernel,
      by decide +kernel, by decide +kernel, by decide +kernel, by decide +kernel⟩⟩

/-- TrapsAndStopsOfPrograms, where a record names a digest (assumption 10): a claimed BRK of a session, alone and with a fault
of its edge; a stop that one holds, with a value that lands on its edge, and with a landing that traps on it. -/
theorem wit_HeldStops (h : ∃ n d, Config.recordNames n d = true) :
    (∃ s s0, s.atTender = false ∧ waitTokens .S 0#4 s = some s0 ∧ s.me.claim = true ∧ Holds s s.cur.sp ≠ [] ∧ clocked s.me = true ∧
      s.me.faults = []) ∧
    (∃ s s0 x, s.atTender = false ∧ waitTokens .S 0#4 s = some s0 ∧ s.me.claim = true ∧ Holds s s.cur.sp ≠ [] ∧ clocked s.me = true ∧
      s.me.faults = [x] ∧ RecordRoom s.cur.sp s.cr x s) ∧
    (∃ s : State, let k := s.reck 0#7 0#2
      k.stopMet = true ∧ clocked k = true ∧ k.faults = [] ∧ late { k with buffer := k.buffer.filter (fun b => b.fault.isNone) } = false ∧
      k.buffer ≠ [] ∧ landTraps ((landTimed 0#7 0#2 Config.landingEntries s).reck 0#7 0#2) = [] ∧ Holds s 0#7 ≠ []) ∧
    (∃ (x : TrapInfo) (s : State), let k := s.reck 0#7 0#2
      k.stopMet = true ∧ clocked k = true ∧ k.faults = [] ∧ late { k with buffer := k.buffer.filter (fun b => b.fault.isNone) } = false ∧
      landTraps ((landTimed 0#7 0#2 Config.landingEntries s).reck 0#7 0#2) = [x] ∧ Holds s 0#7 ≠ [] ∧ RecordRoom 0#7 0#2 x s) := by
  have hn := namedIs h
  let stopped (k : Reckoner) : Reckoner := { k with dbgcmp := 0x8000000000000000#64, stopMet := true }
  let load (v : Option Row) (f : Option Flt) : LandEntry :=
    { stream := .S, work := unitFor (.ldt 0#4 4#5 0#5 0#8), dest := 4#5, mask := 0#32, issued := 0#64, due := 0#64, addr := 5#64
      order := 0#3, scope := 0#2, space := none, policy := 0#2, watch := false, missed := false, data := v, fault := f }
  let late' : TrapInfo := trapInfo .V (unitFor (.vnop 0#4)) 0 (flt cDEAD)
  refine ⟨⟨heldBy named.1 named.2 (headS .S (.brk 0#4 0#13) (fun k => { k with claim := true })), _, by decide +kernel, waitIs (by decide +kernel),
      by decide +kernel, by rw [show (heldBy named.1 named.2 (headS .S (.brk 0#4 0#13) (fun k => { k with claim := true }))).cur.sp = 0#7 from rfl, heldIs hn]; simp,
      by decide +kernel, by decide +kernel⟩,
    ⟨heldBy named.1 named.2 (headS .S (.brk 0#4 0#13) (fun k => { k with claim := true, faults := [late'] })), _, late', by decide +kernel,
      waitIs (by decide +kernel), by decide +kernel,
      by rw [show (heldBy named.1 named.2 (headS .S (.brk 0#4 0#13) (fun k => { k with claim := true, faults := [late'] }))).cur.sp = 0#7 from rfl,
        heldIs hn]; simp,
      by decide +kernel, by decide +kernel, by unfold RecordRoom; exact ⟨fun _ => by decide +kernel, fun _ => by decide +kernel⟩⟩,
    ⟨heldBy named.1 named.2 (headS .S (.nop 0#4) (fun k => { stopped k with buffer := [load (some 7#1024) none] })),
      by decide +kernel, by decide +kernel, by decide +kernel, by decide +kernel, by decide +kernel, by decide +kernel, by rw [heldIs hn]; simp⟩,
    ⟨trapInfo .S (unitFor (.ldt 0#4 4#5 0#5 0#8)) 0 (fltAt cXLATE 5#64) |> fun x => { x with land := true },
      heldBy named.1 named.2 (headS .S (.nop 0#4) (fun k => { stopped k with buffer := [load none (some (fltAt cXLATE 5#64))] })),
      by decide +kernel, by decide +kernel, by decide +kernel, by decide +kernel, by decide +kernel, by rw [heldIs hn]; simp,
      by unfold RecordRoom; exact ⟨fun _ => by decide +kernel, fun _ => by decide +kernel⟩⟩⟩

/-- TrapsAndStopsOfPrograms, of a session: a request from elsewhere, and one of no session. -/
theorem wit_Sessions :
    (∃ (m : SpdmRequest) (s : State), ¬(m.port = s.hpnet ∧ m.endpoint = 9#8 ∧ (s.port m.port).cxl = false ∧ (s.port m.port).state = 2#2)) ∧
    (∃ (m : SpdmRequest) (s : State), (m.port = s.hpnet ∧ m.endpoint = 9#8 ∧ (s.port m.port).cxl = false ∧ (s.port m.port).state = 2#2) ∧
      ¬ ∃ y ∈ Holds s 0#7, m.session = some y.id ∧ y.port = m.port) := by
  let m (n : Option Nat) : SpdmRequest := ⟨0#3, 9#8, n, 0#16, 0#256, true, true, []⟩
  exact ⟨⟨m none, State.reset, by decide +kernel⟩, ⟨m (some 1), netUp State.reset, by decide +kernel, by
    rw [show Holds (netUp State.reset) 0#7 = [] from by decide +kernel]; simp⟩⟩

/-- TrapsAndStopsOfPrograms, where a record names a digest: a request of the grant, of a thread that is stopped and of
one that is not; and one stopped and frozen whose ERET has come. -/
theorem wit_GrantedSessions (h : ∃ n d, Config.recordNames n d = true) :
    (∀ b : Bool, ∃ (m : SpdmRequest) (s : State), (m.port = s.hpnet ∧ m.endpoint = 9#8 ∧ (s.port m.port).cxl = false ∧ (s.port m.port).state = 2#2) ∧
      (∃ y ∈ Holds s 0#7, m.session = some y.id ∧ y.port = m.port) ∧ (s.reck 0#7 0#2).frozen = none ∧
      (s.reck 0#7 0#2).stop = (if b then some ⟨1#3, 0#13⟩ else none)) ∧
    ∃ (m : SpdmRequest) (s : State) (f : Freeze), (m.port = s.hpnet ∧ m.endpoint = 9#8 ∧ (s.port m.port).cxl = false ∧ (s.port m.port).state = 2#2) ∧
      (∃ y ∈ Holds s 0#7, m.session = some y.id ∧ y.port = m.port) ∧ (s.reck 0#7 0#2).frozen = some f ∧ f.eret = true ∧
      (s.reck 0#7 0#2).stop.isSome = true := by
  let m (n : Option Nat) : SpdmRequest := ⟨0#3, 9#8, n, 0#16, 0#256, true, true, []⟩
  have hn := namedIs h
  let up (s : State) : State := heldBy named.1 named.2 (netUp s)
  refine ⟨fun b => ⟨m (some 0), up (headS .S (.nop 0#4) (fun k => { k with stop := if b then some ⟨1#3, 0#13⟩ else none })), ?_, ?_, ?_, ?_⟩,
    ⟨m (some 0), up (headS .S (.nop 0#4) (fun k => { k with
      stop := some ⟨1#3, 0#13⟩, frozen := some ⟨true, false, [], [], false, false, 0#52, 0#8, 0#8, true⟩ })), _,
      by decide +kernel, ⟨_, by rw [heldIs hn]; exact List.mem_singleton_self _, rfl, rfl⟩, rfl, rfl, by decide +kernel⟩⟩
  · cases b <;> decide +kernel
  · exact ⟨_, by rw [heldIs hn]; exact List.mem_singleton_self _, rfl, rfl⟩
  · cases b <;> decide +kernel
  · cases b <;> decide +kernel

/-- TrapsAndStopsOfPrograms, where a record names a digest: a request of the grant of a Span whose profile rows are live, in a
bank that is FULL, and of one of which the last is dead. -/
theorem wit_ProfileReads (h : ∃ n d, Config.recordNames n d = true) : ∀ b : Bool, ∃ (m : SpdmRequest) (s : State),
    (m.port = s.hpnet ∧ m.endpoint = 9#8 ∧ (s.port m.port).cxl = false ∧ (s.port m.port).state = 2#2) ∧
    (∃ y ∈ Holds s 0#7, m.session = some y.id ∧ y.port = m.port) ∧
    let off (i : Nat) : BitVec 24 := BitVec.ofNat 24 (128 * ((s.span 0#7).tender.profBase.toNat + i))
    (b = true → ∀ i < 7, rowLive 0#7 (off i) s = true ∧ ((s.span 0#7).dueBank (spadBankOf (off i))).st = .full ∧
      Table.find? s.errors (spadAddr 0#7 (off i) / 128) = none) ∧
    (b = false → rowLive 0#7 (off 6) s = false) := by
  have hn := namedIs h
  intro b
  refine ⟨⟨0#3, 9#8, some 0, 0#16, 0#256, true, true, []⟩, heldBy named.1 named.2 (netUp (spanIs (fun x => { allFull x with
    live := List.range (if b then 7 else 6) }) State.reset)), ?_, ⟨_, by rw [heldIs hn]; exact List.mem_singleton_self _, rfl, rfl⟩, ?_, ?_⟩
  · cases b <;> decide +kernel
  · rintro rfl; decide +kernel
  · rintro rfl; decide +kernel

/-- EretLetsTheThreadGoOn: ERET at a Reckoner and at the tender; of a thread that is not frozen, of one whose trap is
fatal, and of one that is not, at a debug stop and not; records that wait for the tender. -/
theorem wit_Eret :
    (∃ s s0, Starts .S 0#4 s s0 ∧ s.atTender = false ∧ Awake s0) ∧ (∃ s s0, Starts .S 0#4 s s0 ∧ s.atTender = true) ∧
    (∃ s : State, s.atTender = true ∧ (s.reck s.cur.sp s.my.tender.tsel).frozen = none) ∧
    (∀ a b c, ∃ (s : State) (f : Freeze), s.atTender = true ∧ (s.reck s.cur.sp s.my.tender.tsel).frozen = some f ∧ f.fatal = a ∧
      s.my.tender.rm = b ∧ (s.reck s.cur.sp s.my.tender.tsel).stop.isSome = c) ∧
    (∃ (s : State) (x : Record) (rest : List Record), (s.span 0#7).tender.running = false ∧ (s.span 0#7).tender.quar = false ∧ s.boot ≠ 0 ∧
      (s.span 0#7).rowFatal = none ∧ (s.span 0#7).rowsOrd = x :: rest) ∧
    (∃ s : State, 2 ≤ s.boot ∧ (s.span 0#7).rowFatal.isSome = true) ∧
    (∃ (s : State) (x : Record) (rest : List Record), 2 ≤ s.boot ∧ (s.span 0#7).rowFatal = none ∧ (s.span 0#7).rowsOrd = x :: rest) ∧
    (∃ s : State, 2 ≤ s.boot ∧ (s.span 0#7).rowFatal = none ∧ (s.span 0#7).rowsOrd = []) ∧ State.reset.boot = 0 := by
  let up : State := { State.reset with boot := 2 }
  let z (a : Bool) : Freeze := ⟨true, false, [], [], a, false, 0#52, 0#8, 0#8, false⟩
  refine ⟨⟨headS .S (.eret 0#4), _, startsIs (bg (by decide +kernel)), by decide +kernel, awakeIs (by decide +kernel)⟩,
    ⟨tenderS (.eret 0#4), _, startsTender (by decide +kernel) (by decide +kernel), by decide +kernel⟩,
    ⟨tenderS (.eret 0#4), by decide +kernel, by decide +kernel⟩, ?_, ⟨spanIs (fun x => { x with rowsOrd := [Vector.replicate 16 0#64] }) { State.reset with boot := 1 },
      _, _, by decide +kernel, by decide +kernel, by decide +kernel, by decide +kernel, rfl⟩,
    ⟨spanIs (fun x => { x with rowFatal := some (Vector.replicate 16 0#64) }) up, by decide +kernel, by decide +kernel⟩,
    ⟨spanIs (fun x => { x with rowsOrd := [Vector.replicate 16 0#64] }) up, _, _, by decide +kernel, by decide +kernel, rfl⟩,
    ⟨up, by decide +kernel, by decide +kernel, by decide +kernel⟩, by decide +kernel⟩
  intro a b c
  refine ⟨reckIs (fun k => { k with frozen := some (z a), stop := if c then some ⟨1#3, 0#13⟩ else none })
    (tenderS (.eret 0#4) (fun t => { t with rm := b })), z a, ?_, ?_, ?_, ?_, ?_⟩ <;>
    cases a <;> cases b <;> cases c <;> decide +kernel

/-- What WellFormedRecord says, as a test. -/
def wfDec (x : List W64) : Decidable (WellFormedRecord x) := by unfold WellFormedRecord; infer_instance
def wellFormed? (x : List W64) : Bool := @decide _ (wfDec x)
theorem wellFormedIs {x : List W64} (h : wellFormed? x = true) : WellFormedRecord x := @of_decide_eq_true _ (wfDec x) h

theorem notOnTheWay {t : ThreadId} {s : State} (h : s.fabric.updates = []) : ¬ OnTheWay t s := by
  rintro ⟨u, hu, -⟩; rw [h] at hu; cases hu

/-- NodeAndLaunch: no pre-emption, one requested of a drained thread, with a window atomic on its way and without, and one whose signal finds its counter at 15; a record in
the own scratchpad, with room and with a full scoreboard, and one kept. -/
theorem wit_NodeAndLaunch :
    (∃ s s0, Begins .S 0#4 s s0 ∧ nodeOn s0 s0.cur.sp = none) ∧
    (∃ s s0 n, Begins .S 0#4 s s0 ∧ nodeOn s0 s0.cur.sp = some n ∧ n.preempt.isSome = true ∧ Drained s0 ∧
      (giveTokens .S 0#4 s0.me.tok).isSome = true ∧ ¬ OnTheWay (threadId s0 s0.cur.sp s0.cr) s0) ∧
    (∃ s s0 n, Begins .S 0#4 s s0 ∧ nodeOn s0 s0.cur.sp = some n ∧ n.preempt.isSome = true ∧ Drained s0 ∧
      OnTheWay (threadId s0 s0.cur.sp s0.cr) s0) ∧
    (∃ s s0 n, Begins .S 2#4 s s0 ∧ nodeOn s0 s0.cur.sp = some n ∧ n.preempt.isSome = true ∧ Drained s0 ∧
      giveTokens .S 2#4 s0.me.tok = none) ∧
    (∀ b, ∃ s s0 s1 s2 s3 t row, Begins .S 0#4 s s0 ∧ popSrcs [4#5] s0 = .ok () s1 ∧ sPerformed s1.me = true ∧ (s1.unit .S).kept = none ∧
      resolve s1.cur.sp s1.my.xroot { ownAsk .S false s1 with space := none } (gVal 4#5 s1) s1 = .ok t s2 ∧
      Unsent (wordAccess s1) s1 ∧ remote s2 t.addr = false ∧ readTarget t s2 = .ok row s3 ∧ WellFormedRecord (rowWords row) ∧ decide (s3.nodes.length < 4096) = b ∧
      (s3.me.str .S).queue ≠ []) ∧
    (∃ s s0 s1 row, Begins .S 0#4 s s0 ∧ popSrcs [4#5] s0 = .ok () s1 ∧ sPerformed s1.me = true ∧ (s1.unit .S).kept = some row ∧
      WellFormedRecord (rowWords row) ∧ s1.nodes.length < 4096) := by
  let n : Node := { id := 5, record := loadRecord 0#52, status := .running, order := 0, dispatched := 0, since := 0, eff := 0#2
                    spans := [0#7], preempt := some 0, taken := [], saved := [], restoring := false, ready := false }
  let u : WindowUpdate := ⟨0x10000000000, 0x38#7, 5#64, some (unitFor (.aadd 0#4 4#5 5#5 6#5)), (5, 0#9), none, false⟩
  refine ⟨⟨headS .S (.node 0#4), _, bg (by decide +kernel), by decide +kernel⟩,
    ⟨{ spanIs (fun x => { x with node := some 5 }) (headS .S (.node 0#4)) with nodes := [n] }, _, n, bg (by decide +kernel), by decide +kernel,
      rfl, ⟨by decide +kernel, by decide +kernel⟩, by decide +kernel, notOnTheWay (by decide +kernel)⟩,
    ⟨{ spanIs (fun x => { x with node := some 5 }) (headS .S (.node 0#4)) with
        nodes := [n], fabric := { Fabric.reset with updates := [u] } }, _, n, bg (by decide +kernel), by decide +kernel,
      rfl, ⟨by decide +kernel, by decide +kernel⟩, u, by decide +kernel, by decide +kernel, by decide +kernel⟩,
    ⟨{ spanIs (fun x => { x with node := some 5 }) (headS .S (.node 2#4) (fun k => { k with tok := Vector.replicate 12 15#4 })) with nodes := [n] },
      _, n, bg (by decide +kernel), by decide +kernel, rfl, ⟨by decide +kernel, by decide +kernel⟩, by decide +kernel⟩, ?_,
    ⟨headS .S (.launch 0#4 4#5) (fun k => k.modStr .S (fun t => { t with queue := t.queue.map (fun u =>
        { u with kept := some (0x0000000001010100#1024 <<< 128) }) })), _, _, 0x0000000001010100#1024 <<< 128, bg (by decide +kernel),
      okUnit (by decide +kernel), by decide +kernel, by decide +kernel, by unfold WellFormedRecord; decide +kernel, by decide +kernel⟩⟩
  intro b
  let s : State := { spanIs (fun x => { allFull x with live := [0] }) (headS .S (.launch 0#4 4#5) (fun k =>
      { k with g := k.g.set 4 0x8000000000000000#64 })) with
    nodes := if b then [] else List.replicate 4096 n
    mem := Memory.putRow [] (spadAddr 0#7 0#24 / 128) (BitVec.allOnes 128) (0x0000000001010100#1024 <<< 128) }
  let s1 := outState (popSrcs [4#5] (waited .S 0#4 s))
  obtain ⟨t, s2, h, hp⟩ := okIs (x := resolve s1.cur.sp s1.my.xroot { ownAsk .S false s1 with space := none } (gVal 4#5 s1) s1)
    (p := fun t s2 => !remote s2 t.addr && okAnd (fun row s3 => wellFormed? (rowWords row) && decide (decide (s3.nodes.length < 4096) = b) &&
      !(s3.me.str .S).queue.isEmpty) (readTarget t s2))
    (by cases b <;> decide +kernel)
  simp only [Bool.and_eq_true, Bool.not_eq_true'] at hp
  obtain ⟨row, s3, h', hp'⟩ := okIs hp.2
  simp only [Bool.and_eq_true, decide_eq_true_eq, Bool.not_eq_true', List.isEmpty_eq_false_iff] at hp'
  exact ⟨s, _, s1, s2, s3, t, row, bg (by cases b <;> decide +kernel), okUnit (by cases b <;> decide +kernel), by cases b <;> decide +kernel,
    by cases b <;> decide +kernel, h, unsentIs (by cases b <;> decide +kernel), hp.1, h', wellFormedIs hp'.1.1, hp'.1.2, hp'.2⟩
/-- SuppliesFollowUse: a bank of each state, and one whose wake is in progress; idle times met by one clock, and a mark that an
idle clock has followed; a wake that has ended; bands. -/
theorem wit_SuppliesFollowUse :
    (∃ s s0, Begins .S 0#4 s s0 ∧ (s0.my.dueBank (hintBank s0.cr 3#3 0#8)).st ≠ .full ∧ (s0.my.dueBank (hintBank s0.cr 3#3 0#8)).wake = none) ∧
    (∃ s s0, Begins .S 0#4 s s0 ∧ (s0.my.dueBank (hintBank s0.cr 3#3 0#8)).wake.isSome = true) ∧
    (∃ s s0, Begins .S 0#4 s s0 ∧ (s0.my.dueBank (hintBank s0.cr 3#3 0#8)).st = .full) ∧
    (∀ y, y = 0#3 ∨ y = 1#3 → ∃ s s0, Begins .S 0#4 s s0 ∧ mustWait .S (Machine.orderOf .S s0) true s0.me = false ∧
      ((∀ r b, hintBank s0.cr y 0#8 ≠ .vbank r b) ∨ ∃ r b, hintBank s0.cr y 0#8 = .vbank r b)) ∧
    (∃ x : Span, (x.bank (.spad 0#7)).st = .full ∧ (x.bank (.spad 0#7)).wake = none ∧ x.bankLive (.spad 0#7) = true ∧
      writeInFlight x (.spad 0#7) = false ∧ 0 < bankBret x (.spad 0#7) ∧ (x.bank (.spad 0#7)).used + bankBret x (.spad 0#7) + 1 = x.clock) ∧
    (∀ b : Bool, ∃ x : Span, (x.bank (.spad 0#7)).st = .full ∧ (x.bank (.spad 0#7)).wake = none ∧ x.bankLive (.spad 0#7) = b ∧
      writeInFlight x (.spad 0#7) = false ∧ (x.bank (.spad 0#7)).mark = some 4 ∧ (x.bank (.spad 0#7)).used = 4 ∧ x.clock = 6) ∧
    (∃ x : Span, (x.bank (.spad 0#7)).st ≠ .off ∧ (x.bank (.spad 0#7)).wake = none ∧ x.bankLive (.spad 0#7) = false ∧
      writeInFlight x (.spad 0#7) = false ∧ 0 < bankBoff x (.spad 0#7) ∧ (x.bank (.spad 0#7)).used + bankBoff x (.spad 0#7) < x.clock ∧
      (x.bank (.spad 0#7)).died + bankBoff x (.spad 0#7) < x.clock) ∧
    (∃ x : Span, (x.bank (.spad 0#7)).wake = some 200 ∧ x.clock = 200) ∧
    (∃ x : Span, (x.band 0#1 0#2).gated = false ∧ x.ashape.getLsbD 0 = false ∧ x.bgidleOn ≠ 0#16 ∧ bandNeeded x 0#1 0 = false ∧
      (x.band 0#1 0#2).busy + x.bgidleOn.toNat < x.clock) ∧
    (∃ x : Span, (x.band 0#1 0#2).gated = false ∧ x.ashape.getLsbD 0 = true) ∧
    (∃ x : Span, (x.band 0#1 0#2).wake = some 96 ∧ 96 ≤ x.clock) := by
  refine ⟨⟨headS .S (.sphint 0#4 0#2 3#3 0#8), _, bg (by decide +kernel), by decide +kernel, by decide +kernel⟩,
    ⟨spanIs (fun x => x.setBank (.acc 1#1 0#3) ⟨.off, some 9, 0, 0, none⟩) (spanIs (fun x => x.setBank (.acc 0#1 0#3) ⟨.off, some 9, 0, 0, none⟩)
        (headS .S (.sphint 0#4 0#2 3#3 0#8))), _, bg (by decide +kernel), by decide +kernel⟩,
    ⟨spanIs allFull (headS .S (.sphint 0#4 1#2 3#3 0#8)), _, bg (by decide +kernel), by decide +kernel⟩, ?_,
    ⟨{ allFull Span.reset with live := [0], clock := 1025 }, by decide +kernel, by decide +kernel, by decide +kernel, by decide +kernel,
      by decide +kernel, by decide +kernel⟩,
    fun b => ⟨{ (Span.reset.setBank (.spad 0#7) ⟨.full, none, 4, 0, some 4⟩) with live := if b then [0] else [], clock := 6 },
      by cases b <;> decide +kernel, by cases b <;> decide +kernel, by cases b <;> decide +kernel, by cases b <;> decide +kernel,
      by cases b <;> decide +kernel, by cases b <;> decide +kernel, by cases b <;> decide +kernel⟩,
    ⟨{ allFull Span.reset with clock := 65 }, by decide +kernel, by decide +kernel, by decide +kernel, by decide +kernel, by decide +kernel, by decide +kernel, by decide +kernel⟩,
    ⟨{ Span.reset.setBank (.spad 0#7) ⟨.off, some 200, 0, 0, none⟩ with clock := 200 }, by decide +kernel, by decide +kernel⟩,
    ⟨{ Span.reset.setBand 0#1 0#2 ⟨false, true, none, 0⟩ with ashape := 0#8, clock := 4097 }, by decide +kernel, by decide +kernel,
      by decide +kernel, by decide +kernel, by decide +kernel⟩,
    ⟨Span.reset.setBand 0#1 0#2 ⟨false, true, none, 0⟩, by decide +kernel, by decide +kernel⟩,
    ⟨{ Span.reset.setBand 0#1 0#2 ⟨true, false, some 96, 0⟩ with clock := 96 }, by decide +kernel, by decide +kernel⟩⟩
  rintro y (rfl | rfl)
  · refine ⟨headS .S (.sphint 0#4 2#2 0#3 0#8), _, bg (by decide +kernel), by decide +kernel, ?_⟩
    cases hintBank (waited .S 0#4 (headS .S (.sphint 0#4 2#2 0#3 0#8))).cr 0#3 0#8 <;> simp
  · refine ⟨headS .S (.sphint 0#4 2#2 1#3 0#8), _, bg (by decide +kernel), by decide +kernel, ?_⟩
    cases hintBank (waited .S 0#4 (headS .S (.sphint 0#4 2#2 1#3 0#8))).cr 1#3 0#8 <;> simp

/-- PrefixWordsGather, VectorWordsCompute, Reductions: at a Reckoner and the tender; live sources in banks that are
FULL; an EMPTY wide flag. -/
theorem wit_VectorWords :
    (∃ s : State, s.atTender = false) ∧ (∃ s : State, s.atTender = true) ∧
    (∃ s s0 s1 c, vectorOf (.vadd 0#4 0#3 1#1 31#5 16#5 2#5) = some c ∧ Begins .V c.tok s s0 ∧ Live c.srcs s0 ∧ vBanks c.banks s0 = .ok () s1) ∧
    (∃ s s0 s1 c, predicateOf (.pand 0#4 7#3 1#3 2#3 3#3) = some c ∧ Begins .V c.tok s s0 ∧ Live c.srcs s0 ∧ vBanks c.banks s0 = .ok () s1) ∧
    (∃ s s0 s1 c, reductionOf (.freda 0#4 0#3 0#1 3#5 2#5 1#1 7#3) = some c ∧ Begins .V c.tok s s0 ∧ Live [c.a] s0 ∧
      vBanks [c.a, c.d] s0 = .ok () s1 ∧ c.f = 1#1 ∧ s0.me.wide c.n = .empty) := by
  let k (k : Reckoner) : Reckoner := { k with vlive := 0x10004#32 }
  refine ⟨⟨State.reset, by decide +kernel⟩, ⟨tenderS (.nop 0#4), by decide +kernel⟩,
    ⟨spanIs allFull (headS .V (.vadd 0#4 0#3 1#1 31#5 16#5 2#5) k), _, _, _, rfl, bg (by decide +kernel), ?_, okUnit (by decide +kernel)⟩,
    ⟨headS .V (.pand 0#4 7#3 1#3 2#3 3#3), _, _, _, rfl, bg (by decide +kernel), ?_, okUnit (by decide +kernel)⟩,
    ⟨spanIs allFull (headS .V (.freda 0#4 0#3 0#1 3#5 2#5 1#1 7#3) k), _, _, _, rfl, bg (by decide +kernel), ?_, okUnit (by decide +kernel),
      by decide +kernel, by decide +kernel⟩⟩ <;> unfold Live <;> decide +kernel

/-- TileAndAccumulatorMoves: descriptors of a write and a read of image row 0 of tile 15 and of quarter 3 of an accumulator row,
and one past the fields. -/
theorem wit_TileMoves :
    (∀ v, v = 0x100F#64 ∨ v = 0x000F#64 → ∃ s s0 s1 s2 rest, Begins .V 0#4 s s0 ∧ s0.me.q[0] = v :: rest ∧ v.toNat < 2 ^ 13 ∧
      cfgRows (s0.my.cfg 15#4) ≠ 0 ∧ 128 * (v.toNat / 16 % 256) < imageBytes (s0.my.cfg 15#4) ∧ vBanks [3#5] s0 = .ok () s1 ∧
      useBank s1.cur.sp (.tile 15#4) s1 = .ok () s2 ∧ Live [3#5] s0 ∧ ∀ i ∈ rowsIn (s0.my.cfg 15#4) 0, (s0.my.tile 15#4).isLive i = true) ∧
    (∃ s s0 s1 s2 rest row, Begins .V 0#4 s s0 ∧ s0.me.q[0] = 0x1FFF#64 :: rest ∧
      Table.find? (s0.my.acc 1#1 7#3).rows 127 = some row ∧ vBanks [3#5] s0 = .ok () s1 ∧ useBank s1.cur.sp (.acc 1#1 7#3) s1 = .ok () s2) ∧
    (∃ s s0 v rest, Begins .V 0#4 s s0 ∧ s0.me.q[0] = v :: rest ∧ v.toNat = 2 ^ 13 ∧ Awake s0) := by
  let f (x : Span) : Span := { (allFull x).setCfg 15#4 0x10101000#32 with tiles := x.tiles.set 15 ⟨[], [0]⟩ }
  refine ⟨?_, ?_, ⟨headS .V (.vmovt 0#4 0#3 3#5) (fun k => { k with q := k.q.set 0 [0x2000#64] }), _, 0x2000#64, [], bg (by decide +kernel),
    by decide +kernel, by decide +kernel, awakeIs (by decide +kernel)⟩⟩
  · intro v hv
    rcases hv with rfl | rfl
    · exact ⟨spanIs f (headS .V (.vmovt 0#4 0#3 3#5) (fun k => { k with vlive := 8#32, q := k.q.set 0 [0x100F#64] })), _, _, _, [],
        bg (by decide +kernel), by decide +kernel, by decide +kernel, by decide +kernel, by decide +kernel, okUnit (by decide +kernel),
        okUnit (by decide +kernel), by unfold Live; decide +kernel, by decide +kernel⟩
    · exact ⟨spanIs f (headS .V (.vmovt 0#4 0#3 3#5) (fun k => { k with vlive := 8#32, q := k.q.set 0 [0x000F#64] })), _, _, _, [],
        bg (by decide +kernel), by decide +kernel, by decide +kernel, by decide +kernel, by decide +kernel, okUnit (by decide +kernel),
        okUnit (by decide +kernel), by unfold Live; decide +kernel, by decide +kernel⟩
  · exact ⟨spanIs (fun x => { allFull x with arr := (allFull x).arr.set 1 { (allFull x).arr[1] with acc := x.arr[1].acc.set 7 ⟨[(127, 5#4096)], []⟩ } })
        (headS .V (.vmova 0#4 0#3 3#5) (fun k => { k with q := k.q.set 0 [0x1FFF#64] })), _, _, _, [], 5#4096, bg (by decide +kernel),
      by decide +kernel, by decide +kernel, okUnit (by decide +kernel), okUnit (by decide +kernel)⟩

/-- VectorMovesAndCodes: a value in q0, a row in a vector queue, a codebook of one entry. -/
theorem wit_VectorMoves :
    (∃ s s0 s1 v rest, Begins .V 0#4 s s0 ∧ s0.me.q[0] = v :: rest ∧ vBanks [3#5] s0 = .ok () s1) ∧
    (∃ s s0 s1 row rows, Begins .V 0#4 s s0 ∧ s0.me.vqueue 3#2 = row :: rows ∧ vBanks [3#5] s0 = .ok () s1) ∧
    (∃ s s0 s1 book, Begins .V 0#4 s s0 ∧ s0.my.book s0.me.vqcb = some book ∧ Live [2#5, 3#5] s0 ∧ vBanks [2#5, 3#5, 4#5] s0 = .ok () s1) := by
  refine ⟨⟨spanIs allFull (headS .V (.vbcast 0#4 0#3 3#5) (fun k => { k with q := k.q.set 0 [5#64] })), _, _, 5#64, [], bg (by decide +kernel),
      by decide +kernel, okUnit (by decide +kernel)⟩,
    ⟨spanIs allFull (headS .V (.vpop 0#4 0#3 3#5 3#2) (fun k => k.setVq 3#2 [7#1024])), _, _, 7#1024, [], bg (by decide +kernel), by decide +kernel,
      okUnit (by decide +kernel)⟩,
    ⟨spanIs (fun x => { allFull x with books := x.books.set 0 (some [0x3F80#16]) }) (headS .V (.vqnt 0#4 0#3 0#1 4#5 2#5 3#5) (fun k =>
        { k with vlive := 0xC#32 })), _, _, [0x3F80#16], bg (by decide +kernel), by decide +kernel, by unfold Live; decide +kernel,
      okUnit (by decide +kernel)⟩⟩

/-- VectorRows: no lane active, and lanes active on a live row, at the last row of a Span's scratchpad. -/
theorem wit_VectorRows :
    (∃ s s0 s1, Begins .V 0#4 s s0 ∧ vBanks [3#5] s0 = .ok () s1 ∧ pVal 1#3 s0 = 0#32 ∧ Live [3#5] s0) ∧
    (∃ s s0 s1, Begins .V 0#4 s s0 ∧ vBanks [3#5] s0 = .ok () s1 ∧ pVal 0#3 s0 ≠ 0#32 ∧ LocalOpen .V 0xFFFF80#24 false s0 ∧
      LocalOpen .V 0xFFFF80#24 true s0 ∧ rowLive s0.cur.sp 0xFFFF80#24 s0 = true ∧ Live [3#5] s0 ∧ s0.mem.wf = true ∧
      s0.me.xreg 2#3 = 0xFFFF80#24) := by
  let k (k : Reckoner) : Reckoner := { k with vlive := 8#32, x := k.x.set 2 0xFFFF80#24 }
  exact ⟨⟨spanIs allFull (headS .V (.vld 0#4 1#3 1#1 3#5 2#3 1#7) k), _, _, bg (by decide +kernel), okUnit (by decide +kernel), by decide +kernel,
      by unfold Live; decide +kernel⟩,
    ⟨spanIs (fun x => { allFull x with live := [131071] }) (headS .V (.vld 0#4 0#3 1#1 3#5 2#3 1#7) k), _, _, bg (by decide +kernel),
      okUnit (by decide +kernel), by decide +kernel, ⟨by decide +kernel, by decide +kernel, by decide +kernel, by decide +kernel⟩,
      ⟨by decide +kernel, by decide +kernel, by decide +kernel, by decide +kernel⟩, by decide +kernel, by unfold Live; decide +kernel,
      by decide +kernel, by decide +kernel⟩⟩

/-- GatherAndScatter: every lane at one live row, read; a dead row written; no lane active; none of them with a conflict. -/
theorem wit_GatherAndScatter : ∀ p, p = 0#3 ∨ p = 1#3 → ∃ s s0, Begins .V 0#4 s s0 ∧ (s0.unit .V).serve = none ∧
    (pVal p s0 = if p = 0#3 then BitVec.allOnes 32 else 0#32) ∧
    (∀ n ∈ [3#5, 4#5], (s0.my.dueBank (vBankOf s0.cr (vName n s0))).st = .full) ∧
    spaceAsk .V s0 = none ∧ s0.me.rwatch.getLsbD 0 = false ∧
    (∀ l < 32, let a := (s0.me.xreg 2#3 + BitVec.ofNat 24 (ln 4#5 s0 l).toNat) &&& ~~~3#24
      (s0.my.dueBank (spadBankOf a)).st = .full ∧ Table.find? s0.errors (spadAddr s0.cur.sp a / 128) = none ∧
      (p = 0#3 → rowLive s0.cur.sp a s0 = true) ∧ (p = 1#3 → rowLive s0.cur.sp a s0 = false)) ∧
    Live [4#5, 3#5] s0 ∧ mustWait .V (Machine.orderOf .V s0) false s0.me = false ∧ mustWait .V (Machine.orderOf .V s0) true s0.me = false ∧
    s0.mem.wf = true := by
  rintro p (rfl | rfl)
  · exact ⟨spanIs (fun x => { allFull x with live := [0] }) (headS .V (.vgth 0#4 0#3 1#1 3#5 2#3 0#7) (fun k => { k with vlive := 0x18#32 })), _,
      bg (by decide +kernel), by decide +kernel, by decide +kernel, by decide +kernel, by decide +kernel, by decide +kernel, by decide +kernel,
      by unfold Live; decide +kernel, by decide +kernel, by decide +kernel, by decide +kernel⟩
  · exact ⟨spanIs allFull (headS .V (.vsct 0#4 1#3 1#1 3#5 2#3 0#7) (fun k => { k with vlive := 0x18#32 })), _,
      bg (by decide +kernel), by decide +kernel, by decide +kernel, by decide +kernel, by decide +kernel, by decide +kernel, by decide +kernel,
      by unfold Live; decide +kernel, by decide +kernel, by decide +kernel, by decide +kernel⟩

/-- GatherAndScatter: two lanes at two live rows of one bank, whose one conflict is to be held for, is held, and has been. -/
theorem wit_BankConflicts : ∀ v, v = none ∨ v = some [0] ∨ v = some [] → ∃ s s0, Begins .V 0#4 s s0 ∧ (s0.unit .V).serve = v ∧
    (s0.me.str .V).queue ≠ [] ∧ pVal 1#3 s0 = 3#32 ∧
    (∀ n ∈ [3#5, 4#5], (s0.my.dueBank (vBankOf s0.cr (vName n s0))).st = .full) ∧
    spaceAsk .V s0 = none ∧ s0.me.rwatch.getLsbD 0 = false ∧
    (∀ l < 2, let a := (s0.me.xreg 2#3 + BitVec.ofNat 24 (ln 4#5 s0 l).toNat) &&& ~~~3#24
      a = BitVec.ofNat 24 (0x4000 * l) ∧ (s0.my.dueBank (spadBankOf a)).st = .full ∧
      Table.find? s0.errors (spadAddr s0.cur.sp a / 128) = none ∧ rowLive s0.cur.sp a s0 = true) ∧
    Live [4#5, 3#5] s0 ∧ mustWait .V (Machine.orderOf .V s0) false s0.me = false ∧ mustWait .V (Machine.orderOf .V s0) true s0.me = false ∧
    s0.mem.wf = true := by
  intro v hv
  let s (v : Option (List Nat)) : State := spanIs (fun x => { allFull x with live := [0, 128] }) (headS .V (.vgth 0#4 1#3 1#1 3#5 2#3 0#7) (fun k =>
    ({ k with vlive := 0x18#32, p := k.p.set 1 3#32, v := k.v.set 4 (0x4000#1024 <<< 32) } : Reckoner).modStr .V (fun t =>
      { t with queue := t.queue.map (fun u => { u with serve := v }) })))
  refine ⟨s v, waited .V 0#4 (s v), ?_⟩
  rcases hv with rfl | rfl | rfl <;>
    exact ⟨bg (by decide +kernel), by decide +kernel, by decide +kernel, by decide +kernel, by decide +kernel, by decide +kernel, by decide +kernel,
      by decide +kernel, by unfold Live; decide +kernel, by decide +kernel, by decide +kernel, by decide +kernel⟩

/-- GatherAndScatter: a Reckoner that runs with one clock of conflict left, in the last bank group. -/
theorem wit_ConflictsCount : ∃ (y : Span) (u : Work), clocked (y.reck 0#2) = true ∧ (y.reck 0#2).stopMet = false ∧
    ((y.reck 0#2).str .V).queue = [u] ∧ u.serve = some [15] :=
  ⟨Span.reset.setReck 0#2 ((reckFor .V (.vgth 0#4 0#3 1#1 3#5 2#3 0#7)).modStr .V (fun t =>
    { t with queue := t.queue.map (fun u => { u with serve := some [15] }) })), _, by decide +kernel, by decide +kernel, rfl, rfl⟩

/-- A running Reckoner 0 of Span 0 with one V result on its way. -/
def landing (d : VDest) (m : W32) (v : Row) (f : Span → Span := id) : State :=
  spanIs f (reckIs (fun k => { k with run := .running, landings := [⟨0#64, 0#64, d, m, v⟩] }))

/-- ValuesLand: a result that is due; the words of an accumulator row as read, and free ones where the row has been written
since; a predicate; an image row of data and one of scales, of a tile with scales; a deposit. -/
theorem wit_ResultsLand :
    (∃ (s : State) (l : VLanding), clocked (s.reck 0#7 0#2) = true ∧ (s.reck 0#7 0#2).landings = [l] ∧
      landsNow (s.reck 0#7 0#2) l = true ∧ l.dest = .vreg 31#5) ∧
    (∀ b : Bool, ∃ (s : State) (l : VLanding) (gen : Option Nat), clocked (s.reck 0#7 0#2) = true ∧ (s.reck 0#7 0#2).landings = [l] ∧
      landsNow (s.reck 0#7 0#2) l = true ∧ l.dest = .accRead 31#5 1#1 7#3 127#7 gen ∧
      beingWritten (s.span 0#7) 1#1 7#3 127 = false ∧ decide (gen = some (((s.span 0#7).acc 1#1 7#3).count 127)) = b) ∧
    (∃ (s : State) (l : VLanding), clocked (s.reck 0#7 0#2) = true ∧ (s.reck 0#7 0#2).landings = [l] ∧ l.dest = .pred 7#3 ∧
      reached l.due (s.reck 0#7 0#2).scyV = true) ∧
    (∀ u, u = 0 ∨ u = 1 → ∃ (s : State) (l : VLanding) (c : W32), clocked (s.reck 0#7 0#2) = true ∧ (s.reck 0#7 0#2).landings = [l] ∧
      l.dest = .tile 15#4 u c ∧ reached l.due (s.reck 0#7 0#2).scyV = true ∧ cfgOk c = true ∧ cfgSc c = true ∧ l.mask = 1#32 ∧
      (if u = 0 then 0 < dataRegion c else dataRegion c = 128) ∧ 128 * u < imageBytes c) ∧
    (∃ (s : State) (x : WideRec), clocked (s.reck 0#7 0#2) = true ∧ (s.reck 0#7 0#2).wide 7#3 = .pending 0#64 x ∧
      reached 0#64 (s.reck 0#7 0#2).scyV = true) := by
  refine ⟨⟨landing (.vreg 31#5) 1#32 5#1024, _, by decide +kernel, rfl, by decide +kernel, rfl⟩,
    fun b => ⟨landing (.accRead 31#5 1#1 7#3 127#7 (some (if b then 0 else 1))) 1#32 5#1024, _, some (if b then 0 else 1),
      by cases b <;> decide +kernel, rfl, by cases b <;> decide +kernel, rfl, by cases b <;> decide +kernel, by cases b <;> decide +kernel⟩,
    ⟨landing (.pred 7#3) 0x80000000#32 5#1024, _, by decide +kernel, rfl, rfl, by decide +kernel⟩, ?_,
    ⟨reckIs (fun k => { k with run := .running }.setWide 7#3 (.pending 0#64 ⟨1#16, true, false, false⟩)), ⟨1#16, true, false, false⟩,
      by decide +kernel, by decide +kernel, by decide +kernel⟩⟩
  rintro u (rfl | rfl)
  · exact ⟨landing (.tile 15#4 0 0x10120800#32) 1#32 5#1024, _, 0x10120800#32, by decide +kernel, rfl, rfl, by decide +kernel, by decide +kernel,
      by decide +kernel, rfl, by decide +kernel, by decide +kernel⟩
  · exact ⟨landing (.tile 15#4 1 0x10120800#32) 1#32 5#1024, _, 0x10120800#32, by decide +kernel, rfl, rfl, by decide +kernel, by decide +kernel,
      by decide +kernel, rfl, by decide +kernel, by decide +kernel⟩

/-- ValuesLand: a timed load whose data is to come, one of S and one of V whose data has come, an atomic's result, a window
atomic that goes on and one behind a port that is down, updates in the switches, for this device and for another, in its flit and
acknowledged. -/
theorem wit_ValuesLand :
    (∃ (s s1 : State) (p : Phys) (b : LandEntry), let k := s.reck 0#7 0#2
      k.buffer = [b] ∧ b.data = none ∧ b.fault = none ∧ k.frozen = none ∧ b.stream = .S ∧
      Unsent (workAccess (threadId s 0#7 0#2) .S b.work) s ∧ translateFree 0#7 (s.span 0#7).xroot (entryAsk b) b.addr s = .ok p s1 ∧ s1.reck 0#7 0#2 = k ∧ k.posted = [] ∧ (b.watch && p.watch) = false ∧
      remote s1 p.pa = false ∧ unreachable s1 p.pa = false ∧ Table.find? s1.errors (homeAddr s1 p.pa / 128) = none ∧ draining k = false ∧
      clocked k = true ∧ reached b.due k.scyS = true ∧ k.landings = [] ∧ b.dest = 23#5) ∧
    (∀ e, e = .S ∨ e = .V → ∃ (s : State) (b : LandEntry), let k := s.reck 0#7 0#2
      k.buffer = [b] ∧ b.stream = e ∧ b.data = some ((5#64).zeroExtend 1024) ∧ clocked k = true ∧ reached b.due k.scyS = true ∧
      reached b.due k.scyV = true ∧ k.landings = [] ∧ b.dest = 23#5 ∧ b.fault = none) ∧
    (∃ s : State, (s.reck 0#7 0#2).wait = .atomic 23#5 5#64) ∧ (∃ s : State, (s.reck 0#7 0#2).wait = .atomic2 22#5 5#64 6#64) ∧
    (∀ b, ∃ (s : State) (u : WindowUpdate) (rest : List WindowUpdate) (o : Work), let k := s.reck 0#7 0#2
      k.windows = u :: rest ∧ unreachable s u.pa = b ∧ u.work = some o ∧ u.thread = (5, 0#7 ++ 0#2) ∧ (s.span 0#7).node = some 5 ∧
      k.run = .running ∧ k.frozen = none ∧ k.stop = none ∧ k.faults = []) ∧
    (∃ (s : State) (u : WindowUpdate), s.fabric.updates[0]? = some u ∧ u.op = 0x3D#7 ∧ s.mem.wf = true ∧ s.fabric.updates.length = 3 ∧
      ∀ y ∈ s.fabric.updates, remote s y.pa = false ∧ unreachable s y.pa = false) ∧
    (∀ b : Bool, ∃ (s : State) (u : WindowUpdate), s.fabric.updates = [u] ∧ remote s u.pa = true ∧ unreachable s u.pa = false ∧
      decide (∃ k : Fin 16, (BitVec.ofNat 8 (u.pa / 2 ^ 43), FlitBody.window (BitVec.ofNat 43 u.pa) u.op u.x) ∈
        carried s.fabric.link[k]) = b) := by
  let b (e : Stream) (d : Option Row) : LandEntry :=
    { stream := e, work := unitFor (.ldt 0#4 23#5 0#5 0#8), dest := 23#5, mask := 0#32, issued := 0#64, due := 0#64, addr := 8#64
      order := 0#3, scope := 0#2, space := none, policy := 0#2, watch := false, missed := false, data := d, fault := none }
  let w : WindowUpdate := ⟨0x40000000000, 0x38#7, 5#64, some (unitFor (.aadd 0#4 0#5 5#5 6#5)), (5, 0#7 ++ 0#2), none, false⟩
  let up (pa : Nat) (op : BitVec 7) (x : W64) : WindowUpdate := ⟨pa, op, x, none, (5, 0#9), none, false⟩
  let run (f : Reckoner → Reckoner) : State := reckIs (fun k => f { k with run := .running })
  refine ⟨?_, ?_, ⟨reckIs (fun k => { k with wait := .atomic 23#5 5#64 }), by decide +kernel⟩,
    ⟨reckIs (fun k => { k with wait := .atomic2 22#5 5#64 6#64 }), by decide +kernel⟩,
    fun b => ⟨{ spanIs (fun x => { x with node := some 5 }) (run (fun k => { k with windows := [w] })) with
        ports := State.reset.ports.set 0 ⟨true, if b then 3#2 else 2#2, [(0x40000000000, 0x10000)]⟩ }, w, [], _, rfl,
      by cases b <;> decide +kernel, rfl, rfl, rfl, rfl, rfl, rfl, rfl⟩,
    ⟨{ State.reset with fabric := { Fabric.reset with updates :=
      [up 0x10000000000 0x3D#7 5#64, up 0x10000000000 0x38#7 5#64, up 0x10000000000 0x3D#7 6#64] } },
      _, rfl, rfl, by decide +kernel, by decide +kernel, by decide +kernel⟩,
    fun b => ⟨{ State.reset with fabric := { Fabric.reset with
        updates := [up (2 ^ 51 + 2 ^ 43) 0x3D#7 5#64], link := Fabric.reset.link.map (fun l => { l with
          state := 2#2, queue := if b then [(1#8, .window 0#43 0x3D#7 5#64)] else [] }) } },
      _, rfl, by cases b <;> decide +kernel, by cases b <;> decide +kernel, by cases b <;> decide +kernel⟩⟩
  rotate_left
  · rintro e (rfl | rfl)
    · exact ⟨run (fun k => { k with buffer := [b .S (some 5#1024)] }), b .S (some 5#1024), by decide +kernel⟩
    · exact ⟨run (fun k => { k with buffer := [b .V (some 5#1024)] }), b .V (some 5#1024), by decide +kernel⟩
  let s := spanIs mapped (run (fun k => { k with buffer := [b .S none] }))
  obtain ⟨p, s1, h, hp⟩ := okIs (x := translateFree 0#7 (s.span 0#7).xroot (entryAsk (b .S none)) 8#64 s)
    (p := fun p s1 => decide (s1.reck 0#7 0#2 = s.reck 0#7 0#2) && !remote s1 p.pa && !unreachable s1 p.pa &&
      decide (Table.find? s1.errors (homeAddr s1 p.pa / 128) = none))
    (by decide +kernel)
  simp only [Bool.and_eq_true, Bool.not_eq_true', decide_eq_true_eq] at hp
  exact ⟨s, s1, p, b .S none, by decide +kernel, rfl, rfl, by decide +kernel, rfl, unsentIs (by decide +kernel), h, hp.1.1.1, by decide +kernel, rfl, hp.1.1.2, hp.1.2, hp.2,
    by decide +kernel, by decide +kernel, by decide +kernel, by decide +kernel, rfl⟩

/-- NopsAndAddresses: AGEN with its position wrapped and not; a paced engine; the lease held and not. -/
theorem wit_NopsAndAddresses :
    (∃ s s0, Starts .S 0#4 s s0) ∧ (∃ s s0 s1, Begins .S 0#4 s s0 ∧ popSrcs [4#5, 5#5] s0 = .ok () s1 ∧ Room 6#5 s1) ∧
    (∀ e, e = .M ∨ e = .K ∨ e = .C ∨ e = .Q → ∃ s s0, s.atTender = false ∧ paced e s.me s.my.clock = true ∧ waitTokens e 0#4 s = some s0) ∧
    (∀ h, h = none ∨ h = some 0#2 → ∃ s s0, s.atTender = false ∧ leaseNow s.cur.sp s = s ∧ paced .M s.me s.my.clock = true ∧
      waitTokens .M 0#4 s = some s0 ∧ s0.my.lease.holder = h) := by
  refine ⟨⟨headS .S (.nop 0#4), _, startsIs (bg (by decide +kernel))⟩,
    ⟨headS .S (.agen 0#4 6#5 4#5 5#5 0#3), _, _, bg (by decide +kernel), okUnit (by decide +kernel), .inr (.inl (by decide))⟩, ?_, ?_⟩
  · rintro e (rfl | rfl | rfl | rfl)
    · exact ⟨headS .M (.mnop 0#4), _, by decide +kernel, by decide +kernel, waitIs (by decide +kernel)⟩
    · exact ⟨headS .K (.knop 0#4), _, by decide +kernel, by decide +kernel, waitIs (by decide +kernel)⟩
    · exact ⟨headS .C (.cnop 0#4), _, by decide +kernel, by decide +kernel, waitIs (by decide +kernel)⟩
    · exact ⟨headS .Q (.qnop 0#4), _, by decide +kernel, by decide +kernel, waitIs (by decide +kernel)⟩
  · rintro h (rfl | rfl)
    · exact ⟨headS .M (.mrel 0#4), _, by decide +kernel, leaseNow_still (by decide +kernel) (by decide +kernel), by decide +kernel,
        waitIs (by decide +kernel), by decide +kernel⟩
    · exact ⟨spanIs (fun x => { x with lease := { x.lease with holder := some 0#2 } }) (headS .M (.mrel 0#4)), _, by decide +kernel,
        leaseNow_still (by decide +kernel) (by decide +kernel), by decide +kernel, waitIs (by decide +kernel), by decide +kernel⟩
/-- The hypotheses of CommandsRun, met by an instruction in some state. -/
def CommandRuns (i : Sys2Proof.Instr) : Prop :=
  ∃ k args t n s s0 s1 s2 s3 c c1 c2, commandOf i = some k ∧ Ready k.eng k.tok s s0 ∧ k.enter s0 s1 ∧ k.args s1 = some (args, t) ∧
    c = k.copies (begun k args t s s1).2 (begun k args t s s1).1 ∧ (k.eng = .M → Alone s) ∧
    k.check (begun k args t s s1).2 c = none ∧ n ≤ s.cur.units.getD (2 * k.total c) ∧
    Runs k.total k.unit n { c with stage := .running } (k.start (begun k args t s s1).2) c1 s2 ∧
    k.total c1 ≤ c1.cursor ∧ k.close c1 s2 = .ok c2 s3 ∧ Awake s3

theorem aloneIs {s : State} (h : ∀ r, r ≠ s.cr → ((s.my.reck r).str .M).active = none) : Alone s := by
  intro r hr x hx; rw [h r hr] at hx; cases hx

theorem sparedOk {α : Type} {s t : State} {a : α} {x : Out α} (h : sparing s x = .ok a t) : x = .ok a t := by
  cases x <;> simp_all [sparing]

theorem runsOf {total : Cmd → Nat} {unit : Cmd → State → Out Cmd} : ∀ (n : Nat) (c : Cmd) (s : State) (c1 : Cmd) (s1 : State),
    runUnits total unit n c s = (c1, .ok () s1) → ∃ m ≤ n, Runs total unit m c s c1 s1
  | 0, c, s, c1, s1, h => by
    simp only [runUnits, Prod.mk.injEq, Out.ok.injEq, true_and] at h
    exact ⟨0, Nat.le_refl _, h.1.symm, h.2.symm⟩
  | n + 1, c, s, c1, s1, h => by
    unfold runUnits at h
    split at h
    · simp only [Prod.mk.injEq, Out.ok.injEq, true_and] at h
      exact ⟨0, Nat.zero_le _, h.1.symm, h.2.symm⟩
    · rename_i hc
      split at h
      · rename_i c' s' h'
        obtain ⟨m, hm, hr⟩ := runsOf n _ _ _ _ h
        exact ⟨m + 1, Nat.succ_le_succ hm, Nat.lt_of_not_le hc, c', s', sparedOk h', hr⟩
      · simp at h
      · simp at h

/-- A command that its engine lets go in `s1` runs to its close from a state. -/
def runsToEnd (k : Command) (s s1 : State) : Bool :=
  match k.args s1 with
  | none => false
  | some (args, t) =>
    let u := (begun k args t s s1).2
    let c := k.copies u (begun k args t s s1).1
    (k.check u c).isNone && s.cur.units.isNone &&
    (match runUnits k.total k.unit (2 * k.total c) { c with stage := .running } (k.start u) with
      | (c1, .ok _ s2) => decide (k.total c1 ≤ c1.cursor) && okAnd (fun _ s3 => awake s3) (k.close c1 s2)
      | _ => false)

def mayBegin (e : Stream) (w : Tok) (s : State) : Bool :=
  !s.atTender && (s.me.str e).active.isNone &&
  (e != .M || (!s.me.pendLease && !limitReached (s.span s.cur.sp) && (s.span s.cur.sp).lease.due == 0#4)) &&
  paced e s.me s.my.clock && (waitTokens e w s).isSome

theorem readyIs {e : Stream} {w : Tok} {s : State} (h : mayBegin e w s = true) : Ready e w s (waited e w s) := by
  simp only [mayBegin, Bool.and_eq_true, Bool.not_eq_true', Option.isNone_iff_eq_none, Bool.or_eq_true, bne_iff_ne] at h
  obtain ⟨⟨⟨⟨h1, h2⟩, h3⟩, h4⟩, h5⟩ := h
  refine ⟨h1, h2, fun he => ?_, h4, waitIs h5⟩
  simp only [he, ne_eq, not_true_eq_false, false_or, beq_iff_eq] at h3
  exact ⟨leaseNow_still h3.1.2 h3.2, h3.1.1⟩

theorem commandRuns {i : Sys2Proof.Instr} {k : Command} {s s1 : State} (hk : commandOf i = some k) (hr : mayBegin k.eng k.tok s = true)
    (hf : k.enter (waited k.eng k.tok s) s1) (ha : k.eng = .M → Alone s) (h : runsToEnd k s s1 = true) : CommandRuns i := by
  unfold runsToEnd at h
  simp only at h
  split at h
  · simp at h
  · rename_i args t hargs
    simp only [Bool.and_eq_true, Option.isNone_iff_eq_none] at h
    obtain ⟨⟨h1, h2⟩, h3⟩ := h
    split at h3
    · rename_i c1 u s2 hu
      simp only [Bool.and_eq_true, decide_eq_true_eq] at h3
      obtain ⟨c2, s3, h4, h5⟩ := okIs h3.2
      obtain ⟨m, hm, hr'⟩ := runsOf _ _ _ _ _ hu
      exact ⟨k, args, t, m, s, _, s1, s2, s3, _, c1, c2, hk, readyIs hr, hf, hargs, rfl, ha, h1, by simpa [h2] using hm, hr', h3.1, h4,
        awakeIs h5⟩
    · simp at h3

/-- The hypotheses of CommandsRun for a command whose check fails, met by an instruction in some state. -/
def CheckFails (i : Sys2Proof.Instr) : Prop :=
  ∃ k args t f s s0 s1 u c, commandOf i = some k ∧ Ready k.eng k.tok s s0 ∧ k.enter s0 s1 ∧ k.args s1 = some (args, t) ∧
    u = (begun k args t s s1).2 ∧ c = k.copies u (begun k args t s s1).1 ∧ (k.eng = .M → Alone s) ∧ k.check u c = some f ∧ Awake u ∧
    Unsent (unitOfCmd (threadId u u.cur.sp u.cr) k.eng c) u

def failsToBegin (k : Command) (s s1 : State) : Bool :=
  match k.args s1 with
  | none => false
  | some (args, t) =>
    let u := (begun k args t s s1).2
    (k.check u (k.copies u (begun k args t s s1).1)).isSome && awake u && u.fabric.requests.isEmpty

theorem checkFails {i : Sys2Proof.Instr} {k : Command} {s s1 : State} (hk : commandOf i = some k) (hr : mayBegin k.eng k.tok s = true)
    (hf : k.enter (waited k.eng k.tok s) s1) (hn : k.eng = .M → Alone s) (h : failsToBegin k s s1 = true) : CheckFails i := by
  unfold failsToBegin at h
  split at h
  · simp at h
  · rename_i args t ha
    simp only [Bool.and_eq_true, List.isEmpty_iff] at h
    obtain ⟨f, hc⟩ := Option.isSome_iff_exists.mp h.1.1
    exact ⟨k, args, t, f, s, _, s1, _, _, hk, readyIs hr, hf, ha, rfl, rfl, hn, hc, awakeIs h.1.2, unsentIs h.2⟩

/-- The hypotheses of CommandsRun for a Girder command that begins behind another's, met by an instruction in some state. -/
def CommandWaits (i : Sys2Proof.Instr) : Prop :=
  ∃ k args t s s0 s1, commandOf i = some k ∧ k.eng = .M ∧ Ready k.eng k.tok s s0 ∧ k.enter s0 s1 ∧ k.args s1 = some (args, t) ∧
    ¬ Alone s ∧ Awake s1

/-- Reckoner `r` of Span 0 runs with a command in execution with its engine. -/
def busyWith (e : Stream) (i : Sys2Proof.Instr) (r : BitVec 2) (s : State) : State :=
  let c : Cmd := { newCmd Reckoner.reset (unitFor i) [] 0#6 false with stage := .running, engine := true }
  let k : Reckoner := { Reckoner.reset with run := .running }
  s.setReck 0#7 r (k.modStr e (fun t => { t with active := some c }))

theorem notAlone {s : State} (i : Sys2Proof.Instr) (h : ((s.my.reck 1#2).str .M).active =
    some { newCmd Reckoner.reset (unitFor i) [] 0#6 false with stage := .running, engine := true }) (hr : s.cr = 0#2) : ¬ Alone s := by
  intro ha
  have := (ha 1#2 (by rw [hr]; decide) _ h (.inr rfl)).1
  cases this

/-- CommandsRun: a command of each engine; of C and Q with no unit at all, of M and K with one; checks that fail, of C and of M;
and a command of M behind another's. -/
theorem wit_CommandsRun : CommandRuns (.ccpy 0#4 63#6 1#1) ∧ CommandRuns (.mzero 0#4 1#1 7#3 0#6) ∧ CommandRuns (.smsrst 0#4 0#6) ∧
    CommandRuns (.qscan 0#4 0#6 2#2 0#1 0#3 0#1) ∧
    CheckFails (.ccpy 0#4 63#6 0#1) ∧ CheckFails (.mstat 0#4 1#1 0#3 0#6) ∧ CommandWaits (.mzero 0#4 1#1 7#3 0#6) := by
  let c := headS .C (.ccpy 0#4 63#6 1#1) (fun k => { k with q := k.q.set 3 [1#64, 2#64, 0#64] })
  let m := spanIs (fun x => { allFull x with lease := { x.lease with holder := some 0#2 } }) (headS .M (.mzero 0#4 1#1 7#3 0#6))
  let l := headS .K (.smsrst 0#4 0#6) (fun k => { k with q := k.q.set 2 [0#64, 1#64] })
  let f := spanIs (fun x => { allFull x with lease := { x.lease with holder := some 0#2 } }) (headS .M (.mstat 0#4 1#1 0#3 0#6)
    (fun k => { k with q := k.q.set 1 [0#64, 0#64] }))
  let b := busyWith .M (.mzero 0#4 1#1 7#3 0#6) 1#2 m
  let q := headS .Q (.qscan 0#4 0#6 2#2 0#1 0#3 0#1) (fun k => { k with q := k.q.set 4 [0#64, 0#64, 0#64, 0#64, 0#64] })
  have hc : copyGate (waited .C 0#4 c) = .ok () (outState (copyGate (waited .C 0#4 c))) := okUnit (by decide +kernel)
  have hl : ladderGate 0#1 (waited .K 0#4 l) = .ok () (outState (ladderGate 0#1 (waited .K 0#4 l))) := okUnit (by decide +kernel)
  have hq : pierGate (waited .Q 0#4 q) = .ok () (outState (pierGate (waited .Q 0#4 q))) := okUnit (by decide +kernel)
  refine ⟨commandRuns (s := c) (s1 := outState (copyGate (waited .C 0#4 c))) rfl (by decide +kernel) hc nofun (by decide +kernel),
    commandRuns (s := m) (s1 := waited .M 0#4 m) rfl (by decide +kernel) ⟨by decide +kernel, rfl⟩ (fun _ => aloneIs (by decide +kernel)) (by decide +kernel),
    commandRuns (s := l) (s1 := outState (ladderGate 0#1 (waited .K 0#4 l))) rfl (by decide +kernel) hl nofun (by decide +kernel),
    commandRuns (s := q) (s1 := outState (pierGate (waited .Q 0#4 q))) rfl (by decide +kernel) hq nofun (by decide +kernel), ?_,
    checkFails (s := f) (s1 := waited .M 0#4 f) rfl (by decide +kernel) ⟨by decide +kernel, rfl⟩ (fun _ => aloneIs (by decide +kernel)) (by decide +kernel),
    ⟨_, _, _, b, waited .M 0#4 b, waited .M 0#4 b, rfl, rfl, readyIs (by decide +kernel), ⟨by decide +kernel, rfl⟩, rfl,
      notAlone (.mzero 0#4 1#1 7#3 0#6) (by decide +kernel) (by decide +kernel), awakeIs (by decide +kernel)⟩⟩
  let s := headS .C (.ccpy 0#4 63#6 0#1) (fun k => { k with q := k.q.set 3 [0#64, 0#64, 0x100000000#64] })
  have h : copyGate (waited .C 0#4 s) = .ok () (outState (copyGate (waited .C 0#4 s))) := okUnit (by decide +kernel)
  exact checkFails (s := s) (s1 := outState (copyGate (waited .C 0#4 s))) rfl (by decide +kernel) h nofun (by decide +kernel)

theorem turnIs {n : Nat} {s : State} (h : ∀ r, r ≠ s.cr → ((s.my.reck r).str .M).active = none) : Turn n s := by
  intro r hr x hx; rw [h r hr] at hx; cases hx
theorem notTurn {n : Nat} {s : State} (i : Sys2Proof.Instr) (h : ((s.my.reck 1#2).str .M).active =
    some { newCmd Reckoner.reset (unitFor i) [] 0#6 false with stage := .running, engine := true }) (hr : s.cr = 0#2) : ¬ Turn n s := by
  intro ha
  have := (ha 1#2 (by rw [hr]; decide) _ h (.inr rfl)).1
  cases this

/-- CommandsRun, of the gates: a copy command with an engine free and, of a CENC, with no encoder free; a Pier command and one
at MRCAP; a Girder command of the holder and of another; one begun, with its turn and behind another Reckoner's; a ladder command
with its turn and behind another Reckoner's. -/
theorem wit_Gates :
    (∃ s : State, let d : Fin 4 := ⟨s.cur.sp.toNat / 32, by have := s.cur.sp.isLt; omega⟩
      countDie s s.cur.sp onEngine < 8 ∧ copyReady s (s.cur.sp, s.cr) = true ∧
      (dieOrder d s.cserved[d]).find? (copyReady s) = some (s.cur.sp, s.cr)) ∧
    (∃ s : State, (∃ w c r, headInstr .C s.me = .cenc w c r) ∧ 2 ≤ countDie s s.cur.sp encoding) ∧
    (∃ s : State, let d : Fin 4 := ⟨s.cur.sp.toNat / 32, by have := s.cur.sp.isLt; omega⟩
      outstanding s s.cur.sp < s.my.cap.toNat ∧ pierHeadReady s (s.cur.sp, s.cr) = true ∧
      (dieOrder d s.qserved[d]).find? (pierHeadReady s) = some (s.cur.sp, s.cr)) ∧
    (∃ s : State, s.my.cap.toNat ≤ outstanding s s.cur.sp) ∧ (∃ s : State, s.my.lease.holder = some s.cr) ∧
    (∃ (s : State) (c : Cmd), (s.me.str .M).active = some c ∧ Turn c.place s) ∧
    (∃ (s : State) (c : Cmd), (s.me.str .M).active = some c ∧ ¬ Turn c.place s) ∧
    (∃ s : State, s.my.lease.holder ≠ some s.cr) ∧
    (∃ s : State, ladderReady s.my 0#1 s.cr = true ∧ ∃ r, r ≠ s.cr ∧ ladderRuns (s.my.reck r) = true) ∧
    (∃ s : State, ladderReady s.my 0#1 s.cr = true ∧ (∀ r, r ≠ s.cr → ladderRuns (s.my.reck r) = false) ∧
      (grantOrder s.my.kserved[0]).find? (ladderReady s.my 0#1) = some s.cr) := by
  let held (x : Span) : Span := { x with lease := { x.lease with holder := some 0#2 } }
  let mz : Sys2Proof.Instr := .mzero 0#4 1#1 7#3 0#6
  let lad := headS .K (.smsrst 0#4 0#6) (fun k => { k with q := k.q.set 2 [0#64, 1#64] })
  exact ⟨⟨headS .C (.ccpy 0#4 63#6 1#1) (fun k => { k with q := k.q.set 3 [1#64, 2#64, 0#64] }), by decide +kernel, by decide +kernel, by decide +kernel⟩,
    ⟨busyWith .C (.cenc 0#4 0#6 0#1) 1#2 (busyWith .C (.cenc 0#4 0#6 0#1) 2#2 (headS .C (.cenc 0#4 0#6 0#1))), ⟨_, _, _, rfl⟩, by decide +kernel⟩,
    ⟨headS .Q (.qscan 0#4 0#6 2#2 0#1 0#3 0#1) (fun k => { k with q := k.q.set 4 [0#64, 0#64, 0#64, 0#64, 0#64] }), by decide +kernel,
      by decide +kernel, by decide +kernel⟩,
    ⟨spanIs (fun x => { x with cap := 0#16 }), by decide +kernel⟩, ⟨spanIs held, by decide +kernel⟩,
    ⟨busyWith .M mz 0#2 State.reset, _, rfl, turnIs (by decide +kernel)⟩,
    ⟨busyWith .M mz 1#2 (busyWith .M mz 0#2 State.reset), _, rfl, notTurn mz (by decide +kernel) (by decide +kernel)⟩,
    ⟨State.reset, by decide +kernel⟩,
    ⟨busyWith .K (.smsrst 0#4 0#6) 1#2 lad, by decide +kernel, 1#2, by decide +kernel, by decide +kernel⟩,
    ⟨lad, by decide +kernel, by decide +kernel, by decide +kernel⟩⟩

/-- LeaseIsGrantedInTurn: an MLEASE at the head; a free lease that Reckoner 0 has requested when Reckoner 3 held it last, for an
MLEASE and for another command; a holder at the hold limit, alone and with another that requests; the count of the limit. -/
theorem wit_Lease :
    (∃ s s0, Ready .M 0#4 s s0) ∧
    (∀ b : Bool, ∃ (s : State) (u : Work), (s.span 0#7).lease.holder = none ∧
      (grantOrder (s.span 0#7).lease.last).find? (fun r => (s.span 0#7).lease.due.getLsbD r.toNat && requesting (s.span 0#7) r) = some 0#2 ∧
      ((s.reck 0#7 0#2).str .M).queue = [u] ∧ u.instr = if b then .mlease 0#4 0#6 else .mzero 0#4 1#1 7#3 0#6) ∧
    (∀ b : Bool, ∃ s : State, (s.span 0#7).lease.holder = some 3#2 ∧ (s.span 0#7).lease.hold = 16384 ∧
      girderBusy ((s.span 0#7).reck 3#2) = false ∧ requesting (s.span 0#7) 3#2 = false ∧ requesting (s.span 0#7) 0#2 = b) ∧
    (∀ b : Bool, ∃ x : Span, x.lease.holder = some 3#2 ∧ girderBusy (x.reck 3#2) = b) ∧
    (∃ x : Span, x.lease.holder = some 3#2 ∧ ∀ r, r ≠ 3#2 → requesting x r = false) ∧
    (∃ x : Span, x.lease.holder = some 3#2 ∧ girderBusy (x.reck 3#2) = false ∧ (∃ r, r ≠ 3#2 ∧ requesting x r = true) ∧
      (x.reck 3#2).frozen = none ∧ (x.reck 3#2).stop = none ∧ (x.reck 3#2).halted = false) := by
  let other : State := spanIs (fun x => { x with lease := ⟨some 3#2, 5, some 3#2, 1#4, 0#4, 16384⟩ }) (headS .M (.mlease 0#4 0#6))
  refine ⟨⟨headS .M (.mlease 0#4 0#6), _, readyIs (by decide +kernel)⟩, fun b => ?_, fun b => ?_, fun b => ?_,
    ⟨{ Span.reset with lease := ⟨some 3#2, 5, some 3#2, 0#4, 0#4, 16384⟩ }, by decide +kernel, by decide +kernel⟩,
    ⟨other.span 0#7, by decide +kernel, by decide +kernel, ⟨0#2, by decide +kernel, by decide +kernel⟩, by decide +kernel, by decide +kernel,
      by decide +kernel⟩⟩
  · refine ⟨spanIs (fun x => { x with lease := ⟨none, 0, some 3#2, 1#4, 1#4, 0⟩ }) (headS .M (if b then .mlease 0#4 0#6 else .mzero 0#4 1#1 7#3 0#6)),
      unitFor (if b then .mlease 0#4 0#6 else .mzero 0#4 1#1 7#3 0#6), ?_, ?_, rfl, rfl⟩ <;> cases b <;> decide +kernel
  · refine ⟨if b then other else spanIs (fun x => { x with lease := ⟨some 3#2, 5, some 3#2, 0#4, 0#4, 16384⟩ }), ?_, ?_, ?_, ?_, ?_⟩ <;>
      cases b <;> decide +kernel
  · refine ⟨if b then ((other.setReck 0#7 3#2 ((reckFor .M (.mzero 0#4 1#1 7#3 0#6)).modStr .M (fun t =>
      { t with active := some (newCmd Reckoner.reset (unitFor (.mzero 0#4 1#1 7#3 0#6)) [] 0#6 false) }))).span 0#7) else other.span 0#7, ?_, ?_⟩ <;>
      cases b <;> decide +kernel

/-- A command in execution with given arguments, cursor and tile configuration. -/
def cmdFor (i : Sys2Proof.Instr) (args : List W64) (cursor : Nat := 0) (tcfg : W32 := 0#32) : Cmd :=
  { newCmd Reckoner.reset (unitFor i) args 0#6 false with cursor := cursor, tcfg := tcfg, ashape := 0xFF#8, stage := .running }

/-- With its 128 gains read. -/
def withGains (c : Cmd) : Cmd := { c with part := { c.part with gains := List.replicate 128 0x3F80#16 } }

/-- Span 0 with every bank FULL, every band powered and its weights live, the row and scale of tiles 0 and 1 live, accumulator row 0 live. -/
def warm (x : Span) : Span :=
  { allFull x with
    arr := (allFull x).arr.map (fun a => { a with band := Vector.replicate 4 ⟨false, true, none, 0⟩, acc := a.acc.set 0 ⟨[(0, 5#4096)], []⟩ })
    tiles := (x.tiles.set 0 ⟨[], [0]⟩).set 1 ⟨[], [0]⟩, live := [0, 1, 2, 3, 4, 5, 6, 7, 8], books := x.books.set 0 (some [0x3F80#16]) }

/-- WeightsAndProducts, DiagonalAndSlices: a tile of one row, of 32 i8 columns, and of one f32 column; the weights of the array and
those that a command holds; gain rows live, and dead since they were read; the first and the last pass. -/
theorem wit_Girder :
    (∃ (c : Cmd) (s : State), Powered c 1#1 s ∧ (∀ i < cfgRows c.tcfg, (s.my.tile 0#4).isLive i = true) ∧ 0 < cfgRows c.tcfg ∧
      (usesBook c.tcfg = true → (s.my.book (cfgCb c.tcfg)).isSome = true) ∧ Full (.tile 0#4) s) ∧
    (∀ h : Bool, ∃ (c : Cmd) (s : State), c.part.sets.isEmpty = h ∧ let ws := (heldSet c 1#1 s).ws
      (∀ j : Fin 4, bandIn c 1#1 j = true → (heldSet c 1#1 s).live[j] = true) ∧
      Streams 1#1 0#3 0#4 (c.cursor = 0 ∧ (0#1) = 1#1) c s ∧ (cfgSc c.tcfg = true → ∀ i < cfgRows c.tcfg, inStep ((c.part.tile.getD (s.my.tile 0#4)).scale c.tcfg i c.cursor) = true) ∧
      (ws.scaled = true → ∀ n < 128, colIn c 1#1 ws.w n = true → inStep ((ws.col n).scales.getD c.cursor 0#32) = true)) ∧
    (∃ (c : Cmd) (s : State), let off : BitVec 24 := (c.arg 0).extractLsb' 0 24
      (c.arg 0).getLsbD 63 = true ∧ Powered c 1#1 s ∧ c.part.gains = [] ∧ ∀ k, k = off ∨ k = off + 128#24 → rowLive s.cur.sp k s = true ∧ Full (spadBankOf k) s ∧
        Table.find? s.errors (spadAddr s.cur.sp k / 128) = none) ∧
    (∃ (c : Cmd) (s : State), let off : BitVec 24 := (c.arg 0).extractLsb' 0 24
      Powered c 1#1 s ∧ c.part.gains = [] ∧ ∀ i < 2, rowLive s.cur.sp (off + BitVec.ofNat 24 (128 * i)) s = false ∧
        (Table.find? c.part.rows i).isSome = true) ∧
    (∃ (c : Cmd) (s : State), Powered c 1#1 s ∧ c.part.gains ≠ [] ∧ Streams 1#1 0#3 0#4 (c.cursor = 0 ∧ (0#1) = 1#1) c s ∧
      (cfgSc c.tcfg = true → 32 * c.cursor < cfgCols c.tcfg → ∀ i < cfgRows c.tcfg, inStep ((c.part.tile.getD (s.my.tile 0#4)).scale c.tcfg i c.cursor) = true)) ∧
    (∀ n, n = 0 ∨ n = 5 → ∃ (c : Cmd) (s : State), c.cursor = n ∧ (c.part.tile.isSome = decide (n = 5)) ∧ Powered c 1#1 s ∧ Streams 1#1 0#3 0#4 (c.cursor = 0 ∧ (0#1) = 1#1) c s ∧
      c.cursor < 6 * ((cfgCols c.tcfg + 31) / 32) ∧ cfgCols c.tcfg2 = cfgCols c.tcfg ∧ cfgType c.tcfg = tF32 ∧
      (∀ i < cfgRows c.tcfg2, (s.my.tile 1#4).isLive i = true) ∧ 0 < cfgRows c.tcfg2 ∧ Full (.tile 1#4) s) ∧
    (∃ w : W32, (f32 w).isFinite = false) ∧ ∃ (w : W32) (d : Dy), f32 w = .fin d := by
  refine ⟨⟨cmdFor (.mwld 0#4 1#1 0#4 0#6 0#1) [] 0 0x10120800#32, spanIs warm, by unfold Powered; decide +kernel, by decide +kernel,
      by decide +kernel, by decide +kernel, by unfold Full; decide +kernel⟩,
    fun h => ⟨{ cmdFor (.mma 0#4 1#1 0#3 0#4 0#6 0#1 0#1) [] 0 0x10120800#32 with
        part := { Partial.empty with sets := if h then [] else List.replicate 2 ⟨WeightSet.reset, Vector.replicate 4 true⟩ } }, spanIs warm,
      by cases h <;> decide +kernel, by cases h <;> decide +kernel, by unfold Streams Full; cases h <;> decide +kernel,
      by cases h <;> decide +kernel, by cases h <;> decide +kernel⟩,
    ⟨cmdFor (.mmaid 0#4 1#1 0#3 0#4 0#6 0#1 0#1) [0x8000000000000000#64] 0 0x10120800#32, spanIs warm, by decide +kernel, by unfold Powered; decide +kernel, by decide +kernel,
      fun k h => by rcases h with rfl | rfl <;> exact ⟨by decide +kernel, by unfold Full; decide +kernel, by decide +kernel⟩⟩,
    ⟨{ cmdFor (.mmaid 0#4 1#1 0#3 0#4 0#6 0#1 0#1) [0x8000000000000480#64] 0 0x10120800#32 with
        part := { Partial.empty with rows := [(0, 5#1024), (1, 6#1024)] } }, spanIs warm, by unfold Powered; decide +kernel, by decide +kernel,
      by decide +kernel⟩,
    ⟨withGains (cmdFor (.mmaid 0#4 1#1 0#3 0#4 0#6 0#1 0#1) [0x8000000000000000#64] 0 0x10120800#32), spanIs warm, by unfold Powered; decide +kernel, by decide +kernel, by unfold Streams Full; decide +kernel, by decide +kernel⟩,
    ?_, ⟨0x7F800000#32, by decide +kernel⟩, ⟨0#32, _, rfl⟩⟩
  rintro n (rfl | rfl)
  · exact ⟨{ cmdFor (.mma32 0#4 1#1 0#3 0#4 0#6 0#1 0#1 1#4) [] 0 0x40101000#32 with tcfg2 := 0x40101000#32 }, spanIs warm, rfl, by decide +kernel,
      by unfold Powered; decide +kernel, by unfold Streams Full; decide +kernel, by decide +kernel, by decide +kernel, by decide +kernel,
      by decide +kernel, by decide +kernel, by unfold Full; decide +kernel⟩
  · exact ⟨{ cmdFor (.mma32 0#4 1#1 0#3 0#4 0#6 0#1 0#1 1#4) [] 5 0x40101000#32 with
        tcfg2 := 0x40101000#32, part := { Partial.empty with tile := some ⟨[], [0]⟩, tileW := some ⟨[], [0]⟩ } }, spanIs warm, rfl, by decide +kernel,
      by unfold Powered; decide +kernel, by unfold Streams Full; decide +kernel, by decide +kernel, by decide +kernel, by decide +kernel,
      by decide +kernel, by decide +kernel, by unfold Full; decide +kernel⟩
/-- A command's row in the own scratchpad. -/
theorem ownRow {e : Stream} {c : Cmd} {wr : Bool} {a : W64} {s : State} (h : a.getLsbD 63 = true) (h' : c.work.pmem = none)
    (hn : s.fabric.requests = []) : cmdTarget e c wr a s = .ok (.spad s.cur.sp (a.extractLsb' 0 24)) s := by
  simp only [cmdTarget, sentTarget, sentFor, hn, List.find?_nil, resolve, h, if_true, cmdAsk, h']
  simp [Out.bind, Out.map, requestRoom]

/-- ZeroShiftAndStatistics: a FULL accumulator with a live row; a row of numbers and one with a NaN. -/
theorem wit_ZeroShift : (∃ s : State, Full (.acc 1#1 0#3) s ∧ Table.find? (s.my.acc 1#1 0#3).rows 0 = some 5#4096) ∧
    (∃ xs : List Ext, xs.any Ext.isNan = true) ∧ ∃ xs : List Ext, xs.any Ext.isNan = false ∧ xs ≠ [] :=
  ⟨⟨spanIs warm, by unfold Full; decide +kernel, by decide +kernel⟩, ⟨[.nan], rfl⟩, ⟨[Ext.zero], rfl, by simp⟩⟩

/-- ZeroShiftAndStatistics, of MSTAT: the statistics of no row, and of two rows, at the last row of the scratchpad, on into row 0. -/
theorem wit_Statistics : ∀ n : Nat, n = 0 ∨ n = 2 → ∃ (c : Cmd) (s : State), ((c.arg 1).extractLsb' 0 8).toNat = n ∧
    let dst (k i : Nat) : BitVec 24 := ((c.arg 0).extractLsb' 0 24 &&& ~~~0x7F#24) + BitVec.ofNat 24 (512 * k + 4 * i)
    Full (.acc 1#1 0#3) s ∧ s.mem.wf = true ∧ (∀ i < n, (Table.find? (s.my.acc 1#1 0#3).rows i).isSome = true) ∧
    ∀ k < 3, ∀ i < n, Full (spadBankOf (dst k i)) s ∧ Table.find? s.errors (spadAddr s.cur.sp (dst k i) / 128) = none := by
  let c (n : W64) : Cmd := cmdFor (.mstat 0#4 1#1 0#3 0#6) [0x8000000000FFFF80#64, n]
  let s : State := spanIs (fun x => { warm x with arr := (warm x).arr.map (fun a => { a with acc := a.acc.set 0 ⟨[(0, 5#4096), (1, 6#4096)], []⟩ }) })
  rintro n (rfl | rfl)
  · exact ⟨c 0#64, s, by decide +kernel, by unfold Full; decide +kernel, by decide +kernel, by decide +kernel, by unfold Full; decide +kernel⟩
  · exact ⟨c 2#64, s, by decide +kernel, by unfold Full; decide +kernel, by decide +kernel, by decide +kernel, by unfold Full; decide +kernel⟩

/-- RowsAreCopied: between live rows 0 and 1 of the own scratchpad, of a row asked of another device, of a row the command has kept live, bad and dead; element 0
of a list. -/
theorem wit_RowsAreCopied :
    (∃ (c : Cmd) (v : Row) (s s1 : State), cmdTarget .C c false 0x8000000000000000#64 s = .ok (.spad 0#7 0#24) s ∧ Served (.spad 0#7 0#24) s ∧
      cmdRead .C c 0x8000000000000000#64 s = .ok v s1 ∧ cmdTarget .C c true 0x8000000000000080#64 s1 = .ok (.spad 0#7 128#24) s1 ∧
      Writable (.spad 0#7 128#24) s1 ∧ s1.mem.wf = true ∧
      (∀ t u, cmdTarget .C c false 0x8000000000000000#64 s = .ok t u → Table.find? c.part.saved (home u t / 128) = none) ∧
      Table.find? c.part.saved (home s1 (.spad 0#7 128#24) / 128) = none ∧
      c.cursor % ((c.arg 4).extractLsb' 32 16).toNat = 0 ∧ (0x8000000000000000#64 : W64).toNat % 8 = 0) ∧
    (∀ wr : Bool, ∃ (c : Cmd) (s : State) (q : Request), s.fabric.requests = [q] ∧
      q.who = some (unitOfCmd (threadId s s.cur.sp s.cr) .C c) ∧ q.va = 0#64 ∧ q.wr = wr) ∧
    ∀ k, k = .row 5#1024 ∨ k = .bad ∨ k = .dead → ∃ (c : Cmd) (s : State),
      cmdTarget .C c false 0x8000000000000000#64 s = .ok (.spad 0#7 0#24) s ∧
      Table.find? c.part.saved (home s (.spad 0#7 0#24) / 128) = some k ∧ c.deadAt ≠ some c.cursor := by
  let c := cmdFor (.cgth 0#4 0#6 0#1 1#1) [0#64, 0#64, 0x8000000000000000#64, 0#64, 0x100000001#64]
  refine ⟨?_, fun wr => ⟨c, { State.reset with fabric := { Fabric.reset with requests :=
      [⟨some (unitOfCmd (threadId State.reset 0#7 0#2) .C c), 1#8, .load 0#43, none, 0#64, wr, 2 ^ 51 + 2 ^ 43, none, false⟩] } }, _, rfl, rfl, rfl, rfl⟩,
    fun k hk => ⟨{ c with part := { c.part with saved := [(spadAddr 0#7 0#24 / 128, k)] } }, spanIs warm,
    ownRow (by decide) rfl (by decide +kernel), by rcases hk with rfl | rfl | rfl <;> decide +kernel,
    show (none : Option Nat) ≠ some 0 by decide⟩⟩
  obtain ⟨v, s1, h, hp⟩ := okIs (x := cmdRead .C c 0x8000000000000000#64 (spanIs warm)) (p := fun _ s1 => decide (s1.cur = Cur.reset) && s1.mem.wf &&
    s1.fabric.requests.isEmpty && writable (.spad 0#7 128#24) s1) (by decide +kernel)
  simp only [Bool.and_eq_true, decide_eq_true_eq, List.isEmpty_iff] at hp
  refine ⟨c, v, spanIs warm, s1, ownRow (by decide) rfl (by decide +kernel), servedIs (by decide +kernel), h, ?_, writableIs hp.2, hp.1.1.2, ?_, rfl,
    by decide +kernel, by decide⟩
  · have := ownRow (e := .C) (c := c) (wr := true) (a := 0x8000000000000080#64) (s := s1) (by decide) rfl hp.1.2
    rw [hp.1.1.1] at this; exact this
  · intro t u _; rfl

/-- TilesBooksAndQueues: an image row in from row 0, one out to row 1, 16 entries, a vector queue with 7 rows and with 8. -/
theorem wit_TilesBooksQueues :
    (∃ (c : Cmd) (v : Row) (s s1 : State), cmdRead .C c (c.arg 0 + 128#64 * BitVec.ofNat 64 c.cursor) s = .ok v s1 ∧ Full (.tile 0#4) s1 ∧
      cfgRows c.tcfg = 1 ∧ (∀ i ∈ rowsIn c.tcfg c.cursor, (s.my.tile 0#4).isLive i = true) ∧ Full (.tile 0#4) s ∧ (s.me.vqueue 3#2).length = 7) ∧
    (∃ (c : Cmd) (td : Target) (s s1 : State), (∀ x, useBank s.cur.sp (.tile 0#4) s = .ok () x →
      cmdTarget .C c true (c.arg 0 + 128#64 * BitVec.ofNat 64 c.cursor) x = .ok td s1) ∧ Writable td s1 ∧ s1.mem.wf = true) ∧
    ∃ s : State, (s.me.vqueue 3#2).length = 8 := by
  let c := cmdFor (.ctile 0#4 0#6 0#4 0#1 0#1) [0x8000000000000000#64] 0 0x10120800#32
  refine ⟨?_, ?_, ⟨reckIs (fun k => k.setVq 3#2 (List.replicate 8 0#1024)), by decide +kernel⟩⟩
  · obtain ⟨v, s1, h, hp⟩ := okIs (x := cmdRead .C c (c.arg 0 + 128#64 * BitVec.ofNat 64 c.cursor)
      (spanIs warm (reckIs (fun k => k.setVq 3#2 (List.replicate 7 0#1024))))) (p := fun _ s1 => decide ((s1.my.dueBank (.tile 0#4)).st = .full)) (by decide +kernel)
    exact ⟨c, v, _, s1, h, by simpa [Full] using hp, by decide +kernel, by decide +kernel, by unfold Full; decide +kernel, by decide +kernel⟩
  · refine ⟨c, .spad 0#7 0#24, spanIs warm, outState (useBank 0#7 (.tile 0#4) (spanIs warm)), ?_, writableIs (by decide +kernel), by decide +kernel⟩
    intro x hx
    have e := okUnit (x := useBank 0#7 (.tile 0#4) (spanIs warm)) (by decide +kernel)
    rw [show useBank (spanIs warm).cur.sp (.tile 0#4) (spanIs warm) = useBank 0#7 (.tile 0#4) (spanIs warm) from rfl, e] at hx
    cases hx
    have := ownRow (e := .C) (c := c) (wr := true) (a := 0x8000000000000000#64) (s := outState (useBank 0#7 (.tile 0#4) (spanIs warm))) (by decide) rfl
      (by decide +kernel)
    rw [show (outState (useBank 0#7 (.tile 0#4) (spanIs warm))).cur.sp = 0#7 by decide +kernel] at this
    exact this

/-- A CDEC whose block begins at a byte of row 0 of the own scratchpad. -/
def cdecFor (o : W64) : Cmd := cmdFor (.cdec 0#4 0#6 0#4 0#1) [0x8000000000000000#64 + o, 26#64, 1#64] 0 0x10280800#32

/-- BlocksAreDecoded: a block of one row, at its last byte, and one of two, either row first and then the other; the last row of a
tile of two rows. -/
theorem wit_BlocksAreDecoded :
    (∃ (v : Row) (s s1 : State), (cdecFor 102#64).part.half = none ∧ ¬ 128 < 102 + 26 ∧
      cmdRead .C (cdecFor 102#64) 0x8000000000000066#64 s = .ok v s1) ∧
    (∀ b : Bool, ∃ (v : Row) (s s1 : State), s.cur.stale = b ∧ (cdecFor 103#64).part.half = none ∧ 128 < 103 + 26 ∧
      cmdRead .C (cdecFor 103#64) (if s.cur.stale then 0x8000000000000067#64 + 25#64 else 0x8000000000000067#64) s = .ok v s1) ∧
    (∀ b : Bool, ∃ (c : Cmd) (v v' : Row) (s s1 : State), c.part.half = some (b, v) ∧
      cmdRead .C c (if b then 0x8000000000000067#64 else 0x8000000000000067#64 + 25#64) s = .ok v' s1) ∧
    ∃ (c : Cmd) (b : Nat) (s s1 : State), readBlock c (c.arg 0 + BitVec.ofNat 64 c.cursor * c.arg 1) s = .ok b s1 ∧
      ¬ 128 < (c.arg 0 + BitVec.ofNat 64 c.cursor * c.arg 1).toNat % 128 + 26 ∧ Full (.tile 0#4) s1 ∧
      cfgType c.tcfg = tI8 ∧ cfgSc c.tcfg = true ∧ cfgCols c.tcfg = 128 ∧ cfgRows c.tcfg ≤ 128 ∧
      ((c.arg 2).extractLsb' 0 8).toNat + c.cursor < cfgRows c.tcfg := by
  refine ⟨?_, fun b => ?_, fun b => ?_, ?_⟩
  · obtain ⟨v, h⟩ := okSome (x := cmdRead .C (cdecFor 102#64) 0x8000000000000066#64 (spanIs warm)) (by decide +kernel)
    exact ⟨v, _, _, rfl, by decide, h⟩
  · let s : State := { spanIs warm with cur := ⟨0#7, .reck 0#2, none, b⟩ }
    obtain ⟨v, h⟩ := okSome (x := cmdRead .C (cdecFor 103#64) (if s.cur.stale then 0x8000000000000067#64 + 25#64 else 0x8000000000000067#64) s)
      (by cases b <;> decide +kernel)
    exact ⟨v, s, _, rfl, rfl, by decide, h⟩
  · let c : Cmd := { cdecFor 103#64 with part := { (cdecFor 103#64).part with half := some (b, 0#1024) } }
    obtain ⟨v, h⟩ := okSome (x := cmdRead .C c (if b then 0x8000000000000067#64 else 0x8000000000000067#64 + 25#64) (spanIs warm))
      (by cases b <;> decide +kernel)
    exact ⟨c, 0#1024, v, spanIs warm, _, rfl, h⟩
  · let c := cdecFor 0#64
    obtain ⟨b, s1, h, hp⟩ := okIs (x := readBlock c (c.arg 0 + BitVec.ofNat 64 c.cursor * c.arg 1) (spanIs warm))
      (p := fun _ s1 => decide ((s1.my.dueBank (.tile 0#4)).st = .full)) (by decide +kernel)
    exact ⟨c, b, _, s1, h, by decide +kernel, by simpa [Full] using hp, by decide +kernel, by decide +kernel, by decide +kernel, by decide +kernel,
      by decide +kernel⟩

/-- EncoderIsBest: the greatest stream; a block written into one row, up to its last byte, and across two. -/
theorem wit_EncoderIsBest : (2 ^ 128 - 1 : Nat) < 2 ^ 128 ∧ ∀ o, o = 102#64 ∨ o = 103#64 →
    ∃ (c : Cmd) (r0 r1 r2 : Row) (tg : Nat → Target) (s s1 s2 s3 : State),
      let a := c.arg 1 + BitVec.ofNat 64 (256 * c.cursor)
      let dst := c.arg 0 + BitVec.ofNat 64 (26 * c.cursor)
      dst = 0x8000000000000000#64 + o ∧
      cmdRead .C c a s = .ok r0 s1 ∧ cmdRead .C c (a + 128#64) s1 = .ok r1 s2 ∧
      cmdRead .C c (c.arg 2 + BitVec.ofNat 64 (16 * c.cursor)) s2 = .ok r2 s3 ∧ cmdTarget .C c true dst s3 = .ok (tg 0) s3 ∧
      (128 < dst.toNat % 128 + 26 → cmdTarget .C c true (dst + 25#64) s3 = .ok (tg 1) s3) ∧ SpotsReady tg dst 26 s3 := by
  refine ⟨by decide, fun o ho => ?_⟩
  let c : Cmd := cmdFor (.cenc 0#4 0#6 0#1) [0x8000000000000000#64 + o, 0x8000000000000100#64, 0x8000000000000200#64, 1#64]
  let s := spanIs warm
  let s1 := outState (cmdRead .C c 0x8000000000000100#64 s)
  let s2 := outState (cmdRead .C c 0x8000000000000180#64 s1)
  let s3 := outState (cmdRead .C c 0x8000000000000200#64 s2)
  obtain ⟨r0, h0⟩ := okSome (x := cmdRead .C c 0x8000000000000100#64 s) (by rcases ho with rfl | rfl <;> decide +kernel)
  obtain ⟨r1, h1⟩ := okSome (x := cmdRead .C c 0x8000000000000180#64 s1) (by rcases ho with rfl | rfl <;> decide +kernel)
  obtain ⟨r2, h2⟩ := okSome (x := cmdRead .C c 0x8000000000000200#64 s2) (by rcases ho with rfl | rfl <;> decide +kernel)
  have hsp : s3.cur.sp = 0#7 := by rcases ho with rfl | rfl <;> decide +kernel
  refine ⟨c, r0, r1, r2, fun k => .spad 0#7 (BitVec.ofNat 24 (128 * k) + if k = 0 then o.extractLsb' 0 24 else 0#24), s, s1, s2, s3, ?_, h0, h1, h2, ?_, ?_, ?_⟩
  · rcases ho with rfl | rfl <;> decide +kernel
  · have := ownRow (e := .C) (c := c) (wr := true) (a := c.arg 0 + BitVec.ofNat 64 (26 * c.cursor)) (s := s3)
      (by rcases ho with rfl | rfl <;> decide +kernel) rfl (by rcases ho with rfl | rfl <;> decide +kernel)
    rw [this, hsp]; rcases ho with rfl | rfl <;> exact congrArg (fun t => Out.ok (Target.spad 0#7 t) s3) (by decide +kernel)
  · intro hd
    have := ownRow (e := .C) (c := c) (wr := true) (a := c.arg 0 + BitVec.ofNat 64 (26 * c.cursor) + 25#64) (s := s3)
      (by rcases ho with rfl | rfl <;> decide +kernel) rfl (by rcases ho with rfl | rfl <;> decide +kernel)
    rw [this, hsp]
    rcases ho with rfl | rfl
    · exact absurd hd (by decide +kernel)
    · exact congrArg (fun t => Out.ok (Target.spad 0#7 t) s3) (by decide +kernel)
  · refine ⟨by rcases ho with rfl | rfl <;> decide +kernel, ?_⟩
    intro k hk
    have hk2 : k < 2 := by
      rcases ho with rfl | rfl
      · exact Nat.lt_of_lt_of_le hk (by decide +kernel)
      · exact Nat.lt_of_lt_of_le hk (by decide +kernel)
    refine ⟨?_, ?_⟩
    · match k, hk2 with
      | 0, _ => exact writableIs (by rcases ho with rfl | rfl <;> decide +kernel)
      | 1, _ => exact writableIs (by rcases ho with rfl | rfl <;> decide +kernel)
    · intro k' hk'
      have hk2' : k' < 2 := by
        rcases ho with rfl | rfl
        · exact Nat.lt_of_lt_of_le hk' (by decide +kernel)
        · exact Nat.lt_of_lt_of_le hk' (by decide +kernel)
      match k, hk2, k', hk2' with
      | 0, _, 0, _ => exact fun _ => rfl
      | 1, _, 1, _ => exact fun _ => rfl
      | 0, _, 1, _ => exact fun e => absurd e (by rcases ho with rfl | rfl <;> decide +kernel)
      | 1, _, 0, _ => exact fun e => absurd e (by rcases ho with rfl | rfl <;> decide +kernel)

/-- LadderTablesLoad: an image of K = 1, a patch of the last threshold of a column, eight rows of affine constants. -/
theorem wit_LadderTablesLoad :
    (∃ (c : Cmd) (r0 : Row) (rows : List Row) (s s1 s2 : State), readRows (rowOff (c.arg 0) + BitVec.ofNat 24 c.part.off) 1 s = .ok [r0] s1 ∧
      (lane r0 0).toNat = 1 ∧ readRows (rowOff (c.arg 0) + BitVec.ofNat 24 c.part.off) 1 s1 = .ok rows s2 ∧
      sortedOk false ((List.range (2 ^ 1 - 1)).map (fun i => lane (rows.getD ((i + 1) / 32) 0#1024) ((i + 1) % 32))) = true) ∧
    (∃ (c : Cmd) (col : LadderCol) (new : List W32) (s s1 : State), Table.find? ((s.my.array 0#1).slot 3#2) ((c.arg 1).extractLsb' 0 7).toNat = some col ∧
      ((c.arg 1).extractLsb' 8 8).toNat + ((c.arg 1).extractLsb' 16 8).toNat = 2 ^ col.k - 1 ∧ 0 < ((c.arg 1).extractLsb' 16 8).toNat ∧
      readWords (c.arg 0) ((c.arg 1).extractLsb' 16 8).toNat s = .ok new s1 ∧
      sortedOk col.isF32 (col.t.take ((c.arg 1).extractLsb' 8 8).toNat ++ new ++ col.t.drop (((c.arg 1).extractLsb' 8 8).toNat + ((c.arg 1).extractLsb' 16 8).toNat)) = true) ∧
    ∃ (c : Cmd) (rows : List Row) (s s1 : State), readRows (rowOff (c.arg 0)) 8 s = .ok rows s1 := by
  refine ⟨?_, ?_, ?_⟩
  · let s : State := { spanIs warm with mem := Memory.putRow [] (spadAddr 0#7 0#24 / 128) (BitVec.allOnes 128) 1#1024 }
    let c := cmdFor (.kload 0#4 0#1 3#2 0#6) [0x8000000000000000#64, 0x7F#64]
    obtain ⟨l, s1, h, hp⟩ := okIs (x := readRows (rowOff (c.arg 0) + BitVec.ofNat 24 c.part.off) 1 s)
      (p := fun l s1 => (match l with | [r] => decide ((lane r 0).toNat = 1) | _ => false) &&
        okAnd (fun rows _ => sortedOk false ((List.range 1).map (fun i => lane (rows.getD ((i + 1) / 32) 0#1024) ((i + 1) % 32))))
          (readRows (rowOff (c.arg 0) + BitVec.ofNat 24 c.part.off) 1 s1)) (by decide +kernel)
    simp only [Bool.and_eq_true] at hp
    obtain ⟨hp, hq⟩ := hp
    obtain ⟨rows, s2, h2, h3⟩ := okIs hq
    split at hp
    · exact ⟨c, _, rows, s, s1, s2, h, by simpa using hp, h2, h3⟩
    · simp at hp
  · let s := spanIs (fun x => { warm x with arr := (warm x).arr.map (fun a => a.putCol 3#2 127 ⟨2, false, false, [1#32, 2#32, 3#32]⟩) })
    let c := cmdFor (.kpatch 0#4 0#1 3#2 0#6) [0x8000000000000000#64, 0x03007F#64]
    obtain ⟨new, s1, h, hp⟩ := okIs (x := readWords (c.arg 0) ((c.arg 1).extractLsb' 16 8).toNat s) (p := fun new _ => sortedOk false new) (by decide +kernel)
    exact ⟨c, ⟨2, false, false, [1#32, 2#32, 3#32]⟩, new, s, s1, by decide +kernel, by decide +kernel, by decide +kernel, h, by
      simpa [show ((c.arg 1).extractLsb' 8 8).toNat = 0 by decide +kernel, show ((c.arg 1).extractLsb' 16 8).toNat = 3 by decide +kernel] using hp⟩
  · obtain ⟨rows, h⟩ := okSome (x := readRows (rowOff ((cmdFor (.kgain 0#4 0#1 0#6) [0x8000000000000000#64]).arg 0)) 8 (spanIs warm)) (by decide +kernel)
    exact ⟨_, rows, _, _, h⟩

/-- CodesAreDrivenOut: into a c4 tile, one byte a code and two codes a byte into scratchpad; a row that an MZERO writes. -/
theorem wit_CodesAreDrivenOut :
    (∃ (f : KoutForm) (c : Cmd) (v : AccRow) (s : State), beingWritten s.my f.arr f.acc c.cursor = false ∧
      Table.find? (s.my.acc f.arr f.acc).rows c.cursor = some v ∧ koMode c = 0#2 ∧
      Full (.acc f.arr f.acc) s ∧ f.tile = some 0#4 ∧ Full (.tile 0#4) s ∧ usesBook c.tcfg = true ∧ c.cursor < cfgRows c.tcfg ∧ cfgRows c.tcfg ≤ 128 ∧
      cfgCols c.tcfg ≤ 128 ∧ cfgSc c.tcfg = false) ∧
    (∀ a, a = 0#64 ∨ a = 0x800000#64 → ∃ (f : KoutForm) (c : Cmd) (v : AccRow) (s : State), beingWritten s.my f.arr f.acc c.cursor = false ∧
      Table.find? (s.my.acc f.arr f.acc).rows c.cursor = some v ∧ koMode c = 0#2 ∧
      Full (.acc f.arr f.acc) s ∧ f.tile = none ∧ koW4 c = (a == 0x800000#64) ∧ f.cols c ≤ 128 ∧ s.mem.wf = true ∧
      Full (spadBankOf (rowOff (c.arg 1) + BitVec.ofNat 24 (128 * c.cursor))) s ∧
      Table.find? s.errors (spadAddr s.cur.sp (rowOff (c.arg 1) + BitVec.ofNat 24 (128 * c.cursor)) / 128) = none ∧
      ∀ j < f.cols c, (match Table.find? c.part.cols j with
        | some col => codeBy col (koutScope f c v c.cursor) (accWord v j)
        | none => 0) < 256) ∧
    ∃ s : State, beingWritten s.my 1#1 7#3 5 = true := by
  refine ⟨⟨⟨1#1, 0#2, 0#3, some 0#4, false⟩, cmdFor (.kout 0#4 1#1 0#2 0#3 0#4 0#6 0#1 0#1) [0#64] 0 0x20120000#32, 5#4096, spanIs warm,
      by decide +kernel, by decide +kernel, by decide +kernel, by unfold Full; decide +kernel, rfl, by unfold Full; decide +kernel, by decide +kernel,
      by decide +kernel, by decide +kernel, by decide +kernel, by decide +kernel⟩, ?_,
    ⟨busyWith .M (.mzero 0#4 1#1 7#3 0#6) 1#2 State.reset, by decide +kernel⟩⟩
  rintro a (rfl | rfl)
  · exact ⟨⟨1#1, 0#2, 0#3, none, false⟩, cmdFor (.koutD 0#4 1#1 0#2 0#3 0#6 0#1 0#1) [0#64, 0x8000000000000000#64], 5#4096, spanIs warm,
      by decide +kernel, by decide +kernel, by decide +kernel, by unfold Full; decide +kernel, rfl, by decide +kernel, by decide +kernel,
      by decide +kernel, by unfold Full; decide +kernel, by decide +kernel, fun j _ => by show (0 : Nat) < 256; decide⟩
  · exact ⟨⟨1#1, 0#2, 0#3, none, false⟩, cmdFor (.koutD 0#4 1#1 0#2 0#3 0#6 0#1 0#1) [0x800000#64, 0x8000000000000000#64], 5#4096, spanIs warm,
      by decide +kernel, by decide +kernel, by decide +kernel, by unfold Full; decide +kernel, rfl, by decide +kernel, by decide +kernel,
      by decide +kernel, by unfold Full; decide +kernel, by decide +kernel, fun j _ => by show (0 : Nat) < 256; decide⟩
/-- Both arrays with a weight set of one column of the weight 1, and row 0 bound to accumulator 0 with a reference of -5. -/
def keyed (x : Span) : Span :=
  { warm x with
    arr := (warm x).arr.map (fun a => { a with ws := ⟨1, 1, false, false, [(0, ⟨[Ext.one], []⟩)]⟩ })
    sms := { (warm x).sms with rho := [(0, -5)], bind := [(0, 0#3)] } }

/-- AttentionRows: a row outside the mask, row 0 inside it with no key, and row 0 with one key and a reference below its score. -/
theorem wit_AttentionRows :
    (∃ (c : Cmd) (s : State), Powered c 0#1 s ∧ Powered c 1#1 s ∧ (c.arg 1 ++ c.arg 0 : BitVec 128).getLsbD c.cursor = false) ∧
    (∃ (c : Cmd) (s : State), Powered c 0#1 s ∧ Powered c 1#1 s ∧ (c.arg 1 ++ c.arg 0 : BitVec 128).getLsbD c.cursor = true ∧
      isOk (mattnRowChecks 0#3 0#4 0#1 c.cursor c (touchArray c 1#1 (touchArray c 0#1 s))) = true ∧ Full (.tile 0#4) s ∧ Full (.acc 1#1 0#3) s) ∧
    ∀ z, z = 0#1 ∨ z = 1#1 → ∃ (c : Cmd) (s : State), Powered c 0#1 s ∧ Powered c 1#1 s ∧ (c.arg 1 ++ c.arg 0 : BitVec 128).getLsbD c.cursor = true ∧
      isOk (mattnRowChecks 0#3 0#4 z c.cursor c (touchArray c 1#1 (touchArray c 0#1 s))) = true ∧ Full (.tile 0#4) s ∧ Full (.acc 1#1 0#3) s ∧
      activeKeys c s = [0] ∧ (let m := f32 (scoreOf (s.my.tile 0#4) c.tcfg ((s.my.book (cfgCb c.tcfg)).getD []) (heldSet c 0#1 s).ws 0 0).1
        m.isNan = false ∧ (Table.find? s.my.sms.rho c.cursor).getD (-32768) < (binade m c.part.sms.lam).1) :=
  ⟨⟨cmdFor (.mattn 0#4 0#3 0#4 0#6 0#1 0#1) [0#64, 0#64, 0#64, 0#64] 0 0x10120000#32, spanIs warm, by unfold Powered; decide +kernel,
      by unfold Powered; decide +kernel, by decide +kernel⟩,
    ⟨cmdFor (.mattn 0#4 0#3 0#4 0#6 0#1 0#1) [1#64, 0#64, 0#64, 0#64] 0 0x10120000#32, spanIs warm, by unfold Powered; decide +kernel,
      by unfold Powered; decide +kernel, by decide +kernel, by decide +kernel, by unfold Full; decide +kernel, by unfold Full; decide +kernel⟩,
    fun z hz => by
      let c : Cmd := { cmdFor (.mattn 0#4 0#3 0#4 0#6 0#1 0#1) [1#64, 0#64, 1#64, 0#64] 0 0x10120000#32 with
        part := { Partial.empty with sms := ⟨true, 0x3F800000#32, 0#2, 0#3, false⟩ } }
      let s : State := spanIs keyed
      have hk : isOk (mattnRowChecks 0#3 0#4 z c.cursor c (touchArray c 1#1 (touchArray c 0#1 s))) = true := by
        rcases hz with rfl | rfl <;> decide +kernel
      exact ⟨c, s, by unfold Powered; decide +kernel, by unfold Powered; decide +kernel, by decide +kernel, hk, by unfold Full; decide +kernel,
        by unfold Full; decide +kernel, by decide +kernel, by decide +kernel, by decide +kernel⟩⟩

/-- A Pier command's row in the own scratchpad. -/
theorem pierOwn {c : Cmd} {wr : Bool} {a : W64} {s : State} (h : a.getLsbD 63 = true) (h' : c.work.pmem = none)
    (hn : s.fabric.requests = []) : pierTarget c wr a s = .ok (.spad s.cur.sp (a.extractLsb' 0 24)) s := by
  simp only [pierTarget, sentTarget, sentFor, hn, List.find?_nil, resolve, h, if_true, cmdAsk, h']
  simp [Out.bind, foreignSpad, spadTarget]

/-- One row of the own scratchpad as the destination of a Pier command. -/
theorem ownSpot {c : Cmd} {dst : W64} {n : Nat} {o : BitVec 24} (hn : (dst.toNat % 128 + n + 127) / 128 ≤ 1)
    (hd : dst - BitVec.ofNat 64 (dst.toNat % 128) + 128#64 * BitVec.ofNat 64 0 = 0x8000000000000080#64) (h' : c.work.pmem = none)
    (ho : o = 0x80#24) :
    SpotsReady (fun _ => .spad 0#7 o) dst n (spanIs warm) ∧ ∀ i < (dst.toNat % 128 + n + 127) / 128,
      pierTarget c true (dst - BitVec.ofNat 64 (dst.toNat % 128) + 128#64 * BitVec.ofNat 64 i) (spanIs warm) = .ok (.spad 0#7 o) (spanIs warm) := by
  subst ho
  have h0 : ∀ i, i < (dst.toNat % 128 + n + 127) / 128 → i = 0 := fun i hi => by omega
  refine ⟨⟨by decide +kernel, fun k hk => ⟨show Writable (.spad 0#7 0x80#24) (spanIs warm) from writableIs (by decide +kernel), fun k' hk' _ => by rw [h0 k hk, h0 k' hk']⟩⟩, fun i hi => ?_⟩
  rw [h0 i hi, hd, pierOwn (by decide) h' (by decide +kernel)]
  exact congrArg (fun t => Out.ok t (spanIs warm)) (by decide +kernel)

/-- PierUnits: an element that qualifies, one with a NaN beside it; a list of one in order; an entry of a list and an empty slot of
one; vectors of one element, with weight 1 and 4-byte indices, and with a weight and 8-byte indices. -/
theorem wit_PierUnits :
    (∀ e, e = 0#2 ∨ e = 2#2 → ∃ (c c1 : Cmd) (w : W32) (s s1 : State), readElem c e (c.arg 0) c.cursor s = .ok (c1, w) s1 ∧ (elemExt e w).isNan = false ∧
      (elemExt e ((c.arg 2).extractLsb' 0 32)).isNan = (e == 0#2) ∧ (∀ p ∈ c.part.list, (elemExt e p.1).isNan = false) ∧
      c.part.list.Pairwise (fun p q => ranksFirst e true q p = false)) ∧
    (∀ full : Bool, ∃ (c c1 : Cmd) (v : Nat) (s s1 : State),
      pierElem c (alignDown (c.arg 0) 8 + BitVec.ofNat 64 (8 * c.cursor)) 8 s = .ok (c1, v) s1 ∧
      (BitVec.ofNat 32 (v / 2 ^ 32) = 0xFFFFFFFF#32) = (full = false) ∧ (elemExt 0#2 (BitVec.ofNat 32 v)).isNan = false ∧ c.part.list = []) ∧
    (∀ g, g = 0#1 ∨ g = 1#1 → ∃ (c c1 c2 c3 : Cmd) (idx v : Nat) (xs : List Nat) (s s1 s2 s3 : State),
      let n := if g = 1#1 then 8 else 4
      pierElem c (alignDown (c.arg 2) n + BitVec.ofNat 64 (n * c.cursor)) n s = .ok (c1, idx) s1 ∧
      ((g = 0#1 ∧ c2 = c1 ∧ s2 = s1) ∨
       (g = 1#1 ∧ pierElem c1 (alignDown (c.arg 4) 4 + BitVec.ofNat 64 (4 * c.cursor)) 4 s1 = .ok (c2, v) s2)) ∧
      c.part.sums.length = redCount c ∧ 0 < redCount c ∧
      pierVector c2 (alignDown (c.arg 0 + BitVec.ofNat 64 idx * c.arg 1) (elemSize 0#2)) (elemSize 0#2) (redCount c) s2 = .ok (c3, xs) s3) := by
  refine ⟨?_, ?_, ?_⟩
  · rintro e (rfl | rfl)
    · let c := { cmdFor (.qtopk 0#4 0#6 0#2 0#1 0#1 1#1) [0x8000000000000000#64, 1#64, 0x7FC00000#64, 1#64] with part := { Partial.empty with list := [(5#32, 0#32)] } }
      obtain ⟨⟨c1, w⟩, s1, h, hp⟩ := okIs (x := readElem c 0#2 (c.arg 0) c.cursor (spanIs warm)) (p := fun w _ => !(elemExt 0#2 w.2).isNan) (by decide +kernel)
      exact ⟨c, c1, w, _, s1, h, by simpa using hp, by decide +kernel, fun p hp => by rw [List.mem_singleton.mp hp]; decide +kernel, by decide +kernel⟩
    · let c := { cmdFor (.qtopk 0#4 0#6 2#2 0#1 0#1 1#1) [0x8000000000000000#64, 1#64, 0x7FC00000#64, 1#64] with part := { Partial.empty with list := [(5#32, 0#32)] } }
      obtain ⟨⟨c1, w⟩, s1, h, hp⟩ := okIs (x := readElem c 2#2 (c.arg 0) c.cursor (spanIs warm)) (p := fun w _ => !(elemExt 2#2 w.2).isNan) (by decide +kernel)
      exact ⟨c, c1, w, _, s1, h, by simpa using hp, by decide +kernel, fun p hp => by rw [List.mem_singleton.mp hp]; decide +kernel, by decide +kernel⟩
  · intro full
    let c := cmdFor (.qtopk 0#4 0#6 0#2 0#1 1#1 1#1) [0x8000000000000000#64, 1#64, 0#64, 1#64]
    let s := { spanIs warm with mem := Memory.putNat [] (spadAddr 0#7 0#24) 0xFF (if full then 7 else 0xFFFFFFFF00000000) 8 }
    obtain ⟨⟨c1, v⟩, s1, h, hp⟩ := okIs (x := pierElem c (alignDown (c.arg 0) 8 + BitVec.ofNat 64 (8 * c.cursor)) 8 s)
      (p := fun v _ => decide ((BitVec.ofNat 32 (v.2 / 2 ^ 32) = 0xFFFFFFFF#32) = (full = false)) && !(elemExt 0#2 (BitVec.ofNat 32 v.2)).isNan)
      (by cases full <;> decide +kernel)
    simp only [Bool.and_eq_true, decide_eq_true_eq, Bool.not_eq_true'] at hp
    exact ⟨c, c1, v, s, s1, h, hp.1, hp.2, rfl⟩
  · rintro g (rfl | rfl)
    · let c := { cmdFor (.qred 0#4 0#6 0#2 0#1 0#1 0#1) [0x8000000000000000#64, 4#64, 0x8000000000000000#64, 0x100000001#64, 0x8000000000000000#64, 0#64] with
        part := { Partial.empty with sums := [Ext.zero] } }
      obtain ⟨⟨c1, idx⟩, s1, h, hp⟩ := okIs (x := pierElem c (alignDown (c.arg 2) 4 + BitVec.ofNat 64 (4 * c.cursor)) 4 (spanIs warm))
        (p := fun x s1 => isOk (pierVector x.1 (alignDown (c.arg 0 + BitVec.ofNat 64 x.2 * c.arg 1) (elemSize 0#2)) (elemSize 0#2) (redCount c) s1)) (by decide +kernel)
      obtain ⟨⟨c3, xs⟩, h2⟩ := okSome hp
      exact ⟨c, c1, c1, c3, idx, 0, xs, _, s1, s1, _, h, .inl ⟨rfl, rfl, rfl⟩, by decide +kernel, by decide +kernel, h2⟩
    · let c := { cmdFor (.qred 0#4 0#6 0#2 1#1 1#1 0#1) [0x8000000000000000#64, 4#64, 0x8000000000000000#64, 0x100000001#64, 0x8000000000000000#64, 0#64] with
        part := { Partial.empty with sums := [Ext.zero] } }
      obtain ⟨⟨c1, idx⟩, s1, h, hp⟩ := okIs (x := pierElem c (alignDown (c.arg 2) 8 + BitVec.ofNat 64 (8 * c.cursor)) 8 (spanIs warm))
        (p := fun x s1 => okAnd (fun y s2 => isOk (pierVector y.1 (alignDown (c.arg 0 + BitVec.ofNat 64 x.2 * c.arg 1) (elemSize 0#2)) (elemSize 0#2) (redCount c) s2))
          (pierElem x.1 (alignDown (c.arg 4) 4 + BitVec.ofNat 64 (4 * c.cursor)) 4 s1)) (by decide +kernel)
      obtain ⟨⟨c2, v⟩, s2, h2, hp2⟩ := okIs hp
      obtain ⟨⟨c3, xs⟩, h3⟩ := okSome hp2
      exact ⟨c, c1, c2, c3, idx, v, xs, _, s1, s2, _, h, .inr ⟨rfl, h2⟩, by decide +kernel, by decide +kernel, h3⟩

/-- PierUnits, of the closings: a list of one and K = 2, sums of two, and nothing, each into row 1 of the own scratchpad. -/
theorem wit_PierCloses :
    (∀ l : List (W32 × W32), l = [] ∨ l = [(5#32, 6#32)] → ∃ (c : Cmd) (tg : Nat → Target) (s : State), c.part.list = l ∧
      let dst := alignDown (c.arg 3) 8
      SpotsReady tg dst (8 * l.length) s ∧ ∀ i < (dst.toNat % 128 + 8 * l.length + 127) / 128,
        pierTarget c true (dst - BitVec.ofNat 64 (dst.toNat % 128) + 128#64 * BitVec.ofNat 64 i) s = .ok (tg i) s) ∧
    (∃ (c : Cmd) (tg : Nat → Target) (s : State), c.part.list.length < (c.arg 3).toNat ∧
      let dst := alignDown (c.arg 2) 8
      SpotsReady tg dst (8 * (c.arg 3).toNat) s ∧ ∀ i < (dst.toNat % 128 + 8 * (c.arg 3).toNat + 127) / 128,
        pierTarget c true (dst - BitVec.ofNat 64 (dst.toNat % 128) + 128#64 * BitVec.ofNat 64 i) s = .ok (tg i) s) ∧
    ∀ g, g = 0#1 ∨ g = 1#1 → ∃ (c : Cmd) (tg : Nat → Target) (s : State), c.part.sums = [] ∧ 0 < redCount c ∧
      let dst := alignDown (c.arg (if g = 1#1 then 5 else 4)) 4
      SpotsReady tg dst (4 * redCount c) s ∧ ∀ i < (dst.toNat % 128 + 4 * redCount c + 127) / 128,
        pierTarget c true (dst - BitVec.ofNat 64 (dst.toNat % 128) + 128#64 * BitVec.ofNat 64 i) s = .ok (tg i) s := by
  refine ⟨fun l hl => ?_, ?_, fun g hg => ?_⟩
  · let c := { cmdFor (.qscan 0#4 0#6 0#2 0#1 0#3 0#1) [0#64, 0#64, 0#64, 0x80000000000000F8#64] with part := { Partial.empty with list := l } }
    exact ⟨c, fun _ => .spad 0#7 0x80#24, spanIs warm, rfl,
      ownSpot (by rcases hl with rfl | rfl <;> decide +kernel) (by rcases hl with rfl | rfl <;> decide +kernel) rfl rfl⟩
  · let c := { cmdFor (.qtopk 0#4 0#6 0#2 0#1 0#1 1#1) [0#64, 0#64, 0x8000000000000080#64, 2#64] with part := { Partial.empty with list := [(5#32, 6#32)] } }
    exact ⟨c, fun _ => .spad 0#7 0x80#24, spanIs warm, by decide +kernel,
      ownSpot (by decide +kernel) (by decide +kernel) rfl rfl⟩
  · let c := cmdFor (.qred 0#4 0#6 0#2 0#1 0#1 0#1) [0#64, 4#64, 0#64, 0x200000001#64, 0x80000000000000F8#64, 0x8000000000000080#64]
    exact ⟨c, fun _ => .spad 0#7 0x80#24, spanIs warm, rfl, by decide +kernel,
      ownSpot (by rcases hg with rfl | rfl <;> decide +kernel) (by rcases hg with rfl | rfl <;> decide +kernel) rfl rfl⟩

/-- CandidatesAreRanked: minus zero below plus zero. -/
theorem wit_CandidatesAreRanked : (0#2 : BitVec 2) ≠ 2#2 ∧ (f32 0x80000000#32).isNan = false ∧ (f32 0#32).isNan = false ∧
    rankOf 0x80000000#32 < rankOf 0#32 := by decide +kernel

/-- CompletionRowsCount: a finished command with a reply and RESULT bytes at both ends, its row live, and one with its row dead. -/
theorem wit_CompletionRowsCount : (∃ (c : Cmd) (s : State), ((s.reck 0#7 0#2).str .Q).active = some c ∧ c.stage = .finished ∧ c.rp = true ∧
    (s.reck 0#7 0#2).q[5].length < 16 ∧ (∀ f ∈ (s.reck 0#7 0#2).faults, ofCmd .Q c f = false) ∧ rowLive 0#7 (BitVec.ofNat 24 c.row) s = false ∧
    (s.reck 0#7 0#2).frozen = none ∧ (s.reck 0#7 0#2).stop = none) ∧ ∃ (c : Cmd) (s : State), ((s.reck 0#7 0#2).str .Q).active = some c ∧ c.stage = .finished ∧ c.rp = true ∧
    (s.reck 0#7 0#2).q[5].length < 16 ∧ (∀ f ∈ (s.reck 0#7 0#2).faults, ofCmd .Q c f = false) ∧ rowLive 0#7 (BitVec.ofNat 24 c.row) s = true ∧ ((s.span 0#7).dueBank (spadBankOf (BitVec.ofNat 24 c.row))).st = .full ∧
    Table.find? s.errors (spadAddr 0#7 (BitVec.ofNat 24 c.row) / 128 * 128 / 128) = none ∧ s.mem.wf = true ∧
    (∀ x ∈ c.result, 24 ≤ x.1 ∧ x.1 < 128) ∧ c.result.length = 2 ∧ (c.result.map (·.1)).Nodup := by
  let c := { cmdFor (.qscan 0#4 0#6 0#2 1#1 0#3 0#1) [] with stage := .finished, rp := true, result := [(24, 1#8), (127, 2#8)] }
  refine ⟨⟨c, reckIs (fun k => k.modStr .Q (fun t => { t with active := some c })), by decide +kernel, rfl, rfl, by decide +kernel, by decide +kernel,
    by decide +kernel, by decide +kernel, by decide +kernel⟩, ?_⟩
  exact ⟨c, spanIs warm (reckIs (fun k => k.modStr .Q (fun t => { t with active := some c }))), by decide +kernel, rfl, rfl, by decide +kernel, by decide +kernel,
    by decide +kernel, by decide +kernel, by decide +kernel, by decide +kernel, by decide +kernel, rfl, by decide +kernel⟩

def trapFor (c : BitVec 8) : TrapInfo := trapInfo .S (unitFor (.nop 0#4)) 0 (flt c)

/-- TrapsFreezeTheThread: an ordinary fault with room for its record, at once, deferred, in a debug stop, and taken at the end of the clock; one
of a stream, of the splitter and of a fetch that finds the queue full; a fatal one with and without room. -/
theorem wit_TrapsFreeze :
    (∃ s : State, (s.reck 0#7 0#2).faults = [] ∧ (s.reck 0#7 0#2).frozen = none ∧ s.defer = false ∧ (s.reck 0#7 0#2).stopMet = false ∧
      RecordRoom 0#7 0#2 (trapFor 0x01#8) s) ∧
    (∃ s : State, s.defer = true) ∧ (∃ s : State, (s.reck 0#7 0#2).stopMet = true) ∧
    (∃ s : State, (s.reck 0#7 0#2).faults = [trapFor 0x0B#8] ∧ clocked (s.reck 0#7 0#2) = true ∧ (s.reck 0#7 0#2).stopMet = false ∧
      RecordRoom 0#7 0#2 (trapFor 0x0B#8) s) ∧
    (∃ s : State, (s.reck 0#7 0#2).faults = [] ∧ (s.span 0#7).rowsOrd.length = 15 ∧
      ∀ b c : Bool, fatalFor s 0#7 0#2 { trapFor 0x01#8 with spl := b, fetch := c } = false) ∧
    (∃ s : State, (s.reck 0#7 0#2).faults = [] ∧ (s.reck 0#7 0#2).frozen = none ∧ s.defer = false ∧ (s.reck 0#7 0#2).stopMet = false ∧
      fatalFor s 0#7 0#2 (trapFor 0x0B#8) = true ∧
      (s.span 0#7).rowFatal.isSome = true) := by
  refine ⟨⟨spanIs (fun x => { x with rowsOrd := List.replicate 14 (Vector.replicate 16 0#64) }), by decide +kernel, by decide +kernel,
      by decide +kernel, by decide +kernel, by unfold RecordRoom; decide +kernel⟩, ⟨{ State.reset with defer := true }, rfl⟩,
    ⟨reckIs (fun k => { k with stopMet := true }), by decide +kernel⟩,
    ⟨reckIs (fun k => { k with run := .running, faults := [trapFor 0x0B#8] }), by decide +kernel, by decide +kernel, by decide +kernel,
      by unfold RecordRoom; decide +kernel⟩,
    ⟨spanIs (fun x => { x with rowsOrd := List.replicate 15 (Vector.replicate 16 0#64) }), by decide +kernel, by decide +kernel, by decide +kernel⟩,
    ⟨spanIs (fun x => { x with rowFatal := some (Vector.replicate 16 0#64) }), by decide +kernel, by decide +kernel, by decide +kernel,
      by decide +kernel, by decide +kernel, by decide +kernel⟩⟩

/-- Reckoner 0 of Span 0 fetches a word from deck SRAM. -/
def fetches (w : W32) (f : Reckoner → Reckoner := id) : State :=
  { reckIs f (loadWord State.reset 32 w.toNat) with agenda := [] }

/-- The prefix and final words of the splitter: what a fetch gives, and when it leaves the thread as it was. -/
def fetchGives (w : W32) (s : State) : Bool :=
  let k := s.reck 0#7 0#2
  maySteer s 0#7 0#2 && okAnd (fun w' s1 => decide (w' = w) && decide (s1.reck 0#7 0#2 = k))
    (fetchWord 0#7 (s.span 0#7).xroot (k.pc + BitVec.ofNat 52 (4 * k.pend.length)) s)

theorem fetchIs {w : W32} {s : State} (h : fetchGives w s = true) : ∃ s1, maySteer s 0#7 0#2 = true ∧
    fetchWord 0#7 (s.span 0#7).xroot ((s.reck 0#7 0#2).pc + BitVec.ofNat 52 (4 * (s.reck 0#7 0#2).pend.length)) s = .ok w s1 ∧
    s1.reck 0#7 0#2 = s.reck 0#7 0#2 := by
  simp only [fetchGives, Bool.and_eq_true] at h
  obtain ⟨w', s1, h1, h2⟩ := okIs h.2
  simp only [Bool.and_eq_true, decide_eq_true_eq] at h2
  exact ⟨s1, h.1, by rw [← h2.1]; exact h1, h2.2⟩

/-- TheSplitterSteers: a clock whose word has been taken; a prefix word, a word with room in its queue and one without, a word that is
ill. -/
theorem wit_TheSplitterSteers :
    (∃ s : State, (s.reck 0#7 0#2).steered = true) ∧
    (∃ s, fetchGives 0xE0000001#32 s = true ∧ (s.reck 0#7 0#2).pend.length < 2 ∧ decode 0xE0000001#32 = .ok (.pimm 1#25)) ∧
    (∃ s, fetchGives 0#32 s = true ∧ unitCheck false (s.reck 0#7 0#2).pend 0#32 = .ok (.nop 0#4) ∧ ((s.reck 0#7 0#2).str .S).queue = [] ∧ ((s.reck 0#7 0#2).str .S).sig = none) ∧
    (∃ s, fetchGives 0#32 s = true ∧ unitCheck false (s.reck 0#7 0#2).pend 0#32 = .ok (.nop 0#4) ∧
      ((s.reck 0#7 0#2).str .S).sig.isSome = true) ∧
    (∃ s, fetchGives 0#32 s = true ∧ unitCheck false (s.reck 0#7 0#2).pend 0#32 = .ok (.nop 0#4) ∧
      Config.queueDepth (sidx .S).val ≤ ((s.reck 0#7 0#2).str .S).queue.length) ∧
    (∃ s, fetchGives 1#32 s = true ∧ unitCheck false (s.reck 0#7 0#2).pend 1#32 = .error 0x01#8) := by
  refine ⟨⟨reckIs (fun k => { k with steered := true }), by decide +kernel⟩,
    ⟨fetches 0xE0000001#32, by decide +kernel, by decide +kernel, by decide +kernel⟩, ⟨fetches 0#32, by decide +kernel, by decide +kernel, by decide +kernel, by decide +kernel⟩,
    ⟨fetches 0#32 (fun k => k.modStr .S (fun t => { t with sig := some 1#4 })),
      by decide +kernel, by decide +kernel, by decide +kernel⟩,
    ⟨fetches 0#32 (fun k => k.modStr .S (fun t => { t with queue := List.replicate (Config.queueDepth (sidx .S).val) (unitFor (.nop 0#4)) })),
      by decide +kernel, by decide +kernel, by decide +kernel⟩, ⟨fetches 1#32, by decide +kernel, by decide +kernel⟩⟩

/-- A device that has started, and the ask of a walk (any form, any size: only what every access needs). -/
def started : State := { State.reset with boot := 2 }
def walkAsk : Ask := ⟨false, false, true, true, false, none, 0#2, false⟩

/-- TranslationsAreCached: a walk that finds no table entry, one that ends at a leaf, and one at a leaf that migrates; XINVC without
GO, of one page, of none and while BUSY; an invalidation with nothing ahead, one with a command ahead of its marker, one with a
store of the old mapping on its way, and one with an access to another device, answered and not. -/
theorem wit_Translations :
    (∃ (s : State) (w : Walk), s.walks = [w] ∧ w.spans.any (fun n => n.toNat / 32 == 0) = true ∧ s.errors = [] ∧
      ∃ n f x, walk s w.root (BitVec.ofNat 52 (w.page * 0x10000)) = .bad n f x) ∧
    (∀ mig : Bool, ∃ (s : State) (w : Walk) (lvl : Nat) (e : W64), s.walks = [w] ∧ w.spans.any (fun n => n.toNat / 32 == 0) = true ∧ s.errors = [] ∧
      walk s w.root (BitVec.ofNat 52 (w.page * 0x10000)) = .leaf lvl e ∧
      (leafCheck s walkAsk e (frameAddr e (pageSize lvl) (BitVec.ofNat 52 (w.page * 0x10000)))).isSome = mig) ∧
    (∃ v : W64, v.getLsbD 63 = false) ∧
    (∃ (v : W64) (s : State), 2 ≤ s.boot ∧ v.getLsbD 63 = true ∧ s.inval.busy = true) ∧
    (∃ (v : W64) (s : State), 2 ≤ s.boot ∧ v.getLsbD 63 = true ∧ v.extractLsb' 34 2 = 3#2) ∧
    (∃ (v : W64) (s : State), 2 ≤ s.boot ∧ v.getLsbD 63 = true ∧ s.inval.busy = false ∧ v.extractLsb' 34 2 ≠ 3#2 ∧
      (v.extractLsb' 34 2 = 0#2 → v.extractLsb' 0 32 ≠ 0#32)) ∧
    (∃ (v : W64) (s : State), 2 ≤ s.boot ∧ v.getLsbD 63 = true ∧ s.inval.busy = false ∧ v.extractLsb' 34 2 = 0#2 ∧ v.extractLsb' 0 32 = 0#32) ∧
    (∃ s : State, s.inval.busy = true ∧ (∀ sp r, ((s.reck sp r).str .C).ahead = 0 ∧ ((s.reck sp r).str .Q).ahead = 0 ∧
      (∀ p ∈ (s.reck sp r).posted, p.stale = false) ∧ ∀ u ∈ (s.reck sp r).windows, u.stale = false) ∧ s.nodes = [] ∧ s.fabric.updates = [] ∧
      s.fabric.requests.length = 1 ∧ ∀ q ∈ s.fabric.requests, q.stale = true ∧ q.answer.isSome = true) ∧
    (∃ s : State, s.inval.busy = true ∧ (∃ k : Fin 16, s.fabric.link[k].state = 2#2) ∧ ∃ q ∈ s.fabric.requests, q.stale = true ∧ q.answer = none) ∧
    (∃ s : State, s.inval.busy = true ∧ 0 < ((s.reck 0#7 0#2).str .C).ahead) ∧
    ∃ s : State, s.inval.busy = true ∧ ∃ p ∈ (s.reck 0#7 0#2).posted, p.stale = true := by
  let w : Walk := ⟨0x0000010000000000#64, 0, 0#2, [0#7]⟩
  let s : State := { State.reset with walks := [w] }
  let busy : State := { started with inval := ⟨0#52, 0#64, true, false⟩ }
  let far (x : Option FlitBody) : Request :=
    ⟨none, 1#8, .store 0#43 1#128 5#1024, x, 0#64, true, 2 ^ 51 + 2 ^ 43, some ⟨0#12, 0, 0x10000⟩, true⟩
  have walkCases : ∀ (x : WalkEnd), (match x with | .bad _ _ _ => true | _ => false) = true → ∃ n f y, x = .bad n f y := by
    intro x hx; cases x <;> simp_all
  refine ⟨⟨s, w, rfl, by decide +kernel, rfl, walkCases _ (by decide +kernel)⟩, ?_, ⟨0#64, by decide⟩,
    ⟨0x8000000000000000#64, busy, by decide, by decide, rfl⟩, ⟨0x8000000C00000000#64, started, by decide, by decide, by decide⟩,
    ⟨0x8000000000000001#64, started, by decide, by decide, rfl, by decide, by decide⟩,
    ⟨0x8000000000000000#64, started, by decide, by decide, rfl, by decide, by decide⟩,
    ⟨{ busy with fabric := { Fabric.reset with requests := [far (some (.stored 0#43))] } }, rfl, by decide +kernel, rfl, rfl, rfl, by decide⟩,
    ⟨{ busy with fabric := { Fabric.reset with
        requests := [far none], link := Fabric.reset.link.map (fun l => { l with state := 2#2 }) } }, rfl, by decide +kernel,
      far none, List.mem_singleton.mpr rfl, rfl, rfl⟩,
    ⟨{ reckIs (fun k => k.modStr .C (fun t => { t with ahead := 1 })) with inval := ⟨0#52, 0#64, true, false⟩ }, rfl, by decide +kernel⟩,
    ⟨{ reckIs (fun k => { k with posted := [⟨0x10000000000, unitFor (.stx 0#4 0#5 4#5), 5#64, 0#3, 0#2, ⟨0#12, 0, 0x10000⟩, true⟩] }) with
      inval := ⟨0#52, 0#64, true, false⟩ }, rfl, _, List.mem_singleton.mpr (by rfl), rfl⟩⟩
  intro mig
  let l : State := { s with
    mem := Memory.putNat (Memory.putNat [] 0x10000000000 0xFF 0x0000010000001001 8) 0x10000001000 0xFF (if mig then 0x59 else 0x19) 8 }
  have leafCases : ∀ (x : WalkEnd), (match x with
        | .leaf n e => (leafCheck l walkAsk e (frameAddr e (pageSize n) (BitVec.ofNat 52 (w.page * 0x10000)))).isSome == mig
        | _ => false) = true →
      ∃ n e, x = .leaf n e ∧ (leafCheck l walkAsk e (frameAddr e (pageSize n) (BitVec.ofNat 52 (w.page * 0x10000)))).isSome = mig := by
    intro x hx; cases x <;> simp_all
  obtain ⟨n, e, h, h2⟩ := leafCases (walk l w.root (BitVec.ofNat 52 (w.page * 0x10000))) (by cases mig <;> decide +kernel)
  exact ⟨l, w, n, e, rfl, by decide +kernel, rfl, h, h2⟩
/-- WakeLatencies: a bank of each kind, OFF and RETAIN, without a wake; one FULL with a live item past BRET; one FULL and one in
RETAIN with every item dead past BOFF; a gated band. -/
theorem wit_WakeLatencies :
    (∀ n, n = BankName.spad 127#7 ∨ n = .tile 15#4 ∨ n = .acc 1#1 7#3 ∨ n = .vbank 3#2 3#2 →
      ∀ st, st = Supply.off ∨ st = .retain → ∃ s : State, ((s.span 0#7).dueBank n).st = st ∧ ((s.span 0#7).dueBank n).wake = none) ∧
    (∃ s : State, let x := s.span 0#7
      let n := BankName.vbank 0#2 3#2
      (x.bank n).st = .full ∧ x.bankLive n = true ∧ bankIdle x n = true ∧ 0 < bankBret x n ∧ (x.bank n).used + bankBret x n + 1 = x.clock) ∧
    (∀ st, st = Supply.full ∨ st = .retain → ∃ s : State, let x := s.span 0#7
      let n := BankName.vbank 0#2 3#2
      (x.bank n).st ≠ .off ∧ (x.bank n).st = st ∧ (x.bank n).wake = none ∧ x.bankLive n = false ∧ bankIdle x n = true ∧ 0 < bankBoff x n ∧
      (x.bank n).used + bankBoff x n < x.clock ∧ (x.bank n).died + bankBoff x n + 1 = x.clock) ∧
    ∃ b : Band, b.gated = true ∧ b.wake = none := by
  refine ⟨fun n h st h2 => ⟨spanIs (fun x => x.setBank n ⟨st, none, 0, 0, none⟩), ?_⟩,
    ⟨{ spanIs (fun x => { (x.setBank (.vbank 0#2 3#2) ⟨.full, none, 7, 0, none⟩) with clock := 12 })
        (reckIs (fun k => { k with vlive := 0x80000000#32, bretOn := 4#16 })) with boot := 2 }, by decide +kernel⟩,
    fun st h2 => ⟨{ spanIs (fun x => { (x.setBank (.vbank 0#2 3#2) ⟨st, none, 3, 7, none⟩) with clock := 8 + (x.setBank (.vbank 0#2 3#2) ⟨st, none, 3, 7, none⟩ |> fun y => bankBoff y (.vbank 0#2 3#2)) }) with boot := 2 }, ?_⟩,
    ⟨true, false, none, 0⟩, rfl, rfl⟩
  · rcases h with rfl | rfl | rfl | rfl <;> rcases h2 with rfl | rfl <;> decide +kernel
  · rcases h2 with rfl | rfl <;> decide +kernel

/-- A record of one Span and one Reckoner, with a priority and a DONE unit; its node; and a Span on which it stands. -/
def recFor (w : W64) (done : W64) : List W64 :=
  [0x1000#64, 0x0000010000000000#64, 0x0000000000000100#64 ||| w, 0#64, 0#64, 0#64, 0#64, done] ++ (List.range 8).map (BitVec.ofNat 64)
def nodeFor (id : Nat) (w : W64) (status : NodeStatus) (done : W64 := 0#64) : Node :=
  { id := id, record := recFor w done, status := status, order := id, dispatched := id, since := 0, eff := w.extractLsb' 4 2
    spans := [0#7], preempt := none, taken := [], saved := [], restoring := false, ready := true }
def one : W64 := 0x0000000001010000#64
def nodeHere (n : Node) (nreck : Nat) (f : Vector Reckoner 4 → Vector Reckoner 4) (s : State := State.reset) : State :=
  { spanIs (fun x => { x with node := some n.id, nreck := nreck, recks := f x.recks }) s with nodes := s.nodes ++ [n] }

/-- ThreadsRetireAndMeet: a window atomic on its way; a drained thread without an argument left, on no node, on one that stays and on one that gives way with
no thread taken yet; one with an argument left; a barrier that two threads reached and one retired before; one that a thread
has not reached. -/
theorem wit_ThreadsRetireAndMeet :
    (∃ s : State, let k := s.reck 0#7 0#2
      k.run = .draining ∧ clocked k = true ∧ stopDue k = false ∧ spent k = true ∧ ¬ OnTheWay (threadId s 0#7 0#2) s ∧ leftover k = false ∧
      nodeOn s 0#7 = none) ∧ (∃ s : State, OnTheWay (threadId s 0#7 0#2) s) ∧
    (∀ p : Option Nat, p = none ∨ p = some 3 → ∃ (n : Node) (s : State), let k := s.reck 0#7 0#2
      k.run = .draining ∧ clocked k = true ∧ stopDue k = false ∧ spent k = true ∧ ¬ OnTheWay (threadId s 0#7 0#2) s ∧ leftover k = false ∧
      nodeOn s 0#7 = some n ∧ n.preempt = p ∧ n.taken = [] ∧ n.saved = []) ∧
    (∃ s : State, let k := s.reck 0#7 0#2
      k.run = .draining ∧ clocked k = true ∧ stopDue k = false ∧ spent k = true ∧ ¬ OnTheWay (threadId s 0#7 0#2) s ∧ leftover k = true) ∧
    (∃ (n : Node) (s : State), (s.reck 0#7 0#2).wait = .arrived 1#3 ∧ nodeOn s 0#7 = some n ∧ (s.span 0#7).nreck = 3 ∧
      (∀ m : BitVec 2, m.toNat < 3 → exited (s.reck 0#7 m) = true ∨ ((s.reck 0#7 m).wait = .arrived 1#3 ∧ (s.reck 0#7 m).run ≠ .taken)) ∧
      ∃ m : BitVec 2, m ≠ 0#2 ∧ m.toNat < 3 ∧ (s.reck 0#7 m).wait = .arrived 1#3 ∧ clocked (s.reck 0#7 m) = true ∧ stopDue (s.reck 0#7 m) = false) ∧
    (∃ (n : Node) (s : State), (s.reck 0#7 0#2).wait = .arrived 1#3 ∧ nodeOn s 0#7 = some n ∧ (s.span 0#7).nreck = 2 ∧
      exited (s.reck 0#7 1#2) = false ∧ (s.reck 0#7 1#2).wait ≠ .arrived 1#3) := by
  let k : Reckoner := { Reckoner.reset with run := .running, wait := .arrived 1#3 }
  let n := nodeFor 5 one .running
  let u : WindowUpdate := ⟨0x10000000000, 0x38#7, 5#64, some (unitFor (.aadd 0#4 4#5 5#5 6#5)), (0, 0#9), none, false⟩
  refine ⟨⟨reckIs (fun k => { k with run := .draining }), by decide +kernel, by decide +kernel, by decide +kernel, by decide +kernel,
      notOnTheWay (by decide +kernel), by decide +kernel, by decide +kernel⟩,
    ⟨{ State.reset with fabric := { Fabric.reset with updates := [u] } }, u, by decide +kernel, rfl, by decide +kernel⟩, ?_,
    ⟨reckIs (fun k => { k with run := .draining, q := k.q.set 4 [1#64] }), by decide +kernel, by decide +kernel, by decide +kernel,
      by decide +kernel, notOnTheWay (by decide +kernel), by decide +kernel⟩,
    ⟨n, nodeHere n 3 (fun v => ((v.set 0 k).set 1 k).set 2 { Reckoner.reset with run := .retired }), by decide +kernel, by decide +kernel,
      by decide +kernel, by decide +kernel, 1#2, by decide, by decide, by decide +kernel, by decide +kernel, by decide +kernel⟩,
    ⟨n, nodeHere n 2 (fun v => (v.set 0 k).set 1 { Reckoner.reset with run := .running }), by decide +kernel, by decide +kernel,
      by decide +kernel, by decide +kernel, by decide +kernel⟩⟩
  intro p h
  refine ⟨{ n with preempt := p }, nodeHere { n with preempt := p } 1 (fun v => v.set 0 { Reckoner.reset with run := .draining }), ?_⟩
  rcases h with rfl | rfl <;> exact ⟨by decide +kernel, by decide +kernel, by decide +kernel, by decide +kernel, notOnTheWay (by decide +kernel),
    by decide +kernel, by decide +kernel, rfl, rfl, rfl⟩

/-- Two threads of node 5 on Span 0: thread 0 waits at a barrier, and thread 1 too, or it runs. -/
def barrierAt (level : BitVec 3) (both : Bool) (s : State := State.reset) : State :=
  let k : Reckoner := { Reckoner.reset with run := .running, wait := .arrived level }
  nodeHere (nodeFor 5 one .running) 2 (fun v => (v.set 0 k).set 1 (if both then k else { k with wait := .none })) s

/-- A window atomic that is on its way. -/
def onItsWay (f : Fabric) : Fabric := { f with updates := [⟨0x40000000000, 0#7, 0#64, none, (5, 0#9), none, false⟩] }

/-- ThreadsRetireAndMeet: the barriers of a die and of a node, with every member there and with one missing, and that of a node with a
window atomic on its way. -/
theorem wit_DiesAndNodesMeet :
    (∀ level, level = 2#3 ∨ level = 3#3 → ∀ both : Bool, ∃ (n : Node) (s : State), (s.reck 0#7 0#2).wait = .arrived level ∧ nodeOn s 0#7 = some n ∧
      n.saved = [] ∧ n.taken = [] ∧ s.fabric.updates = [] ∧ (s.span 0#7).node = some n.id ∧ (0#2).toNat < (s.span 0#7).nreck ∧
      (both = true → AllMet s n.id (fun c => level = 2#3 → c.toNat / 32 = (0#7).toNat / 32) level) ∧
      (both = false → OneMissing s n.id (fun c => level = 2#3 → c.toNat / 32 = (0#7).toNat / 32) level)) ∧
    ∃ (n : Node) (s : State), (s.reck 0#7 0#2).wait = .arrived 3#3 ∧ nodeOn s 0#7 = some n ∧ n.saved = [] ∧ n.taken = [] ∧ s.fabric.updates ≠ [] := by
  refine ⟨fun level h both => ⟨nodeFor 5 one .running, barrierAt level both, ?_⟩,
    nodeFor 5 one .running, barrierAt 3#3 true { State.reset with fabric := onItsWay State.reset.fabric }, by decide +kernel, by decide +kernel, rfl, rfl,
    by decide +kernel⟩
  refine ⟨?_, ?_, rfl, rfl, ?_, ?_, ?_, ?_, ?_⟩
  · rcases h with rfl | rfl <;> cases both <;> decide +kernel
  · rcases h with rfl | rfl <;> cases both <;> decide +kernel
  · rcases h with rfl | rfl <;> cases both <;> decide +kernel
  · rcases h with rfl | rfl <;> cases both <;> decide +kernel
  · rcases h with rfl | rfl <;> cases both <;> decide +kernel
  · rintro rfl; rcases h with rfl | rfl <;> unfold AllMet <;> decide +kernel
  · rintro rfl
    rcases h with rfl | rfl <;> exact ⟨0#7, by decide +kernel, fun _ => rfl, 1#2, by decide +kernel, by decide +kernel, by decide +kernel⟩

/-- ThreadsRetireAndMeet: the barrier of a group on the fabric: with a node of it pending, with a thread missing, with a window
atomic on its way, with the other device missing, with none other, and with the other there. -/
theorem wit_GroupsMeet :
    let mine (s : State) (x : Node) : Prop := x ∈ s.nodes ∧ (field x.record 2).extractLsb' 40 8 = (s.reck 0#7 0#2).group ∧ x.status ≠ .joining
    let others (s : State) := ((List.range 256).map (BitVec.ofNat 8)).filter (fun d =>
      ((Table.find? s.fabric.vgrpOn (s.reck 0#7 0#2).group.toNat).getD 0#256).getLsbD d.toNat && d != s.fabric.dev)
    let base (n : Node) (s : State) : Prop := (s.reck 0#7 0#2).wait = .arrived 4#3 ∧ (s.reck 0#7 0#2).run = .running ∧ nodeOn s 0#7 = some n ∧
      mine s n ∧ (s.span 0#7).node = some n.id ∧ (0#2).toNat < (s.span 0#7).nreck ∧ (∀ p ∈ s.fabric.arrived, p.2 = (s.reck 0#7 0#2).group) ∧
      (∀ x, mine s x → x.saved = [] ∧ x.taken = [])
    let all (s : State) : Prop := ∀ x, mine s x → x.status ≠ .pending ∧ AllMet s x.id (fun _ => True) 4#3
    (∃ n s, base n s ∧ ∃ x, mine s x ∧ x.status = .pending) ∧
    (∃ n s, base n s ∧ ∃ x, mine s x ∧ OneMissing s x.id (fun _ => True) 4#3) ∧
    (∃ n s, base n s ∧ all s ∧ s.fabric.updates ≠ []) ∧
    (∃ n s, base n s ∧ all s ∧ s.fabric.updates = [] ∧ ∃ d ∈ others s, (d, (s.reck 0#7 0#2).group) ∉ s.fabric.arrived) ∧
    (∃ n s, base n s ∧ all s ∧ s.fabric.updates = [] ∧ others s = []) ∧
    ∃ n s, base n s ∧ all s ∧ s.fabric.updates = [] ∧ others s = [255#8] ∧ ∀ d ∈ others s, (d, (s.reck 0#7 0#2).group) ∈ s.fabric.arrived := by
  let n := nodeFor 5 one .running
  let p := nodeFor 6 one .pending
  let two (f : Fabric) : Fabric := { f with vgrpOn := [(0, 1#256 <<< 255)] }
  have hs : ∀ s : State, s.nodes = [n] → (∀ c, (s.span c).node = some 5 → ∀ m : BitVec 2, m.toNat < (s.span c).nreck →
      (s.reck c m).wait = .arrived 4#3 ∧ (s.reck c m).run ≠ .taken) →
      ∀ x : Node, (x ∈ s.nodes ∧ (field x.record 2).extractLsb' 40 8 = (s.reck 0#7 0#2).group ∧ x.status ≠ .joining) →
        x.status ≠ .pending ∧ AllMet s x.id (fun _ => True) 4#3 := by
    intro s h1 h2 x hx
    rw [h1, List.mem_singleton] at hx
    rw [hx.1]
    exact ⟨by decide, fun c hc _ m hm => .inr (h2 c hc m hm)⟩
  have ha : ∀ s : State, s.fabric.arrived = [] → ∀ q ∈ s.fabric.arrived, q.2 = (s.reck 0#7 0#2).group := by
    intro s h q hq; rw [h] at hq; cases hq
  have hb : ∀ s : State, s.nodes = [n] → ∀ x : Node, (x ∈ s.nodes ∧ (field x.record 2).extractLsb' 40 8 = (s.reck 0#7 0#2).group ∧ x.status ≠ .joining) →
      x.saved = [] ∧ x.taken = [] := by
    intro s h1 x hx
    rw [h1, List.mem_singleton] at hx
    rw [hx.1]; exact ⟨rfl, rfl⟩
  refine ⟨⟨n, barrierAt 4#3 true { State.reset with nodes := [p] }, ⟨by decide +kernel, by decide +kernel, by decide +kernel,
        ⟨by decide +kernel, by decide +kernel, by decide⟩, by decide +kernel, by decide +kernel, ha _ (by decide +kernel), fun x hx => ?_⟩,
      p, ⟨by decide +kernel, by decide +kernel, by decide⟩, rfl⟩,
    ⟨n, barrierAt 4#3 false, ⟨by decide +kernel, by decide +kernel, by decide +kernel,
        ⟨by decide +kernel, by decide +kernel, by decide⟩, by decide +kernel, by decide +kernel, ha _ (by decide +kernel), hb _ (by decide +kernel)⟩,
      n, ⟨by decide +kernel, by decide +kernel, by decide⟩, 0#7, by decide +kernel, trivial, 1#2, by decide +kernel, by decide +kernel, by decide +kernel⟩,
    ⟨n, barrierAt 4#3 true { State.reset with fabric := onItsWay State.reset.fabric }, ⟨by decide +kernel, by decide +kernel, by decide +kernel,
        ⟨by decide +kernel, by decide +kernel, by decide⟩, by decide +kernel, by decide +kernel, ha _ (by decide +kernel), hb _ (by decide +kernel)⟩,
      hs _ (by decide +kernel) (by decide +kernel), by decide +kernel⟩,
    ⟨n, barrierAt 4#3 true { State.reset with fabric := two State.reset.fabric }, ⟨by decide +kernel, by decide +kernel, by decide +kernel,
        ⟨by decide +kernel, by decide +kernel, by decide⟩, by decide +kernel, by decide +kernel, ha _ (by decide +kernel), hb _ (by decide +kernel)⟩,
      hs _ (by decide +kernel) (by decide +kernel), by decide +kernel, 255#8, by decide +kernel, by decide +kernel⟩,
    ⟨n, barrierAt 4#3 true, ⟨by decide +kernel, by decide +kernel, by decide +kernel,
        ⟨by decide +kernel, by decide +kernel, by decide⟩, by decide +kernel, by decide +kernel, ha _ (by decide +kernel), hb _ (by decide +kernel)⟩,
      hs _ (by decide +kernel) (by decide +kernel), by decide +kernel, by decide +kernel⟩,
    ⟨n, barrierAt 4#3 true { State.reset with fabric := { two State.reset.fabric with arrived := [(255#8, 0#8)] } },
      ⟨by decide +kernel, by decide +kernel, by decide +kernel,
        ⟨by decide +kernel, by decide +kernel, by decide⟩, by decide +kernel, by decide +kernel, fun q hq => ?_, hb _ (by decide +kernel)⟩,
      hs _ (by decide +kernel) (by decide +kernel), by decide +kernel, by decide +kernel, by decide +kernel⟩⟩
  · have hx1 := hx.1
    rw [show (barrierAt 4#3 true { State.reset with nodes := [p] }).nodes = [p, n] by decide +kernel] at hx1
    simp only [List.mem_cons, List.not_mem_nil, or_false] at hx1
    rcases hx1 with rfl | rfl <;> exact ⟨rfl, rfl⟩
  · rw [show (barrierAt 4#3 true { State.reset with fabric := { two State.reset.fabric with arrived := [(255#8, 0#8)] } }).fabric.arrived = [(255#8, 0#8)]
      by decide +kernel, List.mem_singleton] at hq
    rw [hq]; decide +kernel

/-- NodesAreSubmittedAndKilled: a record that is well formed and one that is not, a full board, a kill of a node on a Span. -/
theorem wit_NodesAreSubmitted :
    (∃ s : State, 2 ≤ s.boot ∧ ¬ WellFormedRecord (s.windows[3]).drec.toList) ∧
    (∃ s : State, 2 ≤ s.boot ∧ WellFormedRecord (s.windows[3]).drec.toList ∧ s.nodes.length = 4095) ∧
    (∃ s : State, 2 ≤ s.boot ∧ WellFormedRecord (s.windows[3]).drec.toList ∧ 4096 ≤ s.nodes.length) ∧
    (∃ (v : W64) (n : Node) (s : State), v.getLsbD 0 = true ∧ 2 ≤ s.boot ∧ n ∈ s.nodes ∧ (field n.record 2).extractLsb' 48 16 = v.extractLsb' 48 16 ∧
      (s.span 0#7).node = some n.id ∧ ∃ m ∈ s.nodes, (field m.record 2).extractLsb' 48 16 ≠ v.extractLsb' 48 16) ∧
    (∃ s : State, s.boot < 2) := by
  let w : Window := { State.reset.windows[3] with drec := Vector.ofFn (fun i : Fin 16 => (recFor one 0#64).getD i.val 0#64) }
  let n := nodeFor 5 one .running
  refine ⟨⟨{ State.reset with boot := 2 }, by decide +kernel, by unfold WellFormedRecord; decide +kernel⟩,
    ⟨{ State.reset with boot := 2, windows := State.reset.windows.set 3 w, nodes := List.replicate 4095 n }, by decide +kernel,
      by unfold WellFormedRecord; decide +kernel, by decide +kernel⟩,
    ⟨{ State.reset with boot := 2, windows := State.reset.windows.set 3 w, nodes := List.replicate 4096 n }, by decide +kernel,
      by unfold WellFormedRecord; decide +kernel, by decide +kernel⟩,
    ⟨1#64, n, nodeHere n 1 id { State.reset with boot := 2, nodes := [nodeFor 6 (one ||| 0x0001000000000000#64) .pending] }, by decide, by decide +kernel, by decide +kernel,
      by decide +kernel, by decide +kernel, nodeFor 6 (one ||| 0x0001000000000000#64) .pending, by decide +kernel, by decide +kernel⟩, ⟨State.reset, by decide +kernel⟩⟩

/-- NodesRunAndJoin: a node to dispatch; one that joins, without and with a DONE unit; one whose DONE unit counts. -/
theorem wit_NodesRunAndJoin :
    (∃ (n : Node) (s : State), firstReady s = some n ∧ 2 ≤ s.boot ∧ fits s n = true ∧ placementOk s n [31#7] = true ∧ n.status = .pending ∧
      n.taken = [] ∧ n.saved = []) ∧
    (∀ done : W64, done = 0#64 ∨ done = 8#64 → ∃ (n : Node) (s : State), s.nodes.find? (fun m => m.id == 5) = some n ∧ n.status = .running ∧
      n.taken = [] ∧ n.saved = [] ∧ allRetired s n = true ∧ field n.record 7 = done) ∧
    (∃ (n : Node) (s : State), s.nodes.find? (fun m => m.id == 5 && m.status == .joining) = some n ∧ n.ready = false) ∧
    (∃ (n : Node) (s : State), s.nodes.find? (fun m => m.id == 5 && m.status == .joining) = some n ∧ n.ready = true ∧
      field n.record 7 ≠ 0#64 ∧ doneReady s n.record = true ∧
      unreachable s (doneAddr s n.record) = false ∧ Table.find? s.errors (doneAddr s n.record / 128) = none ∧ s.mem.wf = true) := by
  refine ⟨⟨nodeFor 5 one .pending, { State.reset with boot := 2, nodes := [nodeFor 5 one .pending] }, by decide +kernel, by decide +kernel,
      by decide +kernel, by decide +kernel, rfl, rfl, rfl⟩, fun done h => ?_, ?_, ?_⟩
  · refine ⟨nodeFor 5 one .running done, nodeHere (nodeFor 5 one .running done) 1 (fun v => v.set 0 { Reckoner.reset with run := .retired }), ?_, rfl,
      rfl, rfl, ?_, ?_⟩ <;> rcases h with rfl | rfl <;> decide +kernel
  · let n := { nodeFor 5 one .joining 8#64 with ready := false }
    exact ⟨n, { State.reset with nodes := [n] }, by decide +kernel, rfl⟩
  · let n := nodeFor 5 one .joining 8#64
    exact ⟨n, { State.reset with nodes := [n], mem := Memory.putNat (Memory.putNat [] 0x10000000000 0xFF 0x0000010000001001 8) 0x10000001000 0xFF 0x1B 8 },
      by decide +kernel, rfl, by decide +kernel, by decide +kernel, by decide +kernel, by decide +kernel, by decide +kernel⟩
/-- An image of rows below the end of HBM4E is written. -/
theorem imageWritten : ∀ (l : List Row) (pa : Nat) (s : State), s.errors = [] → s.excluded = 0#8 → pa + 128 * l.length ≤ 0x8000000000 →
    isOk (writeImage pa l s) = true := by
  intro l
  induction l with
  | nil => intros; rfl
  | cons v l ih =>
    intro pa s he hx hp
    simp only [List.length_cons] at hp
    have hlt : pa < 0x8000000000 := by omega
    have hf : isFabric pa = false := decide_eq_false (by omega)
    have hh : homeAddr s pa = pa := by simp [homeAddr, hf]
    have hr : remote s pa = false := by simp [remote, hf]
    have hu : unreachable s pa = false := by
      have a : decide (0x40000000000 ≤ pa) = false := decide_eq_false (by omega)
      simp only [unreachable, cxlDown, hh, hf, a, Bool.false_and, Bool.or_self]
    unfold writeImage
    simp only [placeOwn, hlt, if_true, hx, BitVec.getLsbD_zero, Bool.false_eq_true, if_false, bne_self_eq_false, Bool.false_and, writeRowAt, hu, hr, hh,
      he, Table.find?, Out.bind]
    refine ih (pa + 128) _ ?_ ?_ (by omega) <;> rfl

/-- NodesGiveWay: a pre-emption request between two candidates, an escalation, a thread whose window atomic is out, a save at TSAVE 0;
a restore of an image with a vector register live, with a record that fills the record queue, and with one too many; one with
a bad header. -/
theorem wit_NodesGiveWay :
    (∃ (n v : Node) (s : State), firstReady s = some n ∧ s.victim = none ∧ n.eff = 0#2 ∧ fits s n = false ∧ victimOf (victims s) = some v ∧
      (victims s).length = 2) ∧
    (∃ (n : Node) (t0 : Nat) (s : State), nodeOn s 0#7 = some n ∧ n.preempt = some t0 ∧
      (∃ r : BitVec 2, r.toNat < (s.span 0#7).nreck ∧ (s.reck 0#7 r).run ≠ .taken ∧ (s.reck 0#7 r).run ≠ .retired) ∧
      s.pmax.toNat ≤ 10 * (s.interval - t0)) ∧
    (∃ (n : Node) (s : State), nodeOn s 0#7 = some n ∧ (s.span 0#7).switching = true ∧ (s.span 0#7).tender.running = false ∧
      (s.span 0#7).tender.quar = false ∧ (∀ e ∈ n.saved, e.1 ≠ 0#7) ∧ ∃ r ∈ nodeRecks (s.span 0#7), atRest (haltSpan 0#7 s) 0#7 r = false) ∧
    (∃ (n : Node) (s s1 s2 : State), let h := haltSpan 0#7 s
      nodeOn s 0#7 = some n ∧ (s.span 0#7).switching = true ∧ (s.span 0#7).tender.running = false ∧
      (s.span 0#7).tender.quar = false ∧ (∀ e ∈ n.saved, e.1 ≠ 0#7) ∧ (∀ r ∈ nodeRecks (s.span 0#7), atRest h 0#7 r = true) ∧
      (∃ r ∈ nodeRecks (s.span 0#7), (s.reck 0#7 r).run = .running) ∧
      readLive 0#7 (s.span 0#7).live { h with free := h.free + 1 } = .ok () s1 ∧
      writeImage (s.span 0#7).tender.tsave.toNat
        (imageOf s1.mem 0#7 (savedSpan n (n.spans.findIdx (· == 0#7)) (h.span 0#7)) ((field n.record 2).extractLsb' 48 16) h.free) s1 = .ok () s2) ∧
    (∃ (n : Node) (x : Span) (s : State), s.nodes.find? (fun m => m.id == 5 && m.restoring) = some n ∧ n.saved = [(0#7, x)] ∧
      (s.span 0#7).node = some 5 ∧ imageGood s 0#7 = false) ∧
    (∀ full : Bool, ∃ (n : Node) (x : Span) (h : Row) (l1 l2 l3 l4 l5 l6 l7 : List Row) (s s0 s1 s2 s3 s4 s5 s6 s7 : State),
      let a := (s.span 0#7).tender.tsave.toNat
      s.nodes.find? (fun m => m.id == 5 && m.restoring) = some n ∧ n.saved = [(0#7, x)] ∧ (s.span 0#7).node = some 5 ∧
      imageGood s 0#7 = true ∧ (((s.span 0#7).rowsOrd.length + (sectionItems 5 0#7 1 l1 s).rowsOrd.length ≤ 15 ∧
        ((s.span 0#7).rowFatal = none ∨ (sectionItems 5 0#7 1 l1 s).rowFatal = none)) ↔ full = false) ∧
      s.mem.wf = true ∧ (∀ m ∈ s.nodes, m.id = 5 → m = n) ∧ readImage a 1 s = .ok [h] s0 ∧
      readSection a h 1 s0 = .ok l1 s1 ∧ readSection a h 2 s1 = .ok l2 s2 ∧ readSection a h 3 s2 = .ok l3 s3 ∧
      readSection a h 4 s3 = .ok l4 s4 ∧ readSection a h 5 s4 = .ok l5 s5 ∧ readSection a h 6 s5 = .ok l6 s6 ∧
      readSection a h 7 s6 = .ok l7 s7 ∧ (l2.getD 0 0#1024).getLsbD 0 = true ∧ l6 = []) := by
  refine ⟨⟨nodeFor 7 0x0000000080010000#64 .pending, nodeFor 5 (one ||| 0x30#64) .running,
      nodeHere (nodeFor 5 (one ||| 0x30#64) .running) 1 id
        { State.reset with nodes := [nodeFor 6 (one ||| 0x10#64) .running, nodeFor 7 0x0000000080010000#64 .pending] },
      by decide +kernel, by decide +kernel, by decide +kernel, by decide +kernel, by decide +kernel, by decide +kernel⟩,
    ⟨{ nodeFor 5 one .running with preempt := some 0 }, 0,
      nodeHere { nodeFor 5 one .running with preempt := some 0 } 1 id { State.reset with interval := 1, pmax := 10#32 },
      by decide +kernel, rfl, ⟨0#2, by decide +kernel⟩, by decide +kernel⟩, ?_, ?_, ?_, fun full => ?_⟩
  · let n := nodeFor 5 one .running
    exact ⟨n, spanIs (fun x => { x with switching := true }) (nodeHere n 1 (fun v => v.set 0 { Reckoner.reset with
      run := .running, windows := [⟨0x10000000000, 0x38#7, 5#64, none, (5, 0#9), none, false⟩] })), by decide +kernel, by decide +kernel,
      by decide +kernel, by decide +kernel, by decide +kernel, 0#2, by decide +kernel, by decide +kernel⟩
  · let n := nodeFor 5 one .running
    let s0 : State := spanIs (fun x => { x with switching := true }) (nodeHere n 1 (fun v => v.set 0 { Reckoner.reset with run := .running }))
    let s := haltSpan 0#7 s0
    have hl : (s0.span 0#7).live = [] := by decide +kernel
    have hs : (savedSpan n (n.spans.findIdx (· == 0#7)) (s.span 0#7)).live = [] ∧ (savedSpan n (n.spans.findIdx (· == 0#7)) (s.span 0#7)).touched = [] := by decide +kernel
    refine ⟨n, s0, { s with free := s.free + 1 }, outState (writeImage (s0.span 0#7).tender.tsave.toNat
      (imageOf s.mem 0#7 (savedSpan n (n.spans.findIdx (· == 0#7)) (s.span 0#7)) ((field n.record 2).extractLsb' 48 16) s.free) { s with free := s.free + 1 }),
      by decide +kernel, by decide +kernel, by decide +kernel, by decide +kernel, by decide +kernel, by decide +kernel,
      ⟨0#2, by decide +kernel, by decide +kernel⟩, by rw [hl]; rfl,
      okUnit (imageWritten _ _ _ (by decide +kernel) (by decide +kernel) ?_)⟩
    have hlen : ∀ (n v : Nat), (rowsOfNat v n).length = n := by intro n; induction n <;> simp_all [rowsOfNat]
    have h2 : (vectorRows (nodeRecks (savedSpan n (n.spans.findIdx (· == 0#7)) (s.span 0#7))) (savedSpan n (n.spans.findIdx (· == 0#7)) (s.span 0#7))).length ≤ 100 := by decide +kernel
    have h4 : (tileRows (savedSpan n (n.spans.findIdx (· == 0#7)) (s.span 0#7))).length ≤ 100 := by decide +kernel
    have h5 : (accSection (savedSpan n (n.spans.findIdx (· == 0#7)) (s.span 0#7))).length ≤ 100 := by decide +kernel
    have h6 : (spadSection s.mem 0#7 (savedSpan n (n.spans.findIdx (· == 0#7)) (s.span 0#7))).length ≤ 100 := by decide +kernel
    have ho : ∀ a b c, (opaqueRows a b c).length ≤ 0x100000 := by
      intro a b c
      have := List.length_take_le Config.sectionLimit (Config.saveSection a b c)
      simp only [opaqueRows, padRows, hlen, Config.sectionLimit] at this ⊢
      omega
    have ht : (s0.span 0#7).tender.tsave.toNat = 0 := by decide +kernel
    have h1 := ho 0 1 s.free
    have h3 := ho 0 3 s.free
    have h7 := ho 0 7 s.free
    rw [ht]
    show 0 + 128 * (imageOf s.mem 0#7 (savedSpan n (n.spans.findIdx (· == 0#7)) (s.span 0#7)) _ s.free).length ≤ _
    simp only [imageOf, sections, List.length_cons, List.length_flatten, List.map_cons, List.map_nil, List.sum_cons, List.sum_nil]
    have e : (0#7).toNat = 0 := rfl
    rw [e]
    omega
  · let n : Node := { nodeFor 5 one .running with saved := [(0#7, Span.reset)], restoring := true }
    exact ⟨n, Span.reset, nodeHere n 1 id, by decide +kernel, rfl, by decide +kernel, by decide +kernel⟩
  · let n : Node := { nodeFor 5 one .running with saved := [(0#7, Span.reset)], restoring := true }
    let r16 : Record := Vector.replicate 16 0#64
    let s : State := nodeHere n 1 id (spanIs (fun x => { x with rowsOrd := List.replicate (if full then 15 else 14) r16 }) { State.reset with
      mem := [(0, 7#8), (8, 3#8), (48, 1#8), (52, 2#8), (128, 1#8)], images := [⟨(5, 0#7), 1, [], { Span.reset with rowsOrd := [r16] }⟩] })
    have one1 : ∀ (l : List Row), l.length == 1 → ∃ h, l = [h] := fun l hl => List.length_eq_one_iff.mp (eq_of_beq hl)
    let r (l : List Row) (i : Nat) (u : State) := readSection (s.span 0#7).tender.tsave.toNat (l.getD 0 0#1024) i u
    obtain ⟨l, s0, e0, p0⟩ := okIs (x := readImage (s.span 0#7).tender.tsave.toNat 1 s) (p := fun l s0 => l.length == 1 &&
      okAnd (fun l1 s1 => decide (((s.span 0#7).rowsOrd.length + (sectionItems 5 0#7 1 l1 s).rowsOrd.length ≤ 15 ∧
        ((s.span 0#7).rowFatal = none ∨ (sectionItems 5 0#7 1 l1 s).rowFatal = none)) ↔ full = false) && okAnd (fun l2 s2 => (l2.getD 0 0#1024).getLsbD 0 &&
        okAnd (fun _ s3 => okAnd (fun _ s4 => okAnd (fun _ s5 => okAnd (fun l6 s6 => decide (l6 = []) && isOk (r l 7 s6))
          (r l 6 s5)) (r l 5 s4)) (r l 4 s3)) (r l 3 s2)) (r l 2 s1)) (r l 1 s0)) (by cases full <;> decide +kernel)
    simp only [Bool.and_eq_true] at p0
    obtain ⟨h, rfl⟩ := one1 l p0.1
    obtain ⟨l1, s1, e1, p1⟩ := okIs p0.2
    simp only [Bool.and_eq_true, decide_eq_true_eq] at p1
    obtain ⟨l2, s2, e2, p2⟩ := okIs p1.2
    simp only [Bool.and_eq_true] at p2
    obtain ⟨l3, s3, e3, p3⟩ := okIs p2.2
    obtain ⟨l4, s4, e4, p4⟩ := okIs p3
    obtain ⟨l5, s5, e5, p5⟩ := okIs p4
    obtain ⟨l6, s6, e6, p6⟩ := okIs p5
    simp only [Bool.and_eq_true, decide_eq_true_eq] at p6
    obtain ⟨l7, e7⟩ := okSome p6.2
    refine ⟨n, Span.reset, h, l1, l2, l3, l4, l5, l6, l7, s, s0, s1, s2, s3, s4, s5, s6, _, by cases full <;> decide +kernel, rfl,
      by cases full <;> decide +kernel, by cases full <;> decide +kernel, p1.1, by cases full <;> decide +kernel, by cases full <;> decide +kernel, e0, e1, e2, e3, e4, e5, e6, e7, p2.1, p6.1⟩
/-- RegisterWrites: each of its conditions at a boundary, before the stacks have trained and after. -/
theorem wit_RegisterWrites :
    (∃ s : State, s.boot < 2) ∧
    ((0x30000000#64 : W64).extractLsb' 28 2 = 3#2 ∧ (0x20000000#64 : W64).extractLsb' 28 2 ≠ 3#2) ∧
    (131065 < ((131066#64 : W64).extractLsb' 0 17).toNat ∧ ((131065#64 : W64).extractLsb' 0 17).toNat ≤ 131065) ∧
    (∀ b : Bool, ∃ s : State, 2 ≤ s.boot ∧ s.hplock = b) ∧
    (∀ x : BitVec 2, ∃ s : State, 2 ≤ s.boot ∧ (s.port 7#3).state = x) ∧
    ((0x18000000000#52 : BitVec 52).toNat = 0x18000000000 ∧ (0x1800FFFFFF8#52 : BitVec 52).toNat < 0x18010000000 ∧
      (0x1800FFFFFF8#52 : BitVec 52).toNat % 8 = 0 ∧ 0x18010000000 ≤ (0x18010000000#52 : BitVec 52).toNat ∧
      (0x17FFFFFFFF8#52 : BitVec 52).toNat < 0x18000000000 ∧ (0x18004000000#52 : BitVec 52).toNat / 0x1000000 = 0x18004) ∧
    (∃ s : State, 2 ≤ s.boot ∧ s.excluded = 0#8 ∧ Table.find? s.errors (0x8000000000 / 128 - 1) = some .single) ∧
    ∃ s : State, 2 ≤ s.boot ∧ Table.find? s.errors 0 ≠ some .single := by
  refine ⟨⟨State.reset, by decide +kernel⟩, by decide, by decide, fun b => ⟨{ started with hplock := b }, Nat.le_refl 2, rfl⟩, fun x =>
    ⟨started.setPort 7#3 { started.port 7#3 with state := x }, by revert x; decide +kernel, by revert x; decide +kernel⟩, by decide,
    ⟨{ started with errors := [(0x8000000000 / 128 - 1, .single)] }, by decide, rfl, by decide +kernel⟩, started, by decide, by decide +kernel⟩

/-- ClocksAreSettled: a device held in reset; a change of margins planned, on a Span at 2.7 GHz and on a faster one; a Span that claims, on a die that is quiet
and on one that is not; caps at both ends; a Span with a node, an idle one at a ceiling above and at 0, with steps of the voltage left
and without, REPLACE unset and set. -/
theorem wit_ClocksAreSettled :
    ((∃ s : State, s.boot = 0) ∧ ∃ s : State, 2 ≤ s.boot ∧ ∀ n, (s.span n).tender.even = false) ∧
    (∀ st : BitVec 2, ∃ s : State, 2 ≤ s.boot ∧ (s.span 0#7).margin = some (1#2, 0) ∧ (s.span 0#7).step = st) ∧
    (∃ s : State, 2 ≤ s.boot ∧ nodeAwake s (s.span 0#7) = true ∧ (s.span 0#7).repl = false ∧ (s.span 0#7).tender.ceil = 1#2 ∧ (s.span 0#7).ceil = 2#2 ∧
      s.permits[0].pool = 64#7 ∧ s.permits[0].last = none ∧ ∀ n : BitVec 7, n.toNat / 32 = 0 → (s.span n).step = 0#2) ∧
    ((∃ s : State, s.permits[0].calm = 3 ∧ ∀ n : BitVec 7, (s.span n).step = 0#2) ∧ ∃ s : State, (s.span 0#7).step ≠ 0#2) ∧
    (8 ≤ (8#16 : BitVec 16).toNat ∧ (512#16 : BitVec 16).toNat ≤ 512 ∧ (7#16 : BitVec 16).toNat < 8 ∧ 512 < (513#16 : BitVec 16).toNat) ∧
    (∃ s : State, 2 ≤ s.boot ∧ (s.span 0#7).node.isSome = true) ∧
    (∃ (c : BitVec 2) (s : State), 2 ≤ s.boot ∧ (s.span 0#7).node = none ∧ (s.span 0#7).idleSince + 10 ≤ s.interval ∧
      (s.span 0#7).margin = none ∧ c.toNat + 1 = (s.span 0#7).ceil.toNat) ∧
    ∀ (m : Option (BitVec 2 × Nat)) (b : Bool), m = none ∨ m = some (0#2, 0) ∨ m = some (0#2, Config.voltMax) →
      ∃ s : State, 2 ≤ s.boot ∧ (s.span 0#7).node = none ∧
        (s.span 0#7).idleSince + 10 ≤ s.interval ∧ (s.span 0#7).margin = m ∧ (s.span 0#7).ceil = 0#2 ∧ (s.span 0#7).volt = 0 ∧ (s.span 0#7).repl = b := by
  refine ⟨⟨⟨State.reset, by decide +kernel⟩, started, by decide, by decide +kernel⟩,
    fun st => ⟨spanIs (fun x => { x with margin := some (1#2, 0), step := st }) started, Nat.le_refl 2, by revert st; decide +kernel,
      by revert st; decide +kernel⟩,
    ⟨nodeHere (nodeFor 5 one .running) 1 (fun v => v.set 0 { Reckoner.reset with run := .running })
      (spanIs (fun x => { x with ceil := 2#2, tender := { x.tender with ceil := 1#2 } }) started), by decide +kernel, by decide +kernel, by decide +kernel,
      by decide +kernel, by decide +kernel, by decide +kernel, by decide +kernel, by decide +kernel⟩,
    ⟨⟨{ started with permits := started.permits.set 0 { started.permits[0] with calm := 3 } }, by decide +kernel, by decide +kernel⟩,
      spanIs (fun x => { x with step := 1#2 }), by decide +kernel⟩, by decide,
    ⟨nodeHere (nodeFor 5 one .running) 1 id started, by decide +kernel, by decide +kernel⟩,
    ⟨1#2, { spanIs (fun x => { x with ceil := 2#2 }) started with interval := 10 }, by decide +kernel, by decide +kernel, by decide +kernel,
      by decide +kernel, by decide +kernel⟩,
    fun m b _ => ?_⟩
  have h1 : (spanIs (fun x => { x with ceil := 0#2, margin := m, volt := 0, repl := b }) started).span 0#7 =
      { started.span 0#7 with
        ceil := 0#2
        margin := m
        volt := 0
        repl := b } := by simp [spanIs]
  have h2 : (started.span 0#7).node = none ∧ (started.span 0#7).idleSince = 0 := by decide +kernel
  refine ⟨{ spanIs (fun x => { x with ceil := 0#2, margin := m, volt := 0, repl := b }) started with interval := 10 }, Nat.le_refl 2, ?_, ?_, ?_, ?_, ?_, ?_⟩
  · exact (congrArg Span.node h1).trans h2.1
  · have := (congrArg Span.idleSince h1).trans h2.2
    exact Nat.le_of_eq (congrArg (· + 10) this)
  · exact congrArg Span.margin h1
  · exact congrArg Span.ceil h1
  · exact congrArg Span.volt h1
  · exact congrArg Span.repl h1

/-- A link with some state. -/
def linked (l : Link → Link) (s : State := State.reset) : State :=
  { s with fabric := { s.fabric with link := s.fabric.link.set 3 (l s.fabric.link[3]) } }

/-- LinksCarryFlits: a port in each state; enumeration before and after; a link down and up, with a flit in turn that stores,
an acknowledgement and an ask for a replay; one received before, one with a gap and one with a bad check; a replay count past the
threshold; a link to be shed at each width. -/
theorem wit_LinksCarryFlits :
    (∀ (x : BitVec 2) (c : Bool), ∃ s : State, (s.port 0#3).state = x ∧ (s.port 0#3).cxl = c) ∧
    (∃ s : State, (s.port 0#3).cxl = true ∧ decodersOk s 0#3 [(0x40000000000, 0x10000000)] = true) ∧
    ((∃ s : State, s.fabric.enumerated = false ∧ 2 ≤ s.boot) ∧ (∃ s : State, s.boot < 2) ∧ ∃ s : State, s.fabric.enumerated = true) ∧
    (∃ s : State, s.fabric.link[3].state ≠ 2#2) ∧
    (∃ (f : Flit) (a : BitVec 43) (mask : BitVec 128) (d : Row) (s : State), s.fabric.link[3].state = 2#2 ∧ f.good = true ∧
      f.seq = s.fabric.link[3].next ∧ f.body = .store a mask d ∧ f.dst = s.fabric.dev ∧ ReachesBank s f.body = false ∧
      a.toNat < 0x8000000000 ∧ s.excluded = 0#8 ∧ Table.find? s.errors (a.toNat / 128) = none ∧ s.mem.wf = true) ∧
    (∀ b : FlitBody, b = .ack 4095#12 ∨ b = .replay 0#12 ∨ b = .other → ∃ (f : Flit) (s : State), s.fabric.link[3].state = 2#2 ∧ f.good = true ∧
      f.seq = s.fabric.link[3].next ∧ f.dst ≠ s.fabric.dev ∧ f.body = b ∧ s.fabric.link[3].buffer.length = 1) ∧
    (∃ (f : Flit) (s : State), s.fabric.link[3].state = 2#2 ∧ f.good = true ∧ (f.seq - s.fabric.link[3].next).toNat = 2048) ∧
    (∃ (f : Flit) (s : State), s.fabric.link[3].state = 2#2 ∧ f.good = true ∧ f.seq ≠ s.fabric.link[3].next ∧
      (f.seq - s.fabric.link[3].next).toNat = 2047) ∧
    (∃ (f : Flit) (s : State), s.fabric.link[3].state = 2#2 ∧ f.good = false) ∧
    (∃ s : State, s.fabric.link[3].state = 2#2 ∧ s.fabric.thresh ≠ 0#16 ∧ s.fabric.thresh.toNat + 1 = s.fabric.link[3].replays) ∧
    ∀ n : BitVec 4, n = 8#4 ∨ n = 4#4 ∨ n = 2#4 → ∃ s : State, s.fabric.link[3].state = 2#2 ∧ s.fabric.link[3].shed = true ∧ s.fabric.link[3].lanes = n := by
  let up := linked (fun l => { l with state := 2#2 })
  let out : Flit := ⟨0#8, 2#8, 0#12, true, .other⟩
  refine ⟨fun x c => ⟨State.reset.setPort 0#3 { State.reset.port 0#3 with state := x, cxl := c }, ?_, ?_⟩,
    ⟨State.reset.setPort 0#3 { State.reset.port 0#3 with cxl := true }, by decide +kernel, by decide +kernel⟩,
    ⟨⟨{ State.reset with boot := 2 }, by decide +kernel, by decide +kernel⟩, ⟨State.reset, by decide +kernel⟩,
      { State.reset with fabric := { State.reset.fabric with enumerated := true } }, rfl⟩,
    ⟨State.reset, by decide +kernel⟩,
    ⟨⟨1#8, 0#8, 0#12, true, .store 0x7FFFFFFF80#43 1#128 5#1024⟩, 0x7FFFFFFF80#43, 1#128, 5#1024, up, by decide +kernel, rfl, by decide +kernel, rfl,
      by decide +kernel, by decide +kernel, by decide, by decide +kernel, by decide +kernel, by decide +kernel⟩,
    fun b _ => ⟨⟨1#8, 2#8, 0#12, true, b⟩, linked (fun l => { l with state := 2#2, buffer := [out] }), by decide +kernel, rfl,
      (by decide +kernel : 0#12 = (linked (fun l => { l with state := 2#2, buffer := [out] })).fabric.link[3].next),
      (by decide +kernel : 2#8 ≠ (linked (fun l => { l with state := 2#2, buffer := [out] })).fabric.dev), rfl, by decide +kernel⟩,
    ⟨⟨1#8, 2#8, 2048#12, true, .other⟩, up, by decide +kernel, rfl, by decide +kernel⟩,
    ⟨⟨1#8, 2#8, 2047#12, true, .other⟩, up, by decide +kernel, rfl, by decide +kernel, by decide +kernel⟩,
    ⟨⟨1#8, 2#8, 0#12, false, .other⟩, up, by decide +kernel, rfl⟩,
    ⟨linked (fun l => { l with state := 2#2, replays := 6 }) { State.reset with fabric := { State.reset.fabric with thresh := 5#16 } },
      by decide +kernel, by decide +kernel, by decide +kernel⟩,
    fun n h => ⟨linked (fun l => { l with state := 2#2, shed := true, lanes := n }), ?_, ?_, ?_⟩⟩
  · revert x c; decide +kernel
  · revert x c; decide +kernel
  · revert n; decide +kernel
  · revert n; decide +kernel
  · revert n; decide +kernel

/-- LinksCarryFlits: a row of another device at the first byte of its HBM4E; an access of a thread. -/
def farRow : Nat := 2 ^ 51 + 2 ^ 43
def someAccess : Access := ⟨(0, 0), false, .S, 1#32, 0, 0⟩
/-- What an access has asked of its row, answered or not; an access of nobody. -/
def asked (x : Option FlitBody) : Request :=
  ⟨some someAccess, BitVec.ofNat 8 (farRow / 2 ^ 43), .load (BitVec.ofNat 43 farRow), x, 0#64, false, farRow, none, false⟩
def askedElse : Request := ⟨none, 1#8, .other, none, 0#64, false, farRow, none, false⟩
def someVia : Via := ⟨someAccess, 0#64, none, false⟩

/-- LinksCarryFlits: a load, a store and an atomic of another device of the last row of HBM4E, and of a hole; the oldest of two requests
that waits for data, and that waits for a store; an acknowledgement of the first of two flits, and of one that the buffer does not have. -/
theorem wit_HomesAnswer :
    (∀ b : FlitBody, b = .load 0x7FFFFFFF80#43 ∨ b = .store 0x7FFFFFFF80#43 1#128 5#1024 ∨ b = .atomic 0x7FFFFFFF80#43 0x38#7 1#64 0#64 ∨
        b = .atomic 0x7FFFFFFF80#43 0x3D#7 1#64 0#64 ∨ b = .load 0x7FFFFFFFF80#43 →
      ∃ (f : Flit) (s : State), f.body = b ∧ s.fabric.link[3].state = 2#2 ∧ f.good = true ∧ f.seq = s.fabric.link[3].next ∧
        f.dst = s.fabric.dev ∧ f.src ≠ s.fabric.dev ∧ ReachesBank s b = false ∧ s.excluded = 0#8 ∧ s.mem.wf = true ∧ s.errors = []) ∧
    (0x7FFFFFFF80#43).toNat < 0x8000000000 ∧ placeOwn State.reset (0x7FFFFFFFF80#43).toNat = .hole ∧
    (∀ st : Bool, ∃ (f : Flit) (left rest : List Request) (q : Request) (s : State), s.fabric.link[3].state = 2#2 ∧ f.good = true ∧
      f.seq = s.fabric.link[3].next ∧ f.dst = s.fabric.dev ∧ ReachesBank s f.body = false ∧ s.fabric.requests = left ++ q :: rest ∧
      q.who.isSome = true ∧ left.length = 1 ∧
      (st = false → f.body = .data 0#43 7#1024 ∧ Open f.src (.load 0#43) q ∧ ∀ y ∈ left, ¬ Open f.src (.load 0#43) y) ∧
      (st = true → f.body = .stored 0#43 ∧ Open f.src (.store 0#43 1#128 7#1024) q ∧ ∀ y ∈ left, ∀ m d, ¬ Open f.src (.store 0#43 m d) y)) ∧
    ∃ (s : State) (x y : Flit), s.fabric.link[3].state = 2#2 ∧ s.fabric.link[3].buffer = [] ++ x :: [y] ∧ x.seq = 4095#12 ∧
      (∀ y ∈ s.fabric.link[3].buffer, y.seq ≠ s.fabric.link[3].send) := by
  let up := linked (fun l => { l with state := 2#2 })
  refine ⟨fun b h => ⟨⟨1#8, 0#8, 0#12, true, b⟩, up, rfl, by decide +kernel, rfl, ?_, ?_, ?_, ?_, by decide +kernel, by decide +kernel, by decide +kernel⟩,
    by decide, by decide +kernel, fun st => ?_, ?_⟩
  · exact (by decide +kernel : 0#12 = up.fabric.link[3].next)
  · exact (by decide +kernel : 0#8 = up.fabric.dev)
  · exact (by decide +kernel : 1#8 ≠ up.fabric.dev)
  · rcases h with rfl | rfl | rfl | rfl | rfl <;> decide +kernel
  · let q : Request := ⟨some someAccess, 1#8, if st then .store 0#43 1#128 7#1024 else .load 0#43, none, 0#64, st, farRow, none, false⟩
    let s : State := { up with fabric := { up.fabric with requests := [askedElse, q] } }
    have h1 : s.fabric.link[3].state = 2#2 := by cases st <;> decide +kernel
    have h2 : 0#12 = s.fabric.link[3].next := by cases st <;> decide +kernel
    have h3 : 0#8 = s.fabric.dev := by cases st <;> decide +kernel
    refine ⟨⟨1#8, 0#8, 0#12, true, if st then .stored 0#43 else .data 0#43 7#1024⟩, [askedElse], [], q, s, h1, rfl, h2, h3, ?_, rfl, rfl, rfl, ?_, ?_⟩
    · cases st <;> rfl
    · rintro rfl
      refine ⟨rfl, ⟨rfl, rfl, rfl⟩, fun y hy => ?_⟩
      rw [List.mem_singleton.mp hy]
      exact fun h => FlitBody.noConfusion h.2.1
    · rintro rfl
      refine ⟨rfl, ⟨rfl, rfl, rfl⟩, fun y hy m d => ?_⟩
      rw [List.mem_singleton.mp hy]
      exact fun h => FlitBody.noConfusion h.2.1
  · exact ⟨linked (fun l => { l with state := 2#2, send := 1#12, buffer := [⟨0#8, 2#8, 4095#12, true, .other⟩, ⟨0#8, 2#8, 0#12, true, .other⟩] }),
      ⟨0#8, 2#8, 4095#12, true, .other⟩, ⟨0#8, 2#8, 0#12, true, .other⟩, by decide +kernel, by decide +kernel, rfl, by decide +kernel⟩

/-- LinksCarryFlits: an access to another device that has asked nothing, with a link and without; answered with data and with a failure;
and not answered, with a link and without. A link of two lanes to be shed that carries a flit, beside one that is up. -/
theorem wit_RemoteAccesses :
    (∀ link : Bool, ∃ s : State, remote s farRow = true ∧ s.access = some someVia ∧ s.fabric.requests = [] ∧
      ((∃ k : Fin 16, s.fabric.link[k].state = 2#2) ↔ link = true)) ∧
    (∀ (link : Bool) (x : Option FlitBody), x = none ∨ x = some (.data 0#43 7#1024) ∨ x = some (.failed 0#43 0x06#8) → ∃ s : State,
      remote s farRow = true ∧ s.access = some someVia ∧ s.fabric.requests = [askedElse] ++ asked x :: [] ∧
      (∀ y ∈ [askedElse], ¬(y.who = some someVia.who ∧ y.va = someVia.va ∧ y.wr = false)) ∧
      ((∃ k : Fin 16, s.fabric.link[k].state = 2#2) ↔ link = true)) ∧
    ∃ s : State, s.fabric.link[3].state = 2#2 ∧ s.fabric.link[3].shed = true ∧ s.fabric.link[3].lanes = 2#4 ∧ Lowest (fun k => k ≠ 3) s 5 ∧
      carried s.fabric.link[3] = [(2#8, .other), (3#8, .other)] ∧ ∀ e ∈ carried s.fabric.link[3], e.1 ≠ s.fabric.dev := by
  let base (link : Bool) (q : List Request) : State :=
    let s := linked (fun l => { l with state := if link then 2#2 else 0#2 })
    { s with access := some someVia, fabric := { s.fabric with requests := q } }
  have hl : ∀ (link : Bool) (q : List Request), (∃ k : Fin 16, (base link q).fabric.link[k].state = 2#2) ↔ link = true := by
    intro link q
    have e : (base link q).fabric.link = (base link []).fabric.link := rfl
    rw [e]
    cases link <;> decide +kernel
  have hr : ∀ (link : Bool) (q : List Request), remote (base link q) farRow = true := by
    intro link q
    have e : remote (base link q) farRow = remote (base link []) farRow := rfl
    rw [e]
    cases link <;> decide +kernel
  refine ⟨fun link => ⟨base link [], hr link [], rfl, rfl, hl link []⟩, fun link x _ => ⟨base link [askedElse, asked x], hr link _, rfl, rfl, ?_, hl link _⟩, ?_⟩
  · intro y hy h
    rw [List.mem_singleton.mp hy] at h
    cases h.1
  · let s := linked (fun l => { l with state := 2#2, shed := true, lanes := 2#4, buffer := [⟨0#8, 2#8, 0#12, true, .other⟩], queue := [(3#8, .other)] })
      { State.reset with fabric := { State.reset.fabric with link := State.reset.fabric.link.set 5 { State.reset.fabric.link[5] with state := 2#2 } } }
    exact ⟨s, by decide +kernel, by decide +kernel, by decide +kernel, by unfold Lowest; decide +kernel, by decide +kernel, by decide +kernel⟩

/-- TheRootOfTrustAnswers: a message from elsewhere; from port 0, before and after each exchange, and with a session open. -/
theorem wit_TheRootOfTrustAnswers :
    (∃ (m : SpdmRequest) (s : State), ¬(m.port = s.hpnet ∧ m.endpoint = 9#8 ∧ (s.port m.port).cxl = false ∧ (s.port m.port).state = 2#2)) ∧
    ∀ b c : Bool, ∃ (m : SpdmRequest) (s : State), m.port = s.hpnet ∧ m.endpoint = 9#8 ∧ (s.port m.port).cxl = false ∧ (s.port m.port).state = 2#2 ∧
      s.trust.versioned = b ∧ s.trust.negotiated = b ∧ m.mldsa44 = c ∧ m.sha3 = true ∧
      (c = true → ∃ x ∈ s.trust.sessions, m.session = some x.id ∧ m.port = x.port ∧ x.done = false) ∧
      (c = false → ∀ x ∈ s.trust.sessions, m.session = some x.id → m.port = x.port → x.done = true) := by
  refine ⟨⟨⟨0#3, 8#8, none, 0#16, 0#256, true, true, []⟩, State.reset, fun h => absurd h.2.1 (by decide)⟩, fun b c =>
    ⟨⟨0#3, 9#8, some 4, 0#16, 0#256, c, true, []⟩,
      { State.reset.setPort 0#3 { State.reset.port 0#3 with state := 2#2, cxl := false } with
        hpnet := 0#3, trust := { State.reset.trust with versioned := b, negotiated := b, sessions := [⟨4, 0#16, 0#256, !c, 0#3⟩] } },
      rfl, rfl, ?_, ?_, rfl, rfl, rfl, rfl, ?_, ?_⟩⟩ <;> revert b c <;> decide +kernel

/-- StartUp, MemoryStaysCanonical, EveryInstructionRuns, DecodeInvertsEncode. -/
theorem wit_StartUp : (∃ s : State, s.boot = 1) ∧ (∃ s : State, s.boot ≠ 1) ∧ State.reset.mem.wf = true ∧ stores (.nop 0#4) = false ∧
    ((streamOf (.lds 15#4 23#5 22#5 0xFF#8)).isSome || isPrefixWord (.lds 15#4 23#5 22#5 0xFF#8)) = true ∧
    (Sys2Proof.Instr.lds 15#4 23#5 22#5 0xFF#8).wellFormed = true ∧ decode 0#32 = .ok (.nop 0#4) :=
  ⟨⟨{ State.reset with boot := 1 }, rfl⟩, ⟨State.reset, by decide +kernel⟩, by decide +kernel, rfl, rfl, by decide +kernel, by decide +kernel⟩

/-- RegisterFrames: writes at the tender and of a plain and a queue register; a pop of q5, of plain registers and at the tender;
a wait; an issue of a slow word and of another; a scalar word. -/
theorem wit_RegisterFrames :
    ((∃ u : State, u.atTender = true ∧ ∃ t, popSrcs [29#5] u = .ok () t) ∧ isQueueReg 24#5 = true ∧ isQueueReg 23#5 = false) ∧
    (∃ u t : State, u.atTender = false ∧ popSrcs [29#5, 31#5] u = .ok () t) ∧ (∃ u t : State, u.atTender = false ∧ popSrcs [5#5] u = .ok () t) ∧
    (∃ u t : State, u.atTender = false ∧ waitTokens .S 3#4 u = some t) ∧
    ((∃ u : State, u.atTender = false ∧ slowResult (u.unit .S).now = none) ∧
      ∃ (u : State) (d : BitVec 5) (n : Nat), u.atTender = false ∧ slowResult (u.unit .S).now = some (d, n)) ∧
    (∃ c s s0 s1, computeOf (.add 0#4 4#5 5#5 6#5) = some c ∧ Begins .S c.tok s s0 ∧ popSrcs c.srcs s0 = .ok () s1 ∧ Room c.dst s1 ∧
      c.dst ≠ 0#5 ∧ isQueueReg c.dst = false) := by
  refine ⟨⟨⟨tenderS (.nop 0#4), by decide +kernel, _, okUnit (by decide +kernel)⟩, by decide, by decide⟩,
    ⟨headS .S (.nop 0#4) (fun k => { k with q := (k.q.set 5 [7#64]).set 6 [8#64] }), _, by decide +kernel, okUnit (by decide +kernel)⟩,
    ⟨headS .S (.nop 0#4), _, by decide +kernel, okUnit (by decide +kernel)⟩,
    ⟨headS .S (.nop 0#4), _, by decide +kernel, waitIs (by decide +kernel)⟩,
    ⟨⟨headS .S (.nop 0#4), by decide +kernel, by decide +kernel⟩, headS .S (.div 0#4 4#5 5#5 6#5), 4#5, _, by decide +kernel, rfl⟩,
    ⟨_, headS .S (.add 0#4 4#5 5#5 6#5), _, _, rfl, beginsIs (by decide +kernel) (by decide +kernel) (by decide +kernel),
      okUnit (by decide +kernel), .inr (.inl (by decide +kernel)), by decide +kernel, by decide +kernel⟩⟩

/-- The splitter's word may act at once, once steered. -/
def actsAtOnce (w : W32) (e : Stream) (s : State) (s1 : State) : Bool :=
  let k := s.reck 0#7 0#2
  match unitCheck false k.pend w with
  | .error _ => false
  | .ok i =>
    let x := { placeUnit 0#7 0#2 e (unitOf k.pend i k.pc ((k.str e).seq + 1#32) k.rrb)
      (k.pc + BitVec.ofNat 52 (4 * k.pend.length) + 4#52) s1 with cur := ⟨0#7, .reck 0#2, none, false⟩ }
    let v := settle 0#7 0#2 x
    mayAct x 0#7 0#2 e && mayAct v 0#7 0#2 e && !late (v.reck 0#7 0#2) && ((v.reck 0#7 0#2).str e).sig.isNone &&
    ((v.reck 0#7 0#2).str e).active.isNone && decide (((v.reck 0#7 0#2).str e).queue.head?.map Work.now = some i)

/-- StepRunsTheWord: a fetch from deck SRAM, whose line the instruction cache does not hold, and holds. -/
theorem wit_Fetch : ∀ held : Bool, ∃ (p : Phys) (s s1 : State), translateVa 0#7 (s.span 0#7).xroot fetchAsk 4#52 s = .ok p s1 ∧
    (fetchLine (s1.span 0#7).icache ((s.span 0#7).xroot.extractLsb' 52 12) 4#52).isSome = held ∧ isFabric p.pa = false ∧
    p.pa % 128 = (4#52 : BitVec 52).toNat % 128 ∧ unreachable s1 p.pa = false ∧ Table.find? s1.errors (p.pa / 128) = none := by
  intro held
  let s : State := spanIs (fun x => { x with icache := if held then [⟨⟨x.xroot.extractLsb' 52 12, 0, 0x10000⟩, 0, 5#1024⟩] else [] }) (fetches 0#32)
  obtain ⟨p, s1, h, hp⟩ := okIs (x := translateVa 0#7 (s.span 0#7).xroot fetchAsk 4#52 s)
    (p := fun p s1 => decide ((fetchLine (s1.span 0#7).icache ((s.span 0#7).xroot.extractLsb' 52 12) 4#52).isSome = held) && !isFabric p.pa &&
      decide (p.pa % 128 = (4#52 : BitVec 52).toNat % 128) && !unreachable s1 p.pa && (Table.find? s1.errors (p.pa / 128)).isNone)
    (by cases held <;> decide +kernel)
  simp only [Bool.and_eq_true, Bool.not_eq_true', Option.isNone_iff_eq_none, decide_eq_true_eq] at hp
  exact ⟨p, s, s1, h, hp.1.1.1.1, hp.1.1.1.2, hp.1.1.2, hp.1.2, hp.2⟩

/-- StepRunsTheWord: a prefix word and a final word at the splitter; the head of a stream; the tender with a word and
without; an event; a line dropped, and faults put off; a clock of a Span on which streams count and do not. -/
theorem wit_StepRunsTheWord :
    (∃ (i : Sys2Proof.Instr) (s s1 : State), let u := { s with agenda := [] }
      s.agenda = [.steer 0#7 0#2] ∧ maySteer u 0#7 0#2 = true ∧
      fetchWord 0#7 (s.span 0#7).xroot ((s.reck 0#7 0#2).pc + BitVec.ofNat 52 (4 * (s.reck 0#7 0#2).pend.length)) u = .ok 0xE0000001#32 s1 ∧
      s1.reck 0#7 0#2 = s.reck 0#7 0#2 ∧ (s.reck 0#7 0#2).pend.length < 2 ∧ decode 0xE0000001#32 = .ok i) ∧
    (∃ s s1 : State, let u := { s with agenda := [] }
      s.agenda = [.steer 0#7 0#2] ∧ maySteer u 0#7 0#2 = true ∧
      fetchWord 0#7 (s.span 0#7).xroot ((s.reck 0#7 0#2).pc + BitVec.ofNat 52 (4 * (s.reck 0#7 0#2).pend.length)) u = .ok 0#32 s1 ∧
      s1.reck 0#7 0#2 = s.reck 0#7 0#2 ∧ unitCheck false (s.reck 0#7 0#2).pend 0#32 = .ok (.nop 0#4) ∧
      ((s.reck 0#7 0#2).str .S).queue = [] ∧ ((s.reck 0#7 0#2).str .S).active = none ∧ ((s.reck 0#7 0#2).str .S).sig = none ∧
      actsAtOnce 0#32 .S s s1 = true) ∧
    (∃ s : State, s.agenda = [.head 0#7 0#2 .S none false] ∧
      let x : State := { s with agenda := [], cur := ⟨0#7, .reck 0#2, none, false⟩ }
      mayAct x 0#7 0#2 .S = true ∧ StandsAt 0#7 0#2 .S (.nop 0#4) (settle 0#7 0#2 x)) ∧
    (∃ s : State, s.agenda = [.tender 0#7] ∧ (s.span 0#7).tender.running = true ∧ (s.span 0#7).tender.quar = false ∧ s.boot ≠ 0 ∧
      (s.span 0#7).tender.work = some (unitFor (.nop 0#4))) ∧
    (∃ s s1 : State, let t := (s.span 0#7).tender
      s.agenda = [.tender 0#7] ∧ t.running = true ∧ t.quar = false ∧ s.boot ≠ 0 ∧ t.work = none ∧
      fetchWord 0#7 t.troot (t.pc + BitVec.ofNat 52 (4 * t.pend.length)) { s with agenda := [], cur := ⟨0#7, .tender, none, false⟩ } =
        .ok 0#32 s1 ∧ (s1.span 0#7).tender = t ∧ unitCheck true t.pend 0#32 = .ok (.nop 0#4)) ∧
    (∃ (i : Sys2Proof.Instr) (s : State), s.agenda = [.event i] ∧ streamOf i = none ∧ isPrefixWord i = false) ∧
    (∃ s : State, s.agenda = [.unfetch 0#7 0, .faults true]) ∧ (∃ s : State, s.agenda = [.faults true]) ∧
    (∀ a h : Bool, ∃ s : State, s.agenda = [.tick 0#7] ∧ (s.span 0#7).snaps = [] ∧
      (∀ r, (s.reck 0#7 r).faults = [] ∧ ∀ b ∈ (s.reck 0#7 r).buffer, b.fault = none) ∧ let k := s.reck 0#7 0#2
      k.faults = [] ∧ k.stopMet = false ∧ clocked k = true ∧ (k.str .S).acted = a ∧ (k.str .S).held = h ∧ (k.str .S).queue = [unitFor (.nop 0#4)] ∧
      (Counts .S k ↔ (a = true ∨ h = false))) := by
  refine ⟨?_, ?_, ⟨{ headS .S (.nop 0#4) with agenda := [.head 0#7 0#2 .S none false] }, rfl, by decide +kernel,
      ⟨by decide +kernel, fun _ => by decide +kernel, by decide +kernel, .inr ⟨by decide +kernel, by decide +kernel⟩⟩⟩,
    ⟨{ tenderS (.nop 0#4) with agenda := [.tender 0#7], boot := 2 }, rfl, by decide +kernel, by decide +kernel, by decide +kernel, by decide +kernel⟩, ?_,
    ⟨.powerOnReset, { State.reset with agenda := [.event .powerOnReset] }, rfl, rfl, rfl⟩,
    ⟨{ State.reset with agenda := [.unfetch 0#7 0, .faults true] }, rfl⟩, ⟨{ State.reset with agenda := [.faults true] }, rfl⟩, fun a h =>
      ⟨{ headS .S (.nop 0#4) (fun k => k.modStr .S (fun t => { t with acted := a, held := h })) with agenda := [.tick 0#7] }, rfl, ?_⟩⟩
  · obtain ⟨s1, h1, h2, h3⟩ := fetchIs (w := 0xE0000001#32) (s := fetches 0xE0000001#32) (by decide +kernel)
    exact ⟨.pimm 1#25, { fetches 0xE0000001#32 with agenda := [.steer 0#7 0#2] }, s1, rfl, h1, h2, h3, by decide +kernel, by decide +kernel⟩
  · let s := fetches 0#32
    obtain ⟨w, s1, h, hp⟩ := okIs (x := fetchWord 0#7 (s.span 0#7).xroot ((s.reck 0#7 0#2).pc + BitVec.ofNat 52 (4 * (s.reck 0#7 0#2).pend.length)) s)
      (p := fun w s1 => decide (w = 0#32) && decide (s1.reck 0#7 0#2 = s.reck 0#7 0#2) && actsAtOnce 0#32 .S s s1) (by decide +kernel)
    simp only [Bool.and_eq_true, decide_eq_true_eq] at hp
    exact ⟨{ s with agenda := [.steer 0#7 0#2] }, s1, rfl, by decide +kernel, by rw [← hp.1.1]; exact h, hp.1.2, by decide +kernel, by decide +kernel,
      by decide +kernel, by decide +kernel, hp.2⟩
  · let s : State := { spanIs (fun x => { x with tender := { x.tender with running := true, troot := x.xroot } }) (loadWord State.reset 32 0) with
      boot := 2, agenda := [], cur := ⟨0#7, .tender, none, false⟩ }
    let t := (s.span 0#7).tender
    obtain ⟨w, s1, h, hp⟩ := okIs (x := fetchWord 0#7 t.troot (t.pc + BitVec.ofNat 52 (4 * t.pend.length)) s)
      (p := fun w s1 => decide (w = 0#32) && decide ((s1.span 0#7).tender = t)) (by decide +kernel)
    simp only [Bool.and_eq_true, decide_eq_true_eq] at hp
    exact ⟨{ s with agenda := [.tender 0#7] }, s1, rfl, by decide +kernel, by decide +kernel, by decide +kernel, by decide +kernel, by rw [← hp.1]; exact h, hp.2,
      by decide +kernel⟩
  · unfold Counts; revert a h; decide +kernel

end

end Sys2Proof.Tests
end

section
/-! PROOFS. The state after a reset (R15): what stands in State.reset, part by part, and why a read of a register, a tile,
an accumulator or a scratchpad row raises DEAD there. -/

namespace Sys2Proof.Machine

/-! ### A read of a dead item raises DEAD (R191) -/

theorem deadItem_cause (kind arr num row col blk : Nat) : (deadItem kind arr num row col blk).cause = cDEAD := rfl

theorem deadRow_cause (off : BitVec 24) : (deadRow off).cause = cDEAD := rfl

/-- A scratchpad row that is not live: its bank is left as it is. -/
theorem readSpad_dead {sp : BitVec 7} {off : BitVec 24} {s : State} (h : rowLive sp off s = false) :
    readSpad sp off s = .trap (deadRow off) s := by
  simp [readSpad, h]

/-- A dead vector register that is the first source. -/
theorem vLiveCheck_dead {n : BitVec 5} {s : State} (ns : List (BitVec 5)) (h : s.me.vlive.getLsbD (vName n s).toNat = false) :
    vLiveCheck (n :: ns) s = .trap (deadItem 1 0 (vName n s).toNat 0 0 0) s := by
  simp [vLiveCheck, h]

/-- A dead tile row that is the first one read. -/
theorem tileLiveCheck_dead {t : BitVec 4} {i : Nat} {s : State} (is : List Nat) (h : (s.my.tile t).isLive i = false) :
    tileLiveCheck t (i :: is) s = .trap (deadItem 2 0 t.toNat i 0 0) s := by
  simp [tileLiveCheck, h]

/-- A dead accumulator row that is the first one read. -/
theorem accRowsLive_dead {arr : BitVec 1} {a : BitVec 3} {i : Nat} {s : State} (is : List Nat)
    (h : Table.find? (s.my.acc arr a).rows i = none) :
    accRowsLive arr a (i :: is) s = .trap (deadItem 3 arr.toNat a.toNat i 0 0) s := by
  simp [accRowsLive, h]

/-! ### RID (R10) -/

/-- DEV lies in bits 16 to 9 of RID, above the Span and the Reckoner. -/
theorem extractLsb'_dev_rid (z : BitVec 47) (dev : BitVec 8) (sp : BitVec 7) (r : BitVec 2) :
    (z ++ dev ++ sp ++ r).extractLsb' 9 8 = dev := by
  rw [BitVec.extractLsb'_append_eq_of_le (by omega), BitVec.extractLsb'_append_eq_of_le (by omega)]
  exact BitVec.extractLsb'_append_eq_right

/-- RID.DEV is the number that the fabric block holds. -/
theorem readCsr_rid_dev (s : State) : (readCsr 0x012#12 s).extractLsb' 9 8 = s.fabric.dev := by
  have hrid : readCsr 0x012#12 s = ridCsr s := rfl
  rw [hrid]
  exact extractLsb'_dev_rid 0#47 s.fabric.dev s.cur.sp s.cr

/-! ### The parts of the state after a reset (R15) -/

@[simp] theorem State.span_reset (sp : BitVec 7) : State.reset.span sp = Span.reset := by
  simp [State.span, State.reset]

@[simp] theorem Span.reck_reset (r : BitVec 2) : Span.reset.reck r = Reckoner.reset := by
  simp [Span.reck, Span.reset]

@[simp] theorem State.reck_reset (sp : BitVec 7) (r : BitVec 2) : State.reset.reck sp r = Reckoner.reset := by
  simp [State.reck]

@[simp] theorem Reckoner.str_reset (e : Stream) : Reckoner.reset.str e = StreamSt.reset := by
  simp [Reckoner.str, Reckoner.reset]

@[simp] theorem Reckoner.vqueue_reset (m : BitVec 2) : Reckoner.reset.vqueue m = [] := by
  simp [Reckoner.vqueue, Reckoner.reset]

@[simp] theorem Span.array_reset (arr : BitVec 1) : Span.reset.array arr = ArraySt.reset := by
  simp [Span.array, Span.reset]

@[simp] theorem Span.band_reset (arr : BitVec 1) (j : BitVec 2) : Span.reset.band arr j = Band.reset := by
  simp [Span.band, ArraySt.reset]

@[simp] theorem Span.tile_reset (t : BitVec 4) : Span.reset.tile t = Tile.reset := by
  simp [Span.tile, Span.reset]

@[simp] theorem Span.acc_reset (arr : BitVec 1) (a : BitVec 3) : Span.reset.acc arr a = AccTile.reset := by
  simp [Span.acc, ArraySt.tile, ArraySt.reset]

theorem Tile.isLive_reset (i : Nat) : Tile.reset.isLive i = false := rfl

/-- Every bank is OFF, whichever memory it belongs to. -/
@[simp] theorem Span.bank_reset (n : BankName) : Span.reset.bank n = Bank.off := by
  cases n with
  | vbank r i => simp [Span.bank, Reckoner.reset]
  | tile i => simp [Span.bank, Span.reset]
  | acc arr i => simp [Span.bank, Span.reset, ArraySt.reset]
  | spad i => simp [Span.bank, Span.reset]

/-- No bank holds a live item. -/
@[simp] theorem Span.bankLive_reset (n : BankName) : Span.reset.bankLive n = false := by
  cases n with
  | vbank r i => simp [Span.bankLive, Reckoner.reset]
  | tile i => simp [Span.bankLive, Span.reset, Tile.reset]
  | acc arr i => simp [Span.bankLive, Span.reset, ArraySt.reset, AccTile.reset]
  | spad i => simp [Span.bankLive, Span.reset]

theorem rowLive_reset (sp : BitVec 7) (off : BitVec 24) : rowLive sp off State.reset = false := by
  simp [rowLive, Span.reset]

theorem permits_reset (die : Fin 4) : State.reset.permits[die].pool = 64#7 := by
  simp [State.reset]

/-! ### A Reckoner that reads after a reset -/

/-- The state after a reset, with Reckoner `r` of Span `sp` as the current core. -/
def resetAt (sp : BitVec 7) (r : BitVec 2) : State := { State.reset with cur := ⟨sp, .reck r, none, false⟩ }

@[simp] theorem resetAt_my (sp : BitVec 7) (r : BitVec 2) : (resetAt sp r).my = Span.reset := State.span_reset sp

@[simp] theorem resetAt_me (sp : BitVec 7) (r : BitVec 2) : (resetAt sp r).me = Reckoner.reset := State.reck_reset sp r

/-- No vector register, tile row or accumulator row can be read, and RID.DEV reads 0. -/
theorem resetAt_reads (sp : BitVec 7) (r : BitVec 2) :
    (readCsr 0x012#12 (resetAt sp r)).extractLsb' 9 8 = 0#8 ∧
    (∀ n, ∃ f, vLiveCheck [n] (resetAt sp r) = .trap f (resetAt sp r) ∧ f.cause = cDEAD) ∧
    (∀ t i, ∃ f, tileLiveCheck t [i] (resetAt sp r) = .trap f (resetAt sp r) ∧ f.cause = cDEAD) ∧
    (∀ arr a i, ∃ f, accRowsLive arr a [i] (resetAt sp r) = .trap f (resetAt sp r) ∧ f.cause = cDEAD) := by
  refine ⟨readCsr_rid_dev _, fun n => ?_, fun t i => ?_, fun arr a i => ?_⟩
  · exact ⟨_, vLiveCheck_dead [] (by simp [Reckoner.reset]), deadItem_cause ..⟩
  · exact ⟨_, tileLiveCheck_dead [] (by simp [Tile.isLive_reset]), deadItem_cause ..⟩
  · exact ⟨_, accRowsLive_dead [] (by simp [AccTile.reset, Table.find?]), deadItem_cause ..⟩

/-- A Reckoner has stopped fetching; its queues, landing buffer and token counters are empty. -/
theorem Reckoner.reset_empty :
    Reckoner.reset.run = .idle ∧ Reckoner.reset.buffer = [] ∧
    (∀ e, (Reckoner.reset.str e).queue = [] ∧ (Reckoner.reset.str e).active = none) ∧
    (∀ i : Fin 7, Reckoner.reset.q[i] = []) ∧ (∀ m, Reckoner.reset.vqueue m = []) ∧ (∀ i : Fin 12, Reckoner.reset.tok[i] = 0#4) := by
  refine ⟨rfl, rfl, fun e => ?_, fun i => ?_, Reckoner.vqueue_reset, fun i => ?_⟩
  · rw [Reckoner.str_reset]
    exact ⟨rfl, rfl⟩
  · simp [Reckoner.reset]
  · simp [Reckoner.reset]

/-- Settles O53: State.reset is made of replicated parts, so each claim of R15 is one about the reset value of a part, and
no read passes its check of liveness. -/
theorem resetState : Obligations.ResetState := by
  unfold Obligations.ResetState
  refine ⟨rfl, rfl, permits_reset, fun sp => ?_⟩
  have hspad (off : BitVec 24) : ∃ f, readSpad sp off State.reset = .trap f State.reset ∧ f.cause = cDEAD :=
    ⟨_, readSpad_dead (rowLive_reset sp off), deadRow_cause off⟩
  simp only [State.span_reset, State.reck_reset, Span.band_reset, Span.bank_reset]
  refine ⟨rfl, rfl, fun _ _ => rfl, fun n => ⟨rfl, Span.bankLive_reset n⟩, hspad, fun r => ?_⟩
  obtain ⟨hrun, hbuf, hstr, hq, hvq, htok⟩ := Reckoner.reset_empty
  exact ⟨hrun, hbuf, hstr, hq, hvq, htok, resetAt_reads sp r⟩

end Sys2Proof.Machine
end

section
/-! PROOFS. The order of candidates (R288): minus infinity, the negative values, -0, +0, the positive values, plus infinity;
between equal values the lower index, and between equal pairs the order of their units. -/

namespace Sys2Proof.Machine

open Sys2Proof.Claims

/-! ### The sign of a float (R19) -/

/-- An infinity has the sign of its pattern. -/
theorem Fmt.sign_of_decode_inf {f : Fmt} {b : Nat} {n : Bool} (h : f.decode b = .inf n) :
    n = ((b / f.signBit) % 2 == 1) := by
  simp only [Fmt.decode] at h
  split at h
  · split at h
    · exact (Ext.inf.inj h).symm
    · cases h
  · cases h

/-- A pattern with its sign bit set decodes to no positive number, and one with it clear to no negative number. -/
theorem Fmt.sign_of_decode_fin {f : Fmt} {b : Nat} {d : Dy} (h : f.decode b = .fin d) :
    if ((b / f.signBit) % 2 == 1) = true then d.m ≤ 0 else 0 ≤ d.m := by
  simp only [Fmt.decode] at h
  split at h
  · split at h <;> cases h
  · cases h
    cases (b / f.signBit) % 2 == 1 with
    | true => exact Int.neg_nonpos_of_nonneg (Int.natCast_nonneg _)
    | false => exact Int.natCast_nonneg _

/-- The sign bit of an f32 pattern is bit 31. -/
theorem f32_signBit (w : W32) : ((w.toNat / Fmt.f32.signBit) % 2 == 1) = f32Neg w := by
  rw [f32Neg, BitVec.getLsbD, Nat.testBit_eq_decide_div_mod_eq]
  rfl

theorem f32Neg_of_inf {w : W32} {n : Bool} (h : f32 w = .inf n) : f32Neg w = n := by
  rw [Fmt.sign_of_decode_inf h, f32_signBit]

theorem nonpos_of_f32Neg {w : W32} {d : Dy} (h : f32 w = .fin d) (hw : f32Neg w = true) : d.m ≤ 0 := by
  have hs := Fmt.sign_of_decode_fin h
  rwa [f32_signBit, if_pos hw] at hs

theorem nonneg_of_not_f32Neg {w : W32} {d : Dy} (h : f32 w = .fin d) (hw : f32Neg w = false) : 0 ≤ d.m := by
  have hs := Fmt.sign_of_decode_fin h
  rwa [f32_signBit, hw, if_neg Bool.false_ne_true] at hs

/-! ### The mantissa of a number at a lower exponent keeps its sign -/

theorem Dy.mant_nonneg_iff (a : Dy) (k : Int) : 0 ≤ a.mant k ↔ 0 ≤ a.m :=
  mul_nonneg_iff_of_pos_right (Int.pow_pos (by decide))

theorem Dy.mant_pos_iff (a : Dy) (k : Int) : 0 < a.mant k ↔ 0 < a.m :=
  mul_pos_iff_of_pos_right (Int.pow_pos (by decide))

/-! ### Where a value stands (R288) -/

theorem rankOf_inf {w : W32} {n : Bool} (h : f32 w = .inf n) : rankOf w = if n then 0 else 5 := by
  simp only [rankOf, h]

/-- A nonzero number stands by its sign, a zero by its pattern. -/
theorem rankOf_fin {w : W32} {d : Dy} (h : f32 w = .fin d) :
    rankOf w = if d.m < 0 then 1 else if 0 < d.m then 4 else if f32Neg w then 2 else 3 := by
  have hr : rankOf w = if d.isZero then (if f32Neg w then 2 else 3) else if f32Neg w then 1 else 4 := by
    rw [rankOf, h]
    rfl
  have hz : d.isZero = true ↔ d.m = 0 := beq_iff_eq
  rw [hr]
  cases hw : f32Neg w with
  | true =>
    have := nonpos_of_f32Neg h hw
    grind
  | false =>
    have := nonneg_of_not_f32Neg h hw
    grind

/-- A number stands between the infinities. -/
theorem rankOf_fin_bounds {w : W32} {d : Dy} (h : f32 w = .fin d) : 0 < rankOf w ∧ rankOf w < 5 := by
  rw [rankOf_fin h]
  split_ifs <;> decide

/-- The comparison of words of a float type goes by their places and, within one place, by their values. -/
theorem fLtZ_iff {x y : W32} (hx : (f32 x).isNan = false) (hy : (f32 y).isNan = false) :
    fLtZ x y = true ↔ rankOf x < rankOf y ∨ (rankOf x = rankOf y ∧ (f32 x).lt (f32 y) = true) := by
  unfold fLtZ
  cases h : f32 x with
  | nan => simp [h, Ext.isNan] at hx
  | inf a =>
    cases h' : f32 y with
    | nan => simp [h', Ext.isNan] at hy
    | inf b =>
      rw [rankOf_inf h, rankOf_inf h', f32Neg_of_inf h, f32Neg_of_inf h']
      cases a <;> cases b <;> decide
    | fin d =>
      obtain ⟨hlo, hhi⟩ := rankOf_fin_bounds h'
      rw [rankOf_inf h]
      cases a with
      | true => simp [Ext.lt, hlo]
      | false => simp [Ext.lt, Ext.eq, hhi.le]
  | fin c =>
    cases h' : f32 y with
    | nan => simp [h', Ext.isNan] at hy
    | inf b =>
      obtain ⟨hlo, hhi⟩ := rankOf_fin_bounds h
      rw [rankOf_inf h']
      cases b with
      | true => simp [Ext.lt, Ext.eq, hlo.ne']
      | false => simp [Ext.lt, hhi]
    | fin d =>
      -- Both mantissas at the lower exponent compare as integers and keep the signs of the numbers.
      have hc := c.mant_nonneg_iff (min c.e d.e)
      have hc' := c.mant_pos_iff (min c.e d.e)
      have hd := d.mant_nonneg_iff (min c.e d.e)
      have hd' := d.mant_pos_iff (min c.e d.e)
      have hx0 := nonpos_of_f32Neg h
      have hx1 := nonneg_of_not_f32Neg h
      have hy0 := nonpos_of_f32Neg h'
      have hy1 := nonneg_of_not_f32Neg h'
      rw [rankOf_fin h, rankOf_fin h']
      simp only [Ext.lt, Ext.eq, Dy.lt, Dy.eq, Bool.or_eq_true, Bool.and_eq_true, decide_eq_true_eq, Bool.not_eq_true']
      grind

/-! ### The order of candidates (R288) -/

theorem valueLt_i32 (x y : W32) : valueLt 2#2 x y = true ↔ x.toInt < y.toInt := BitVec.slt_iff_toInt_lt

theorem valueLt_float {e : BitVec 2} (he : e ≠ 2#2) (x y : W32) : valueLt e x y = fLtZ x y :=
  if_neg (by simpa using he)

theorem Ext.lt_irrefl (x : Ext) : x.lt x = false := by
  cases x with
  | nan => rfl
  | inf n => cases n <;> rfl
  | fin d => exact decide_eq_false (Int.lt_irrefl _)

/-- No value, a NaN included, is below itself. -/
theorem valueLt_irrefl (e : BitVec 2) (x : W32) : valueLt e x x = false := by
  by_cases he : e = 2#2
  · subst he
    simpa using mt (valueLt_i32 x x).mp (Int.lt_irrefl _)
  · rw [valueLt_float he]
    simp [fLtZ, Ext.lt_irrefl]

/-- A candidate ranks before another by the better value, or by the lower index where neither value is below the other. -/
theorem ranksFirst_iff (e : BitVec 2) (asc : Bool) (x y i j : W32) :
    ranksFirst e asc (x, i) (y, j) = true ↔
      (if asc then valueLt e x y else valueLt e y x) = true ∨
        (valueLt e x y = false ∧ valueLt e y x = false ∧ i.toNat < j.toNat) := by
  cases asc with
  | true => cases hxy : valueLt e x y <;> simp [ranksFirst, hxy, BitVec.ult]
  | false => cases hyx : valueLt e y x <;> simp [ranksFirst, hyx, BitVec.ult]

theorem ranksFirst_irrefl (e : BitVec 2) (asc : Bool) (p : W32 × W32) : ranksFirst e asc p p = false := by
  cases asc <;> simp [ranksFirst, valueLt_irrefl, BitVec.ult]

/-- A candidate goes behind the pairs equal to it: the order of the units stays. -/
theorem insertRanked_of_forall_eq (e : BitVec 2) (asc : Bool) (p : W32 × W32) (l : List (W32 × W32)) (h : ∀ q ∈ l, q = p) :
    insertRanked e asc p l = l ++ [p] := by
  induction l with
  | nil => rfl
  | cons q t ih =>
    obtain ⟨rfl, ht⟩ := List.forall_mem_cons.mp h
    simp [insertRanked, ranksFirst_irrefl, ih ht]

/-- Settles O38: a word's sign bit and its value fix its place in R288's order, and a value that is not below itself leaves
the order of equal candidates to their indices and then to their units. -/
theorem candidatesAreRanked : Obligations.CandidatesAreRanked := by
  unfold Obligations.CandidatesAreRanked
  intro e x y i j
  refine ⟨fun he hx hy => ?_, valueLt_i32 x y, ranksFirst_iff e false x y i j, ranksFirst_iff e true x y i j,
    fun asc l => insertRanked_of_forall_eq e asc (x, i) l⟩
  rw [valueLt_float he]
  exact fLtZ_iff hx hy

end Sys2Proof.Machine
end
